-- ==== Sys2Proof/Word.lean ====
section
/-! DEFINITION. The words of the DL9820: bytes, 32-bit instruction words, 64-bit registers and value bits. -/
namespace Sys2Proof

/-- One byte of memory (00 R3). -/
abbrev Byte := BitVec 8

/-- One 32-bit instruction word (03 R68) or 32-bit register. -/
abbrev Word := BitVec 32

/-- One 64-bit register, pointer or counter. -/
abbrev DWord := BitVec 64

/-- The bits of a value of any type: the widest type, `lay`, has 96 (01 R27). -/
abbrev Bits := BitVec 96

end Sys2Proof
end

