-- ==== Sys2Proof/Syntax.lean ====
section
/-! DEFINITION. The syntax of the machine's steps: value types, operands, and `Instr`, one constructor per row of
spec/opcode_table.json. Portable rows follow 03, 04, 07, 11, 13, 16, 20 and 21; native-only rows follow 15 R343; device
rows carry what the outside world or the device decides at that step (notes/assumptions/1.md). -/
namespace Sys2Proof

/-- The value types of 01 R27 and 03 R76. -/
inductive Ty where
  | i1 | i8 | i16 | i32 | i64 | f32 | f16 | bf16 | e4m3 | e5m2 | t2 | ptr | lay | cbh | msk
  | v2bf16 | v2f16 | v4e4m3 | v4e5m2 | v4i8 | v8e2m1 | v16t2
  deriving DecidableEq, Repr

/-- An operand that is not a block reference (03 R73 to R75). -/
inductive Opnd where
  /-- a value reference by value number -/
  | val (n : BitVec 24)
  /-- a signed 30-bit immediate -/
  | imm (n : BitVec 30)
  /-- a wide literal of one word -/
  | lit32 (w : BitVec 32)
  /-- a wide literal of two words -/
  | lit64 (w : BitVec 64)
  /-- a symbol literal -/
  | sym (i : BitVec 32)
  deriving DecidableEq, Repr

/-- A block reference with the arguments passed to it (03 R73). -/
structure Target where
  blk : BitVec 24
  args : List Opnd
  deriving DecidableEq, Repr

/-- Rounding modes (02 R54). -/
inductive Rm where | rne | rz | rd | ru | sr
  deriving DecidableEq, Repr

/-- Condition codes of `icmp` (03 R78). -/
inductive ICond where | eq | ne | ult | ule | ugt | uge | slt | sle | sgt | sge
  deriving DecidableEq, Repr

/-- Condition codes of `fcmp` (03 R78). -/
inductive FCond where
  | oeq | one | olt | ole | ogt | oge | ord | uno | ueq | une | ult | ule | ugt | uge
  deriving DecidableEq, Repr

/-- Scopes (03 R79). -/
inductive Scope where | wave | group | core | die | package | system
  deriving DecidableEq, Repr

/-- Orderings (03 R79); code 0 on `fence` is sequentially consistent. -/
inductive Ord4 where | relaxed | acquire | release | acqRel
  deriving DecidableEq, Repr

/-- Operations of `atom` (03 R79). -/
inductive AtomOp where | add | and | or | xor | smin | smax | umin | umax
  deriving DecidableEq, Repr

/-- Operations of `fatom` (11 R272). -/
inductive FAtomOp where | add | min | max
  deriving DecidableEq, Repr

/-- Operations of `wred` and `wscan` (07 R198). -/
inductive RedOp where | add | and | or | xor | smin | smax | umin | umax | fadd | fmin | fmax
  deriving DecidableEq, Repr

/-- Quad exchange directions (07 R191). -/
inductive QDir where | h | v | d
  deriving DecidableEq, Repr

/-- Shuffle modes (07 R193). -/
inductive ShflMode where | idx | up | down | xor
  deriving DecidableEq, Repr

/-- Vote operations (07 R195). -/
inductive VoteOp where | all | any | eq
  deriving DecidableEq, Repr

/-- Keys of `sysread` (04 R137). -/
inductive SysKey where
  | device | gen | width | die | cluster | core | domain | partition | package | time | ifstate | gennum | hdr
  deriving DecidableEq, Repr

/-- Keys of `gridid` (07 R190). -/
inductive GridKey where | gx | gy | gz | nx | ny | nz | extent | tid
  deriving DecidableEq, Repr

/-- Keys of `cbstat` (13 R312). -/
inductive CbKey where | pushes | claims | advs | head | status
  deriving DecidableEq, Repr

/-- Which operand of a copy-engine command is a slot offset (13 R314, R315). -/
inductive SlotSel where | none | dslot | sslot
  deriving DecidableEq, Repr

/-- Element types of a collective (13 R316). -/
inductive KType where | f32 | bf16 | f16 | i32 | i64
  deriving DecidableEq, Repr

/-- Operations of a collective (13 R316). -/
inductive KOp where | sum | min | max
  deriving DecidableEq, Repr

/-- Kinds of collective (13 R316). -/
inductive KKind where | allred | redscat | allgath | bcast
  deriving DecidableEq, Repr

/-- Output shapes of the matrix engine (13 R323). -/
inductive Shape where | m64n64 | m128n64 | m64n128 | m128n128
  deriving DecidableEq, Repr

/-- Directions of `gatecall` (20 R437). -/
inductive GateDir where | none | dIn | dOut | inout
  deriving DecidableEq, Repr

/-- An S slot of a bundle without its opcode, with the long word of S1 (15 R333, R334). -/
structure SSlot where
  x : BitVec 2
  w : BitVec 2
  b : BitVec 6
  a : BitVec 6
  d : BitVec 6
  long : BitVec 32
  deriving DecidableEq, Repr

/-- The extension word of a V slot (15 R335). -/
structure VExt where
  cs : Bool
  c : BitVec 7
  modh : BitVec 4
  imm : BitVec 32
  deriving DecidableEq, Repr

/-- A V slot of a bundle without its opcode (15 R335); `w` is its width code in the header (15 R328). -/
structure VSlot where
  w : BitVec 2
  modl : BitVec 4
  mask : BitVec 3
  b : BitVec 7
  a : BitVec 7
  d : BitVec 7
  bs : Bool
  /-- TYPE; none where the operation names no type (03 R76: code 0) -/
  ty : Option Ty
  ext : Option VExt
  deriving DecidableEq, Repr

/-- What KIND of register a spill moves (15 R344). -/
inductive SpillKind where | vector | scalar | mask
  deriving DecidableEq, Repr

/-- What the Assayer made of a region for a key (16 R358; log entry 12): the bundles as 512-bit lines in order, the
map-back entries and the register need. -/
structure XlateKey where
  dom : Nat
  modH : Nat
  func : Nat
  entry : Nat
  gen : Nat
  half : Bool
  w16 : Bool
  ftz : Bool
  form : Nat
  vwin : Nat
  swin : Nat
  mwin : Nat
  deriving DecidableEq, Repr

/-- A location record of a map-back entry (16 R370); `bits` is the constant of LOC 7. -/
structure LocRec where
  value : Nat
  ty : Ty
  loc : Nat
  wher : Nat
  bits : Bits
  deriving DecidableEq, Repr

/-- A map-back entry (16 R369). -/
structure MapEntry where
  line : Nat
  slot : Nat
  kind : BitVec 8
  func : Nat
  index : Nat
  aux : Nat
  /-- DLINE: the debug line word of the instruction (03 R72), or 0 -/
  dline : Nat
  lc : Nat
  locs : List LocRec
  deriving DecidableEq, Repr

/-- What a step of the Assayer carries (log entry 12). -/
structure XlateBody where
  lines : List (BitVec 512)
  entries : List MapEntry
  spills : Nat
  pressure : Bool
  fromImage : Bool
  deriving DecidableEq, Repr

/-- Kinds of physical unit that can fail (19 R406). -/
inductive Unit4 where | core | slice | laneGroup | bank | link
  deriving DecidableEq, Repr

/-- One step of the machine: an instruction of a run, a native slot operation, or a device action. -/
inductive Instr where
  -- control (04 R101)
  | br (t : Target)
  | brc (c : Opnd) (t f : Target)
  | switch (ty : Ty) (idx : Opnd) (dflt : Option Target) (ts : List Target)
  | ret
  | retValue (ty : Ty) (v : Opnd)
  | exit
  | call (ty : Option Ty) (f : BitVec 32) (args : List Opnd)
  | trap
  | trapCode (code : BitVec 30)
  | flagrd
  | flagclr (m : Opnd)
  -- integer (04 R110 to R119)
  | add (ty : Ty) (a b : Opnd)
  | sub (ty : Ty) (a b : Opnd)
  | mul (ty : Ty) (a b : Opnd)
  | mulhi (sgn : Bool) (ty : Ty) (a b : Opnd)
  | sdiv (ty : Ty) (a b : Opnd)
  | udiv (ty : Ty) (a b : Opnd)
  | srem (ty : Ty) (a b : Opnd)
  | urem (ty : Ty) (a b : Opnd)
  | neg (ty : Ty) (a : Opnd)
  | abs (ty : Ty) (a : Opnd)
  | smin (ty : Ty) (a b : Opnd)
  | smax (ty : Ty) (a b : Opnd)
  | umin (ty : Ty) (a b : Opnd)
  | umax (ty : Ty) (a b : Opnd)
  | addsat (sgn : Bool) (ty : Ty) (a b : Opnd)
  | subsat (sgn : Bool) (ty : Ty) (a b : Opnd)
  | and (ty : Ty) (a b : Opnd)
  | or (ty : Ty) (a b : Opnd)
  | xor (ty : Ty) (a b : Opnd)
  | not (ty : Ty) (a : Opnd)
  | shl (ty : Ty) (a b : Opnd)
  | lshr (ty : Ty) (a b : Opnd)
  | ashr (ty : Ty) (a b : Opnd)
  | rotl (ty : Ty) (a b : Opnd)
  | rotr (ty : Ty) (a b : Opnd)
  | popc (ty : Ty) (a : Opnd)
  | clz (ty : Ty) (a : Opnd)
  | ctz (ty : Ty) (a : Opnd)
  | brev (ty : Ty) (a : Opnd)
  | bswap (ty : Ty) (a : Opnd)
  | bfext (sgn : Bool) (ty : Ty) (x pos len : Opnd)
  | bfins (ty : Ty) (x y pos len : Opnd)
  | icmp (c : ICond) (ty : Ty) (a b : Opnd)
  | select (ty : Ty) (c a b : Opnd)
  | zext (ty : Ty) (v : BitVec 24)
  | sext (ty : Ty) (v : BitVec 24)
  | trunc (ty : Ty) (v : BitVec 24)
  | mad (sgn : Bool) (ty : Ty) (a b c : Opnd)
  -- pointers (04 R120)
  | ptradd (p off : Opnd)
  | ptrdiff (a b : Opnd)
  | ptrtag (p : Opnd)
  | ptrsettag (p t : Opnd)
  | ptrtoint (p : Opnd)
  | inttoptr (x : Opnd)
  | mov (ty : Ty) (a : Opnd)
  -- floating point (04 R121 to R129)
  | fadd (rm : Rm) (ty : Ty) (a b : Opnd)
  | fsub (rm : Rm) (ty : Ty) (a b : Opnd)
  | fmul (rm : Rm) (ty : Ty) (a b : Opnd)
  | fdiv (rm : Rm) (ty : Ty) (a b : Opnd)
  | fma (rm : Rm) (ty : Ty) (a b c : Opnd)
  | fsqrt (rm : Rm) (ty : Ty) (a : Opnd)
  | fmin (ty : Ty) (a b : Opnd)
  | fmax (ty : Ty) (a b : Opnd)
  | fneg (ty : Ty) (a : Opnd)
  | fabs (ty : Ty) (a : Opnd)
  | fcopysign (ty : Ty) (a b : Opnd)
  | fcmp (c : FCond) (ty : Ty) (a b : Opnd)
  | fclass (ty : Ty) (a : Opnd)
  | frint (rm : Rm) (ty : Ty) (a : Opnd)
  | fdot2 (rm : Rm) (ty : Ty) (a b c : Opnd)
  | fdot4 (rm : Rm) (ty : Ty) (a b c : Opnd)
  | frcp (rm : Rm) (ty : Ty) (a : Opnd)
  | frsqrt (rm : Rm) (ty : Ty) (a : Opnd)
  | fexp2 (rm : Rm) (ty : Ty) (a : Opnd)
  | flog2 (rm : Rm) (ty : Ty) (a : Opnd)
  | fsin (rm : Rm) (ty : Ty) (a : Opnd)
  | fcos (rm : Rm) (ty : Ty) (a : Opnd)
  | ftanh (rm : Rm) (ty : Ty) (a : Opnd)
  -- conversion and packing (04 R130 to R135)
  | cvt (rm : Rm) (sat sgn : Bool) (ty : Ty) (v : BitVec 24)
  | bitcast (ty : Ty) (v : BitVec 24)
  | pack (ty : Ty) (es : List Opnd)
  | unpack (k : BitVec 4) (ty : Ty) (x : Opnd)
  | insert (k : BitVec 4) (ty : Ty) (x e : Opnd)
  | bsquant (rm : Rm) (ty : Ty) (elem scale src : Opnd)
  | bsdequant (rm : Rm) (ty : Ty) (dst elem scale : Opnd)
  | sysread (k : SysKey)
  -- lanes, quads and waves (07 R185)
  | laneid
  | waveid
  | groupid
  | gridid (k : GridKey)
  | activemask
  | quadswap (dir : QDir) (ty : Ty) (x : Opnd)
  | quadbcast (ty : Ty) (x k : Opnd)
  | shfl (m : ShflMode) (clamp : Bool) (ty : Ty) (x idx : Opnd)
  | ballot (c : Opnd)
  | vote (op : VoteOp) (c : Opnd)
  | matchLanes (ty : Ty) (x : Opnd)
  | wred (op : RedOp) (rm : Rm) (ty : Ty) (x : Opnd)
  | wscan (op : RedOp) (rm : Rm) (excl : Bool) (ty : Ty) (x : Opnd)
  | elect
  | wbar
  | gbar
  | rand (ty : Ty)
  | randseed (seed : Opnd)
  | bcast (ty : Ty) (x : Opnd)
  -- memory (11 R260)
  | ld (nt : Bool) (sc : Scope) (o : Ord4) (ty : Ty) (p : Opnd)
  | st (nt : Bool) (sc : Scope) (o : Ord4) (ty : Ty) (p v : Opnd)
  | ldlay (sc : Scope) (ty : Ty) (l : BitVec 24) (p i0 i1 i2 : Opnd)
  | stlay (sc : Scope) (ty : Ty) (l : BitVec 24) (p i0 i1 i2 v : Opnd)
  | laymake (base perm size st0 st1 st2 : Opnd)
  | atom (op : AtomOp) (sc : Scope) (o : Ord4) (ty : Ty) (p v : Opnd)
  | xchg (sc : Scope) (o : Ord4) (ty : Ty) (p v : Opnd)
  | cas (sc : Scope) (o : Ord4) (ty : Ty) (p e v : Opnd)
  | fatom (op : FAtomOp) (sc : Scope) (o : Ord4) (ty : Ty) (p v : Opnd)
  | fence (sc : Scope) (o : Ord4)
  | tagld (p : Opnd)
  | tagst (p t : Opnd)
  | watchset (sel addr ctl : Opnd)
  | watchclr (sel : Opnd)
  | prefetch (sc : Scope) (p : Opnd)
  -- engines and buffers (13 R306)
  | cbinit (logn : BitVec 4) (sc : Scope) (slot data slotb stat : Opnd)
  | cbwait (room : Bool) (h : BitVec 24) (n : Opnd)
  | cbadv (h : BitVec 24) (n : Opnd)
  | cbstat (k : CbKey) (h : BitVec 24)
  | acopy (sel : SlotSel) (h : BitVec 24) (dst src len : Opnd)
  | agather (z : BitVec 2) (slot : Bool) (h : BitVec 24) (dst win nwin idx cnt : Opnd)
  | ascatter (z : BitVec 2) (slot : Bool) (h : BitVec 24) (win src nwin idx cnt : Opnd)
  | kstart (k : KKind) (ty : KType) (op : KOp) (exact : Bool) (h : BitVec 24) (send recv count comm : Opnd)
  | mxlease (n : Opnd)
  | mxrel
  | mxldb (n128 : Bool) (b bs kb : Opnd)
  | mxzero (sh : Shape) (t : Opnd)
  | mxst (sh : Shape) (clr : Bool) (t d stride : Opnd)
  | mxmma (sh : Shape) (t a as kb : Opnd)
  | mxsmma (sh : Shape) (t a md kb : Opnd)
  | mxtma (sh : Shape) (t a kb : Opnd)
  | mxfmt (idx : Opnd)
  -- system and placement (20 R437, 16 R373, 21 R463)
  | spawn (q desc : Opnd)
  | ccwait (sc : Scope) (ctr v : Opnd)
  | ccadd (sc : Scope) (ctr inc : Opnd)
  | gatecall (dir : GateDir) (gate buf blen : Opnd) (args : List Opnd)
  | gateret (v : Opnd)
  | xprefetch (f idx len : Opnd)
  | ecount (tab exp n : Opnd)
  | xrtlook (tab exp hash : Opnd)
  | xrtverCur (tab : Opnd)
  | xrtverChk (tab exp hash dst : Opnd)
  | xrtverDone (tab dst : Opnd)
  | rmerge (bf16 : Bool) (h : BitVec 24) (tab exp dst count : Opnd)
  -- native-only slot operations (15 R343)
  | nmov (v : VSlot)
  | nmovs (f : SSlot)
  | nvtos (v : VSlot)
  | nlit (k : BitVec 2) (clr : Bool) (d : BitVec 6) (imm : BitVec 24) (a b : BitVec 6)
  | nspill (k : SpillKind) (reg : BitVec 7) (si : BitVec 16)
  | nfill (k : SpillKind) (reg : BitVec 7) (si : BitVec 16)
  | nstg (f : SSlot)
  | nstgv (v : VSlot)
  | nlcset (n : BitVec 2) (x w : BitVec 2) (b a : BitVec 6)
  | nloop (lc : BitVec 2) (ii : BitVec 6) (sc : BitVec 4)
  | nland (kinds : BitVec 4)
  | nxit
  | ntrap
  | nmask (v : VSlot)
  | nmaskv (v : VSlot)
  -- waves and gondolas (05)
  | agingPromotion (gid wave : Nat)
  | gondolaTake (cluster gondola : Nat)
  | rejoin (gid wave lane : Nat)
  | rejoinTimeout (gid wave set : Nat)
  | heldRunRelease (gid wave : Nat)
  | landing (gid wave : Nat)
  -- command processor (06)
  | doorbell (dom q : Nat)
  | admission (dom q : Nat)
  | budgetWindowRefill
  | counterPoll
  | placeGroup (launch : Nat)
  | placeTroupe (launch : Nat)
  | groupEnd (gid : Nat)
  | launchComplete (launch : Nat)
  | stopRequest (dom : Nat) (gids : List Nat) (cls : Nat)
  | waveStop (gid wave : Nat)
  | stopDeadline (gid : Nat)
  | saveComplete (gid : Nat)
  | restore (gid core half : Nat) (crcOk : Bool)
  -- memory system (09, 10)
  | l2RefillTick (core : Nat)
  | l2PortGrant (core dom : Nat)
  | loanRevoke (core dom : Nat)
  | peerReadTimeout (gid wave lane : Nat)
  | peerWriteTimeout (dom : Nat) (addr : DWord)
  -- engines (12)
  | enginePush (cmd : Nat)
  | fwCmdRead (cmd : Nat)
  | pathTransferDone (cmd : Nat)
  | fwDone (cmd : Nat) (code : BitVec 8) (count : BitVec 32)
  | firmwareWatchdog (cmd : Nat)
  | keBoundExpiry (cmd : Nat)
  | firmwareImageReplace (cmd victim : Nat)
  | keContribution (cmd rank off : Nat) (bytes : List Byte)
  | keReduce (cmd : Nat)
  | mxTurnPass (core : Nat)
  -- translation (16)
  | tcLineFill (cluster addr : Nat)
  | tcLineError (cluster addr : Nat)
  | translateRegion (cluster : Nat) (key : XlateKey) (body : XlateBody)
  | imageReplace (gid wave : Nat)
  | eviction (cluster xid cause : Nat)
  | translationFree (cluster xid : Nat)
  -- traps (17)
  | trapRecordWrite (dom : Nat)
  | hypTimeout (seq : BitVec 32)
  | pageWalkDone (dom : Nat) (va : BitVec 56)
  | tlbInvalidateDone (dom : Nat)
  -- package and links (19)
  | l2dropDone (die slice : Nat)
  | nakReplay (rail : Nat) (seq : BitVec 12)
  | replayThreshold (rail : Nat)
  | railRetrain (rail : Nat)
  | railRetrainEnd (rail : Nat) (ok : Bool)
  | linkRefillTick (port : Nat)
  | gangTick
  | gangDeadline (die : Nat)
  | ctxTorn (entry : Nat)
  -- domains and partitions (20)
  | sliceZeroDone (far : Bool) (k : Nat)
  | reshapeAssign (addr : DWord)
  | reshapeSplit (addr : DWord)
  | reshapeJoin (addr : DWord)
  | drainDeadline (core : Nat)
  | gateTlimit (gid : Nat)
  | counterReadTimeout (dom k : Nat)
  -- the Winch (21)
  | windowClose (dom tab : Nat)
  | replicate (dom : Nat) (fw : Bool) (v : DWord)
  | retire (dom : Nat) (fw : Bool) (v : DWord)
  | publish (dom tab : Nat)
  | rollback (dom tab : Nat)
  | forcedRetire (dom tab : Nat)
  | winchLogWrite (dom : Nat)
  -- host, trust and power (22)
  | thermalReset (die : Nat)
  | launchOverrun (launch : Nat) (measured : Nat)
  -- rows that only the outside world brings about: no definition of the machine makes one of them, and they stand last
  -- because Lean compiles at most 245 constructors that are made (06, 09, 10, 12, 16, 17, 19 to 22)
  | sramSplitChange (core steps : Nat)
  | hostWrite (dom : Nat) (addr : BitVec 56) (bytes : List Byte)
  | peerAccess (dom : Nat) (off : BitVec 36) (write : Bool) (bytes : List Byte)
  | fwPggo (cmd : Nat) (src dst len mode rank : DWord)
  | firmwareException (cmd : Nat)
  | moduleLoad (dom handle : Nat) (base : BitVec 56) (file : List Byte)
  | moduleUnload (dom handle : Nat)
  | resume (dom : Nat) (seq : BitVec 32)
  | killLane (dom : Nat) (seq : BitVec 32)
  | killWave (dom : Nat) (seq : BitVec 32)
  | forward (seq : BitVec 32)
  | tlbInvalidate (dom : Nat) (cw : DWord)
  | wdctlWrite (by0 : Bool) (dom : Nat) (v : DWord)
  | placeTableWrite (off : Nat) (v : DWord)
  | l2drop (v : DWord)
  | unitFailure (u : Unit4) (die unit : Nat)
  | flitReceive (rail : Nat) (flit : BitVec 2048)
  | migrate (addr : DWord)
  | gangctlWrite (v : DWord)
  | sliceTableWrite (far : Bool) (k : Nat) (v : DWord)
  | domcfgWrite (dom : Nat) (v : DWord)
  | partcfgWrite (p : Nat) (v : DWord)
  | dprWrite (core e word : Nat) (v : DWord)
  | domainPause (dom : Nat)
  | domainResume (dom : Nat)
  | domainReset (dom : Nat)
  | counterRead (dom k : Nat)
  | wcntWrite (dom : Nat) (v : DWord)
  | tableInstall (dom : Nat) (v : DWord)
  | tableClear (dom : Nat) (v : DWord)
  | hostPortTrain (port : Nat) (personality : Nat)
  | grantWrite (dom : Nat) (v : DWord)
  | intstatWrite (dom : Nat) (v : DWord)
  | lockInterfaceRequest (dom : Nat)
  | startInterfaceRequest (dom : Nat)
  | getDeviceInterfaceReport (dom : Nat)
  | getTdispVersion (dom : Nat)
  | getTdispCapabilities (dom : Nat)
  | getDeviceInterfaceState (dom : Nat)
  | stopInterfaceRequest (dom : Nat)
  | frozenSetWrite (dom : Nat)
  | spdmSessionEnd (dom : Nat)
  | spdmRequest (dom : Nat) (bytes : List Byte)
  | pwrlimWrite (v : DWord)
  | powerClamp
  | thermalThrottle (die : Nat)
  | packageReset
  | firmwareUpdate (ok : Bool) (version : BitVec 32)
  | registerWrite (by0 : Bool) (blk : Option Nat) (off : Nat) (v : DWord)
  | hostFunctionReset (dom : Nat)
  | logicalDeviceBind (port ld : Nat) (dom : Option Nat)
  | uncorrectableMemoryError (addr : Nat)
  deriving DecidableEq, Repr

end Sys2Proof
end

