-- ==== Sys2Proof/Machine/State.lean ====
section
/-! DEFINITION. The state of the machine as plain data: every piece of state that INVENTORY.md lists under its State
heading. -/
namespace Sys2Proof.Machine

/-- Why the machine stops. -/
inductive Fault where
  /-- An instruction of a run or of a native slot where no run issues (`State.issue` is none, or names no wave). Raised by
  the meanings of those instructions; a step sets the run before it issues, and meets this only where the agenda itself lists such an
  instruction; safe. -/
  | noRun
  deriving DecidableEq, Repr

/-- Why an instruction is refused. -/
inductive Refusal where
  /-- No meaning yet for the named row. Raised by `exec`; safe. -/
  | notModelled (mnemonic : String)
  deriving DecidableEq, Repr

/-- A value with its type (01 R27). -/
structure TVal where
  ty : Ty
  bits : Bits
  deriving DecidableEq, Repr

/-- STATE of a lane (17 R390), without the helper mark. -/
inductive LaneSt where
  | live | exited | killed | never
  deriving DecidableEq, Repr

/-- Where a lane is parked (05 R144, R154, R160, R161; 13 R308). -/
inductive Park where
  | none | wbar | gbar | join | held
  deriving DecidableEq, Repr

/-- The four words of a lane's random-number state (07 R205). -/
structure Rng where
  s0 : Word
  s1 : Word
  s2 : Word
  s3 : Word
  deriving DecidableEq, Repr

/-- A frame: function, portable index (of the outstanding call in an outer frame), and the values defined (01 R40). -/
structure Frame where
  func : Nat
  idx : Nat
  vals : List (Nat × TVal)
  deriving DecidableEq, Repr

/-- One lane (01 R40; 05 R142 to R159). Frames stand innermost first. -/
structure Lane where
  st : LaneSt
  helper : Bool
  frames : List Frame
  flags : Byte
  rng : Rng
  park : Park
  ejected : Bool
  /-- bundles issued by the wave since the lane's run last issued (05 R146) -/
  age : Nat
  /-- what `gateret` handed back (20 R440) -/
  gateVal : Option DWord
  deriving DecidableEq, Repr

/-- A watchpoint entry (09 R230). -/
structure Watch where
  addr : DWord
  ctl : DWord
  deriving DecidableEq, Repr

/-- What a held run waits for (13 R308; 12 R284; 20 R438, R443). -/
inductive Cond where
  /-- `cbwait.full`: PUSH − ADV of a handle slot reaches k -/
  | pushes (h : Word) (k : Nat)
  /-- `cbwait.room`: N − (CLAIM − ADV) reaches k -/
  | room (h : Word) (k : Nat)
  /-- a command's claim, range-lock entries and queue place -/
  | issue (h : Word) (entries : Nat) (ke : Bool)
  /-- free accumulator tiles -/
  | tiles (t : Nat)
  /-- the group's turn on the matrix path -/
  | turn
  /-- counters that reach values: lane, pointer, value -/
  | counters (l : List (Nat × DWord × DWord))
  /-- a wave slot and window in the target's entry for this gate context, which has not started -/
  | gateRoom (gid : Nat)
  /-- the gate context of this group identifier -/
  | gateRun (gid : Nat)
  /-- answers of a peer package, by lane and address (22 R488) -/
  | peer (l : List (Nat × DWord))
  /-- lines that wait for tokens at a core's L2 port: the last of the domain's requests that must leave it (09 R234) -/
  | port (core last : Nat)
  deriving DecidableEq, Repr

/-- A held run (13 R308); `met` marks lanes whose counter has been met (20 R443), `released` that the condition held. -/
structure Hold where
  mask : Word
  cond : Cond
  met : Word
  released : Bool
  deriving DecidableEq, Repr

/-- A set of lanes ejected at one branch (05 R154, R155). -/
structure EjSet where
  id : Nat
  half : Nat
  func : Nat
  /-- call chain of the lanes and portable index of the join block's first instruction -/
  chain : List (Nat × Nat)
  join : Nat
  /-- lanes that have neither rejoined nor ended -/
  away : Word
  /-- lanes parked at the join for this set -/
  waiting : Word
  timerOn : Bool
  timedOut : Bool
  /-- the time in nanoseconds at which the timer started -/
  since : Nat
  deriving DecidableEq, Repr

/-- The named fields of a fault record, without SEQ (17 R380). -/
structure FaultRec where
  code : Nat
  cls : Nat
  lane : Byte
  check : Nat
  acc : Nat
  dom : Nat
  flags : Byte
  addr : DWord
  func : Nat
  index : Nat
  ifunc : Nat
  iindex : Nat
  group : Nat
  wave : Nat
  iwave : Nat
  depth : Nat
  dead : Word
  run : Word
  native : DWord
  launch : Word
  deriving DecidableEq, Repr

/-- A record waiting for a trap queue, or held in one, with its sequence number (17 R381). -/
structure TrapRec where
  fr : FaultRec
  seq : Word
  /-- group identifier of the stopped wave, 0 for a report -/
  gid : Nat
  wave : Nat
  deriving DecidableEq, Repr

/-- A wave stopped at a trap: the queue that resumes it, the SEQ there and the record (17 R379, R382). -/
structure TrapStop where
  queue : Nat
  seq : Word
  /-- a second queue that holds the record (17 R379, R382) -/
  other : Option (Nat × Word)
  fr : FaultRec
  deriving DecidableEq, Repr

/-- Native registers of a wave (15 R331); unlisted registers read 0. -/
structure NRegs where
  s : List (Nat × DWord)
  /-- key: register × 32 + lane -/
  v : List (Nat × Word)
  m : List (Nat × Word)
  /-- key: 2 × counter for TRIP, 2 × counter + 1 for ITER -/
  lc : List (Nat × Word)
  /-- staging registers; key: code × 32 + lane (15 R343), `mxs` in lane 0 -/
  stg : List (Nat × DWord)
  deriving DecidableEq, Repr

/-- A modulo loop in progress (15 R349 to R352). -/
structure Loop where
  lc : Nat
  ii : Nat
  sc : Nat
  /-- TC address of the first body bundle -/
  body : Nat
  pass : Nat
  /-- bundle of the pass that issues next -/
  bundle : Nat
  /-- T, or T′ while the loop drains -/
  trip : Nat
  drain : Bool
  faulted : Bool
  deriving DecidableEq, Repr

/-- Where a lane stands in the native form: TC address of its next bundle, and for its outstanding native calls, innermost
first, the bundle after the call and the caller's frame there (15 R339; 16 R362, R371); `sp` holds its frames at its last safe point
(17 R397). -/
structure NLane where
  npc : Nat
  rstack : List (Nat × Frame)
  sp : List Frame
  deriving DecidableEq, Repr

/-- The native context of a wave: its lanes that run in translations, by lane, and its registers (15 R331, R353; 16 R371). -/
structure Native where
  lanes : List (Nat × NLane)
  regs : NRegs
  loop : Option Loop
  /-- registers whose landing bit is clear, oldest first: register number plus 256 × kind (15 R346) -/
  pending : List Nat
  /-- filled and empty slots of the passes of each loop counter (17 R396); key: counter × 32 + 2 × slot kind, plus 1 for empty; its
  stall count at counter × 32 + 16 -/
  lcc : List (Nat × Nat)
  deriving DecidableEq, Repr

/-- Where a native slot's operands stand and where its result goes (15 R331 to R341). -/
inductive NSrc where
  | v (r : Nat) | s (r : Nat) | imm (x : Bits) | stg (code : Nat) | stgHi (code : Nat)
  /-- low half of a staging register plus 1: NWIN of STG2 (12 R293) -/
  | stgNwin (code : Nat)
  /-- the layout and the pointer of `ldlay` and `stlay` from a scalar register and the one after it (15 R338) -/
  | lay (r : Nat) | layPtr (r : Nat)
  deriving DecidableEq, Repr

/-- Destination of a native slot. -/
inductive NDst where
  | none | v (r : Nat) | s (r : Nat)
  deriving DecidableEq, Repr

/-- The binding of a portable instruction that stands in a native slot: the source and type of value number k, the
destination, the registers before the bundle, and the native point. -/
structure Bind where
  srcs : List (NSrc × Ty)
  dst : NDst
  snap : NRegs
  slot : Nat
  /-- TC address of the bundle / 64 -/
  line : Nat
  /-- the portable point that the map-back entry names -/
  func : Nat
  index : Nat
  deriving DecidableEq, Repr

/-- What an instruction that faults names: fault number, lane, step of R214, access kind, ADDR, DEPTH [15:8] (the
watchpoint entry), and for an engine fault the issuing wave, lane and point. -/
structure FaultInfo where
  code : Nat
  lane : Nat
  check : Nat
  acc : Nat
  addr : DWord
  entry : Nat
  eng : Option (Nat × Nat × Nat × Nat)
  deriving DecidableEq, Repr

/-- The run that issues: group, wave, lanes, whether it is an ejected lane's, the value number of the result, and the
native slot it stands in. While the halves of a W16 wave are tried in turn, `probe` holds the fault that one of them has raised, or
none so far (00 R11; 13 R307). -/
structure Issue where
  gid : Nat
  wave : Nat
  mask : Word
  gondola : Bool
  res : Nat
  bind : Option Bind
  probe : Option (Option FaultInfo)
  deriving DecidableEq, Repr

/-- A wave (05 R139 to R163, 17 R390). -/
structure Wave where
  index : Nat
  lanes : List Lane
  /-- lanes of the chosen run, in W16 mode of each half's; none of a half where a choice point of it is due (05 R145, R168) -/
  chosen : Word
  /-- the half that issued first at the last choice point of a W16 wave whose halves had different keys; 2 at its start and since the
  halves issued together (08 R209) -/
  lastHalf : Nat
  promoted : Word
  holds : List Hold
  ejSets : List EjSet
  dead : Word
  watch : List Watch
  /-- debug register: STEP, FREEZE, ILK (17 R392) -/
  dbg : DWord
  trap : Option TrapStop
  /-- the action of a resume word that arrived while the wave was saved (17 R382) -/
  pendAct : Option Nat
  /-- a stop for a save or a freeze is asked for, or has been reached -/
  stopAsked : Bool
  stopped : Bool
  frozen : Bool
  /-- lanes of a partly issued command that have issued (13 R313) -/
  issued : Word
  /-- step 9 is waived for the next instruction of these lanes (09 R232) -/
  waive : Word
  ilk : Bool
  vwin : Nat
  swin : Nat
  mwin : Nat
  spb : Nat
  native : Option Native
  /-- native contexts of ejected lanes, by lane (16 R359); the one lane of a context stands under its own number -/
  gond : List (Nat × Native)
  /-- a fault of an ejected lane that waits until the wave's lanes in native form have left it at a safe point (05 R157) -/
  gfault : Option (Issue × FaultInfo)
  /-- lanes that have to issue in step form before they enter the normal form: the loop that they left was cut short by a fault, or STEP
  is set (15 R352; 16 R359) -/
  replay : Word
  deriving DecidableEq, Repr

/-- What the engine records with a push (12 R285, R288, R289): COUNT, FLAGS, failing address, fault number, step of R214 and
ACC, and the lane, wave and point that issued the command. -/
structure PushInfo where
  count : Nat
  flags : Byte
  addr : DWord
  fault : Nat
  check : Nat
  acc : Nat
  wave : Nat
  lane : Nat
  func : Nat
  index : Nat
  /-- DEPTH [14:8] of a WATCH fault: set and index of the matching entry (09 R231) -/
  entry : Nat
  deriving DecidableEq, Repr

/-- A handle slot (12 R282); an entry of `codes` is DLV ++ CODE. -/
structure Handle where
  valid : Bool
  gen : Byte
  data : DWord
  slotb : Word
  logn : Nat
  stat : DWord
  scope : Nat
  claim : Word
  push : Word
  adv : Word
  codes : List (BitVec 9)
  infos : List PushInfo
  deriving DecidableEq, Repr

/-- The B banks of the matrix engine under a lease (13 R322). -/
structure BBank where
  n : Nat
  k : Nat
  fmt : Nat
  data : List Byte
  scales : List Byte
  deriving DecidableEq, Repr

/-- A lease of the matrix engine (12 R298 to R302); `acc` is keyed by tile × 4096 + row × 64 + column. -/
structure Lease where
  tiles : Nat
  acc : List (Nat × Word)
  bank : Option BBank
  fmts : List Word
  fidx : Nat
  flags : Byte
  deriving DecidableEq, Repr

/-- Where a group stands (06 R180, 17 R389). -/
inductive GroupSt where
  | resident | saved | ended
  deriving DecidableEq, Repr

/-- A gate context's caller (20 R438, R439). -/
structure GateCtx where
  caller : Nat
  wave : Nat
  mask : Word
  gate : Nat
  /-- reason of the end by force: 0 none, 5, 8 or 9 -/
  reason : Nat
  /-- lowest callee lane killed; 32 while none is -/
  lane : Nat
  /-- GBASE and BUFMAX of the gate entry as the call read it -/
  gbase : DWord
  bufmax : Nat
  /-- the moment at which TLIMIT expires (20 R438) -/
  limit : Nat
  deriving DecidableEq, Repr

/-- Why a group is being stopped and what follows its save (17 R387; 19 R417, R419; 20 R431 to R433). -/
inductive StopWhy where
  | none
  | preempt (cls : Nat)
  | migrate (desc : DWord) (core : Nat)
  | gang
  | reshape
  | pause
  deriving DecidableEq, Repr

/-- A group (05 R139, R140; 17 R389). -/
structure Group where
  gid : Nat
  dom : Nat
  launch : Nat
  lin : Nat
  gx : Nat
  gy : Nat
  gz : Nat
  modH : Nat
  kernel : Nat
  hdr : DWord
  core : Nat
  half : Nat
  slot : Nat
  nslots : Nat
  st : GroupSt
  waves : List Wave
  handles : List Handle
  watch : List Watch
  bank : Nat
  nbanks : Nat
  lease : Option Lease
  troupe : Option (Nat × Nat)
  gate : Option GateCtx
  borrowed : Bool
  /-- the class at which the group was placed (06 R174, R175) -/
  cls : Nat
  why : StopWhy
  /-- the moment of the stop deadline (17 R387) -/
  stopBy : Nat
  /-- saves of the group so far -/
  saves : Nat
  deriving DecidableEq, Repr

/-- A launch in the CP (06 R171 to R177). -/
structure Launch where
  id : Nat
  dom : Nat
  queue : Nat
  ring : Nat
  cls : Nat
  marker : Bool
  modH : Nat
  kernel : Nat
  gridx : Nat
  gridy : Nat
  gridz : Nat
  extent : Nat
  args : List Byte
  cost : Nat
  /-- address, value, met -/
  waits : List (DWord × DWord × Bool)
  sigAddr : DWord
  sigInc : DWord
  barrier : Bool
  statusAddr : DWord
  code : Nat
  late : Bool
  overrun : Bool
  killed : Bool
  /-- the next linear group index to place -/
  next : Nat
  ended : Nat
  /-- residency of its waves so far, in wave-slot nanoseconds, and what of it, in microseconds, has been charged beyond COST (06 R174) -/
  used : Nat
  charged : Nat
  background : Bool
  /-- the moment from which the start bound runs (06 R175) -/
  since : Nat
  deriving DecidableEq, Repr

/-- A block of a function (03 R92): first portable index and argument types with their value numbers in order. -/
structure Block where
  first : Nat
  args : List Ty
  /-- value number of the first argument (01 R24) -/
  val0 : Nat
  deriving DecidableEq, Repr

/-- What the translation found at one portable index (16 R360). -/
structure Point where
  /-- word offset of the instruction in the function's text -/
  off : Nat
  blk : Nat
  /-- value number of the result (01 R24) -/
  res : Option Nat
  /-- a trap point (03 R82) -/
  trap : Bool
  /-- portable index of the join's first instruction and ejectable target blocks (05 R148, R149) -/
  join : Option Nat
  eject : List Nat
  /-- the debug line of the instruction (03 R72) -/
  dline : Option Word
  deriving DecidableEq, Repr

/-- A kernel or function of a loaded module (03 R92). -/
structure Func where
  sym : Nat
  kernel : Bool
  global : Bool
  hdr : DWord
  /-- virtual address of the first word of its text -/
  text : Nat
  words : List Word
  ninstr : Nat
  nvals : Nat
  result : Option Ty
  blocks : List Block
  fmts : List Word
  desc : DWord
  points : List Point
  /-- the function is one trap point at index 0 (03 R83) -/
  whole : Bool
  deriving DecidableEq, Repr

/-- A firmware image of a code object (12 R290). -/
structure FwImage where
  code : List Byte
  data : List Byte
  entry : Nat
  deriving DecidableEq, Repr

/-- A control core of an engine with a module's firmware (12 R291, R292): program counter, registers x1 to x31, data RAM. -/
structure Rv where
  pc : DWord
  x : List (Nat × DWord)
  ram : List (Nat × Byte)
  /-- PGSRC, PGDST, PGLEN, PGMODE, PGRANK, PGSTAT -/
  csrs : List DWord
  /-- PGSTAT holds the outcome of a transfer of the command -/
  ready : Bool
  /-- the command that CMD gave last -/
  cmd : Option Nat
  deriving DecidableEq, Repr

/-- A loaded module (03 R85 to R93, 06 R184). -/
structure Module where
  dom : Nat
  handle : Nat
  base : Nat
  textLo : Nat
  textHi : Nat
  funcs : List Func
  /-- load-time address of each symbol (03 R75) -/
  syms : List DWord
  /-- gate offers: index, argument count, function symbol (20 R435) -/
  gates : List (Nat × Nat × Nat)
  /-- the firmware sections (12 R290) -/
  fwcopy : Option FwImage
  fwcoll : Option FwImage
  /-- pre-translated images: key parts and body (16 R374) -/
  images : List (XlateKey × XlateBody)
  unloading : Bool
  deriving DecidableEq, Repr

/-- Kinds of engine command (12 R286, R293; 21 R468). -/
inductive CmdKind where
  | copy | gather | scatter | coll (k : KKind) | merge
  deriving DecidableEq, Repr

/-- Where an engine command stands (12 R284 to R295). -/
inductive CmdPhase where
  | queued | running | busy | finished
  deriving DecidableEq, Repr

/-- A locked range of an operation (12 R287). -/
structure Lock where
  base : Nat
  len : Nat
  src : Bool
  dom : Nat
  cmd : Nat
  deriving DecidableEq, Repr

/-- The communicator descriptor (12 R293). -/
structure Comm where
  p : Nat
  rank : Nat
  table : DWord
  bound : Nat
  root : Nat
  resv : Nat
  deriving DecidableEq, Repr

/-- An engine command that has not pushed (12 R284 to R295). -/
structure Cmd where
  id : Nat
  kind : CmdKind
  dom : Nat
  /-- the core that issued it -/
  core : Nat
  gid : Nat
  wave : Nat
  lane : Nat
  func : Nat
  index : Nat
  handle : Nat
  claim : Word
  /-- STG0 to STG4 as the firmware reads them (12 R293); a gather or scatter keeps u(nwin) after them -/
  stg : List DWord
  locks : List Lock
  phase : CmdPhase
  code : Nat
  count : Nat
  flags : Byte
  addr : DWord
  /-- fault number and step of R214 of a FAULT, read or write -/
  fault : Nat
  check : Nat
  facc : Nat
  /-- the entry that a WATCH fault of the command matched (09 R231) -/
  fentry : Nat
  /-- PGSRC, PGDST, PGLEN, PGMODE, PGRANK, PGSTAT of its transfer (12 R292) -/
  csrs : List DWord
  /-- the communicator that the hardware read for the command (12 R293) -/
  comm : Option Comm
  /-- units of the transfer in progress that are done, the lines of the last, and the last line request that waits at the L2 port -/
  units : Nat
  lines : List Nat
  port : Option Nat
  /-- the default firmware has sent a collective's contributions -/
  sent : Bool
  /-- the data movement, or the reduction, is complete -/
  worked : Bool
  /-- contributions received: rank, byte offset in the receive buffer, bytes (12 R294) -/
  contribs : List (Nat × Nat × List Byte)
  /-- a merge's version and replica slots, primary first (21 R468) -/
  table : Nat
  version : Nat
  slots : List Nat
  bad : Bool
  deriving DecidableEq, Repr

/-- A budget class (06 R174), in wave-slot µs: per window, remaining, and owed from overruns. -/
structure Budget where
  total : Nat
  left : Nat
  owed : Nat
  deriving DecidableEq, Repr

/-- The CP's view of a queue after its last read (06 R169, R170). -/
structure Queue where
  enabled : Bool
  wridx : Nat
  rdidx : Nat
  cls : Nat
  ring : DWord
  logn : Nat
  state : Nat
  /-- a read since the halt found ENABLE 0 -/
  sawOff : Bool
  /-- the CP waits for a budget refill before it admits entry RDIDX -/
  waiting : Bool
  /-- the descriptor of entry RDIDX as the CP has read it, with the index and the ring slot (06 R171) -/
  head : Option (Nat × DWord × List Byte)
  deriving DecidableEq, Repr

/-- A request of a replica table in progress (21 R455, R456). -/
structure WReq where
  op : Nat
  expert : Nat
  rep : Nat
  slot : Nat
  /-- weight and gradient bytes written so far -/
  done : Nat
  copied : Bool
  fault : Nat
  addr : DWord
  /-- the moment at which COPYT passes (21 R459) -/
  limit : Nat
  deriving DecidableEq, Repr

/-- A replica table (21 R452 to R458). An entry lists REP0 to REP7. -/
structure Table where
  nexp : Nat
  maxrep : Nat
  auto : Bool
  cbase : Nat
  pool : DWord
  slotb : Nat
  nslot : Nat
  grad : DWord
  gslotb : Nat
  drainT : Nat
  snap : DWord
  copyT : Nat
  cur : Nat
  prev : Option Nat
  bankCur : List (List (Option Nat))
  bankPrev : List (List (Option Nat))
  refCur : Nat
  refPrev : Nat
  req : Option WReq
  window : Nat
  snaps : List Nat
  below : List Nat
  /-- slots that a merge still locks after a forced retirement -/
  locked : List Nat
  /-- the policy has issued its request of this window -/
  acted : Bool
  /-- the moment of the install, and the next grid point at which a window close is due (21 R451) -/
  since : Nat
  closeAt : Nat
  /-- the moment at which DRAINT has passed after the last publication (21 R458) -/
  drainBy : Nat
  deriving DecidableEq, Repr

/-- A Winch log record without TIME (21 R460). -/
structure WLog where
  kind : Nat
  table : Nat
  reason : Nat
  fault : Nat
  expert : Nat
  slot : Nat
  version : Nat
  refs : Nat
  addr : DWord
  time : DWord
  deriving DecidableEq, Repr

/-- A cached translation: page's first virtual byte, its length, page attributes (17 R383, R384). -/
structure TlbEntry where
  va : Nat
  len : Nat
  pa : Nat
  r : Bool
  w : Bool
  tagged : Bool
  host : Bool
  deriving DecidableEq, Repr

/-- An answer that leaves the package: TDISP, SPDM, or the data of a peer's read (22 R479 to R483, R487). -/
structure Answer where
  kind : Nat
  bytes : List Byte
  deriving DecidableEq, Repr

/-- Dispositions (17 R379). -/
inductive Disp where
  | queue | kill | debug | hyp
  deriving DecidableEq, Repr

/-- TDISP interface states (22 R479). -/
inductive IfState where
  | unlocked | locked | run | error
  deriving DecidableEq, Repr

/-- What the device keeps for a domain beside its registers. -/
structure Dom where
  ptroot : Nat
  dispProgram : Disp
  dispMemory : Disp
  dispDebug : Disp
  stopUs : Nat
  budgets : List Budget
  paused : Bool
  ifstate : IfState
  digest : Option (BitVec 256)
  session : Bool
  discarded : Nat
  /-- writes ignored and counted -/
  ignored : Nat
  /-- reports and transactions of an earlier GEN discarded and counted (20 R446) -/
  oldGen : Nat
  trapSeq : Word
  trapPend : List TrapRec
  /-- domain 0: records of HYP not yet acted on, with the faulting domain -/
  hyp : List (TrapRec × Nat)
  /-- the debugger's queue -/
  dbgQueue : List TrapRec
  cfgEpisode : Bool
  evPend : List (List Byte)
  trDropped : Nat
  wlPend : List WLog
  watch : List Watch
  latched : List Nat
  queues : List Queue
  /-- sixteen guest event counts (20 R447) -/
  guest : List Nat
  /-- reads passed to domain 0 and not yet answered (20 R447) -/
  reads : List Nat
  msix : List Nat
  tlb : List TlbEntry
  /-- invalidations requested: completion word, first byte, length (17 R386) -/
  tlbPend : List (DWord × DWord × DWord)
  /-- translation event counters (16 R372) -/
  xlate : List Nat
  tdispOut : List Answer
  readOut : List (Nat × DWord)
  hostPresent : Bool
  tables : List (Option Table)
  /-- last version of each table number (21 R453) -/
  lastVer : List Nat
  /-- reads of the counter window that completed with 0 after 1 ms (20 R447) -/
  timeouts : Nat
  /-- rejoin timeouts of the domain's waves (05 R155) -/
  rejoins : Nat
  /-- completion words of pauses whose saves are not complete (20 R433) -/
  stopCw : List DWord
  deriving DecidableEq, Repr

/-- A domain's bucket at an L2 port or a link port (09 R234, 19 R413). -/
structure Bucket where
  own : Nat
  /-- borrowed tokens by lender -/
  borrowed : List (Nat × Nat)
  /-- tokens lent that no borrower received: they return at the next tick (09 R235) -/
  aside : Nat
  waiting : Nat
  /-- requests that have left the port, in the order in which they became ready (09 R234) -/
  gone : Nat
  /-- a request came to the port during this period (09 R235) -/
  issued : Bool
  deriving DecidableEq, Repr

/-- A reshape or deferred DPR write in progress on a core (20 R427, R431, R432). -/
structure Reshape where
  kind : Nat
  desc : DWord
  part0 : Nat
  part1 : Nat
  /-- deferred DPR write: entry and word with the new value -/
  dpr : Option (Nat × Nat × DWord)
  moved : Bool
  /-- the moment of the drain deadline (20 R431) -/
  due : Nat
  deriving DecidableEq, Repr

/-- A core's state beside its registers. -/
structure CoreSt where
  split : Nat
  buckets : List (Nat × Bucket)
  rlt : List Lock
  ceQueue : List Nat
  /-- control cores of the copy engine by domain and module (12 R291) -/
  fw : List (Nat × Nat × Rv)
  turn : Option Nat
  turnOps : Nat
  mxWait : List Nat
  /-- issue window of each half (06 R182): bundles issued in it, by domain, and by wave as group identifier × 32 + wave -/
  issues : Nat × Nat
  /-- key: domain × 2 + half -/
  domIssues : List (Nat × Nat)
  waveIssues : List (Nat × Nat)
  /-- the wave that issued last; key: (domain × 4 + class) × 2 + half -/
  lastWave : List (Nat × Nat)
  /-- lost-time counters per domain (17 R395); key: domain × 64 + 4 × slot kind + 0 filled, 1 empty, 2 squashed, 3 masked; shadow
  cycles at domain × 64 + 32, stall cycles at domain × 64 + 33 landing, 34 TC miss, 39 interlocked mode -/
  lost : List (Nat × Nat)
  failed : Bool
  saving : Bool
  /-- waiting pre-emption requests: class, domain, groups (06 R181) -/
  preempt : List (Nat × Nat × List Nat)
  /-- launches and saved groups for which groups of the core are pre-empted, in order of arrival: class, half, identifier
  (06 R180, R181) -/
  asked : List (Nat × Nat × Nat)
  reshape : Option Reshape
  deriving DecidableEq, Repr

/-- A translation in a cluster's bundle area (16 R358, R367). -/
structure Xlate where
  xid : Nat
  key : XlateKey
  base : Nat
  lines : List (BitVec 512)
  entries : List MapEntry
  retiring : Bool
  entered : Nat
  fromImage : Bool
  /-- spill slots per frame (16 R364) -/
  spills : Nat
  /-- keys of other generations and core shapes that an image serves (16 R376) -/
  runs : List XlateKey
  deriving DecidableEq, Repr

/-- A request of the Assayer's queue (16 R368). -/
structure XReq where
  key : XlateKey
  cls : Nat
  /-- a prefetch that no miss has joined -/
  hint : Bool
  /-- the most instructions to cover -/
  len : Nat
  deriving DecidableEq, Repr

/-- An ejected lane in a cluster's queue or on a gondola (05 R151): group, wave, lane. -/
structure EjLane where
  gid : Nat
  wave : Nat
  lane : Nat
  gondola : Option Nat
  deriving DecidableEq, Repr

/-- A cluster's state. -/
structure ClusterSt where
  ejq : List EjLane
  made : Nat
  refused : Nat
  /-- images refused for width (18 R401) -/
  tooWide : Nat
  keQueue : List Nat
  keImages : List Nat
  /-- control cores of the collective engine by domain and module (12 R291, R296) -/
  fw : List (Nat × Nat × Rv)
  xlates : List Xlate
  xqueue : List XReq
  tc : List Nat
  /-- lines of the bundle area found in error and not replaced (17 R397) -/
  badAddrs : List Nat
  shares : List (Nat × Nat)
  badLines : Nat
  corrected : Nat
  pfAccepted : Nat
  pfDropped : Nat
  /-- region entries whose text could not be read: domain, module, function, index, fault, address (17 R398) -/
  xfail : List (Nat × Nat × Nat × Nat × Nat × DWord)
  deriving DecidableEq, Repr

/-- A rail of a link (19 R407 to R409). -/
structure Rail where
  next : BitVec 12
  expect : BitVec 12
  /-- flits sent and not acknowledged, oldest first -/
  buf : List (BitVec 12 × BitVec 2048)
  /-- times of the replays of the last millisecond -/
  replays : List Nat
  /-- 0 active, 1 retraining, 2 out of service -/
  st : Nat
  spares : Nat
  nak : Option (BitVec 12)
  deriving DecidableEq, Repr

/-- A virtual channel at a port (19 R412, R413). -/
structure Vc where
  /-- the receive buffer, oldest first -/
  held : List (BitVec 2048)
  stopped : Bool
  bucket : Bucket
  /-- flits that hold a token here and wait for room in a retry buffer, oldest first -/
  out : List (BitVec 2048)
  deriving DecidableEq, Repr

/-- Host ports, flash and boot (22 R470, R484, R490). -/
structure HostSt where
  /-- 0 PCIe, 1 CXL, 2 failed to train, 3 not trained yet -/
  ports : List Nat
  /-- logical device: port × 16 + number to domain (20 R445) -/
  lds : List (Nat × Nat)
  /-- per flash bank: valid, security version -/
  flash : List (Bool × Word)
  active : Nat
  nextActive : Nat
  recovery : Bool
  /-- the replay-protected security version -/
  rpb : Word
  deriving DecidableEq, Repr

/-- The gang schedule (19 R418, R419). -/
structure GangSt where
  tick : Nat
  /-- time at which ENABLE was written -/
  since : Nat
  /-- dies in grace with the entry whose save they missed -/
  missed : List (Nat × Nat)
  deriving DecidableEq, Repr

/-- Power (22 R489): core clock in units of 100 MHz, dies with a lowered clock. -/
structure PowerSt where
  clock : Nat
  throttled : List Nat
  deriving DecidableEq, Repr

/-- A mapped range of a peer's export window, with the page attributes of the peer's tables, and whether the slice behind it has the
domain's stamp there (09 R213, R214; 22 R487). -/
structure PeerPage where
  off : Nat
  len : Nat
  r : Bool
  w : Bool
  tagged : Bool
  host : Bool
  stampOk : Bool
  deriving DecidableEq, Repr

/-- Another package as seen from here (09 R212, 22 R487): package, domain, EXPCTL and the mapped bytes of its window. -/
structure Peer where
  pkg : Nat
  dom : Nat
  ctl : DWord
  pages : List PeerPage
  answers : Bool
  deriving DecidableEq, Repr

/-- The state of the machine. -/
structure State where
  agenda : List Instr
  issue : Option Issue
  free : Nat
  /-- steps since the machine was made; the time in nanoseconds follows from them -/
  steps : Nat
  /-- the step at which the package booted last (04 R137) -/
  booted : Nat
  mem : List Host.Cell
  tags : List (Nat × BitVec 4)
  poison : List Nat
  pregs : List (Nat × DWord)
  dregs : List (Nat × DWord)
  doms : List (Nat × Dom)
  cores : List (Nat × CoreSt)
  clusters : List (Nat × ClusterSt)
  modules : List Module
  launches : List Launch
  groups : List Group
  cmds : List Cmd
  winch : List (Nat × Word)
  rails : List (Nat × Rail)
  vcs : List (Nat × Vc)
  host : HostSt
  power : PowerSt
  gang : GangSt
  peers : List Peer
  /-- the next identifier of a group, launch, command or translation -/
  nextId : Nat
  /-- configuration errors reported to domain 0, oldest first: register offset or cause -/
  cfgErrors : List Nat
  /-- corrected-error interrupts raised to domain 0: rails -/
  cerrs : List Nat
  /-- logical dies whose link is lost (19 R409) -/
  lost : List Nat
  /-- L2DROP requests not completed: die, slice, completion word (22 R472) -/
  l2drops : List (Nat × Nat × DWord)
  /-- L2 slices dropped: die × 256 + slice (19 R405) -/
  dropped : List Nat
  /-- slice-table writes whose slice is being zeroed: register offset, value, completion word (20 R424) -/
  restamps : List (Nat × DWord × DWord)
  /-- the value of each completion counter that the CP has observed, by the counter's place (06 R176) -/
  cpSeen : List (Nat × DWord)
  /-- contributions to collectives that no issued command awaits (12 R294): domain, address of the receive buffer, rank, offset, bytes -/
  early : List (Nat × Nat × Nat × Nat × List Byte)
  deriving DecidableEq, Repr

/-! ### Reset -/

/-- A domain as it is created and at package reset (log entry 4). -/
def Dom.reset : Dom :=
  { ptroot := 0, dispProgram := .queue, dispMemory := .queue, dispDebug := .queue, stopUs := 10,
    budgets := List.replicate 4 ⟨0, 0, 0⟩, paused := false, ifstate := .unlocked, digest := none, session := false,
    discarded := 0, ignored := 0, oldGen := 0, trapSeq := 0, trapPend := [], hyp := [], dbgQueue := [],
    cfgEpisode := false, evPend := [], trDropped := 0, wlPend := [], watch := List.replicate 32 ⟨0, 0⟩, latched := [],
    queues := List.replicate 32 ⟨false, 0, 0, 0, 0, 0, 0, false, false, none⟩, guest := List.replicate 16 0, reads := [],
    msix := [], tlb := [], tlbPend := [], xlate := List.replicate 16 0, tdispOut := [], readOut := [],
    hostPresent := false, tables := [none, none, none, none], lastVer := [0, 0, 0, 0], timeouts := 0, rejoins := 0, stopCw := [] }

/-- A core with nothing on it. -/
def CoreSt.reset : CoreSt :=
  { split := 0, buckets := [], rlt := [], ceQueue := [], fw := [], turn := none, turnOps := 0, mxWait := [], issues := (0, 0),
    domIssues := [], waveIssues := [], lastWave := [], lost := [], failed := false, saving := false, preempt := [], asked := [],
    reshape := none }

/-- A cluster with nothing on it. -/
def ClusterSt.reset : ClusterSt :=
  { ejq := [], made := 0, refused := 0, tooWide := 0, keQueue := [], keImages := [], fw := [], xlates := [], xqueue := [], tc := [], badAddrs := [], shares := [],
    badLines := 0, corrected := 0, pfAccepted := 0, pfDropped := 0, xfail := [] }

/-- A bucket without tokens (09 R233: the regulators reset to 0). -/
def Bucket.reset : Bucket := ⟨0, [], 0, 0, 0, false⟩

/-- A rail in service with nothing sent. -/
def Rail.reset : Rail := ⟨0, 0, [], [], 0, 2, none⟩

/-- A virtual channel that holds nothing. -/
def Vc.reset : Vc := ⟨[], false, Bucket.reset, []⟩

/-- The machine right after package reset. -/
def State.reset : State :=
  { agenda := [], issue := none, free := 0, steps := 0, booted := 0, mem := [], tags := [], poison := [], pregs := [], dregs := [],
    doms := [], cores := [], clusters := [], modules := [], launches := [], groups := [], cmds := [], winch := [],
    rails := [], vcs := [],
    host := ⟨[3, 3], [], [(true, 0), (true, 0)], 0, 0, false, 0⟩,
    power := ⟨36, []⟩, gang := ⟨0, 0, []⟩, peers := [], nextId := 1, cfgErrors := [], cerrs := [], lost := [], l2drops := [], dropped := [], restamps := [],
    cpSeen := [], early := [] }

end Sys2Proof.Machine
end

