-- ==== Sys2Proof/Machine/Float.lean ====
section
/-! DEFINITION. Floating-point arithmetic (02 R46 to R63, 04 R121 to R130): exact values, rounding, and the special
functions. An exact value is a dyadic number; where the exact value is no dyadic number (division, roots, special
functions) `st` says that it lies strictly above the dyadic number by less than its last place, at hundreds of bits beyond
any result format (log entry 18). -/
namespace Sys2Proof.Machine

/-- A floating format (02 R46, R48): fraction width, exponent of the least subnormal, width, largest finite pattern, the
infinity's pattern, and the canonical NaN (none in `e2m1`). -/
structure Fmt where
  mbits : Nat
  qmin : Int
  width : Nat
  maxPat : Nat
  inf : Option Nat
  nan : Option Nat
  deriving DecidableEq, Repr

def fmtF32 : Fmt := ⟨23, -149, 32, 0x7F7FFFFF, some 0x7F800000, some 0x7FC00000⟩
def fmtF16 : Fmt := ⟨10, -24, 16, 0x7BFF, some 0x7C00, some 0x7E00⟩
def fmtBF16 : Fmt := ⟨7, -133, 16, 0x7F7F, some 0x7F80, some 0x7FC0⟩
def fmtE4M3 : Fmt := ⟨3, -9, 8, 0x7E, none, some 0x7F⟩
def fmtE5M2 : Fmt := ⟨2, -16, 8, 0x7B, some 0x7C, some 0x7E⟩
def fmtE2M1 : Fmt := ⟨1, -1, 4, 7, none, none⟩

/-- The format of a type's elements; types without one read as `f32`. -/
def fmtOf : Ty → Fmt
  | .f16 | .v2f16 => fmtF16
  | .bf16 | .v2bf16 => fmtBF16
  | .e4m3 | .v4e4m3 => fmtE4M3
  | .e5m2 | .v4e5m2 => fmtE5M2
  | .v8e2m1 => fmtE2M1
  | _ => fmtF32

/-- Whether FTZ reaches a format (02 R58). -/
def Fmt.flushes (f : Fmt) : Bool := 16 ≤ f.width

/-- An exact value. -/
inductive FV where
  | nan
  | inf (neg : Bool)
  /-- ±(m + δ)·2^e with δ = 0, or 0 < δ < 1 where `st` -/
  | num (neg : Bool) (m : Nat) (e : Int) (st : Bool)
  deriving DecidableEq, Repr

/-- Flags of 02 R64. -/
def fNV : Byte := 1
def fDZ : Byte := 2
def fOF : Byte := 4
def fUF : Byte := 8
def fIX : Byte := 16
def fSV : Byte := 32
def fTV : Byte := 64

/-- The sign bit of a pattern. -/
def Fmt.sign (f : Fmt) (p : Nat) : Bool := p / 2 ^ (f.width - 1) % 2 == 1

/-- A magnitude pattern with a sign. -/
def Fmt.signed (f : Fmt) (neg : Bool) (mag : Nat) : Nat := if neg then 2 ^ (f.width - 1) + mag else mag

/-- The value of a pattern (02 R47, R48); with `ftz` a subnormal reads as a zero of its sign (R58). -/
def Fmt.read (f : Fmt) (ftz : Bool) (p : Nat) : FV :=
  let neg := f.sign p
  let mag := p % 2 ^ (f.width - 1)
  let e := mag / 2 ^ f.mbits
  let m := mag % 2 ^ f.mbits
  if f.inf = some mag then .inf neg
  else if mag > f.maxPat then .nan
  else if e = 0 then .num neg (if ftz && f.flushes then 0 else m) f.qmin false
  else .num neg (2 ^ f.mbits + m) (f.qmin + e - 1) false

/-- The pattern that R123 returns for an operand as read under FTZ. -/
def Fmt.asRead (f : Fmt) (ftz : Bool) (p : Nat) : Nat :=
  if ftz ∧ f.flushes ∧ p % 2 ^ (f.width - 1) < 2 ^ f.mbits then f.signed (f.sign p) 0 else p

/-- Whether the neighbour away from zero is picked: n is the neighbour toward zero, rem of 2^sh the rest, st whether more
lies beyond (02 R55, R56). -/
def pickUp (rm : Rm) (u : Nat) (neg : Bool) (n rem sh : Nat) (st : Bool) : Bool :=
  match rm with
  | .rne => 2 * rem > 2 ^ sh || (2 * rem == 2 ^ sh && (st || n % 2 == 1))
  | .rz => false
  | .rd => neg && (rem != 0 || st)
  | .ru => !neg && (rem != 0 || st)
  | .sr => rem * 2 ^ 24 / 2 ^ sh + u ≥ 2 ^ 24

/-- The magnitude that an overflow gives (02 R55, R59). -/
def Fmt.over (f : Fmt) (rm : Rm) (sat neg : Bool) : Nat :=
  match f.inf with
  | none => match f.nan with
    | some c => if sat then f.signed neg f.maxPat else c
    | none => f.signed neg f.maxPat
  | some i =>
    f.signed neg (if sat then f.maxPat else match rm with
      | .rne | .sr => i
      | .rz => f.maxPat
      | .rd => if neg then i else f.maxPat
      | .ru => if neg then f.maxPat else i)

/-- Rounds a finite non-zero value (02 R55 to R58): the pattern and the flags. -/
def Fmt.roundNum (f : Fmt) (rm : Rm) (sat ftz : Bool) (u : Nat) (neg : Bool) (m : Nat) (e : Int) (st : Bool) : Nat × Byte :=
  let q : Int := max (e + m.log2 - f.mbits) f.qmin
  let sh := (q - e).toNat
  let n := if e ≥ q then m * 2 ^ (e - q).toNat else m / 2 ^ sh
  let rem := if e ≥ q then 0 else m % 2 ^ sh
  let n' := if pickUp rm u neg n rem sh st then n + 1 else n
  let p := (q - f.qmin).toNat * 2 ^ f.mbits + n'
  let ix := rem != 0 || st
  if p > f.maxPat then (f.over rm sat neg, fOF ||| fIX)
  else if p < 2 ^ f.mbits then
    if ftz && f.flushes then (f.signed neg 0, fUF ||| fIX)
    else (f.signed neg p, if ix then fUF ||| fIX else 0)
  else (f.signed neg p, if ix then fIX else 0)

/-- `round` of 02 R10 and R55 with the special values of R49 and R59: the pattern and the flags. -/
def Fmt.round (f : Fmt) (rm : Rm) (sat ftz : Bool) (u : Nat) : FV → Nat × Byte
  | .nan => match f.nan with
    | some c => (c, 0)
    | none => (0, fNV)
  | .inf neg => match f.inf, f.nan with
    | some i, _ => if sat then (f.signed neg f.maxPat, fOF ||| fIX) else (f.signed neg i, 0)
    | none, some c => if sat then (f.signed neg f.maxPat, fOF ||| fIX) else (c, fNV)
    | none, none => (f.signed neg f.maxPat, fOF ||| fIX)
  | .num neg m e st => if m = 0 ∧ st = false then (f.signed neg 0, 0) else f.roundNum rm sat ftz u neg m e st

/-! ### Exact arithmetic -/

/-- A value that stands for a signed integer times a power of two. -/
def FV.ofInt (i : Int) (e : Int) : FV := .num (decide (i < 0)) i.natAbs e false

/-- ±m·2^(e − d) as an integer. -/
def scaled (neg : Bool) (m : Nat) (e d : Int) : Int :=
  let x : Int := (m * 2 ^ (e - d).toNat : Nat)
  if neg then -x else x

/-- A sum, with the flags of R50; `rm` decides the sign of an exact zero (02 R55; 04 R122). -/
def FV.add (rm : Rm) : FV → FV → FV × Byte
  | .nan, _ => (.nan, 0)
  | _, .nan => (.nan, 0)
  | .inf a, .inf b => if a = b then (.inf a, 0) else (.nan, fNV)
  | .inf a, _ => (.inf a, 0)
  | _, .inf b => (.inf b, 0)
  | .num a m e _, .num b n g _ =>
    let d := min e g
    let s := scaled a m e d + scaled b n g d
    if s = 0 then (.num (if a = b then a else decide (rm = .rd)) 0 d false, 0) else (FV.ofInt s d, 0)

/-- The opposite value. -/
def FV.neg : FV → FV
  | .nan => .nan
  | .inf a => .inf !a
  | .num a m e st => .num (!a) m e st

/-- Whether a value is a zero. -/
def FV.isZero : FV → Bool
  | .num _ m _ st => m == 0 && !st
  | _ => false

/-- The sign of a value. -/
def FV.isNeg : FV → Bool
  | .nan => false
  | .inf a => a
  | .num a _ _ _ => a

/-- A product, with the flags of R50. -/
def FV.mul : FV → FV → FV × Byte
  | .nan, _ => (.nan, 0)
  | _, .nan => (.nan, 0)
  | .inf a, .inf b => (.inf (a != b), 0)
  | .inf a, .num b m e st => if (FV.num b m e st).isZero then (.nan, fNV) else (.inf (a != b), 0)
  | .num b m e st, .inf a => if (FV.num b m e st).isZero then (.nan, fNV) else (.inf (a != b), 0)
  | .num a m e _, .num b n g _ => (.num (a != b) (m * n) (e + g) false, 0)

/-- A quotient, with the flags of R50 and R121. -/
def FV.div : FV → FV → FV × Byte
  | .nan, _ => (.nan, 0)
  | _, .nan => (.nan, 0)
  | .inf _, .inf _ => (.nan, fNV)
  | .inf a, .num b _ _ _ => (.inf (a != b), 0)
  | .num a _ _ _, .inf b => (.num (a != b) 0 0 false, 0)
  | .num a m e _, .num b n g _ =>
    if n = 0 then (if m = 0 then (.nan, fNV) else (.inf (a != b), fDZ))
    else
      let x := m * 2 ^ 160
      (.num (a != b) (x / n) (e - 160 - g) (x % n != 0), 0)

/-- The integer square root by bits: `r` is the root so far, the next bit tried is 2^(k−1). -/
def isqrtBits (x : Nat) : Nat → Nat → Nat
  | 0, r => r
  | k + 1, r =>
    let t := r + 2 ^ k
    if t * t ≤ x then isqrtBits x k t else isqrtBits x k r

/-- The integer part of the square root. -/
def isqrt (x : Nat) : Nat := isqrtBits x (x.log2 / 2 + 1) 0

/-- A square root (04 R122). -/
def FV.sqrt : FV → FV × Byte
  | .nan => (.nan, 0)
  | .inf neg => if neg then (.nan, fNV) else (.inf false, 0)
  | .num neg m e st =>
    if m = 0 then (.num neg 0 e st, 0)
    else if neg then (.nan, fNV)
    else
      let m' := if e % 2 = 0 then m else 2 * m
      let h := if e % 2 = 0 then e / 2 else (e - 1) / 2
      let x := m' * 2 ^ 320
      let r := isqrt x
      (.num false r (h - 160) (r * r != x), 0)

/-- a·b + c (04 R122): a NaN operand gives NaN without a flag. -/
def FV.fma (rm : Rm) (a b c : FV) : FV × Byte :=
  if a = .nan ∨ b = .nan ∨ c = .nan then (.nan, 0)
  else
    let (p, f) := a.mul b
    if f ≠ 0 then (.nan, f) else p.add rm c

/-- The sum of products and an addend with one rounding to come (04 R128). -/
def FV.dot (rm : Rm) (ps : List (FV × FV)) (c : FV) : FV × Byte :=
  if c = .nan ∨ ps.any (fun (a, b) => a == .nan || b == .nan) then (.nan, 0)
  else
    let qs := ps.map fun (a, b) => a.mul b
    if qs.any (fun (_, f) => f != 0) then (.nan, fNV)
    else (qs.map (·.1) ++ [c]).tail.foldl
      (fun (x, f) y => if x = .nan then (x, f) else let (z, g) := x.add rm y; (z, f ||| g))
      ((qs.map (·.1) ++ [c]).headD .nan, 0)

/-- How two values compare; none where one is NaN. −0 equals +0 (04 R125). -/
def FV.cmp : FV → FV → Option Ordering
  | .nan, _ => none
  | _, .nan => none
  | .inf a, .inf b => some (compare (if a then 0 else 1 : Nat) (if b then 0 else 1))
  | .inf a, _ => some (if a then .lt else .gt)
  | _, .inf b => some (if b then .gt else .lt)
  | .num a m e _, .num b n g _ =>
    let d := min e g
    some (compare (scaled a m e d) (scaled b n g d))

/-- A condition of `fcmp` (03 R78). -/
def fcondHolds (c : FCond) (o : Option Ordering) : Bool :=
  match o with
  | none => match c with
    | .uno | .ueq | .une | .ult | .ule | .ugt | .uge => true
    | _ => false
  | some .lt => match c with
    | .one | .olt | .ole | .ord | .une | .ult | .ule => true
    | _ => false
  | some .eq => match c with
    | .oeq | .ole | .oge | .ord | .ueq | .ule | .uge => true
    | _ => false
  | some .gt => match c with
    | .one | .ogt | .oge | .ord | .une | .ugt | .uge => true
    | _ => false

/-- `fmin` and `fmax` of one element (04 R123): −0 lies below +0. -/
def Fmt.minmax (f : Fmt) (ftz wantMax : Bool) (p q : Nat) : Nat :=
  let a := f.read ftz p
  let b := f.read ftz q
  let p' := f.asRead ftz p
  let q' := f.asRead ftz q
  if a = .nan ∧ b = .nan then f.nan.getD 0
  else if a = .nan then q'
  else if b = .nan then p'
  else
    let pLess := match a.cmp b with
      | some .lt => true
      | some .eq => a.isNeg && !b.isNeg
      | _ => false
    if pLess then (if wantMax then q' else p')
    else
      let qLess := match b.cmp a with
        | some .lt => true
        | some .eq => b.isNeg && !a.isNeg
        | _ => false
      if qLess then (if wantMax then p' else q') else p'

/-- `fclass` of a pattern (04 R126). -/
def Fmt.classify (f : Fmt) (p : Nat) : Nat :=
  match f.read false p with
  | .nan => 256
  | .inf neg => if neg then 1 else 128
  | .num neg m _ _ =>
    if m = 0 then (if neg then 8 else 16)
    else if m < 2 ^ f.mbits then (if neg then 4 else 32)
    else (if neg then 2 else 64)

/-! ### Rounding to integers (02 R61, 04 R127) -/

/-- The integer that a finite value rounds to and whether it differs. -/
def roundInt (rm : Rm) (u : Nat) (neg : Bool) (m : Nat) (e : Int) (st : Bool) : Nat × Bool :=
  if e ≥ 0 then (m * 2 ^ e.toNat, st)
  else
    let sh := (-e).toNat
    let n := m / 2 ^ sh
    let rem := m % 2 ^ sh
    (if pickUp rm u neg n rem sh st then n + 1 else n, rem != 0 || st)

/-- `frint` of a value (04 R127). -/
def FV.rint (rm : Rm) (u : Nat) : FV → FV × Byte
  | .num neg m e st =>
    if m = 0 then (.num neg m e st, 0)
    else
      let (n, ix) := roundInt rm u neg m e st
      (.num neg n 0 false, if ix then fIX else 0)
  | x => (x, 0)

/-- The range of a reading of width w (02 R44). -/
def intMin (sgn : Bool) (w : Nat) : Int := if sgn then -(2 ^ (w - 1) : Nat) else 0
def intMax (sgn : Bool) (w : Nat) : Int := if sgn then ((2 ^ (w - 1) : Nat) : Int) - 1 else ((2 ^ w : Nat) : Int) - 1

/-- A conversion to an integer type (02 R61). -/
def FV.toInt (rm : Rm) (u : Nat) (sgn : Bool) (w : Nat) : FV → Int × Byte
  | .nan => (0, fNV)
  | .inf neg => (if neg then intMin sgn w else intMax sgn w, fNV)
  | .num neg m e st =>
    let (n, ix) := roundInt rm u neg m e st
    let i : Int := if neg then -(n : Int) else n
    if i < intMin sgn w then (intMin sgn w, fNV)
    else if i > intMax sgn w then (intMax sgn w, fNV)
    else (i, if ix then fIX else 0)

/-- A conversion to `t2` (02 R61): the digit −1, 0 or 1. -/
def FV.toDigit (rm : Rm) (u : Nat) : FV → Int × Byte
  | .nan => (0, fNV)
  | .inf neg => (if neg then -1 else 1, fNV)
  | .num neg m e st =>
    let (n, ix) := roundInt rm u neg m e st
    let d : Int := if n = 0 then 0 else if neg then -1 else 1
    (d, if ix || 1 < n then fIX else 0)

/-- The pattern of a ternary digit (02 R52). -/
def digitBits (d : Int) : Nat := if d = 1 then 1 else if d = -1 then 3 else 0

/-- A digit as an arithmetic operation reads it (02 R52). -/
def readDigit (p : Nat) : Int × Byte :=
  if p % 4 = 1 then (1, 0) else if p % 4 = 3 then (-1, 0) else if p % 4 = 2 then (0, fTV) else (0, 0)

/-! ### Special functions (04 R129) -/

/-- Fraction bits of the fixed-point numbers below. -/
def fixP : Nat := 640

/-- Σ 1/((2k+1)·q^(2k+1)) with signs alternating or not, in fixed point; n terms from index k, p is 1/q^(2k+1). -/
def atanSeries (alt : Bool) (q : Nat) : Nat → Nat → Nat → Int
  | 0, _, _ => 0
  | n + 1, k, p =>
    let t : Int := (p / (2 * k + 1) : Nat)
    (if alt ∧ k % 2 = 1 then -t else t) + atanSeries alt q n (k + 1) (p / (q * q))

/-- ln 2 = 2·artanh(1/3). -/
def fixLn2 : Nat := (2 * atanSeries false 3 210 0 (2 ^ fixP / 3)).toNat

/-- π = 16·arctan(1/5) − 4·arctan(1/239). -/
def fixPi : Nat :=
  (16 * atanSeries true 5 150 0 (2 ^ fixP / 5) - 4 * atanSeries true 239 50 0 (2 ^ fixP / 239)).toNat

/-- Σ x^k/k! from index k, the term before being t. -/
def expSeries (x : Nat) : Nat → Nat → Nat → Nat
  | 0, _, t => t
  | n + 1, k, t => t + expSeries x n (k + 1) (t * x / 2 ^ fixP / k)

/-- e^x of a fixed-point x below 1. -/
def fixExp (x : Nat) : Nat := expSeries x 150 1 (2 ^ fixP)

/-- Σ (−1)^k x^(2k+1)/(2k+1)! from index k with the term t. -/
def sinSeries (x2 : Nat) : Nat → Nat → Nat → Int
  | 0, _, _ => 0
  | n + 1, k, t => (t : Int) - sinSeries x2 n (k + 1) (t * x2 / 2 ^ fixP / ((2 * k + 2) * (2 * k + 3)))

/-- sin(π r) of a fixed-point r in (0, 1/2). -/
def fixSinPi (r : Nat) : Nat :=
  let x := fixPi * r / 2 ^ fixP
  (sinSeries (x * x / 2 ^ fixP) 90 0 x).toNat

/-- The bits of log2 of a fixed-point x in [1, 2), n of them. -/
def logBits : Nat → Nat → Nat → Nat
  | 0, _, acc => acc
  | n + 1, x, acc =>
    let y := x * x / 2 ^ fixP
    if y ≥ 2 ^ (fixP + 1) then logBits n (y / 2) (2 * acc + 1) else logBits n y (2 * acc)

/-- 1 / a. -/
def FV.rcp (a : FV) : FV × Byte := (FV.num false 1 0 false).div a

/-- 1 / √a. -/
def FV.rsqrt : FV → FV × Byte
  | .nan => (.nan, 0)
  | .inf neg => if neg then (.nan, fNV) else (.num false 0 0 false, 0)
  | .num neg m e _ =>
    if m = 0 then (.inf neg, fDZ)
    else if neg then (.nan, fNV)
    else
      let m' := if e % 2 = 0 then m else 2 * m
      let h := if e % 2 = 0 then e / 2 else (e - 1) / 2
      let r := isqrt (2 ^ 640 / m')
      (.num false r (-h - 320) (r * r * m' != 2 ^ 640), 0)

/-- 2^a. -/
def FV.exp2 : FV → FV × Byte
  | .nan => (.nan, 0)
  | .inf neg => (if neg then .num false 0 0 false else .inf false, 0)
  | .num neg m e _ =>
    if m = 0 then (.num false 1 0 false, 0)
    else if e + m.log2 ≥ 11 then (.num false 1 (if neg then -4096 else 4096) true, 0)
    else
      let a := scaled neg m e (-(fixP : Int))
      let n := a / (2 ^ fixP : Nat)
      let r := (a % (2 ^ fixP : Nat)).toNat
      if r = 0 then (.num false 1 n false, 0)
      else (.num false (fixExp (fixLn2 * r / 2 ^ fixP)) (n - fixP) true, 0)

/-- log2 a. -/
def FV.log2 : FV → FV × Byte
  | .nan => (.nan, 0)
  | .inf neg => if neg then (.nan, fNV) else (.inf false, 0)
  | .num neg m e _ =>
    if m = 0 then (.inf true, fDZ)
    else if neg then (.nan, fNV)
    else
      let l := m.log2
      let n : Int := e + l
      if m = 2 ^ l then (FV.ofInt n 0, 0)
      else
        let t : Int := n * (2 ^ 256 : Nat) + (logBits 256 (m * 2 ^ (fixP - l)) 0 : Nat)
        (if t < 0 then .num true (-t - 1).toNat (-256) true else .num false t.toNat (-256) true, 0)

/-- sin(π a). -/
def FV.sinPi : FV → FV × Byte
  | .nan => (.nan, 0)
  | .inf _ => (.nan, fNV)
  | .num neg m e _ =>
    let a := (scaled false m e (-(fixP : Int))).toNat
    let r := a % 2 ^ fixP
    if r = 0 then (.num neg 0 0 false, 0)
    else
      let neg' := neg != (a / 2 ^ fixP % 2 == 1)
      let r := if r > 2 ^ (fixP - 1) then 2 ^ fixP - r else r
      if r = 2 ^ (fixP - 1) then (.num neg' 1 0 false, 0) else (.num neg' (fixSinPi r) (-(fixP : Int)) true, 0)

/-- cos(π a). -/
def FV.cosPi : FV → FV × Byte
  | .nan => (.nan, 0)
  | .inf _ => (.nan, fNV)
  | .num _ m e _ =>
    let a := (scaled false m e (-(fixP : Int))).toNat
    let r := a % 2 ^ (fixP + 1)
    let r := if r > 2 ^ fixP then 2 ^ (fixP + 1) - r else r
    let neg := decide (r > 2 ^ (fixP - 1))
    let r := if neg then 2 ^ fixP - r else r
    if r = 2 ^ (fixP - 1) then (.num false 0 0 false, 0)
    else if r = 0 then (.num neg 1 0 false, 0)
    else (.num neg (fixSinPi (2 ^ (fixP - 1) - r)) (-(fixP : Int)) true, 0)

/-- tanh a. -/
def FV.tanh : FV → FV × Byte
  | .nan => (.nan, 0)
  | .inf neg => (.num neg 1 0 false, 0)
  | .num neg m e st =>
    if m = 0 then (.num neg m e st, 0)
    else if e + m.log2 ≥ 7 then (.num neg (2 ^ fixP - 1) (-(fixP : Int)) true, 0)
    else
      let y := (scaled false m (e + 1) (-(fixP : Int))).toNat
      let n := y / fixLn2
      let x := fixExp (y - n * fixLn2) * 2 ^ n
      (.num neg ((x - 2 ^ fixP) * 2 ^ fixP / (x + 2 ^ fixP)) (-(fixP : Int)) true, 0)

end Sys2Proof.Machine
end

