-- ==== Sys2Proof/Config.lean ====
section
/-! DEFINITION. What an implementation fixes, and the values the spec leaves open (log entries 3, 10, 11, 14). -/
namespace Sys2Proof.Config

/-- A fresh value that the spec leaves open, numbered by the counter `State.free` (log entry 3). -/
opaque freeWord : Nat → BitVec 64

/-- Nanoseconds that the n-th step takes (log entry 9). -/
opaque elapsed : Nat → BitVec 8

/-- Nanoseconds from reset to the end of the n-th step (log entry 9). -/
def timeAt : Nat → Nat
  | 0 => 0
  | n + 1 => timeAt n + (elapsed n).toNat

/-- The stepping that `sysread.device` returns in [23:16] (04 R137; log entry 14). -/
opaque stepping : BitVec 8

/-- The Bridle package identifier of this package (04 R137 key 0x08; 09 R212; log entry 14). -/
opaque packageId : BitVec 18

/-- The SM3 digest of a byte string (22 R479, R482; log entry 11). -/
opaque sm3 : List Byte → BitVec 256

/-- The bytes of a TDISP or SPDM answer whose content another standard fixes, from the request's code and bytes
(22 R479, R483; log entry 11). -/
opaque standardAnswer : Nat → List Byte → List Byte

/-- The security version of the firmware of flash bank b (22 R484; log entry 4). -/
opaque fwVersion : Nat → BitVec 32

/-- Byte i of the event record that holds the given items (16 R372 lists them and gives no layout; log entry 19). -/
opaque eventByte : List Nat → Nat → Byte

/-- The place of a wave's spill area in its domain's memory, by domain, group and wave (15 R344; log entry 27). -/
opaque spillBase : Nat → Nat → Nat → BitVec 64

/-- The logical die to which the Headframe passes a flit on, less 1, from the flit: the payload names it and has no layout (19 R407;
log entry 47). -/
opaque flitRoute : BitVec 2048 → Nat

/-- The hash of a stream by port and virtual channel, which chooses its rail (19 R410; log entry 47). -/
opaque railHash : Nat → Nat → Nat

/-- The portable index of the instruction that a slot performs which no map-back entry names, by function and region entry of its
translation, line, the line's bits and slot (15 R347, R348; 16 R369; log entry 36). -/
opaque slotIndex : Nat → Nat → Nat → BitVec 512 → Nat → Nat

/-- The bytes of the parts of a group context image whose fields 17 R389 lists without a layout, from the fields: part 0 the
header after its magic (252 bytes), 1 a handle slot (40 bytes), 2 the head of the matrix lease and its B bank, 3 an outstanding command
(log entry 28). -/
opaque imagePart : Nat → List Nat → List (BitVec 8)

end Sys2Proof.Config
end

