-- ==== Sys2Proof/WellFormed.lean ====
section
/-! DEFINITION. The static rules of an instruction that need no program around it: accepted types (04 R98 to R136, 07 R185,
11 R260, 13 R306, 20 R437, 21 R463), operand kinds (03 R74, R75) and modifier values (03 R77 to R79). -/
namespace Sys2Proof

/-- The width of a type in bits (01 R27). -/
def Ty.width : Ty → Nat
  | .i1 => 1 | .i8 => 8 | .i16 => 16 | .i32 => 32 | .i64 => 64
  | .f32 => 32 | .f16 => 16 | .bf16 => 16 | .e4m3 => 8 | .e5m2 => 8 | .t2 => 2
  | .ptr => 64 | .lay => 96 | .cbh => 32 | .msk => 32
  | .v2bf16 => 32 | .v2f16 => 32 | .v4e4m3 => 32 | .v4e5m2 => 32 | .v4i8 => 32 | .v8e2m1 => 32 | .v16t2 => 32

/-- The size of a type in memory in bytes; 0 for `i1`, `t2` and `cbh`, which have none (01 R27, R28). -/
def Ty.size : Ty → Nat
  | .i1 => 0 | .i8 => 1 | .i16 => 2 | .i32 => 4 | .i64 => 8
  | .f32 => 4 | .f16 => 2 | .bf16 => 2 | .e4m3 => 1 | .e5m2 => 1 | .t2 => 0
  | .ptr => 8 | .lay => 12 | .cbh => 0 | .msk => 4
  | .v2bf16 => 4 | .v2f16 => 4 | .v4e4m3 => 4 | .v4e5m2 => 4 | .v4i8 => 4 | .v8e2m1 => 4 | .v16t2 => 4

/-- Type set I of 04 R100. -/
def Ty.isI : Ty → Bool
  | .i8 | .i16 | .i32 | .i64 => true
  | _ => false

/-- Type set IB of 04 R100. -/
def Ty.isIB (t : Ty) : Bool := t.isI || t == .i1 || t == .msk

/-- Type set FT of 04 R100. -/
def Ty.isFT : Ty → Bool
  | .f32 | .f16 | .bf16 => true
  | _ => false

/-- Type set FP of 04 R100. -/
def Ty.isFP (t : Ty) : Bool := t.isFT || t == .v2bf16 || t == .v2f16

/-- Type set F8 of 04 R100. -/
def Ty.isF8 : Ty → Bool
  | .e4m3 | .e5m2 => true
  | _ => false

/-- Type set ANY of 04 R100. -/
def Ty.isAny (t : Ty) : Bool := t != .cbh

/-- The packed types: the number of elements and the element operand type (04 R132). -/
def Ty.packed : Ty → Option (Nat × Ty)
  | .v2bf16 => some (2, .bf16)
  | .v2f16 => some (2, .f16)
  | .v4e4m3 => some (4, .e4m3)
  | .v4e5m2 => some (4, .e5m2)
  | .v4i8 => some (4, .i8)
  | .v8e2m1 => some (8, .i8)
  | .v16t2 => some (16, .t2)
  | _ => none

/-- The type set MEM of 11 R260: every type with a size in memory. -/
def Ty.isMem (t : Ty) : Bool := t.size != 0

/-- The integer type of twice the width (04 R111). -/
def Ty.double : Ty → Ty
  | .i8 => .i16
  | .i16 => .i32
  | _ => .i64

/-- Whether an operand's kind and payload suit a type (03 R74, R75). A wide literal is no `cbh`: R74 bars `cbh` of an immediate only, and
R75 leaves open whether a literal of 32 bits may stand for one (the model's choice, log entry 22). -/
def Opnd.ok (t : Ty) : Opnd → Bool
  | .val _ => true
  | .imm n =>
    match t with
    | .i1 => n == 0 || n == 1
    | .t2 => n == 0 || n == 1 || n == -1
    | .lay | .cbh | .v2bf16 | .v2f16 | .v4e4m3 | .v4e5m2 | .v4i8 | .v8e2m1 | .v16t2 => false
    | _ => true
  | .lit32 w => t != .cbh && t.width ≤ 32 && w.toNat < 2 ^ t.width
  | .lit64 _ => t == .i64 || t == .ptr
  | .sym _ => t == .ptr

/-- The offset operand of `ptradd`: an `i64` or an `i32` (04 R120); an immediate is read as an `i64` (log entry 15). -/
def Opnd.okOff : Opnd → Bool
  | .sym _ => false
  | _ => true

/-- An argument passed to a block or a function: a value or an immediate or a wide literal (01 R21; 04 R98); its type is
the target's, which only the program gives. -/
def Opnd.okArg : Opnd → Bool
  | _ => true

/-- A lawful `switch` table holds 1 to 4,096 targets (04 R104). -/
def okTargets (ts : List Target) : Bool := 1 ≤ ts.length && ts.length ≤ 4096

/-- The most operands an instruction has (03 R71). -/
def maxOperands : Nat := 65535

/-- The operands a block reference takes with its arguments (03 R73). -/
def Target.size (t : Target) : Nat := 1 + t.args.length

/-- The operands that a list of block references takes. -/
def targetsSize : List Target → Nat
  | [] => 0
  | t :: ts => t.size + targetsSize ts

/-- Types that `fatom` accepts (11 R272). -/
def FAtomOp.okTy : FAtomOp → Ty → Bool
  | .add, t => t == .f32 || t == .bf16 || t == .v2bf16 || t == .v2f16
  | _, t => t == .f32 || t == .bf16

/-- Integer reductions (07 R198). -/
def RedOp.isInt : RedOp → Bool
  | .fadd | .fmin | .fmax => false
  | _ => true

/-- Types a reduction accepts (07 R198). -/
def RedOp.okTy (op : RedOp) (t : Ty) : Bool := if op.isInt then t.isI else t.isFT

/-- The element formats of block quantisation (04 R134). -/
def Ty.isBlock : Ty → Bool
  | .e4m3 | .e5m2 | .v8e2m1 => true
  | _ => false

/-- The pairs of `cvt` with their SAT and SGN bits (04 R130): source type, destination type. -/
def cvtOk (sat sgn : Bool) (src dst : Ty) : Bool :=
  (!sat || dst.isF8) &&
  (if src.isI && (dst.isFT || dst.isF8) then true
   else if src.isI && dst == .t2 then sgn
   else if (src.isFT || src.isF8) && (dst.isFT || dst.isF8) then src != dst && !sgn
   else if (src.isFT || src.isF8) && dst.isI then true
   else if (src.isFT || src.isF8) && dst == .t2 then !sgn
   else if src == .t2 && (dst.isFT || dst.isF8) then !sgn
   else if src == .t2 && dst.isI then true
   else false)

/-- The pairs of `bitcast` (04 R131). -/
def bitcastOk (src dst : Ty) : Bool :=
  (src.isI && src == .i32 && dst == .cbh) || (src == .cbh && dst == .i32) ||
  (src != .cbh && dst != .cbh && src != .i1 && src != .t2 && src != .lay && dst != .i1 && dst != .t2 && dst != .lay &&
   src.width == dst.width)

/-- Whether `dst` can be a destination of `cvt` with these bits from some source (04 R130). -/
def cvtDstOk (sat sgn : Bool) (dst : Ty) : Bool :=
  cvtOk sat sgn .i8 dst || cvtOk sat sgn .f32 dst || cvtOk sat sgn .f16 dst || cvtOk sat sgn .e4m3 dst ||
  cvtOk sat sgn .e5m2 dst || cvtOk sat sgn .t2 dst

/-- An S slot whose X asks for a long word only through a long word, or whose long word is empty (15 R334). -/
def SSlot.ok (f : SSlot) : Bool := 2 ≤ f.x.toNat || f.long == 0

/-- A V slot has a width code 1 to 3, and a lawful B source (15 R336). -/
def VSlot.ok (v : VSlot) : Bool :=
  v.w != 0 && (!v.bs || v.b.toNat < 64 || (v.b.toNat == 127 && v.ext.isSome))

/-- The type of a V slot that names one. -/
def VSlot.type (v : VSlot) : Ty := v.ty.getD .i32

/-- A 64-bit vector value is named by its even register (15 R331). -/
def okPair (t : Ty) (r : BitVec 7) : Bool := t.width ≤ 32 || 64 < t.width || r.toNat % 2 == 0

/-- The static rules of an instruction (03 R82). -/
def Instr.wellFormed : Instr → Bool
  | .br t => t.args.all Opnd.okArg && t.size ≤ maxOperands
  | .brc c t f => c.ok .i1 && t.args.all Opnd.okArg && f.args.all Opnd.okArg && 1 + t.size + f.size ≤ maxOperands
  | .switch ty idx d ts => ty.isI && idx.ok ty && okTargets ts &&
      1 + (match d with | some t => t.size | none => 0) + targetsSize ts ≤ maxOperands
  | .ret => true
  | .retValue ty v => v.ok ty
  | .exit => true
  | .call _ _ args => args.all Opnd.okArg && 1 + args.length ≤ maxOperands
  | .trap => true
  | .trapCode c => c.toNat < 65536
  | .flagrd => true
  | .flagclr m => m.ok .i8
  | .add ty a b | .sub ty a b | .smin ty a b | .smax ty a b | .umin ty a b | .umax ty a b =>
      (ty.isI || ty == .v4i8) && a.ok ty && b.ok ty
  | .mul ty a b => ty.isI && a.ok ty && b.ok ty
  | .mulhi _ ty a b => ty.isI && a.ok ty && b.ok ty
  | .sdiv ty a b | .udiv ty a b | .srem ty a b | .urem ty a b => ty.isI && a.ok ty && b.ok ty
  | .neg ty a | .abs ty a => ty.isI && a.ok ty
  | .addsat _ ty a b | .subsat _ ty a b => (ty.isI || ty == .v4i8) && a.ok ty && b.ok ty
  | .and ty a b | .or ty a b | .xor ty a b => ty.isIB && a.ok ty && b.ok ty
  | .not ty a => ty.isIB && a.ok ty
  | .shl ty a b | .lshr ty a b | .ashr ty a b | .rotl ty a b | .rotr ty a b => ty.isI && a.ok ty && b.ok ty
  | .popc ty a | .clz ty a | .ctz ty a | .brev ty a => (ty.isI || ty == .msk) && a.ok ty
  | .bswap ty a => ty.isI && ty != .i8 && a.ok ty
  | .bfext _ ty x p l => ty.isI && x.ok ty && p.ok .i32 && l.ok .i32
  | .bfins ty x y p l => ty.isI && x.ok ty && y.ok ty && p.ok .i32 && l.ok .i32
  | .icmp _ ty a b => (ty.isIB || ty == .ptr) && a.ok ty && b.ok ty
  | .select ty c a b => ty.isAny && c.ok .i1 && a.ok ty && b.ok ty
  | .zext ty _ | .sext ty _ => ty.isI
  | .trunc ty _ => (ty.isI || ty == .i1) && ty != .i64
  | .mad _ ty a b c => ty.isI && ty != .i64 && a.ok ty && b.ok ty && c.ok ty.double
  | .ptradd p o => p.ok .ptr && o.okOff
  | .ptrdiff a b => a.ok .ptr && b.ok .ptr
  | .ptrtag p => p.ok .ptr
  | .ptrsettag p t => p.ok .ptr && t.ok .i8
  | .ptrtoint p => p.ok .ptr
  | .inttoptr x => x.ok .i64
  | .mov ty a => ty.isAny && a.ok ty
  | .fadd _ ty a b | .fsub _ ty a b | .fmul _ ty a b | .fdiv _ ty a b => ty.isFP && a.ok ty && b.ok ty
  | .fma _ ty a b c => ty.isFP && a.ok ty && b.ok ty && c.ok ty
  | .fsqrt _ ty a => ty.isFP && a.ok ty
  | .fmin ty a b | .fmax ty a b => ty.isFP && a.ok ty && b.ok ty
  | .fneg ty a | .fabs ty a => (ty.isFP || ty.isF8) && a.ok ty
  | .fcopysign ty a b => (ty.isFP || ty.isF8) && a.ok ty && b.ok ty
  | .fcmp _ ty a b => (ty.isFT || ty.isF8) && a.ok ty && b.ok ty
  | .fclass ty a => (ty.isFT || ty.isF8) && a.ok ty
  | .frint _ ty a => ty.isFP && a.ok ty
  | .fdot2 _ ty a b c => (ty == .v2bf16 || ty == .v2f16) && a.ok ty && b.ok ty && c.ok .f32
  | .fdot4 _ ty a b c => (ty == .v4e4m3 || ty == .v4e5m2) && a.ok ty && b.ok ty && c.ok .f32
  | .frcp _ ty a | .frsqrt _ ty a | .fexp2 _ ty a | .flog2 _ ty a | .fsin _ ty a | .fcos _ ty a | .ftanh _ ty a =>
      ty.isFT && a.ok ty
  | .cvt _ sat sgn ty _ => cvtDstOk sat sgn ty
  | .bitcast ty _ => ty != .i1 && ty != .t2 && ty != .lay
  | .pack ty es =>
      match ty.packed with
      | some (n, e) => es.length == n && es.all (Opnd.ok e)
      | none => false
  | .unpack k ty x =>
      match ty.packed with
      | some (n, _) => k.toNat < n && x.ok ty
      | none => false
  | .insert k ty x e =>
      match ty.packed with
      | some (n, t) => k.toNat < n && x.ok ty && e.ok t
      | none => false
  | .bsquant _ ty a b c | .bsdequant _ ty a b c => ty.isBlock && a.ok .ptr && b.ok .ptr && c.ok .ptr
  | .sysread _ => true
  | .laneid | .waveid | .groupid | .activemask | .elect | .wbar | .gbar | .mxrel => true
  | .gridid _ => true
  | .quadswap _ ty x => ty.isAny && x.ok ty
  | .quadbcast ty x k => ty.isAny && x.ok ty && k.ok .i32
  | .shfl m cl ty x i => (!cl || m == .up || m == .down) && ty.isAny && x.ok ty && i.ok .i32
  | .ballot c => c.ok .i1
  | .vote _ c => c.ok .i1
  | .matchLanes ty x => ty.isAny && x.ok ty
  | .wred op rm ty x => op.okTy ty && (if op == .fadd then rm != .sr else rm == .rne) && x.ok ty
  | .wscan op rm ex ty x =>
      op.okTy ty && (if op == .fadd then rm != .sr else rm == .rne) && (!ex || op.isInt) && x.ok ty
  | .rand ty => ty == .i32 || ty == .i64 || ty == .f32
  | .randseed x => x.ok .i64
  | .bcast ty x => ty.isAny && x.ok ty
  | .ld _ _ o ty p => ty.isMem && (o == .relaxed || o == .acquire) && p.ok .ptr
  | .st _ _ o ty p v => ty.isMem && (o == .relaxed || o == .release) && p.ok .ptr && v.ok ty
  | .ldlay _ ty _ p i0 i1 i2 => ty.isMem && ty.size ≤ 8 && p.ok .ptr && i0.ok .i32 && i1.ok .i32 && i2.ok .i32
  | .stlay _ ty _ p i0 i1 i2 v =>
      ty.isMem && ty.size ≤ 8 && p.ok .ptr && i0.ok .i32 && i1.ok .i32 && i2.ok .i32 && v.ok ty
  | .laymake a b c d e f => a.ok .i32 && b.ok .i32 && c.ok .i32 && d.ok .i32 && e.ok .i32 && f.ok .i32
  | .atom _ _ _ ty p v => (ty == .i32 || ty == .i64) && p.ok .ptr && v.ok ty
  | .xchg _ _ ty p v => (ty == .i32 || ty == .i64 || ty == .ptr) && p.ok .ptr && v.ok ty
  | .cas _ _ ty p e v => (ty == .i32 || ty == .i64 || ty == .ptr) && p.ok .ptr && e.ok ty && v.ok ty
  | .fatom op _ _ ty p v => op.okTy ty && p.ok .ptr && v.ok ty
  | .fence _ _ => true
  | .tagld p => p.ok .ptr
  | .tagst p t => p.ok .ptr && t.ok .i8
  | .watchset a b c => a.ok .i32 && b.ok .i64 && c.ok .i64
  | .watchclr a => a.ok .i32
  | .prefetch _ p => p.ok .ptr
  | .cbinit n _ a b c d => 1 ≤ n.toNat && n.toNat ≤ 8 && a.ok .i32 && b.ok .ptr && c.ok .i32 && d.ok .ptr
  | .cbwait _ _ n | .cbadv _ n => n.ok .i32
  | .cbstat _ _ => true
  | .acopy s _ d x l =>
      d.ok (if s == .dslot then .i64 else .ptr) && x.ok (if s == .sslot then .i64 else .ptr) && l.ok .i64
  | .agather _ s _ d w n i c => d.ok (if s then .i64 else .ptr) && w.ok .ptr && n.ok .i64 && i.ok .ptr && c.ok .i32
  | .ascatter _ s _ w x n i c => w.ok .ptr && x.ok (if s then .i64 else .ptr) && n.ok .i64 && i.ok .ptr && c.ok .i32
  | .kstart k _ op ex _ a b c d =>
      ((k == .allred || k == .redscat) || (op == .sum && !ex)) && a.ok .ptr && b.ok .ptr && c.ok .i32 && d.ok .ptr
  | .mxlease n | .mxfmt n => n.ok .i32
  | .mxldb _ b bs kb => b.ok .ptr && bs.ok .ptr && kb.ok .i32
  | .mxzero _ t => t.ok .i32
  | .mxst _ _ t d s => t.ok .i32 && d.ok .ptr && s.ok .i32
  | .mxmma _ t a x kb | .mxsmma _ t a x kb => t.ok .i32 && a.ok .ptr && x.ok .ptr && kb.ok .i32
  | .mxtma _ t a kb => t.ok .i32 && a.ok .ptr && kb.ok .i32
  | .spawn q d => q.ok .i32 && d.ok .ptr
  | .ccwait _ c v | .ccadd _ c v => c.ok .ptr && v.ok .i64
  | .gatecall _ g b l args => g.ok .i32 && b.ok .ptr && l.ok .i32 && args.length ≤ 8 && args.all (Opnd.ok .i64)
  | .gateret v => v.ok .i64
  | .xprefetch f i l => f.ok .ptr && i.ok .i32 && l.ok .i32
  | .ecount a b c | .xrtlook a b c => a.ok .i32 && b.ok .i32 && c.ok .i32
  | .xrtverCur a => a.ok .i32
  | .xrtverChk a b c d => a.ok .i32 && b.ok .i32 && c.ok .i32 && d.ok .i64
  | .xrtverDone a d => a.ok .i32 && d.ok .i64
  | .rmerge _ _ a b c d => a.ok .i32 && b.ok .i32 && c.ok .i64 && d.ok .i32
  | .nmov v => v.ok && v.ty.isSome && okPair v.type v.d && (v.bs || okPair v.type v.b)
  | .nmovs f => f.ok
  | .nvtos v => v.ok && v.ty.isSome && v.d.toNat < 64 && okPair v.type v.a
  | .nlit k _ _ imm _ _ => k.toNat < 3 && (k.toNat != 2 || imm.toNat < 65536)
  | .nspill k r si | .nfill k r si =>
      si.toNat < 33280 && (match k with | .vector => true | .scalar => r.toNat < 64 | .mask => r.toNat < 8)
  | .nstg f => f.ok && f.d.toNat < 20
  | .nstgv v => v.ok && v.ty.isSome && 8 ≤ v.d.toNat && v.d.toNat < 20 && okPair v.type v.a
  | .nlcset _ x _ _ _ => x.toNat < 2
  | .nloop _ ii sc => ii != 0 && sc != 0
  | .nland _ | .nxit | .ntrap => true
  | .nmask v => v.ok && 1 ≤ v.d.toNat && v.d.toNat < 8
  | .nmaskv v => v.ok && v.a.toNat < 8
  -- device rows carry the outside world's choice and have no encoding to break
  | .agingPromotion _ _ | .gondolaTake _ _ | .rejoin _ _ _ | .rejoinTimeout _ _ _ | .heldRunRelease _ _ | .landing _ _ => true
  | .doorbell _ q | .admission _ q => q < 32
  | .budgetWindowRefill | .counterPoll | .placeGroup _ | .placeTroupe _ | .groupEnd _ | .launchComplete _ => true
  | .stopRequest _ _ cls => cls < 4
  | .waveStop _ _ | .stopDeadline _ | .saveComplete _ | .restore _ _ _ _ => true
  | .l2RefillTick _ | .l2PortGrant _ _ | .loanRevoke _ _ | .sramSplitChange _ _ => true
  | .hostWrite _ _ _ | .peerAccess _ _ _ _ | .peerReadTimeout _ _ _ | .peerWriteTimeout _ _ => true
  | .enginePush _ | .fwCmdRead _ | .fwPggo _ _ _ _ _ _ | .pathTransferDone _ => true
  | .fwDone _ c _ => c == 0 || 128 ≤ c.toNat
  | .firmwareException _ | .firmwareWatchdog _ | .keBoundExpiry _ | .firmwareImageReplace _ _ => true
  | .keContribution _ _ _ _ | .keReduce _ | .mxTurnPass _ => true
  | .tcLineFill _ a | .tcLineError _ a => a % 64 == 0 && a < 2 ^ 25
  | .translateRegion _ k b => k.form ≤ 2 && b.lines.length ≤ 2 ^ 19
  | .imageReplace _ _ => true
  | .eviction _ _ c => c ≤ 3
  | .translationFree _ _ | .moduleLoad _ _ _ _ | .moduleUnload _ _ => true
  | .trapRecordWrite _ | .resume _ _ | .killLane _ _ | .killWave _ _ | .forward _ | .hypTimeout _ => true
  | .pageWalkDone _ _ | .tlbInvalidate _ _ | .tlbInvalidateDone _ | .wdctlWrite _ _ _ => true
  | .placeTableWrite _ _ | .l2drop _ | .l2dropDone _ _ | .unitFailure _ _ _ => true
  | .flitReceive _ _ | .nakReplay _ _ | .replayThreshold _ | .railRetrain _ | .railRetrainEnd _ _ | .linkRefillTick _ => true
  | .migrate _ | .gangctlWrite _ | .gangTick | .gangDeadline _ | .ctxTorn _ => true
  | .sliceTableWrite _ _ _ | .sliceZeroDone _ _ | .domcfgWrite _ _ | .partcfgWrite _ _ => true
  | .dprWrite _ e w _ => e < 8 && w < 3
  | .reshapeAssign _ | .reshapeSplit _ | .reshapeJoin _ | .drainDeadline _ => true
  | .domainPause _ | .domainResume _ | .domainReset _ | .gateTlimit _ => true
  | .counterRead _ k | .counterReadTimeout _ k => k < 16
  | .wcntWrite _ _ | .windowClose _ _ | .tableInstall _ _ | .tableClear _ _ | .replicate _ _ _ | .retire _ _ _ => true
  | .publish _ t | .rollback _ t | .forcedRetire _ t => t < 4
  | .winchLogWrite _ => true
  | .hostPortTrain p k => p < 2 && k ≤ 2
  | .grantWrite _ _ | .intstatWrite _ _ => true
  | .lockInterfaceRequest _ | .startInterfaceRequest _ | .getDeviceInterfaceReport _ | .getTdispVersion _ => true
  | .getTdispCapabilities _ | .getDeviceInterfaceState _ | .stopInterfaceRequest _ | .frozenSetWrite _ => true
  | .spdmSessionEnd _ | .spdmRequest _ _ | .pwrlimWrite _ | .powerClamp | .thermalThrottle _ | .thermalReset _ => true
  | .packageReset | .firmwareUpdate _ _ | .registerWrite _ _ _ _ | .hostFunctionReset _ => true
  | .logicalDeviceBind p l _ => p < 2 && l < 16
  | .uncorrectableMemoryError _ | .launchOverrun _ _ => true

end Sys2Proof
end

