-- ==== Sys2Proof/Decode.lean ====
section
/-! DEFINITION. Decoding of instruction words (03 R68 to R84) and of native-only slots (15 R327 to R344), and the encoder
written from the same tables. A portable instruction is read in two layers: words to `Raw` (head fields and operands), and
`Raw` to `Instr`; decoding accepts exactly the words whose instruction encodes back to them. -/
namespace Sys2Proof

/-- Why words are refused (03 R82, R83). -/
inductive DecodeErr where
  /-- the words run past the end -/
  | overrun
  /-- the extension word breaks R71 -/
  | badExtension
  /-- an operand word breaks R73 to R75 -/
  | badOperand
  /-- the opcode is undefined under R80, R81 -/
  | undefinedOpcode
  /-- type, modifier, operand or RES break the opcode's entry -/
  | undefinedForm
  deriving DecidableEq, Repr

/-! ### Codes of the tables -/

/-- Type codes (03 R76). -/
def Ty.code : Ty → Nat
  | .i1 => 1 | .i8 => 2 | .i16 => 3 | .i32 => 4 | .i64 => 5
  | .f32 => 8 | .f16 => 9 | .bf16 => 10 | .e4m3 => 11 | .e5m2 => 12 | .t2 => 13
  | .ptr => 16 | .lay => 17 | .cbh => 18 | .msk => 19
  | .v2bf16 => 24 | .v2f16 => 25 | .v4e4m3 => 26 | .v4e5m2 => 27 | .v4i8 => 28 | .v8e2m1 => 29 | .v16t2 => 30

/-- The type of a code; 0 and undefined codes give none (03 R76). -/
def Ty.ofCode : Nat → Option Ty
  | 1 => some .i1 | 2 => some .i8 | 3 => some .i16 | 4 => some .i32 | 5 => some .i64
  | 8 => some .f32 | 9 => some .f16 | 10 => some .bf16 | 11 => some .e4m3 | 12 => some .e5m2 | 13 => some .t2
  | 16 => some .ptr | 17 => some .lay | 18 => some .cbh | 19 => some .msk
  | 24 => some .v2bf16 | 25 => some .v2f16 | 26 => some .v4e4m3 | 27 => some .v4e5m2 | 28 => some .v4i8
  | 29 => some .v8e2m1 | 30 => some .v16t2
  | _ => none

/-- Rounding-mode codes (02 R54). -/
def Rm.code : Rm → Nat
  | .rne => 0 | .rz => 1 | .rd => 2 | .ru => 3 | .sr => 4

/-- The rounding mode of a code (02 R54). -/
def Rm.ofCode : Nat → Option Rm
  | 0 => some .rne | 1 => some .rz | 2 => some .rd | 3 => some .ru | 4 => some .sr
  | _ => none

/-- Condition codes of `icmp` (03 R78). -/
def ICond.code : ICond → Nat
  | .eq => 0 | .ne => 1 | .ult => 2 | .ule => 3 | .ugt => 4 | .uge => 5 | .slt => 6 | .sle => 7 | .sgt => 8 | .sge => 9

/-- The `icmp` condition of a code (03 R78). -/
def ICond.ofCode : Nat → Option ICond
  | 0 => some .eq | 1 => some .ne | 2 => some .ult | 3 => some .ule | 4 => some .ugt | 5 => some .uge | 6 => some .slt
  | 7 => some .sle | 8 => some .sgt | 9 => some .sge
  | _ => none

/-- Condition codes of `fcmp` (03 R78). -/
def FCond.code : FCond → Nat
  | .oeq => 0 | .one => 1 | .olt => 2 | .ole => 3 | .ogt => 4 | .oge => 5 | .ord => 6 | .uno => 7 | .ueq => 8 | .une => 9
  | .ult => 10 | .ule => 11 | .ugt => 12 | .uge => 13

/-- The `fcmp` condition of a code (03 R78). -/
def FCond.ofCode : Nat → Option FCond
  | 0 => some .oeq | 1 => some .one | 2 => some .olt | 3 => some .ole | 4 => some .ogt | 5 => some .oge | 6 => some .ord
  | 7 => some .uno | 8 => some .ueq | 9 => some .une | 10 => some .ult | 11 => some .ule | 12 => some .ugt | 13 => some .uge
  | _ => none

/-- Scope codes (03 R79). -/
def Scope.code : Scope → Nat
  | .wave => 0 | .group => 1 | .core => 2 | .die => 3 | .package => 4 | .system => 5

/-- The scope of a code (03 R79). -/
def Scope.ofCode : Nat → Option Scope
  | 0 => some .wave | 1 => some .group | 2 => some .core | 3 => some .die | 4 => some .package | 5 => some .system
  | _ => none

/-- Ordering codes (03 R79). -/
def Ord4.code : Ord4 → Nat
  | .relaxed => 0 | .acquire => 1 | .release => 2 | .acqRel => 3

/-- The ordering of a code (03 R79). -/
def Ord4.ofCode : Nat → Ord4
  | 0 => .relaxed | 1 => .acquire | 2 => .release | _ => .acqRel

/-- Operation codes of `atom` (03 R79). -/
def AtomOp.code : AtomOp → Nat
  | .add => 0 | .and => 1 | .or => 2 | .xor => 3 | .smin => 4 | .smax => 5 | .umin => 6 | .umax => 7

/-- The operation of `atom` of a code (03 R79). -/
def AtomOp.ofCode : Nat → AtomOp
  | 0 => .add | 1 => .and | 2 => .or | 3 => .xor | 4 => .smin | 5 => .smax | 6 => .umin | _ => .umax

/-- Operation codes of `fatom` (11 R272). -/
def FAtomOp.code : FAtomOp → Nat
  | .add => 0 | .min => 1 | .max => 2

/-- The operation of `fatom` of a code (11 R272). -/
def FAtomOp.ofCode : Nat → Option FAtomOp
  | 0 => some .add | 1 => some .min | 2 => some .max
  | _ => none

/-- Operation codes of `wred` and `wscan` (07 R198). -/
def RedOp.code : RedOp → Nat
  | .add => 0 | .and => 1 | .or => 2 | .xor => 3 | .smin => 4 | .smax => 5 | .umin => 6 | .umax => 7 | .fadd => 8
  | .fmin => 9 | .fmax => 10

/-- The reduction of a code (07 R198). -/
def RedOp.ofCode : Nat → Option RedOp
  | 0 => some .add | 1 => some .and | 2 => some .or | 3 => some .xor | 4 => some .smin | 5 => some .smax
  | 6 => some .umin | 7 => some .umax | 8 => some .fadd | 9 => some .fmin | 10 => some .fmax
  | _ => none

/-- Direction codes of `quadswap` (07 R191). -/
def QDir.code : QDir → Nat
  | .h => 0 | .v => 1 | .d => 2

/-- The direction of a code (07 R191). -/
def QDir.ofCode : Nat → Option QDir
  | 0 => some .h | 1 => some .v | 2 => some .d
  | _ => none

/-- Mode codes of `shfl` (07 R193). -/
def ShflMode.code : ShflMode → Nat
  | .idx => 0 | .up => 1 | .down => 2 | .xor => 3

/-- The mode of a code (07 R193). -/
def ShflMode.ofCode : Nat → ShflMode
  | 0 => .idx | 1 => .up | 2 => .down | _ => .xor

/-- Operation codes of `vote` (07 R195). -/
def VoteOp.code : VoteOp → Nat
  | .all => 0 | .any => 1 | .eq => 2

/-- The vote of a code (07 R195). -/
def VoteOp.ofCode : Nat → Option VoteOp
  | 0 => some .all | 1 => some .any | 2 => some .eq
  | _ => none

/-- Keys of `sysread` (04 R137). -/
def SysKey.code : SysKey → Nat
  | .device => 0 | .gen => 1 | .width => 2 | .die => 3 | .cluster => 4 | .core => 5 | .domain => 6 | .partition => 7
  | .package => 8 | .time => 9 | .ifstate => 10 | .gennum => 11 | .hdr => 12

/-- The `sysread` key of a code (04 R137). -/
def SysKey.ofCode : Nat → Option SysKey
  | 0 => some .device | 1 => some .gen | 2 => some .width | 3 => some .die | 4 => some .cluster | 5 => some .core
  | 6 => some .domain | 7 => some .partition | 8 => some .package | 9 => some .time | 10 => some .ifstate
  | 11 => some .gennum | 12 => some .hdr
  | _ => none

/-- Keys of `gridid` (07 R190). -/
def GridKey.code : GridKey → Nat
  | .gx => 0 | .gy => 1 | .gz => 2 | .nx => 3 | .ny => 4 | .nz => 5 | .extent => 6 | .tid => 7

/-- The `gridid` key of a code (07 R190). -/
def GridKey.ofCode : Nat → Option GridKey
  | 0 => some .gx | 1 => some .gy | 2 => some .gz | 3 => some .nx | 4 => some .ny | 5 => some .nz | 6 => some .extent
  | 7 => some .tid
  | _ => none

/-- Keys of `cbstat` (13 R312). -/
def CbKey.code : CbKey → Nat
  | .pushes => 0 | .claims => 1 | .advs => 2 | .head => 3 | .status => 4

/-- The `cbstat` key of a code (13 R312). -/
def CbKey.ofCode : Nat → Option CbKey
  | 0 => some .pushes | 1 => some .claims | 2 => some .advs | 3 => some .head | 4 => some .status
  | _ => none

/-- The result type of `cbstat` by key (13 R312). -/
def CbKey.ty : CbKey → Ty
  | .head => .ptr
  | _ => .i64

/-- Slot bits of `acopy` (13 R314). -/
def SlotSel.code : SlotSel → Nat
  | .none => 0 | .dslot => 1 | .sslot => 2

/-- The slot selection of `acopy` (13 R314). -/
def SlotSel.ofCode : Nat → Option SlotSel
  | 0 => some .none | 1 => some .dslot | 2 => some .sslot
  | _ => none

/-- Collective kinds (13 R316). -/
def KKind.code : KKind → Nat
  | .allred => 0 | .redscat => 1 | .allgath => 2 | .bcast => 3

/-- The collective kind of a code (13 R316). -/
def KKind.ofCode : Nat → KKind
  | 0 => .allred | 1 => .redscat | 2 => .allgath | _ => .bcast

/-- Collective element types (13 R316). -/
def KType.code : KType → Nat
  | .f32 => 0 | .bf16 => 1 | .f16 => 2 | .i32 => 3 | .i64 => 4

/-- The collective element type of a code (13 R316). -/
def KType.ofCode : Nat → Option KType
  | 0 => some .f32 | 1 => some .bf16 | 2 => some .f16 | 3 => some .i32 | 4 => some .i64
  | _ => none

/-- Collective operations (13 R316). -/
def KOp.code : KOp → Nat
  | .sum => 0 | .min => 1 | .max => 2

/-- The collective operation of a code (13 R316). -/
def KOp.ofCode : Nat → Option KOp
  | 0 => some .sum | 1 => some .min | 2 => some .max
  | _ => none

/-- Shape codes (13 R323). -/
def Shape.code : Shape → Nat
  | .m64n64 => 0 | .m128n64 => 1 | .m64n128 => 2 | .m128n128 => 3

/-- The shape of a code (13 R323). -/
def Shape.ofCode : Nat → Shape
  | 0 => .m64n64 | 1 => .m128n64 | 2 => .m64n128 | _ => .m128n128

/-- Directions of `gatecall` (20 R437). -/
def GateDir.code : GateDir → Nat
  | .none => 0 | .dIn => 1 | .dOut => 2 | .inout => 3

/-- The direction of a code (20 R437). -/
def GateDir.ofCode : Nat → GateDir
  | 0 => .none | 1 => .dIn | 2 => .dOut | _ => .inout

/-! ### The raw layer -/

/-- A portable instruction as its fields: the operands before the first block reference, and the block references with
their arguments (03 R68, R73). -/
structure Raw where
  op : Nat
  ty : Nat
  mod : Nat
  res : Bool
  opnds : List Opnd
  targets : List Target
  deriving DecidableEq, Repr

/-- A portable instruction with the hint and the debug line that change no meaning (03 R70, R72). -/
structure Decoded where
  uni : Bool
  line : Option Word
  ins : Instr
  deriving DecidableEq, Repr

/-- One operand word with its literals (03 R73, R75). -/
inductive ROp where
  | blk (n : BitVec 24)
  | op (o : Opnd)
  deriving DecidableEq, Repr

/-- The words of an operand (03 R73, R75). -/
def Opnd.words : Opnd → List Word
  | .val n => [(0#8 ++ n : BitVec 32)]
  | .imm n => [(1#2 ++ n : BitVec 32)]
  | .lit32 w => [0xC0000000#32, w]
  | .lit64 w => [0xC0000001#32, w.extractLsb' 0 32, w.extractLsb' 32 32]
  | .sym i => [0xC0000002#32, i]

/-- The words of a list of operands. -/
def opndWords : List Opnd → List Word
  | [] => []
  | o :: os => o.words ++ opndWords os

/-- The words of a list of block references with their arguments. -/
def targetWords : List Target → List Word
  | [] => []
  | t :: ts => (0x80#8 ++ t.blk : BitVec 32) :: (opndWords t.args ++ targetWords ts)

/-- One operand from the front of the words (03 R73, R75). -/
def readOp : List Word → Except DecodeErr (ROp × List Word)
  | [] => .error .overrun
  | w :: ws =>
    match (w.extractLsb' 30 2).toNat with
    | 0 => if w.extractLsb' 24 6 = 0 then .ok (.op (.val (w.extractLsb' 0 24)), ws) else .error .badOperand
    | 1 => .ok (.op (.imm (w.extractLsb' 0 30)), ws)
    | 2 => if w.extractLsb' 24 6 = 0 then .ok (.blk (w.extractLsb' 0 24), ws) else .error .badOperand
    | _ =>
      match (w.extractLsb' 0 30).toNat, ws with
      | 0, l :: r => .ok (.op (.lit32 l), r)
      | 1, l :: h :: r => .ok (.op (.lit64 (h ++ l)), r)
      | 2, l :: r => .ok (.op (.sym l), r)
      | 0, _ => .error .overrun
      | 1, _ => .error .overrun
      | 2, _ => .error .overrun
      | _, _ => .error .badOperand

/-- n operands from the front of the words. -/
def readOps : Nat → List Word → Except DecodeErr (List ROp × List Word)
  | 0, ws => .ok ([], ws)
  | n + 1, ws =>
    match readOp ws with
    | .error e => .error e
    | .ok (o, r) =>
      match readOps n r with
      | .error e => .error e
      | .ok (os, r') => .ok (o :: os, r')

/-- Operands before the first block reference, and the block references with the operands that follow each. -/
def splitOps : List ROp → List Opnd × List Target
  | [] => ([], [])
  | .op o :: r => (o :: (splitOps r).1, (splitOps r).2)
  | .blk b :: r => ([], ⟨b, (splitOps r).1⟩ :: (splitOps r).2)

/-- The head word (03 R68). -/
def headWord (dbg ext uni res : Bool) (mod cnt ty op : Nat) : Word :=
  (BitVec.ofBool dbg ++ BitVec.ofBool ext ++ BitVec.ofBool uni ++ BitVec.ofBool res ++
    BitVec.ofNat 8 mod ++ BitVec.ofNat 4 cnt ++ BitVec.ofNat 6 ty ++ BitVec.ofNat 10 op : BitVec 32)

/-- The number of operand words' operands of a raw instruction. -/
def Raw.count (r : Raw) : Nat := r.opnds.length + targetsSize r.targets

/-- The words of a raw instruction (03 R68, R71). -/
def Raw.words (r : Raw) (uni : Bool) (line : Option Word) : List Word :=
  let n := r.count
  headWord line.isSome (15 < n) uni r.res r.mod (if 15 < n then 15 else n) r.ty r.op ::
    ((if 15 < n then [BitVec.ofNat 32 n] else []) ++
     (opndWords r.opnds ++ (targetWords r.targets ++ line.toList)))

/-- A raw instruction from the front of the words, with the words left (03 R68, R71). -/
def readRaw : List Word → Except DecodeErr (Raw × Bool × Option Word × List Word)
  | [] => .error .overrun
  | h :: ws =>
    let cnt := (h.extractLsb' 16 4).toNat
    let body (n : Nat) (r : List Word) : Except DecodeErr (Raw × Bool × Option Word × List Word) :=
      match readOps n r with
      | .error e => .error e
      | .ok (os, r') =>
        let raw : Raw := ⟨(h.extractLsb' 0 10).toNat, (h.extractLsb' 10 6).toNat, (h.extractLsb' 20 8).toNat,
          h.getLsbD 28, (splitOps os).1, (splitOps os).2⟩
        if h.getLsbD 31 then
          match r' with
          | [] => .error .overrun
          | l :: r'' => .ok (raw, h.getLsbD 29, some l, r'')
        else .ok (raw, h.getLsbD 29, none, r')
    if h.getLsbD 30 then
      match ws with
      | [] => .error .overrun
      | x :: r =>
        if cnt = 15 ∧ x.extractLsb' 16 16 = 0 ∧ 16 ≤ (x.extractLsb' 0 16).toNat then body (x.extractLsb' 0 16).toNat r
        else .error .badExtension
    else body cnt ws

/-! ### The length of an instruction, whatever its meaning (03 R68, R82) -/

/-- The words after n operands, whatever their reserved bits. -/
def skipOps : Nat → List Word → Option (List Word)
  | 0, ws => some ws
  | n + 1, ws =>
    match ws with
    | [] => none
    | w :: r =>
      if (w.extractLsb' 30 2).toNat = 3 then
        if w.getLsbD 0 then
          match r with
          | _ :: _ :: r' => skipOps n r'
          | _ => none
        else
          match r with
          | _ :: r' => skipOps n r'
          | _ => none
      else skipOps n r

/-- The words after one instruction; none where the instruction runs past the end (03 R83). An extension word gives the
count whatever OPCNT is (log entry 16). -/
def skipInstr : List Word → Option (List Word)
  | [] => none
  | h :: ws =>
    let fin (n : Nat) (r : List Word) : Option (List Word) :=
      match skipOps n r with
      | none => none
      | some r' => if h.getLsbD 31 then (match r' with | [] => none | _ :: r'' => some r'') else some r'
    if h.getLsbD 30 then
      match ws with
      | [] => none
      | x :: r => fin (x.extractLsb' 0 16).toNat r
    else fin (h.extractLsb' 16 4).toNat ws

/-! ### From an instruction to its fields -/

/-- Modifier of class F (03 R77). -/
def modF (rm : Rm) (sat sgn : Bool) : Nat := rm.code + 8 * sat.toNat + 16 * sgn.toNat

/-- Modifier of class M (03 R79). -/
def modM (sc : Scope) (o : Ord4) (hi : Nat) : Nat := sc.code + 8 * o.code + 32 * hi

/-- The fields of a portable instruction; none for a native-only operation or a device action (03 R80, R97 and the
encoding tables of 04, 07, 11, 13, 16, 20 and 21). -/
def Instr.toRaw : Instr → Option Raw
  | .br t => some ⟨0x001, 0, 0, false, [], [t]⟩
  | .brc c t f => some ⟨0x002, 0, 0, false, [c], [t, f]⟩
  | .switch ty i none ts => some ⟨0x003, ty.code, 0, false, [i], ts⟩
  | .switch ty i (some d) ts => some ⟨0x003, ty.code, 1, false, [i], d :: ts⟩
  | .ret => some ⟨0x004, 0, 0, false, [], []⟩
  | .retValue ty v => some ⟨0x004, ty.code, 0, false, [v], []⟩
  | .exit => some ⟨0x005, 0, 0, false, [], []⟩
  | .call none f args => some ⟨0x006, 0, 0, false, .sym f :: args, []⟩
  | .call (some ty) f args => some ⟨0x006, ty.code, 0, true, .sym f :: args, []⟩
  | .trap => some ⟨0x007, 0, 0, false, [], []⟩
  | .trapCode c => some ⟨0x007, 4, 0, false, [.imm c], []⟩
  | .flagrd => some ⟨0x008, 2, 0, true, [], []⟩
  | .flagclr m => some ⟨0x009, 2, 0, false, [m], []⟩
  | .add ty a b => some ⟨0x040, ty.code, 0, true, [a, b], []⟩
  | .sub ty a b => some ⟨0x041, ty.code, 0, true, [a, b], []⟩
  | .mul ty a b => some ⟨0x042, ty.code, 0, true, [a, b], []⟩
  | .mulhi s ty a b => some ⟨0x043, ty.code, s.toNat, true, [a, b], []⟩
  | .sdiv ty a b => some ⟨0x044, ty.code, 0, true, [a, b], []⟩
  | .udiv ty a b => some ⟨0x045, ty.code, 0, true, [a, b], []⟩
  | .srem ty a b => some ⟨0x046, ty.code, 0, true, [a, b], []⟩
  | .urem ty a b => some ⟨0x047, ty.code, 0, true, [a, b], []⟩
  | .neg ty a => some ⟨0x048, ty.code, 0, true, [a], []⟩
  | .abs ty a => some ⟨0x049, ty.code, 0, true, [a], []⟩
  | .smin ty a b => some ⟨0x04A, ty.code, 0, true, [a, b], []⟩
  | .smax ty a b => some ⟨0x04B, ty.code, 0, true, [a, b], []⟩
  | .umin ty a b => some ⟨0x04C, ty.code, 0, true, [a, b], []⟩
  | .umax ty a b => some ⟨0x04D, ty.code, 0, true, [a, b], []⟩
  | .addsat s ty a b => some ⟨0x04E, ty.code, s.toNat, true, [a, b], []⟩
  | .subsat s ty a b => some ⟨0x04F, ty.code, s.toNat, true, [a, b], []⟩
  | .and ty a b => some ⟨0x050, ty.code, 0, true, [a, b], []⟩
  | .or ty a b => some ⟨0x051, ty.code, 0, true, [a, b], []⟩
  | .xor ty a b => some ⟨0x052, ty.code, 0, true, [a, b], []⟩
  | .not ty a => some ⟨0x053, ty.code, 0, true, [a], []⟩
  | .shl ty a b => some ⟨0x054, ty.code, 0, true, [a, b], []⟩
  | .lshr ty a b => some ⟨0x055, ty.code, 0, true, [a, b], []⟩
  | .ashr ty a b => some ⟨0x056, ty.code, 0, true, [a, b], []⟩
  | .rotl ty a b => some ⟨0x057, ty.code, 0, true, [a, b], []⟩
  | .rotr ty a b => some ⟨0x058, ty.code, 0, true, [a, b], []⟩
  | .popc ty a => some ⟨0x059, ty.code, 0, true, [a], []⟩
  | .clz ty a => some ⟨0x05A, ty.code, 0, true, [a], []⟩
  | .ctz ty a => some ⟨0x05B, ty.code, 0, true, [a], []⟩
  | .brev ty a => some ⟨0x05C, ty.code, 0, true, [a], []⟩
  | .bswap ty a => some ⟨0x05D, ty.code, 0, true, [a], []⟩
  | .bfext s ty x p l => some ⟨0x05E, ty.code, s.toNat, true, [x, p, l], []⟩
  | .bfins ty x y p l => some ⟨0x05F, ty.code, 0, true, [x, y, p, l], []⟩
  | .icmp c ty a b => some ⟨0x060, ty.code, c.code, true, [a, b], []⟩
  | .select ty c a b => some ⟨0x061, ty.code, 0, true, [c, a, b], []⟩
  | .zext ty v => some ⟨0x062, ty.code, 0, true, [.val v], []⟩
  | .sext ty v => some ⟨0x063, ty.code, 0, true, [.val v], []⟩
  | .trunc ty v => some ⟨0x064, ty.code, 0, true, [.val v], []⟩
  | .mad s ty a b c => some ⟨0x065, ty.code, s.toNat, true, [a, b, c], []⟩
  | .ptradd p o => some ⟨0x070, 16, 0, true, [p, o], []⟩
  | .ptrdiff a b => some ⟨0x071, 16, 0, true, [a, b], []⟩
  | .ptrtag p => some ⟨0x072, 16, 0, true, [p], []⟩
  | .ptrsettag p t => some ⟨0x073, 16, 0, true, [p, t], []⟩
  | .ptrtoint p => some ⟨0x074, 16, 0, true, [p], []⟩
  | .inttoptr x => some ⟨0x075, 16, 0, true, [x], []⟩
  | .mov ty a => some ⟨0x076, ty.code, 0, true, [a], []⟩
  | .fadd rm ty a b => some ⟨0x0C0, ty.code, rm.code, true, [a, b], []⟩
  | .fsub rm ty a b => some ⟨0x0C1, ty.code, rm.code, true, [a, b], []⟩
  | .fmul rm ty a b => some ⟨0x0C2, ty.code, rm.code, true, [a, b], []⟩
  | .fdiv rm ty a b => some ⟨0x0C3, ty.code, rm.code, true, [a, b], []⟩
  | .fma rm ty a b c => some ⟨0x0C4, ty.code, rm.code, true, [a, b, c], []⟩
  | .fsqrt rm ty a => some ⟨0x0C5, ty.code, rm.code, true, [a], []⟩
  | .fmin ty a b => some ⟨0x0C6, ty.code, 0, true, [a, b], []⟩
  | .fmax ty a b => some ⟨0x0C7, ty.code, 0, true, [a, b], []⟩
  | .fneg ty a => some ⟨0x0C8, ty.code, 0, true, [a], []⟩
  | .fabs ty a => some ⟨0x0C9, ty.code, 0, true, [a], []⟩
  | .fcopysign ty a b => some ⟨0x0CA, ty.code, 0, true, [a, b], []⟩
  | .fcmp c ty a b => some ⟨0x0CB, ty.code, c.code, true, [a, b], []⟩
  | .fclass ty a => some ⟨0x0CC, ty.code, 0, true, [a], []⟩
  | .frint rm ty a => some ⟨0x0CD, ty.code, rm.code, true, [a], []⟩
  | .fdot2 rm ty a b c => some ⟨0x0CE, ty.code, rm.code, true, [a, b, c], []⟩
  | .fdot4 rm ty a b c => some ⟨0x0CF, ty.code, rm.code, true, [a, b, c], []⟩
  | .frcp rm ty a => some ⟨0x0D0, ty.code, rm.code, true, [a], []⟩
  | .frsqrt rm ty a => some ⟨0x0D1, ty.code, rm.code, true, [a], []⟩
  | .fexp2 rm ty a => some ⟨0x0D2, ty.code, rm.code, true, [a], []⟩
  | .flog2 rm ty a => some ⟨0x0D3, ty.code, rm.code, true, [a], []⟩
  | .fsin rm ty a => some ⟨0x0D4, ty.code, rm.code, true, [a], []⟩
  | .fcos rm ty a => some ⟨0x0D5, ty.code, rm.code, true, [a], []⟩
  | .ftanh rm ty a => some ⟨0x0D6, ty.code, rm.code, true, [a], []⟩
  | .cvt rm sat sgn ty v => some ⟨0x140, ty.code, modF rm sat sgn, true, [.val v], []⟩
  | .bitcast ty v => some ⟨0x141, ty.code, 0, true, [.val v], []⟩
  | .pack ty es => some ⟨0x142, ty.code, 0, true, es, []⟩
  | .unpack k ty x => some ⟨0x143, ty.code, k.toNat, true, [x], []⟩
  | .insert k ty x e => some ⟨0x144, ty.code, k.toNat, true, [x, e], []⟩
  | .bsquant rm ty a b c => some ⟨0x145, ty.code, rm.code, false, [a, b, c], []⟩
  | .bsdequant rm ty a b c => some ⟨0x146, ty.code, rm.code, false, [a, b, c], []⟩
  | .laneid => some ⟨0x180, 4, 0, true, [], []⟩
  | .waveid => some ⟨0x181, 4, 0, true, [], []⟩
  | .groupid => some ⟨0x182, 4, 0, true, [], []⟩
  | .gridid k => some ⟨0x183, 4, k.code, true, [], []⟩
  | .activemask => some ⟨0x184, 19, 0, true, [], []⟩
  | .quadswap dir ty x => some ⟨0x185, ty.code, dir.code, true, [x], []⟩
  | .quadbcast ty x k => some ⟨0x186, ty.code, 0, true, [x, k], []⟩
  | .shfl m cl ty x i => some ⟨0x187, ty.code, m.code + 4 * cl.toNat, true, [x, i], []⟩
  | .ballot c => some ⟨0x188, 1, 0, true, [c], []⟩
  | .vote op c => some ⟨0x189, 1, op.code, true, [c], []⟩
  | .matchLanes ty x => some ⟨0x18A, ty.code, 0, true, [x], []⟩
  | .wred op rm ty x => some ⟨0x18B, ty.code, op.code + 16 * rm.code, true, [x], []⟩
  | .wscan op rm ex ty x => some ⟨0x18C, ty.code, op.code + 16 * rm.code + 128 * ex.toNat, true, [x], []⟩
  | .elect => some ⟨0x18D, 1, 0, true, [], []⟩
  | .wbar => some ⟨0x18E, 0, 0, false, [], []⟩
  | .gbar => some ⟨0x18F, 0, 0, false, [], []⟩
  | .rand ty => some ⟨0x190, ty.code, 0, true, [], []⟩
  | .randseed x => some ⟨0x191, 5, 0, false, [x], []⟩
  | .bcast ty x => some ⟨0x192, ty.code, 0, true, [x], []⟩
  | .ld nt sc o ty p => some ⟨0x200, ty.code, modM sc o nt.toNat, true, [p], []⟩
  | .st nt sc o ty p v => some ⟨0x201, ty.code, modM sc o nt.toNat, false, [p, v], []⟩
  | .ldlay sc ty l p i j k => some ⟨0x202, ty.code, modM sc .relaxed 0, true, [.val l, p, i, j, k], []⟩
  | .stlay sc ty l p i j k v => some ⟨0x203, ty.code, modM sc .relaxed 0, false, [.val l, p, i, j, k, v], []⟩
  | .laymake a b c d e f => some ⟨0x204, 17, 0, true, [a, b, c, d, e, f], []⟩
  | .atom op sc o ty p v => some ⟨0x208, ty.code, modM sc o op.code, true, [p, v], []⟩
  | .xchg sc o ty p v => some ⟨0x209, ty.code, modM sc o 0, true, [p, v], []⟩
  | .cas sc o ty p e v => some ⟨0x20A, ty.code, modM sc o 0, true, [p, e, v], []⟩
  | .fatom op sc o ty p v => some ⟨0x20B, ty.code, modM sc o op.code, true, [p, v], []⟩
  | .fence sc o => some ⟨0x20C, 0, modM sc o 0, false, [], []⟩
  | .tagld p => some ⟨0x210, 2, 0, true, [p], []⟩
  | .tagst p t => some ⟨0x211, 2, 0, false, [p, t], []⟩
  | .watchset a b c => some ⟨0x214, 4, 0, true, [a, b, c], []⟩
  | .watchclr a => some ⟨0x215, 4, 0, true, [a], []⟩
  | .prefetch sc p => some ⟨0x218, 0, modM sc .relaxed 0, false, [p], []⟩
  | .cbinit n sc a b c d => some ⟨0x280, 18, n.toNat + 16 * sc.code, true, [a, b, c, d], []⟩
  | .cbwait r h n => some ⟨0x281, 0, r.toNat, false, [.val h, n], []⟩
  | .cbadv h n => some ⟨0x282, 0, 0, false, [.val h, n], []⟩
  | .cbstat k h => some ⟨0x283, k.ty.code, k.code, true, [.val h], []⟩
  | .acopy s h d x l => some ⟨0x288, 0, s.code, false, [.val h, d, x, l], []⟩
  | .agather z s h d w n i c => some ⟨0x289, 0, z.toNat + 4 * s.toNat, false, [.val h, d, w, n, i, c], []⟩
  | .ascatter z s h w x n i c => some ⟨0x28A, 0, z.toNat + 4 * s.toNat, false, [.val h, w, x, n, i, c], []⟩
  | .kstart k ty op ex h a b c d =>
      some ⟨0x28C, 0, k.code + 4 * ty.code + 32 * op.code + 128 * ex.toNat, false, [.val h, a, b, c, d], []⟩
  | .mxlease n => some ⟨0x290, 0, 0, false, [n], []⟩
  | .mxrel => some ⟨0x291, 2, 0, true, [], []⟩
  | .mxldb n b bs kb => some ⟨0x292, 0, n.toNat, false, [b, bs, kb], []⟩
  | .mxzero sh t => some ⟨0x293, 0, sh.code, false, [t], []⟩
  | .mxst sh c t d s => some ⟨0x294, 0, sh.code + 4 * c.toNat, false, [t, d, s], []⟩
  | .mxmma sh t a x kb => some ⟨0x295, 0, sh.code, false, [t, a, x, kb], []⟩
  | .mxsmma sh t a x kb => some ⟨0x296, 0, sh.code, false, [t, a, x, kb], []⟩
  | .mxtma sh t a kb => some ⟨0x297, 0, sh.code, false, [t, a, kb], []⟩
  | .mxfmt i => some ⟨0x298, 0, 0, false, [i], []⟩
  | .sysread k => some ⟨0x300, 5, k.code, true, [], []⟩
  | .spawn q d => some ⟨0x301, 4, 0, true, [q, d], []⟩
  | .ccwait sc c v => some ⟨0x302, 0, sc.code, false, [c, v], []⟩
  | .ccadd sc c v => some ⟨0x303, 0, sc.code, false, [c, v], []⟩
  | .gatecall d g b l args => some ⟨0x308, 5, d.code, true, g :: b :: l :: args, []⟩
  | .gateret v => some ⟨0x309, 5, 0, false, [v], []⟩
  | .xprefetch f i l => some ⟨0x310, 0, 0, false, [f, i, l], []⟩
  | .ecount a b c => some ⟨0x318, 0, 0, false, [a, b, c], []⟩
  | .xrtlook a b c => some ⟨0x319, 5, 0, true, [a, b, c], []⟩
  | .xrtverCur a => some ⟨0x31A, 5, 0, true, [a], []⟩
  | .xrtverChk a b c d => some ⟨0x31A, 5, 1, true, [a, b, c, d], []⟩
  | .xrtverDone a d => some ⟨0x31A, 5, 2, true, [a, d], []⟩
  | .rmerge e h a b c d => some ⟨0x31B, 0, e.toNat, false, [.val h, a, b, c, d], []⟩
  | _ => none

/-! ### From the fields to an instruction -/

/-- One operand. -/
def opnds1 (l : List Opnd) (k : Opnd → Option Instr) : Option Instr :=
  match l with
  | [a] => k a
  | _ => none

/-- Two operands. -/
def opnds2 (l : List Opnd) (k : Opnd → Opnd → Option Instr) : Option Instr :=
  match l with
  | [a, b] => k a b
  | _ => none

/-- Three operands. -/
def opnds3 (l : List Opnd) (k : Opnd → Opnd → Opnd → Option Instr) : Option Instr :=
  match l with
  | [a, b, c] => k a b c
  | _ => none

/-- Four operands. -/
def opnds4 (l : List Opnd) (k : Opnd → Opnd → Opnd → Opnd → Option Instr) : Option Instr :=
  match l with
  | [a, b, c, d] => k a b c d
  | _ => none

/-- A value reference first, then four more operands at most. -/
def handleOps (l : List Opnd) (k : BitVec 24 → List Opnd → Option Instr) : Option Instr :=
  match l with
  | .val h :: r => k h r
  | _ => none

/-- A value reference alone. -/
def valueOp (l : List Opnd) (k : BitVec 24 → Instr) : Option Instr :=
  match l with
  | [.val v] => some (k v)
  | _ => none

/-- Control instructions (04 R101). `trap` has TYPE 0 and no operand, or TYPE i32 and one immediate: 04 R101 gives the types and the
counts without saying which go together (the model's choice, log entry 22). -/
def rawControl (r : Raw) : Option Instr :=
  match r.op, r.opnds, r.targets with
  | 0x001, [], [t] => some (.br t)
  | 0x002, [c], [t, f] => some (.brc c t f)
  | 0x003, [i], ts =>
    match Ty.ofCode r.ty with
    | none => none
    | some ty =>
      if r.mod % 2 = 1 then (match ts with | d :: ts' => some (.switch ty i (some d) ts') | [] => none)
      else some (.switch ty i none ts)
  | 0x004, [], [] => some .ret
  | 0x004, [v], [] => (Ty.ofCode r.ty).map (.retValue · v)
  | 0x005, [], [] => some .exit
  | 0x006, .sym f :: args, [] =>
    match Ty.ofCode r.ty with
    | none => some (.call none f args)
    | some ty => some (.call (some ty) f args)
  | 0x007, [], [] => some .trap
  | 0x007, [.imm c], [] => some (.trapCode c)
  | 0x008, [], [] => some .flagrd
  | 0x009, [m], [] => some (.flagclr m)
  | _, _, _ => none

/-- Integer and address instructions (04 R110 to R120). -/
def rawInteger (r : Raw) (ty : Ty) : Option Instr :=
  let l := r.opnds
  let s := r.mod % 2 == 1
  match r.op with
  | 0x040 => opnds2 l fun a b => some (.add ty a b)
  | 0x041 => opnds2 l fun a b => some (.sub ty a b)
  | 0x042 => opnds2 l fun a b => some (.mul ty a b)
  | 0x043 => opnds2 l fun a b => some (.mulhi s ty a b)
  | 0x044 => opnds2 l fun a b => some (.sdiv ty a b)
  | 0x045 => opnds2 l fun a b => some (.udiv ty a b)
  | 0x046 => opnds2 l fun a b => some (.srem ty a b)
  | 0x047 => opnds2 l fun a b => some (.urem ty a b)
  | 0x048 => opnds1 l fun a => some (.neg ty a)
  | 0x049 => opnds1 l fun a => some (.abs ty a)
  | 0x04A => opnds2 l fun a b => some (.smin ty a b)
  | 0x04B => opnds2 l fun a b => some (.smax ty a b)
  | 0x04C => opnds2 l fun a b => some (.umin ty a b)
  | 0x04D => opnds2 l fun a b => some (.umax ty a b)
  | 0x04E => opnds2 l fun a b => some (.addsat s ty a b)
  | 0x04F => opnds2 l fun a b => some (.subsat s ty a b)
  | 0x050 => opnds2 l fun a b => some (.and ty a b)
  | 0x051 => opnds2 l fun a b => some (.or ty a b)
  | 0x052 => opnds2 l fun a b => some (.xor ty a b)
  | 0x053 => opnds1 l fun a => some (.not ty a)
  | 0x054 => opnds2 l fun a b => some (.shl ty a b)
  | 0x055 => opnds2 l fun a b => some (.lshr ty a b)
  | 0x056 => opnds2 l fun a b => some (.ashr ty a b)
  | 0x057 => opnds2 l fun a b => some (.rotl ty a b)
  | 0x058 => opnds2 l fun a b => some (.rotr ty a b)
  | 0x059 => opnds1 l fun a => some (.popc ty a)
  | 0x05A => opnds1 l fun a => some (.clz ty a)
  | 0x05B => opnds1 l fun a => some (.ctz ty a)
  | 0x05C => opnds1 l fun a => some (.brev ty a)
  | 0x05D => opnds1 l fun a => some (.bswap ty a)
  | 0x05E => opnds3 l fun a b c => some (.bfext s ty a b c)
  | 0x05F => opnds4 l fun a b c d => some (.bfins ty a b c d)
  | 0x060 => opnds2 l fun a b => (ICond.ofCode r.mod).map (.icmp · ty a b)
  | 0x061 => opnds3 l fun a b c => some (.select ty a b c)
  | 0x062 => valueOp l (.zext ty)
  | 0x063 => valueOp l (.sext ty)
  | 0x064 => valueOp l (.trunc ty)
  | 0x065 => opnds3 l fun a b c => some (.mad s ty a b c)
  | 0x070 => opnds2 l fun a b => some (.ptradd a b)
  | 0x071 => opnds2 l fun a b => some (.ptrdiff a b)
  | 0x072 => opnds1 l fun a => some (.ptrtag a)
  | 0x073 => opnds2 l fun a b => some (.ptrsettag a b)
  | 0x074 => opnds1 l fun a => some (.ptrtoint a)
  | 0x075 => opnds1 l fun a => some (.inttoptr a)
  | 0x076 => opnds1 l fun a => some (.mov ty a)
  | _ => none

/-- Floating-point instructions (04 R121 to R129). -/
def rawFloat (r : Raw) (ty : Ty) : Option Instr :=
  let l := r.opnds
  match r.op with
  | 0x0C6 => opnds2 l fun a b => some (.fmin ty a b)
  | 0x0C7 => opnds2 l fun a b => some (.fmax ty a b)
  | 0x0C8 => opnds1 l fun a => some (.fneg ty a)
  | 0x0C9 => opnds1 l fun a => some (.fabs ty a)
  | 0x0CA => opnds2 l fun a b => some (.fcopysign ty a b)
  | 0x0CB => opnds2 l fun a b => (FCond.ofCode r.mod).map (.fcmp · ty a b)
  | 0x0CC => opnds1 l fun a => some (.fclass ty a)
  | _ =>
    match Rm.ofCode r.mod with
    | none => none
    | some rm =>
      match r.op with
      | 0x0C0 => opnds2 l fun a b => some (.fadd rm ty a b)
      | 0x0C1 => opnds2 l fun a b => some (.fsub rm ty a b)
      | 0x0C2 => opnds2 l fun a b => some (.fmul rm ty a b)
      | 0x0C3 => opnds2 l fun a b => some (.fdiv rm ty a b)
      | 0x0C4 => opnds3 l fun a b c => some (.fma rm ty a b c)
      | 0x0C5 => opnds1 l fun a => some (.fsqrt rm ty a)
      | 0x0CD => opnds1 l fun a => some (.frint rm ty a)
      | 0x0CE => opnds3 l fun a b c => some (.fdot2 rm ty a b c)
      | 0x0CF => opnds3 l fun a b c => some (.fdot4 rm ty a b c)
      | 0x0D0 => opnds1 l fun a => some (.frcp rm ty a)
      | 0x0D1 => opnds1 l fun a => some (.frsqrt rm ty a)
      | 0x0D2 => opnds1 l fun a => some (.fexp2 rm ty a)
      | 0x0D3 => opnds1 l fun a => some (.flog2 rm ty a)
      | 0x0D4 => opnds1 l fun a => some (.fsin rm ty a)
      | 0x0D5 => opnds1 l fun a => some (.fcos rm ty a)
      | 0x0D6 => opnds1 l fun a => some (.ftanh rm ty a)
      | _ => none

/-- Conversion and packing (04 R130 to R135). -/
def rawConvert (r : Raw) (ty : Ty) : Option Instr :=
  let l := r.opnds
  match r.op with
  | 0x141 => valueOp l (.bitcast ty)
  | 0x142 => some (.pack ty l)
  | 0x143 => opnds1 l fun a => some (.unpack (BitVec.ofNat 4 r.mod) ty a)
  | 0x144 => opnds2 l fun a b => some (.insert (BitVec.ofNat 4 r.mod) ty a b)
  | _ =>
    match Rm.ofCode (r.mod % 8) with
    | none => none
    | some rm =>
      match r.op with
      | 0x140 => valueOp l (.cvt rm (r.mod / 8 % 2 == 1) (r.mod / 16 % 2 == 1) ty)
      | 0x145 => opnds3 l fun a b c => some (.bsquant rm ty a b c)
      | 0x146 => opnds3 l fun a b c => some (.bsdequant rm ty a b c)
      | _ => none

/-- Lane, quad and wave instructions that name a type of any kind (07 R185). -/
def rawWave (r : Raw) (ty : Ty) : Option Instr :=
  let l := r.opnds
  match r.op with
  | 0x185 => opnds1 l fun a => (QDir.ofCode r.mod).map (.quadswap · ty a)
  | 0x186 => opnds2 l fun a b => some (.quadbcast ty a b)
  | 0x187 => opnds2 l fun a b => some (.shfl (.ofCode (r.mod % 4)) (r.mod / 4 % 2 == 1) ty a b)
  | 0x188 => opnds1 l fun a => some (.ballot a)
  | 0x189 => opnds1 l fun a => (VoteOp.ofCode r.mod).map (.vote · a)
  | 0x18A => opnds1 l fun a => some (.matchLanes ty a)
  | 0x18B => opnds1 l fun a =>
      (RedOp.ofCode (r.mod % 16)).bind fun op => (Rm.ofCode (r.mod / 16 % 8)).map fun rm => .wred op rm ty a
  | 0x18C => opnds1 l fun a =>
      (RedOp.ofCode (r.mod % 16)).bind fun op => (Rm.ofCode (r.mod / 16 % 8)).map fun rm =>
        .wscan op rm (r.mod / 128 % 2 == 1) ty a
  | 0x190 => some (.rand ty)
  | 0x191 => opnds1 l fun a => some (.randseed a)
  | 0x192 => opnds1 l fun a => some (.bcast ty a)
  | _ => none

/-- Identity, election and barriers (07 R185). -/
def rawIdentity (r : Raw) : Option Instr :=
  match r.op with
  | 0x180 => some .laneid
  | 0x181 => some .waveid
  | 0x182 => some .groupid
  | 0x183 => (GridKey.ofCode r.mod).map .gridid
  | 0x184 => some .activemask
  | 0x18D => some .elect
  | 0x18E => some .wbar
  | 0x18F => some .gbar
  | _ => none

/-- Memory instructions of class M (11 R260). -/
def rawMemory (r : Raw) (ty : Ty) (sc : Scope) : Option Instr :=
  let l := r.opnds
  let o := Ord4.ofCode (r.mod / 8 % 4)
  let hi := r.mod / 32 % 8
  match r.op with
  | 0x200 => opnds1 l fun p => some (.ld (hi % 2 == 1) sc o ty p)
  | 0x201 => opnds2 l fun p v => some (.st (hi % 2 == 1) sc o ty p v)
  | 0x202 =>
    match l with
    | [.val x, p, i, j, k] => some (.ldlay sc ty x p i j k)
    | _ => none
  | 0x203 =>
    match l with
    | [.val x, p, i, j, k, v] => some (.stlay sc ty x p i j k v)
    | _ => none
  | 0x208 => opnds2 l fun p v => some (.atom (.ofCode hi) sc o ty p v)
  | 0x209 => opnds2 l fun p v => some (.xchg sc o ty p v)
  | 0x20A => opnds3 l fun p e v => some (.cas sc o ty p e v)
  | 0x20B => opnds2 l fun p v => (FAtomOp.ofCode hi).map (.fatom · sc o ty p v)
  | _ => none

/-- Memory instructions without a scope, and those without a type (11 R260). -/
def rawTagged (r : Raw) : Option Instr :=
  let l := r.opnds
  match r.op with
  | 0x204 =>
    match l with
    | [a, b, c, d, e, f] => some (.laymake a b c d e f)
    | _ => none
  | 0x20C => (Scope.ofCode (r.mod % 8)).map (.fence · (.ofCode (r.mod / 8 % 4)))
  | 0x210 => opnds1 l fun p => some (.tagld p)
  | 0x211 => opnds2 l fun p t => some (.tagst p t)
  | 0x214 => opnds3 l fun a b c => some (.watchset a b c)
  | 0x215 => opnds1 l fun a => some (.watchclr a)
  | 0x218 => opnds1 l fun p => (Scope.ofCode (r.mod % 8)).map (.prefetch · p)
  | _ => none

/-- Buffer and command instructions (13 R306). -/
def rawBuffer (r : Raw) : Option Instr :=
  let l := r.opnds
  match r.op with
  | 0x280 => opnds4 l fun a b c d =>
      (Scope.ofCode (r.mod / 16 % 8)).map (.cbinit (BitVec.ofNat 4 (r.mod % 16)) · a b c d)
  | 0x281 => handleOps l fun h l => opnds1 l fun n => some (.cbwait (r.mod % 2 == 1) h n)
  | 0x282 => handleOps l fun h l => opnds1 l fun n => some (.cbadv h n)
  | 0x288 => handleOps l fun h l => opnds3 l fun a b c => (SlotSel.ofCode r.mod).map (.acopy · h a b c)
  | 0x289 =>
    match l with
    | [.val h, a, b, c, d, e] => some (.agather (BitVec.ofNat 2 r.mod) (r.mod / 4 % 2 == 1) h a b c d e)
    | _ => none
  | 0x28A =>
    match l with
    | [.val h, a, b, c, d, e] => some (.ascatter (BitVec.ofNat 2 r.mod) (r.mod / 4 % 2 == 1) h a b c d e)
    | _ => none
  | 0x28C => handleOps l fun h l => opnds4 l fun a b c d =>
      (KType.ofCode (r.mod / 4 % 8)).bind fun t => (KOp.ofCode (r.mod / 32 % 4)).map fun op =>
        .kstart (.ofCode (r.mod % 4)) t op (r.mod / 128 % 2 == 1) h a b c d
  | _ => none

/-- Matrix instructions (13 R306). -/
def rawMatrix (r : Raw) : Option Instr :=
  let l := r.opnds
  let sh := Shape.ofCode (r.mod % 4)
  match r.op with
  | 0x290 => opnds1 l fun n => some (.mxlease n)
  | 0x291 => some .mxrel
  | 0x292 => opnds3 l fun a b c => some (.mxldb (r.mod % 2 == 1) a b c)
  | 0x293 => opnds1 l fun t => some (.mxzero sh t)
  | 0x294 => opnds3 l fun t d s => some (.mxst sh (r.mod / 4 % 2 == 1) t d s)
  | 0x295 => opnds4 l fun t a x kb => some (.mxmma sh t a x kb)
  | 0x296 => opnds4 l fun t a x kb => some (.mxsmma sh t a x kb)
  | 0x297 => opnds3 l fun t a kb => some (.mxtma sh t a kb)
  | 0x298 => opnds1 l fun i => some (.mxfmt i)
  | _ => none

/-- System and placement instructions (04 R137, 16 R373, 20 R437, 21 R463). -/
def rawSystem (r : Raw) : Option Instr :=
  let l := r.opnds
  match r.op with
  | 0x300 => (SysKey.ofCode r.mod).map .sysread
  | 0x301 => opnds2 l fun a b => some (.spawn a b)
  | 0x302 => opnds2 l fun a b => (Scope.ofCode r.mod).map (.ccwait · a b)
  | 0x303 => opnds2 l fun a b => (Scope.ofCode r.mod).map (.ccadd · a b)
  | 0x308 =>
    match l with
    | g :: b :: n :: args => some (.gatecall (.ofCode (r.mod % 4)) g b n args)
    | _ => none
  | 0x309 => opnds1 l fun v => some (.gateret v)
  | 0x310 => opnds3 l fun a b c => some (.xprefetch a b c)
  | 0x318 => opnds3 l fun a b c => some (.ecount a b c)
  | 0x319 => opnds3 l fun a b c => some (.xrtlook a b c)
  | 0x31A =>
    match l with
    | [a] => some (.xrtverCur a)
    | [a, d] => some (.xrtverDone a d)
    | [a, b, c, d] => some (.xrtverChk a b c d)
    | _ => none
  | 0x31B => handleOps l fun h l => opnds4 l fun a b c d => some (.rmerge (r.mod % 2 == 1) h a b c d)
  | _ => none

/-- The instruction that the fields may stand for, by opcode group (03 R80). -/
def rawGroup (r : Raw) : Option Instr :=
  if r.op < 0x040 then rawControl r
  else if r.op < 0x0C0 then (Ty.ofCode r.ty).bind (rawInteger r)
  else if r.op < 0x140 then (Ty.ofCode r.ty).bind (rawFloat r)
  else if r.op < 0x180 then (Ty.ofCode r.ty).bind (rawConvert r)
  else if r.op < 0x200 then
    (match rawIdentity r with
     | some i => some i
     | none => (Ty.ofCode r.ty).bind (rawWave r))
  else if r.op < 0x280 then
    (match rawTagged r with
     | some i => some i
     | none => (Ty.ofCode r.ty).bind fun ty => (Scope.ofCode (r.mod % 8)).bind (rawMemory r ty))
  else if r.op = 0x283 then
    (match r.opnds with
     | [.val h] => (CbKey.ofCode r.mod).map (.cbstat · h)
     | _ => none)
  else if r.op < 0x290 then rawBuffer r
  else if r.op < 0x300 then rawMatrix r
  else rawSystem r

/-- Whether an opcode is defined in a portable instruction (03 R80, R81). -/
def opcodeDefined (op : Nat) : Bool :=
  (1 ≤ op && op ≤ 9) || (0x040 ≤ op && op ≤ 0x065) || (0x070 ≤ op && op ≤ 0x076) || (0x0C0 ≤ op && op ≤ 0x0D6) ||
  (0x140 ≤ op && op ≤ 0x146) || (0x180 ≤ op && op ≤ 0x192) || (0x200 ≤ op && op ≤ 0x204) || (0x208 ≤ op && op ≤ 0x20C) ||
  op == 0x210 || op == 0x211 || op == 0x214 || op == 0x215 || op == 0x218 || (0x280 ≤ op && op ≤ 0x283) ||
  (0x288 ≤ op && op ≤ 0x28A) || op == 0x28C || (0x290 ≤ op && op ≤ 0x298) || (0x300 ≤ op && op ≤ 0x303) ||
  op == 0x308 || op == 0x309 || op == 0x310 || (0x318 ≤ op && op ≤ 0x31B)

/-- The instruction of the fields: the one of its group that has exactly these fields and obeys its entry (03 R82). -/
def fromRaw (r : Raw) : Except DecodeErr Instr :=
  if opcodeDefined r.op then
    match rawGroup r with
    | some i => if i.toRaw = some r ∧ i.wellFormed = true then .ok i else .error .undefinedForm
    | none => .error .undefinedForm
  else .error .undefinedOpcode

/-- Decodes the instruction at the front of the words (03 R68 to R82). -/
def decode (ws : List Word) : Except DecodeErr (Decoded × List Word) :=
  match readRaw ws with
  | .error e => .error e
  | .ok (r, u, l, rest) =>
    match fromRaw r with
    | .error e => .error e
    | .ok i => .ok (⟨u, l, i⟩, rest)

/-- The words of an instruction with its hint and its debug line; none for a row without an encoding of its own. -/
def encode (d : Decoded) : Option (List Word) := d.ins.toRaw.map fun r => r.words d.uni d.line

/-- Little-endian words of a byte string; bytes past the last whole word are not read (00 R3). -/
def wordsOf : List Byte → List Word
  | a :: b :: c :: d :: r => (d ++ c ++ b ++ a : BitVec 32) :: wordsOf r
  | _ => []

/-- Little-endian bytes of words (00 R3). -/
def bytesOf : List Word → List Byte
  | [] => []
  | w :: r => w.extractLsb' 0 8 :: w.extractLsb' 8 8 :: w.extractLsb' 16 8 :: w.extractLsb' 24 8 :: bytesOf r

/-- Decodes the instruction at the front of a byte string. -/
def decodeBytes (bs : List Byte) : Except DecodeErr (Decoded × List Word) := decode (wordsOf bs)

/-! ### Native-only slots (15 R333 to R344) -/

/-- An S slot's fields (15 R333); `long` is S1 where S0L is set. -/
def readSSlot (w long : Word) : SSlot :=
  ⟨w.extractLsb' 30 2, w.extractLsb' 28 2, w.extractLsb' 22 6, w.extractLsb' 16 6, w.extractLsb' 10 6, long⟩

/-- A native-only operation of an S slot (15 R343). -/
def decodeNativeS (w long : Word) : Option Instr :=
  let f := readSSlot w long
  let i : Option Instr :=
    match (w.extractLsb' 0 10).toNat with
    | 0x381 => some (.nmovs f)
    | 0x383 =>
      if f.x = 3 ∧ f.w = 3 ∧ long.extractLsb' 3 5 = 0 then
        some (.nlit (long.extractLsb' 0 2) (long.getLsbD 2) f.d (long.extractLsb' 8 24) f.a f.b)
      else none
    | 0x386 => some (.nstg f)
    | 0x388 => if w.extractLsb' 12 4 = 0 then some (.nlcset (w.extractLsb' 10 2) f.x f.w f.b f.a) else none
    | _ => none
  i.bind fun i => if i.wellFormed then some i else none

/-- A native-only operation of a B slot (15 R339, R343). -/
def decodeNativeB (w : Word) : Option Instr :=
  let i : Option Instr :=
    match (w.extractLsb' 0 10).toNat with
    | 0x389 =>
      if w.extractLsb' 22 10 = 0 then some (.nloop (w.extractLsb' 10 2) (w.extractLsb' 12 6) (w.extractLsb' 18 4)) else none
    | 0x38A => if w.extractLsb' 14 18 = 0 then some (.nland (w.extractLsb' 10 4)) else none
    | 0x38B => if w.extractLsb' 10 22 = 0 then some .nxit else none
    | 0x38C => if w.extractLsb' 10 22 = 0 then some .ntrap else none
    | _ => none
  i.bind fun i => if i.wellFormed then some i else none

/-- The extension word of a V slot (15 R335). -/
def readVExt (x : BitVec 44) : VExt := ⟨x.getLsbD 43, x.extractLsb' 36 7, x.extractLsb' 32 4, x.extractLsb' 0 32⟩

/-- The TYPE of a V slot: code 0 names no type; none for an undefined code (03 R76; 15 R335). -/
def readVTy (c : Nat) : Option (Option Ty) := if c = 0 then some none else (Ty.ofCode c).map some

/-- A V slot's fields with its width code and extension word (15 R335); none for an undefined type. -/
def readVSlot (v : BitVec 44) (w : BitVec 2) (ext : Option (BitVec 44)) : Option VSlot :=
  (readVTy (v.extractLsb' 10 5).toNat).map fun ty =>
    ⟨w, v.extractLsb' 40 4, v.extractLsb' 37 3, v.extractLsb' 30 7, v.extractLsb' 23 7, v.extractLsb' 16 7, v.getLsbD 15,
      ty, ext.map readVExt⟩

/-- A native-only operation of a V slot (15 R343). -/
def decodeNativeV (v : BitVec 44) (w : BitVec 2) (ext : Option (BitVec 44)) : Option Instr :=
  (readVSlot v w ext).bind fun f =>
    let i : Option Instr :=
      match (v.extractLsb' 0 10).toNat with
      | 0x380 => some (.nmov f)
      | 0x382 => some (.nvtos f)
      | 0x387 => some (.nstgv f)
      | 0x38D => some (.nmask f)
      | 0x38E => some (.nmaskv f)
      | _ => none
    i.bind fun i => if i.wellFormed then some i else none

/-- The KIND of a spill (15 R344). -/
def SpillKind.ofCode : Nat → Option SpillKind
  | 0 => some .vector | 1 => some .scalar | 2 => some .mask
  | _ => none

/-- A native-only operation of an M slot (15 R344). -/
def decodeNativeM (m : BitVec 44) : Option Instr :=
  (SpillKind.ofCode (m.extractLsb' 10 5).toNat).bind fun k =>
    let i : Option Instr :=
      if m.extractLsb' 38 6 = 0 then
        match (m.extractLsb' 0 10).toNat with
        | 0x384 => some (.nspill k (m.extractLsb' 15 7) (m.extractLsb' 22 16))
        | 0x385 => some (.nfill k (m.extractLsb' 15 7) (m.extractLsb' 22 16))
        | _ => none
      else none
    i.bind fun i => if i.wellFormed then some i else none

/-- The words of an S slot with its opcode (15 R333). -/
def SSlot.word (f : SSlot) (op : Nat) : Word := f.x ++ f.w ++ f.b ++ f.a ++ f.d ++ BitVec.ofNat 10 op

/-- The S or B slot word of a native-only operation that has one, with the long word of S1 (15 R333, R339, R343). -/
def encodeNative : Instr → Option (Word × Word)
  | .nmovs f => some (f.word 0x381, f.long)
  | .nlit k c d imm a b =>
      some ((SSlot.mk 3 3 b a d 0).word 0x383, (imm ++ (0#5 ++ BitVec.ofBool c ++ k : BitVec 8) : BitVec 32))
  | .nstg f => some (f.word 0x386, f.long)
  | .nlcset n x w b a => some ((SSlot.mk x w b a (0#4 ++ n) 0).word 0x388, 0)
  | .nloop lc ii sc => some ((0#10 ++ sc ++ ii ++ lc ++ 0x389#10 : BitVec 32), 0)
  | .nland k => some ((0#18 ++ k ++ 0x38A#10 : BitVec 32), 0)
  | .nxit => some (0x38B#32, 0)
  | .ntrap => some (0x38C#32, 0)
  | _ => none

/-- The 44 bits of a V slot with its opcode (15 R335). -/
def VSlot.field (f : VSlot) (op : Nat) : BitVec 44 :=
  f.modl ++ f.mask ++ f.b ++ f.a ++ f.d ++ BitVec.ofBool f.bs ++ BitVec.ofNat 5 (match f.ty with | some t => t.code | none => 0) ++ BitVec.ofNat 10 op

/-- The 44 bits of the extension word of a V slot (15 R335). -/
def VExt.field (x : VExt) : BitVec 44 := BitVec.ofBool x.cs ++ x.c ++ x.modh ++ x.imm

/-- The V slot of a native-only operation that has one, with its width code and its extension word (15 R335, R343). -/
def encodeNativeV : Instr → Option (BitVec 44 × BitVec 2 × Option (BitVec 44))
  | .nmov f => some (f.field 0x380, f.w, f.ext.map VExt.field)
  | .nvtos f => some (f.field 0x382, f.w, f.ext.map VExt.field)
  | .nstgv f => some (f.field 0x387, f.w, f.ext.map VExt.field)
  | .nmask f => some (f.field 0x38D, f.w, f.ext.map VExt.field)
  | .nmaskv f => some (f.field 0x38E, f.w, f.ext.map VExt.field)
  | _ => none

/-- The KIND code of a spill (15 R344). -/
def SpillKind.code : SpillKind → Nat
  | .vector => 0 | .scalar => 1 | .mask => 2

/-- The M slot of a spill or a fill (15 R344). -/
def encodeNativeM : Instr → Option (BitVec 44)
  | .nspill k r si => some (0#6 ++ si ++ r ++ BitVec.ofNat 5 k.code ++ 0x384#10)
  | .nfill k r si => some (0#6 ++ si ++ r ++ BitVec.ofNat 5 k.code ++ 0x385#10)
  | _ => none

/-- The instruction that the decoder reads from the bits w of a table row, the words above being zeros. A native-only
row's word stands in an S or a B slot (15 R332). -/
def decodeTableWord (nbits w : Nat) : Option Instr :=
  let w := w % 2 ^ nbits
  let ws : List Word := (List.range 8).map fun k => BitVec.ofNat 32 (w / 2 ^ (32 * k))
  match decodeBytes (bytesOf ws) with
  | .ok (d, _) => some d.ins
  | .error _ =>
    match decodeNativeS (BitVec.ofNat 32 w) (BitVec.ofNat 32 (w / 2 ^ 32)) with
    | some i => some i
    | none => decodeNativeB (BitVec.ofNat 32 w)

end Sys2Proof
end

