-- ==== Sys2Proof/Machine/Maps.lean ====
section
/-! DEFINITION. Sparse maps in one canonical form: keys strictly rising, no entry equal to what an unlisted key reads as. -/
namespace Sys2Proof.Machine

/-- The value of key i; `d` is what an unlisted key reads as. -/
def mget {V : Type} (d : V) : List (Nat × V) → Nat → V
  | [], _ => d
  | (k, v) :: r, i => if k = i then v else mget d r i

/-- The entries of a map without key i. -/
def mdel {V : Type} (m : List (Nat × V)) (i : Nat) : List (Nat × V) := m.filter fun p => p.1 != i

/-- The entries of a map with key i at v, in rising order of keys. -/
def mput {V : Type} : List (Nat × V) → Nat → V → List (Nat × V)
  | [], i, v => [(i, v)]
  | (k, w) :: r, i, v =>
    if i < k then (i, v) :: (k, w) :: r
    else if i = k then (i, v) :: r
    else (k, w) :: mput r i v

/-- The map with key i at v; the value d of an unlisted key is not listed. -/
def mset {V : Type} [DecidableEq V] (d : V) (m : List (Nat × V)) (i : Nat) (v : V) : List (Nat × V) :=
  if v = d then mdel m i else mput m i v

/-- Every key of the map is above k. -/
def keysAbove {V : Type} (k : Nat) : List (Nat × V) → Bool
  | [] => true
  | (j, _) :: _ => k < j

/-- Keys rise strictly and no entry is what its key reads as when unlisted. -/
def mwf {V : Type} [DecidableEq V] (d : Nat → V) : List (Nat × V) → Bool
  | [] => true
  | (k, v) :: r => keysAbove k r && decide (v ≠ d k) && mwf d r

/-- A set of numbers with x added, in rising order. -/
def sadd : List Nat → Nat → List Nat
  | [], x => [x]
  | y :: r, x => if x < y then x :: y :: r else if x = y then y :: r else y :: sadd r x

/-- A set of numbers without x. -/
def sdel : List Nat → Nat → List Nat
  | [], _ => []
  | y :: r, x => if x = y then r else y :: sdel r x

/-- The i-th entry of a list, or d. -/
def nth {V : Type} (d : V) (l : List V) (i : Nat) : V := l.getD i d

/-- A list with its i-th entry changed by f. -/
def modNth {V : Type} (f : V → V) : List V → Nat → List V
  | [], _ => []
  | x :: r, 0 => f x :: r
  | x :: r, i + 1 => x :: modNth f r i

end Sys2Proof.Machine
end

