-- ==== Sys2Proof/Machine/Ops.lean ====
section
/-! DEFINITION. The named operations over the state: registers, units, runs of lanes, ending lanes, and taking a trap
(17 R378 to R382). -/
namespace Sys2Proof.Machine

/-- The outcome of a meaning. -/
abbrev Out := Host.Outcome State Fault Refusal

/-! ### Package and domain registers (22 R471, R472) -/

/-- What a package register reads as at reset, by its offset (22 R472; 20 R424, R425; 19 R404, R418; log entry 4). -/
def pregReset (off : Nat) : DWord :=
  if 0x4000 ≤ off ∧ off < 0x4400 then 0xFFFF#64 <<< 7
  else if 0x4400 ≤ off ∧ off < 0x4600 then 20
  else if off = 0x4600 then 50#64 <<< 20
  else if off = 0x4C20 then 3400
  else if 0x20000 ≤ off ∧ off < 0x100000 then (if off % 32 = 8 then 1#64 <<< 21 else 0)
  else if 0x100000 ≤ off ∧ off < 0x220000 then
    let o := (off - 0x100000) % 0x20000
    if o < 0x400 then BitVec.ofNat 64 (o / 8)
    else if o < 0x1000 then BitVec.ofNat 64 ((o - 0x400) / 8)
    else if o < 0x8000 then BitVec.ofNat 64 ((o - 0x1000) / 8 % 16)
    else BitVec.ofNat 64 ((o - 0x8000) / 8 % 64)
  else if 0x300000 ≤ off ∧ off < 0x300000 + 0x800 * 50 ∧ (off - 0x300000) % 0x800 = 8 * 65 then
    -- VC 65: RATE 64, MIN 64, DEPTH 192 (19 R412: DEPTH at most 192; log entry 4)
    (192#64 <<< 26) ||| (64#64 <<< 13) ||| 64#64
  else 0

/-- A package register. -/
def State.preg (s : State) (off : Nat) : DWord := mget (pregReset off) s.pregs off

/-- Writes a package register. -/
def State.setPreg (s : State) (off : Nat) (v : DWord) : State :=
  { s with pregs := mset (pregReset off) s.pregs off v }

/-- What a domain register reads as when the domain is created (22 R474; log entry 4). -/
def dregReset (off : Nat) : DWord := if off = 0x1C8 then 0x3F else 0

/-- The key of a register of a domain's block. -/
def dregKey (d off : Nat) : Nat := d * 0x10000 + off

/-- A register of a domain's block. -/
def State.dreg (s : State) (d off : Nat) : DWord := mget (dregReset off) s.dregs (dregKey d off)

/-- Writes a register of a domain's block. -/
def State.setDreg (s : State) (d off : Nat) (v : DWord) : State :=
  { s with dregs := mset (dregReset off) s.dregs (dregKey d off) v }

/-- Bits [lo+n-1:lo] of a register. -/
def field (v : DWord) (lo n : Nat) : Nat := v.toNat / 2 ^ lo % 2 ^ n

/-- A register with bits [lo+n-1:lo] set to x. -/
def setField (v : DWord) (lo n x : Nat) : DWord :=
  BitVec.ofNat 64 (v.toNat - field v lo n * 2 ^ lo + x % 2 ^ n * 2 ^ lo)

/-- DOMCFG of a domain (20 R424). -/
def State.domcfg (s : State) (d : Nat) : DWord := s.preg (0x4000 + 8 * d)

/-- GEN of a domain (20 R424). -/
def State.gen (s : State) (d : Nat) : Nat := field (s.domcfg d) 32 16

/-- The partition a domain is bound to (20 R424). -/
def State.partOf (s : State) (d : Nat) : Nat := field (s.domcfg d) 0 5

/-- Whether a domain exists: domain 0, or a tenant whose DOMCFG is VALID (20 R421, R424). -/
def State.domValid (s : State) (d : Nat) : Bool := d == 0 || (d ≤ 64 && field (s.domcfg d) 5 1 == 1)

/-- CORECFG of a core (20 R424). -/
def State.corecfg (s : State) (c : Nat) : DWord := s.preg (8 * c)

/-- Whether a core is split (20 R424). -/
def State.isSplit (s : State) (c : Nat) : Bool := field (s.corecfg c) 11 1 == 1

/-- The partition of a core or of a half of it; none where the core belongs to no partition (20 R424, R428). -/
def State.corePart (s : State) (c half : Nat) : Option Nat :=
  if field (s.corecfg c) 0 1 = 1 then
    some (if half = 1 ∧ s.isSplit c then field (s.corecfg c) 6 5 else field (s.corecfg c) 1 5)
  else none

/-- The logical die of a core index 128 × die + 8 × cluster + core (22 R472). -/
def dieOf (c : Nat) : Nat := c / 128

/-- The cluster key of a core. -/
def clusterOf (c : Nat) : Nat := c / 8

/-- Whether a logical die is a W3 compute die (19 R403). -/
def isW3 (die : Nat) : Bool := 1 ≤ die && die ≤ 6

/-- DPRA, DPRB and the regulator of entry e of core c (22 R472). -/
def State.dpra (s : State) (c e : Nat) : DWord := s.preg (0x20000 + 256 * c + 32 * e)
def State.dprb (s : State) (c e : Nat) : DWord := s.preg (0x20000 + 256 * c + 32 * e + 8)
def State.l2reg (s : State) (c e : Nat) : DWord := s.preg (0x20000 + 256 * c + 32 * e + 16)

/-- The valid DPR entry of a domain on a core and half (20 R425, R426). -/
def State.dprOf (s : State) (c half d : Nat) : Option Nat :=
  (List.range 8).find? fun e =>
    let a := s.dpra c e
    field a 7 1 == 1 && field a 0 7 == d && field a 8 1 == (if s.isSplit c then half else 0)

/-! ### Units of the package -/

/-- What the device keeps for a domain. -/
def State.dom (s : State) (d : Nat) : Dom := mget Dom.reset s.doms d

/-- Changes what the device keeps for a domain. -/
def State.modDom (d : Nat) (f : Dom → Dom) (s : State) : State :=
  { s with doms := mset Dom.reset s.doms d (f (s.dom d)) }

/-- A core's state. -/
def State.coreSt (s : State) (c : Nat) : CoreSt := mget CoreSt.reset s.cores c

/-- Changes a core's state. -/
def State.modCore (c : Nat) (f : CoreSt → CoreSt) (s : State) : State :=
  { s with cores := mset CoreSt.reset s.cores c (f (s.coreSt c)) }

/-- A cluster's state. -/
def State.cluster (s : State) (k : Nat) : ClusterSt := mget ClusterSt.reset s.clusters k

/-- Changes a cluster's state. -/
def State.modCluster (k : Nat) (f : ClusterSt → ClusterSt) (s : State) : State :=
  { s with clusters := mset ClusterSt.reset s.clusters k (f (s.cluster k)) }

/-- A group by its identifier. -/
def State.group? (s : State) (gid : Nat) : Option Group := s.groups.find? (·.gid == gid)

/-- The groups with group gid changed by f. -/
def modGroups (gid : Nat) (f : Group → Group) (gs : List Group) : List Group :=
  gs.map fun g => if g.gid = gid then f g else g

/-- Changes a group. -/
def State.modGroup (gid : Nat) (f : Group → Group) (s : State) : State :=
  { s with groups := modGroups gid f s.groups }

/-- Changes wave w of a group. -/
def Group.modWave (w : Nat) (f : Wave → Wave) (g : Group) : Group := { g with waves := modNth f g.waves w }

/-- Changes wave w of group gid. -/
def State.modWave (gid w : Nat) (f : Wave → Wave) (s : State) : State := s.modGroup gid (Group.modWave w f)

/-- Wave w of group gid. -/
def State.wave? (s : State) (gid w : Nat) : Option Wave := (s.group? gid).bind fun g => g.waves[w]?

/-- Changes every lane of a wave, by its number. -/
def Wave.mapLanes (f : Nat → Lane → Lane) (w : Wave) : Wave := { w with lanes := w.lanes.mapIdx f }

/-- Changes one lane of a wave. -/
def Wave.modLane (l : Nat) (f : Lane → Lane) (w : Wave) : Wave := { w with lanes := modNth f w.lanes l }

/-- Changes every lane of wave w of group gid, by its number. -/
def State.mapLanes (gid w : Nat) (f : Nat → Lane → Lane) (s : State) : State := s.modWave gid w (Wave.mapLanes f)

/-- A launch by its identifier. -/
def State.launch? (s : State) (i : Nat) : Option Launch := s.launches.find? (·.id == i)

/-- Changes a launch. -/
def State.modLaunch (i : Nat) (f : Launch → Launch) (s : State) : State :=
  { s with launches := s.launches.map fun l => if l.id = i then f l else l }

/-- A command by its identifier. -/
def State.cmd? (s : State) (i : Nat) : Option Cmd := s.cmds.find? (·.id == i)

/-- Changes a command. -/
def State.modCmd (i : Nat) (f : Cmd → Cmd) (s : State) : State :=
  { s with cmds := s.cmds.map fun c => if c.id = i then f c else c }

/-- A module of a domain by its handle. -/
def State.module? (s : State) (d h : Nat) : Option Module := s.modules.find? fun m => m.dom == d && m.handle == h

/-- A function of a module by its symbol index. -/
def Module.func? (m : Module) (f : Nat) : Option Func := m.funcs.find? (·.sym == f)

/-- A function of the module that a group runs. -/
def State.func? (s : State) (g : Group) (f : Nat) : Option Func := (s.module? g.dom g.modH).bind (·.func? f)

/-- Puts a step at the end of the agenda, once. -/
def State.due (i : Instr) (s : State) : State :=
  { s with agenda := if s.agenda.contains i then s.agenda else s.agenda ++ [i] }

/-- The time since package boot in nanoseconds (04 R137; log entry 9). -/
def State.now (s : State) : Nat := Config.timeAt s.steps - Config.timeAt s.booted

/-- Draws a fresh value that the spec leaves open (log entry 3). -/
def State.fresh (s : State) : DWord × State := (Config.freeWord s.free, { s with free := s.free + 1 })

/-- A fresh identifier. -/
def State.newId (s : State) : Nat × State := (s.nextId, { s with nextId := s.nextId + 1 })

/-- A write that is ignored and counted in a domain's block (22 R471). -/
def State.ignored (d : Nat) (s : State) : State := s.modDom d fun x => { x with ignored := x.ignored + 1 }

/-- An ignored configuration write: counted, and reported to domain 0 (20 R424). -/
def State.configError (off : Nat) (s : State) : State := { (s.ignored 0) with cfgErrors := s.cfgErrors ++ [off] }

/-! ### Masks of lanes -/

/-- The lanes of a mask, ascending. -/
def lanesOf (m : Word) : List Nat := (List.range 32).filter fun i => m.getLsbD i

/-- The mask of lanes. -/
def maskOf : List Nat → Word
  | [] => 0
  | l :: r => (1#32 <<< l) ||| maskOf r

/-- Bit i of a mask. -/
def inMask (m : Word) (i : Nat) : Bool := m.getLsbD i

/-- The kernel header word's fields (03 R85). -/
def Group.w16 (g : Group) : Bool := field g.hdr 0 1 == 1
def Group.eject (g : Group) : Nat := field g.hdr 1 4
def Group.ftz (g : Group) : Bool := field g.hdr 8 1 == 1
def Group.mxuse (g : Group) : Bool := field g.hdr 36 1 == 1

/-- The half of a lane in W16 mode, and 0 otherwise (05 R166). -/
def Group.halfOf (g : Group) (l : Nat) : Nat := if g.w16 then l / 16 else 0

/-- The mask of the lanes of one half, or of the wave. -/
def Group.halfMask (g : Group) (h : Nat) : Word :=
  if g.w16 then (if h = 0 then 0x0000FFFF#32 else 0xFFFF0000#32) else 0xFFFFFFFF#32

/-- The lanes of every half that has a lane in a mask. -/
def Group.halvesOf (g : Group) (m : Word) : Word :=
  (if (m &&& g.halfMask 0) = 0 then 0 else g.halfMask 0) ||| (if g.w16 ∧ (m &&& g.halfMask 1) ≠ 0 then g.halfMask 1 else 0)

/-- A choice point is due for the halves of some lanes (05 R145, R168). -/
def Wave.choiceDue (g : Group) (m : Word) (w : Wave) : Wave := { w with chosen := w.chosen &&& ~~~(g.halvesOf m) }

/-! ### Lanes -/

/-- A lane that counts for barriers (05 R159). -/
def Lane.counts (l : Lane) : Bool := l.st == .live && !l.helper

/-- A lane that has not ended. -/
def Lane.alive (l : Lane) : Bool := l.st == .live

/-- A lane that can issue (05 R144). -/
def Lane.eligible (l : Lane) : Bool := l.st == .live && l.park == .none && !l.ejected

/-- The innermost frame. -/
def Lane.top (l : Lane) : Frame := l.frames.headD ⟨0, 0, []⟩

/-- The portable point. -/
def Lane.point (l : Lane) : Nat × Nat := (l.top.func, l.top.idx)

/-- The outstanding calls, outermost first (05 R143). -/
def Lane.chain (l : Lane) : List (Nat × Nat) := ((l.frames.drop 1).map fun f => (f.func, f.idx)).reverse

/-- The sort key (05 R143). -/
def Lane.key (l : Lane) : List (Nat × Nat) := l.chain ++ [l.point]

/-- A lane with its innermost frame changed. -/
def Lane.modTop (f : Frame → Frame) (l : Lane) : Lane :=
  match l.frames with
  | [] => l
  | x :: r => { l with frames := f x :: r }

/-- The instruction of a function at a portable index: none where the point is a trap point or is absent (03 R82, R83). -/
def Func.instrAt (f : Func) (i : Nat) : Option (Instr × Point) :=
  match f.points[i]? with
  | none => none
  | some p =>
    if p.trap || f.whole then none
    else match decode (f.words.drop p.off) with
      | .ok (d, _) => some (d.ins, p)
      | .error _ => none

/-- The instruction at a portable point of a group's module. -/
def State.fetch (s : State) (g : Group) (pt : Nat × Nat) : Option (Instr × Point) := (s.func? g pt.1).bind fun f => f.instrAt pt.2

/-- A lane at the next portable index. -/
def Lane.advance (l : Lane) : Lane := l.modTop fun f => { f with idx := f.idx + 1 }

/-- A frame with a value defined. -/
def Frame.define (f : Frame) (n : Nat) (v : TVal) : Frame := { f with vals := mput f.vals n v }

/-- The value of a number in a frame. -/
def lookupVal : List (Nat × TVal) → Nat → Option TVal
  | [], _ => none
  | (k, v) :: r, n => if k = n then some v else lookupVal r n

/-- The issuing run with its group, wave and active lanes (05 R144). -/
structure Ctx where
  iss : Issue
  g : Group
  w : Wave
  /-- active lanes, helpers among them, ascending -/
  lanes : List Nat
  deriving DecidableEq, Repr

/-- The lanes of a wave that a mask names and that have not ended. -/
def activeLanes (w : Wave) (m : Word) : List Nat :=
  (lanesOf m).filter fun l => match w.lanes[l]? with | some x => x.alive | none => false

/-- The issuing run; none where no run issues. -/
def State.ctx? (s : State) : Option Ctx :=
  match s.issue with
  | none => none
  | some i =>
    match s.group? i.gid with
    | none => none
    | some g =>
      match g.waves[i.wave]? with
      | none => none
      | some w => some ⟨i, g, w, activeLanes w i.mask⟩

/-- Lane l of the issuing wave. -/
def Ctx.lane? (c : Ctx) (l : Nat) : Option Lane := c.w.lanes[l]?

/-- Whether lane l is a helper lane. -/
def Ctx.helper (c : Ctx) (l : Nat) : Bool := match c.lane? l with | some x => x.helper | none => false

/-- Active lanes that are not helper lanes. -/
def Ctx.ordinary (c : Ctx) : List Nat := c.lanes.filter fun l => !c.helper l

/-- Active helper lanes. -/
def Ctx.helpers (c : Ctx) : List Nat := c.lanes.filter fun l => c.helper l

/-- The domain under which the run acts. -/
def Ctx.dom (c : Ctx) : Nat := c.g.dom

/-! ### The native form -/

/-- Whether a TC address lies in the body of a loop (15 R349). -/
def Loop.inBody (p : Loop) (a : Nat) : Bool := p.body ≤ a && a < p.body + 64 * p.ii

/-- Lanes leave the native form; the context goes with the last of them, and a loop with the lanes that run in it (16 R371). -/
def dropNative (m : Word) (w : Wave) : Wave :=
  { w with native := w.native.bind fun n =>
      let ls := n.lanes.filter fun (i, _) => !inMask m i
      if ls.isEmpty then none else some { n with lanes := ls, loop := n.loop.filter fun p => ls.any fun x => p.inBody x.2.npc } }

/-- Whether a lane runs in the native form. -/
def Wave.isNative (w : Wave) (l : Nat) : Bool := match w.native with | some n => n.lanes.any fun (i, _) => i == l | none => false

/-- The eligible lanes of a wave that stand in the native form: those that a stop, a freeze or a fault on a gondola leaves running, up
to their next safe point (05 R157; 15 R353; 17 R387, R393). -/
def Wave.nativeLeft (w : Wave) : Word :=
  maskOf ((w.lanes.zipIdx.filter fun (x, i) => x.eligible && w.isNative i).map (·.2))

/-! ### Ending lanes and barriers (05 R159 to R163) -/

/-- Lanes of a half that count for barriers. -/
def liveLanes (g : Group) (w : Wave) (h : Nat) : List Lane :=
  (w.lanes.zipIdx.filter fun (x, i) => x.counts && inMask (g.halfMask h) i).map (·.1)

/-- A lane that a barrier releases goes on after its own barrier instruction. -/
def pastBarrier (x : Lane) : Lane := { x.advance with park := .none, age := 0 }

/-- Releases lanes of a half parked at a barrier of kind p. -/
def releaseBarrier (g : Group) (p : Park) (h : Nat) (w : Wave) : Wave :=
  { w.mapLanes (fun i x => if x.park = p ∧ inMask (g.halfMask h) i then pastBarrier x else x) with chosen := w.chosen &&& ~~~(g.halfMask h) }

/-- Whether a half's wave barrier is complete (05 R160). -/
def wbarDone (g : Group) (w : Wave) (h : Nat) : Bool :=
  let ls := liveLanes g w h
  !ls.isEmpty && ls.all (·.park == .wbar)

/-- Completes the wave barriers that are complete. -/
def completeWbar (g : Group) (w : Wave) : Wave :=
  let w := if wbarDone g w 0 then releaseBarrier g .wbar 0 w else w
  if g.w16 ∧ wbarDone g w 1 then releaseBarrier g .wbar 1 w else w

/-- Whether the group barrier is complete (05 R161). -/
def gbarDone (g : Group) : Bool :=
  let ls := g.waves.flatMap fun w => w.lanes.filter Lane.counts
  !ls.isEmpty && ls.all (·.park == .gbar)

/-- Completes the group barrier and the wave barriers that are complete. -/
def completeBarriers (g : Group) : Group :=
  let g := { g with waves := g.waves.map (completeWbar g) }
  if gbarDone g then
    { g with waves := g.waves.map fun w =>
        { w.mapLanes (fun _ x => if x.park = .gbar then pastBarrier x else x) with chosen := 0 } }
  else g

/-- Whether some set of a wave still holds lane l at its join. -/
def heldByOther (sets : List EjSet) (l : Nat) : Bool :=
  sets.any fun e => inMask e.waiting l && !e.timedOut && e.away != 0

/-- Drops sets that have ended and releases the lanes parked at a join that no set holds any more (05 R154, R155). -/
def releaseJoins (g : Group) (w : Wave) : Wave :=
  let freed := maskOf ((w.lanes.zipIdx.filter fun (x, i) => x.park == .join && !heldByOther w.ejSets i).map (·.2))
  let w' := w.mapLanes fun i x => if x.park = .join ∧ !heldByOther w.ejSets i then { x with park := .none, age := 0 } else x
  ({ w' with ejSets := w.ejSets.filter (fun e => e.away != 0) } : Wave).choiceDue g freed

/-- Takes lane l out of every rejoin set (05 R162). -/
def leaveSets (g : Group) (l : Nat) (w : Wave) : Wave :=
  let bit : Word := 1#32 <<< l
  releaseJoins g { w with ejSets := w.ejSets.map fun e => { e with away := e.away &&& ~~~bit, waiting := e.waiting &&& ~~~bit } }

/-- Takes a lane out of the cluster's queue and gondolas. -/
def dropEjected (gid w l : Nat) (k : ClusterSt) : ClusterSt :=
  { k with ejq := k.ejq.filter fun e => !(e.gid == gid && e.wave == w && e.lane == l) }

/-- A wave whose lanes have all ended: it has ended and its slot is free (05 R162). -/
def Wave.ended (w : Wave) : Bool := w.lanes.all fun x => !x.alive

/-- Whether every lane of a group has ended. -/
def Group.allEnded (g : Group) : Bool := g.waves.all Wave.ended

/-- After lanes have ended: barriers and joins that are now met are released, and a group whose last lane has ended is
due to end (05 R162; 13 R317). -/
def afterEnd (gid : Nat) (s : State) : State :=
  let s := s.modGroup gid completeBarriers
  match s.group? gid with
  | some g => if g.allEnded then s.due (.groupEnd gid) else s
  | none => s

/-- Ends lane l of a wave (05 R159, R162, R163). -/
def endLaneIn (g : Group) (killed : Bool) (l : Nat) (w : Wave) : Wave :=
  let out := match w.lanes[l]? with | some x => x.ejected | none => false
  let w := w.modLane l fun x =>
    if x.alive then { x with st := if killed then .killed else .exited, park := .none, ejected := false, frames := if killed then [] else x.frames }
    else x
  let w := leaveSets g l { w with dead := if killed then w.dead ||| (1#32 <<< l) else w.dead, gond := w.gond.filter fun n => n.1 != l }
  let w := dropNative (1#32 <<< l) (if out then w else w.choiceDue g (1#32 <<< l))
  { w with holds := w.holds.map fun h => { h with mask := h.mask &&& ~~~(1#32 <<< l) } }

/-- Ends a lane by `exit`, `ret` of the kernel body, or a kill. A killed lane marks its launch KILLED (06 R173) and, in a
gate context, gives the caller reason 9 (20 R440). A lane that has ended already stays as it is. -/
def endLane (killed : Bool) (gid w l : Nat) (s : State) : State :=
  match s.group? gid, s.wave? gid w with
  | some g0, some x =>
    if !(match x.lanes[l]? with | some y => y.alive | none => false) then s
    else
      let s := s.modWave gid w (endLaneIn g0 killed l)
      let s := match s.group? gid with
        | some g =>
          let s := s.modCluster (clusterOf g.core) (dropEjected gid w l)
          if killed then
            let s := s.modGroup gid fun g =>
              match g.gate with
              | some c => { g with gate := some { c with reason := if c.reason = 0 then 9 else c.reason, lane := min c.lane l } }
              | none => g
            s.modLaunch g.launch fun x => { x with killed := true }
          else s
        | none => s
      afterEnd gid s
  | _, _ => s

/-- Kills every live lane of a wave. -/
def killWaveLanes (gid w : Nat) (s : State) : State := (List.range 32).foldl (fun s l => endLane true gid w l s) s

/-- Kills every live lane of a group (17 R388). -/
def killGroup (gid : Nat) (s : State) : State :=
  match s.group? gid with
  | none => s
  | some g => (List.range g.waves.length).foldl (fun s w => killWaveLanes gid w s) s

/-! ### Fault records (17 R378 to R381) -/

/-- A fault outside R214. -/
def FaultInfo.plain (code lane : Nat) (addr : DWord) : FaultInfo := ⟨code, lane, 0, 0, addr, 0, none⟩

/-- The class of a fault (17 R378). -/
def faultClass (code : Nat) : Nat :=
  if code = 7 ∨ code = 8 then 2
  else if code = 9 ∨ code = 10 then 3
  else if code = 3 ∨ code = 4 ∨ code = 5 ∨ code = 6 ∨ code = 16 then 1
  else 0

/-- The disposition of a domain for a class (17 R378, R379): DEBUG without a grant acts as QUEUE. -/
def State.disposition (s : State) (d cls : Nat) : Disp :=
  let x := s.dom d
  let p := if cls = 0 then x.dispProgram else if cls = 1 then x.dispMemory else if cls = 3 then x.dispDebug else .queue
  if p = .debug ∧ field (s.dreg d 0x1B0) 2 1 = 0 then .queue else p

/-- The OR of the flag words of the wave's lanes that have not ended, helpers apart (02 R65; 05 R142, R163). -/
def Wave.flagOr (w : Wave) : Byte :=
  w.lanes.foldl (fun a x => if x.counts then a ||| x.flags else a) 0

/-- LAUNCH of a fault record (17 R380). -/
def Launch.word (l : Launch) : Word := BitVec.ofNat 32 (l.queue % 32 + 32 * (l.ring % 2 ^ 27))

/-- LAUNCH of the launch that a group belongs to. -/
def State.launchWord (s : State) (g : Group) : Word :=
  match s.launch? g.launch with
  | some l => l.word
  | none => 0

/-- NATIVE of the privileged view: the TC byte address of the bundle, the slot, the cluster and the die (00 R8; 17 R380). -/
def nativeWord (g : Group) (b : Option Bind) : DWord :=
  match b with
  | none => 0
  | some b => BitVec.ofNat 64 (64 * b.line % 2 ^ 25 + b.slot % 16 * 2 ^ 25 + clusterOf g.core % 16 * 2 ^ 32 + dieOf g.core % 256 * 2 ^ 48)

/-- A report or kill notice that names no lane (17 R380, CLASS 4). -/
def report (code d : Nat) (addr : DWord) : FaultRec :=
  { code, cls := 4, lane := 0, check := 0, acc := 0, dom := d, flags := 0, addr, func := 0, index := 0, ifunc := 0,
    iindex := 0, group := 0, wave := 0, iwave := 0, depth := 0, dead := 0, run := 0, native := 0, launch := 0 }

/-- The next SEQ of a domain's trap queue. -/
def State.nextSeq (s : State) (d : Nat) : Word := (s.dom d).trapSeq + 1

/-- Queues a record for a domain's trap queue, in the order of the stops, and makes its write due (17 R381). Only the
queue of domain 0 gets the native view. -/
def postRecord (d : Nat) (r : FaultRec) (gid w : Nat) (s : State) : State :=
  let r := if d = 0 then r else { r with native := 0 }
  let s := s.modDom d fun x => { x with trapSeq := x.trapSeq + 1, trapPend := x.trapPend ++ [⟨r, x.trapSeq + 1, gid, w⟩] }
  s.due (.trapRecordWrite d)

/-- Posts a report of CLASS 4 to a domain. -/
def postReport (d : Nat) (r : FaultRec) (s : State) : State := postRecord d r 0 0 s

/-- A kill notice for a group (17 R388). -/
def killNotice (g : Group) (s : State) : State :=
  postReport g.dom { report 0 g.dom 0 with group := g.lin, launch := s.launchWord g } s

/-- The fault record of a run (17 R380), with DEAD as it stands. -/
def makeRecord (c : Ctx) (f : FaultInfo) (killed : Bool) (dead : Word) (s : State) : FaultRec :=
  let x := (c.lane? f.lane).getD ⟨.never, false, [], 0, ⟨0, 0, 0, 0⟩, .none, false, 0, none⟩
  let first := (c.lane? (c.lanes.headD f.lane)).getD x
  let p := if f.eng.isSome then first.point else x.point
  let pt := match c.iss.bind with
    | some b => (b.func, b.index)
    | none => p
  let (iw, il, ifn, iix) := f.eng.getD (c.iss.wave, f.lane, pt.1, pt.2)
  let named := match f.eng with
    | some _ => ((c.g.waves[iw]?).bind (·.lanes[il]?)).getD x
    | none => x
  { code := f.code, cls := faultClass f.code,
    lane := BitVec.ofNat 8 (il % 32 + 32 * c.iss.gondola.toNat + 64 * f.eng.isSome.toNat + 128 * killed.toNat),
    check := f.check, acc := f.acc, dom := c.g.dom, flags := c.w.flagOr, addr := f.addr,
    func := pt.1, index := pt.2, ifunc := ifn, iindex := iix, group := c.g.lin, wave := c.iss.wave, iwave := iw,
    depth := (named.frames.length - 1) % 128 + 256 * f.entry, dead, run := maskOf c.lanes,
    native := nativeWord c.g c.iss.bind, launch := s.launchWord c.g }

/-! ### Trace records (17 R394) -/

/-- Little-endian bytes of a number. -/
def leBytes : Nat → Nat → List Byte
  | 0, _ => []
  | n + 1, x => BitVec.ofNat 8 x :: leBytes n (x / 256)

/-- A trace record of a run; its write is part of the step. It waits in the domain's list until the ring is written by
the record writer of Traps (17 R394). -/
def traceRecord (kind lane w d g f i : Nat) (mask : Word) (aux : Nat) (stamp : DWord) : List Byte :=
  leBytes 1 kind ++ leBytes 1 lane ++ leBytes 1 w ++ leBytes 1 d ++ leBytes 4 g ++ leBytes 4 f ++ leBytes 4 i ++
  leBytes 4 mask.toNat ++ leBytes 4 aux ++ leBytes 8 stamp.toNat

/-! ### Taking a trap -/

/-- Stops a wave at a trap of a run: no run is chosen, the run leaves the native form, and the wave waits for a resume word in
the queue that received the record (17 R379). -/
def stopAt (m : Word) (t : TrapStop) (w : Wave) : Wave := dropNative m { w with trap := some t, chosen := 0 }

/-- With FREEZE set, a trap of the class Debug stops the group's other waves (17 R393). -/
def freezeOthers (w : Nat) (g : Group) : Group :=
  { g with waves := g.waves.mapIdx fun i x => if i = w then x else { x with frozen := true, chosen := 0 } }

/-- The lane that faulted on a gondola returns to the program-counter table at its saved key (05 R157). -/
def reinsertFaulting (c : Ctx) (f : FaultInfo) (s : State) : State :=
  if c.iss.gondola then
    let s := s.modWave c.iss.gid c.iss.wave fun w =>
      { w.modLane f.lane (fun x => { x with ejected := false, age := 0 }) with gond := w.gond.filter fun n => n.1 != f.lane }
    s.modCluster (clusterOf c.g.core) (dropEjected c.iss.gid c.iss.wave f.lane)
  else s

/-- The identifier of the debugger's queue of a domain among the queues that a resume word names (log entry 17). -/
def dbgQueueId (d : Nat) : Nat := 128 + d

/-- Takes a trap: the instruction at the point has no effect, the record is made, and the disposition of the class
decides where the record goes and what becomes of the wave (17 R378 to R381; 01 R41; 05 R157). -/
def takeTrap (c : Ctx) (f : FaultInfo) (s : State) : State :=
  let gid := c.iss.gid
  let wi := c.iss.wave
  let d := c.g.dom
  let cls := faultClass f.code
  let s := { s with issue := none }
  let s := if f.code = 6 then s.modDom d fun x => { x with guest := modNth (· + 1) x.guest 15 } else s
  let s := reinsertFaulting c f s
  match s.disposition d cls with
  | .kill =>
    let (kw, kl) := match f.eng with
      | some (iw, il, _, _) => (iw, il)
      | none => (wi, f.lane)
    let lives := match c.w.lanes[kl]? with | some y => y.alive | none => false
    let dead := if kw = wi ∧ lives then c.w.dead ||| (1#32 <<< kl) else c.w.dead
    let r := makeRecord c f true dead s
    let s := s.modWave gid wi fun w => dropNative (maskOf c.lanes) { w with chosen := 0 }
    postRecord d r 0 0 (endLane true gid kw kl s)
  | p =>
    let r := makeRecord c f false c.w.dead s
    let s := s.modGroup gid fun g =>
      if cls = 3 ∧ field c.w.dbg 1 1 = 1 then freezeOthers wi g else g
    match p with
    | .debug =>
      let n := BitVec.ofNat 32 ((s.dom d).dbgQueue.length + 1)
      let r := if field (s.dreg d 0x1B0) 3 1 = 1 then r else { r with native := 0 }
      let s := s.modDom d fun x => { x with dbgQueue := x.dbgQueue ++ [⟨r, n, gid, wi⟩] }
      s.modWave gid wi (stopAt (maskOf c.lanes) ⟨dbgQueueId d, n, none, r⟩)
    | .hyp =>
      let n := s.nextSeq 0
      let s := s.modWave gid wi (stopAt (maskOf c.lanes) ⟨0, n, none, r⟩)
      let s := postRecord 0 r gid wi s
      s.modDom 0 fun x => { x with hyp := x.hyp ++ [(⟨r, n, gid, wi⟩, d)] }
    | _ =>
      let n := s.nextSeq d
      let s := s.modWave gid wi (stopAt (maskOf c.lanes) ⟨d, n, none, r⟩)
      let s := postRecord d r gid wi s
      if cls = 2 ∧ d ≠ 0 then postRecord 0 r 0 0 s else s

/-- Whether a fault of the issuing run stops its wave at once: no trap of the wave stands, and the lanes that a fault of an ejected lane
waits for have left the native form (05 R157). -/
def Ctx.stopsNow (c : Ctx) : Bool := c.w.trap.isNone && !(c.iss.gondola && (c.w.nativeLeft != 0 || c.w.gfault.isSome))

/-- A fault that cannot stop the wave yet: that of an ejected lane is kept until the wave reaches its safe point (05 R157); one of a run
that goes on to its safe point in a stopped wave is met again after the wave has resumed. -/
def deferFault (c : Ctx) (f : FaultInfo) (s : State) : State :=
  let s := { s with issue := none }
  if c.iss.gondola ∧ c.w.trap = none ∧ c.w.gfault = none then s.modWave c.iss.gid c.iss.wave fun w => { w with gfault := some (c.iss, f) }
  else s

/-- Raises a fault of the issuing run as the outcome of a meaning: the trap is taken, now or when the wave can stop; a run that is only
tried keeps the fault in its issue. -/
def raise (c : Ctx) (f : FaultInfo) (s : State) : Out :=
  match c.iss.probe with
  | some _ => .next { s with issue := some { c.iss with probe := some (some f) } }
  | none => .next (if c.stopsNow then takeTrap c f s else deferFault c f s)

/-- Runs a meaning on the issuing run; without one it is the fault `noRun`. With no lane active the instruction has no
effect and the run passes on (00 R12). -/
def withRun (s : State) (k : Ctx → Out) : Out :=
  match s.ctx? with
  | none => .fault .noRun
  | some c => k c

end Sys2Proof.Machine
end

