-- ==== Sys2Proof/Machine/Flags.lean ====
section
/-! DEFINITION. Integer readings and saturation (02 R44, R45), the random-number generator (07 R205, R206), and the flag
word that a lane's instruction accumulates (02 R64). -/
namespace Sys2Proof.Machine

/-- The unsigned reading of a value of width w (02 R44). -/
def uRd (w : Nat) (b : Bits) : Nat := b.toNat % 2 ^ w

/-- The signed reading of a value of width w (02 R44). -/
def sRd (w : Nat) (b : Bits) : Int := if 2 ^ (w - 1) ≤ uRd w b then (uRd w b : Int) - (2 ^ w : Nat) else uRd w b

/-- `rd` of 04: the signed reading where SGN is set. -/
def rRd (sgn : Bool) (w : Nat) (b : Bits) : Int := if sgn then sRd w b else uRd w b

/-- A natural number as a value of width w. -/
def ofU (w n : Nat) : Bits := BitVec.ofNat 96 (n % 2 ^ w)

/-- An integer as a value of width w, modulo 2^w (02 R44). -/
def ofI (w : Nat) (i : Int) : Bits := BitVec.ofNat 96 (i % (2 ^ w : Nat)).toNat

/-- An integer clamped to the range of a reading, and whether it was clamped (02 R45). -/
def saturate (sgn : Bool) (w : Nat) (i : Int) : Int × Bool :=
  if i < intMin sgn w then (intMin sgn w, true)
  else if i > intMax sgn w then (intMax sgn w, true)
  else (i, false)

/-- Bits [lo+n-1:lo] of a value as a number. -/
def bitsAt (b : Bits) (lo n : Nat) : Nat := b.toNat / 2 ^ lo % 2 ^ n

/-! ### Random numbers -/

/-- `rotl32` of 07 R205. -/
def rotl32 (v : Word) (k : Nat) : Word := (v <<< k) ||| (v >>> (32 - k))

/-- One draw (07 R205). -/
def Rng.draw (r : Rng) : Word × Rng :=
  let x := rotl32 (r.s1 * 5) 7 * 9
  let t := r.s1 <<< 9
  let s2 := r.s2 ^^^ r.s0
  let s3 := r.s3 ^^^ r.s1
  let s1 := r.s1 ^^^ s2
  let s0 := r.s0 ^^^ s3
  (x, ⟨s0, s1, s2 ^^^ t, rotl32 s3 11⟩)

/-- `mix` of 07 R206. -/
def rngMix (v : DWord) : DWord :=
  let v := v + 0x9E3779B97F4A7C15#64
  let v := (v ^^^ (v >>> 30)) * 0xBF58476D1CE4E5B9#64
  let v := (v ^^^ (v >>> 27)) * 0x94D049BB133111EB#64
  v ^^^ (v >>> 31)

/-- The state that `randseed` sets in the lane with `groupid` g and thread index t (07 R206). -/
def rngSeed (seed : DWord) (g t : Nat) : Rng :=
  let z := seed + BitVec.ofNat 64 (g * 1024 + t) * 0x9E3779B97F4A7C15#64
  let a := rngMix z
  let b := rngMix (z + 0x9E3779B97F4A7C15#64)
  let r : Rng := ⟨a.extractLsb' 0 32, a.extractLsb' 32 32, b.extractLsb' 0 32, b.extractLsb' 32 32⟩
  if r.s0 = 0 ∧ r.s1 = 0 ∧ r.s2 = 0 ∧ r.s3 = 0 then { r with s0 := 1 } else r

/-! ### What an instruction of one lane accumulates -/

/-- The flag word and the random-number state of a lane while its instruction runs. -/
structure Acc where
  flags : Byte
  rng : Rng
  deriving DecidableEq, Repr

/-- Flags are sticky (02 R64). -/
def Acc.flag (a : Acc) (f : Byte) : Acc := { a with flags := a.flags ||| f }

/-- The 24-bit number of one draw (02 R56); drawn under SR only. -/
def Acc.draw (rm : Rm) (a : Acc) : Nat × Acc :=
  if rm = .sr then let (r, g) := a.rng.draw; (r.toNat / 256, { a with rng := g }) else (0, a)

/-- Rounds an exact value with its flags into a format: the pattern and what is accumulated (02 R55, R56). -/
def Acc.round (f : Fmt) (rm : Rm) (sat ftz : Bool) (x : FV × Byte) (a : Acc) : Nat × Acc :=
  let (u, a) := a.draw rm
  let (p, fl) := f.round rm sat ftz u x.1
  (p, (a.flag x.2).flag fl)

/-- What a lane accumulates from. -/
def Lane.acc (x : Lane) : Acc := ⟨x.flags, x.rng⟩

/-! ### Packed types (04 R99, R132) -/

/-- How many elements a type has and their width; a scalar type is one element of its own width. -/
def elemsOf : Ty → Nat × Nat
  | .v2bf16 | .v2f16 => (2, 16)
  | .v4e4m3 | .v4e5m2 | .v4i8 => (4, 8)
  | .v8e2m1 => (8, 4)
  | .v16t2 => (16, 2)
  | t => (1, t.width)

/-- Element k of a packed value. -/
def elemOf (ew k : Nat) (b : Bits) : Nat := bitsAt b (ew * k) ew

/-- Joins elements, element 0 lowest. -/
def joinElems (ew : Nat) : List Nat → Nat
  | [] => 0
  | x :: r => x % 2 ^ ew + 2 ^ ew * joinElems ew r

/-- Runs an operation over element numbers from k upward, n of them, accumulating in order (04 R99). -/
def foldElems (f : Nat → Acc → Nat × Acc) : Nat → Nat → Acc → List Nat × Acc
  | 0, _, a => ([], a)
  | n + 1, k, a =>
    let (x, a) := f k a
    let (xs, a) := foldElems f n (k + 1) a
    (x :: xs, a)

/-- An operation on every element of a type (04 R99). -/
def mapElems (ty : Ty) (f : Nat → Acc → Nat × Acc) (a : Acc) : Bits × Acc :=
  let (n, ew) := elemsOf ty
  let (xs, a) := foldElems f n 0 a
  (BitVec.ofNat 96 (joinElems ew xs), a)

end Sys2Proof.Machine
end

