-- ==== Sys2Proof/Machine/Operands.lean ====
section
/-! DEFINITION. Operand forms: what each operand kind gives a lane (03 R73 to R75), the registers behind the operands of a
native slot (15 R331 to R341), and how a lane-local instruction takes its operands and gives its result (04 R97, R98). -/
namespace Sys2Proof.Machine

/-- The value of an immediate (03 R74). -/
def immBits (t : Ty) (n : BitVec 30) : Bits :=
  match t with
  | .f32 | .f16 | .bf16 | .e4m3 | .e5m2 => ofU t.width ((fmtOf t).round .rne t.isF8 false 0 (FV.ofInt n.toInt 0)).1
  | .lay | .cbh => 0
  | t => ofI t.width n.toInt

/-- The load-time address of a symbol of the group's module (03 R75). -/
def symAddr (s : State) (g : Group) (i : Nat) : Option DWord := (s.module? g.dom g.modH).bind fun m => m.syms[i]?

/-! ### Native registers -/

/-- Scalar register k. -/
def NRegs.sReg (r : NRegs) (k : Nat) : DWord := mget 0 r.s k
/-- Lane l of vector register k. -/
def NRegs.vReg (r : NRegs) (k l : Nat) : Word := mget 0 r.v (k * 32 + l)
/-- Mask register k. -/
def NRegs.mReg (r : NRegs) (k : Nat) : Word := mget 0 r.m k
/-- Lane l of staging register `code` (15 R343): `mxs` has one copy. -/
def NRegs.stgReg (r : NRegs) (code l : Nat) : DWord := mget 0 r.stg (code * 32 + (if code < 8 then 0 else l))
/-- Writes scalar register k. -/
def NRegs.setS (r : NRegs) (k : Nat) (x : DWord) : NRegs := { r with s := mset 0 r.s k x }
/-- Writes lane l of vector register k. -/
def NRegs.setV (r : NRegs) (k l : Nat) (x : Word) : NRegs := { r with v := mset 0 r.v (k * 32 + l) x }
/-- Writes mask register k. -/
def NRegs.setM (r : NRegs) (k : Nat) (x : Word) : NRegs := { r with m := mset 0 r.m k x }
/-- Writes lane l of a staging register. -/
def NRegs.setStg (r : NRegs) (code l : Nat) (x : DWord) : NRegs :=
  { r with stg := mset 0 r.stg (code * 32 + (if code < 8 then 0 else l)) x }

/-- The value of type t in lane l that starts at vector register k: one register, or a pair, or three (15 R331). -/
def NRegs.vVal (r : NRegs) (t : Ty) (k l : Nat) : Bits :=
  let x := r.vReg k l
  let y := if t.width > 32 then r.vReg (k + 1) l else 0
  let z := if t.width > 64 then r.vReg (k + 2) l else 0
  ofU t.width (z ++ y ++ x : Bits).toNat

/-- Writes a value of type t in lane l from vector register k on. -/
def NRegs.setVVal (r : NRegs) (t : Ty) (k l : Nat) (b : Bits) : NRegs :=
  let r := r.setV k l (b.extractLsb' 0 32)
  let r := if t.width > 32 then r.setV (k + 1) l (b.extractLsb' 32 32) else r
  if t.width > 64 then r.setV (k + 2) l (b.extractLsb' 64 32) else r

/-- What a native source gives lane l. -/
def readSrc (r : NRegs) (t : Ty) (l : Nat) : NSrc → Bits
  | .v k => r.vVal t k l
  | .s k => ofU t.width (r.sReg k).toNat
  | .imm x => ofU t.width x.toNat
  | .stg code => ofU t.width (r.stgReg code l).toNat
  | .stgHi code => ofU t.width ((r.stgReg code l).toNat / 2 ^ 32)
  | .stgNwin code => ofU t.width ((r.stgReg code l).toNat % 2 ^ 32 + 1)
  | .lay k => ofU t.width ((r.sReg k).toNat + (r.sReg (k + 1)).toNat % 2 ^ 32 * 2 ^ 64)
  | .layPtr k => ofU t.width ((r.sReg (k + 1)).toNat / 2 ^ 32 * 2 ^ 32)

/-- Writes the result of a native slot in lane l (15 R331, R341). -/
def writeDst (d : NDst) (l : Nat) (v : TVal) (r : NRegs) : NRegs :=
  match d with
  | .none => r
  | .v k => r.setVVal v.ty k l v.bits
  | .s k => r.setS k (v.bits.extractLsb' 0 64)

/-! ### Operands of a lane -/

/-- The value that number n names in lane l. -/
def valOf (c : Ctx) (l n : Nat) : Option TVal :=
  match c.iss.bind with
  | some b => (b.srcs[n]?).map fun (src, t) => ⟨t, readSrc b.snap t l src⟩
  | none => (c.lane? l).bind fun x => lookupVal x.top.vals n

/-- The value of type t that number n names in lane l; none for a value that is absent or of another type. In a native slot
the operand's place is read as the type that the operation takes. -/
def typedVal (c : Ctx) (l : Nat) (t : Ty) (n : Nat) : Option Bits :=
  match c.iss.bind with
  | some b => (b.srcs[n]?).map fun (src, _) => readSrc b.snap t l src
  | none => (valOf c l n).bind fun v => if v.ty = t then some v.bits else none

/-- The value of an operand of type t in lane l; none for a value that is absent or of another type, and for a symbol the
module does not have. -/
def evalOp (s : State) (c : Ctx) (l : Nat) (t : Ty) : Opnd → Option Bits
  | .val n => typedVal c l t n.toNat
  | .imm n => some (immBits t n)
  | .lit32 w => some (ofU t.width w.toNat)
  | .lit64 w => some (ofU t.width w.toNat)
  | .sym i => (symAddr s c.g i.toNat).map fun a => ofU 64 a.toNat

/-- The values of operands of the given types. -/
def evalOps (s : State) (c : Ctx) (l : Nat) : List (Ty × Opnd) → Option (List Bits)
  | [] => some []
  | (t, o) :: r =>
    match evalOp s c l t o, evalOps s c l r with
    | some x, some xs => some (x :: xs)
    | _, _ => none

/-! ### Lane-local instructions -/

/-- What an instruction leaves in one lane: its result, its flags and its random-number state. -/
abbrev LaneOut := Option TVal × Acc

/-- A lane after an instruction: flags and random-number state, and in the portable form the result under its value number
and the next portable index. -/
def commitLane (c : Ctx) (r : LaneOut) (x : Lane) : Lane :=
  let x := { x with flags := r.2.flags, rng := r.2.rng }
  if c.iss.bind.isSome then x
  else
    x.modTop fun f =>
      { (match r.1 with | some v => f.define c.iss.res v | none => f) with idx := f.idx + 1 }

/-- Writes the results of lanes into the registers of a native slot's wave. -/
def writeBack (b : Bind) : List (Nat × LaneOut) → NRegs → NRegs
  | [], r => r
  | (l, some v, _) :: t, r => writeDst b.dst l v (writeBack b t r)
  | (_, none, _) :: t, r => writeBack b t r

/-- Changes the native registers of a wave. -/
def Wave.modRegs (f : NRegs → NRegs) (w : Wave) : Wave :=
  { w with native := w.native.map fun n => { n with regs := f n.regs } }

/-- Commits the outcome of an instruction in the lanes that it names. -/
def commit (c : Ctx) (rs : List (Nat × LaneOut)) (s : State) : State :=
  s.modWave c.iss.gid c.iss.wave fun w =>
    let w := w.mapLanes fun l x => match rs.lookup l with | some r => commitLane c r x | none => x
    match c.iss.bind with
    | some b => w.modRegs (writeBack b rs)
    | none => w

/-- Helper lanes exit at the instruction of a run (05 R142). -/
def exitHelpers (c : Ctx) (ls : List Nat) (s : State) : State := ls.foldl (fun s l => endLane false c.iss.gid c.iss.wave l s) s

/-- The instruction is a trap point: helper lanes exit, and an ordinary lane, the lowest, raises ILLEGAL_OPCODE (03 R82; 04 R97;
05 R142). -/
def illegal (c : Ctx) (s : State) : Out :=
  let t := exitHelpers c c.helpers s
  match c.ordinary with
  | [] => .next t
  | l :: _ => raise ((t.ctx?).getD c) (FaultInfo.plain 1 l 0) t

/-- The outcomes of the lanes, or none where some lane has none. -/
def gather (f : Nat → Option LaneOut) : List Nat → Option (List (Nat × LaneOut))
  | [] => some []
  | l :: r =>
    match f l, gather f r with
    | some x, some xs => some ((l, x) :: xs)
    | _, _ => none

/-- A lane-local instruction: each active lane performs f on its own values, flags and random-number state (04 R97). -/
def laneMap (s : State) (f : Ctx → Nat → Acc → Option LaneOut) : Out :=
  withRun s fun c =>
    match gather (fun l => (c.lane? l).bind fun x => f c l x.acc) c.lanes with
    | some rs => .next (commit c rs s)
    | none => illegal c s

/-- Holds the lanes of a mask at their instruction (13 R308). -/
def holdRun (c : Ctx) (mask : Word) (cond : Cond) (met : Word) (s : State) : State :=
  s.modWave c.iss.gid c.iss.wave fun w =>
    ({ w.mapLanes (fun l x => if inMask mask l then { x with park := .held } else x) with
      holds := w.holds ++ [⟨mask, cond, met, false⟩] } : Wave).choiceDue c.g (if c.iss.gondola then 0 else mask)

/-- The hold of the issuing run whose condition has been met, if it has been held and released. -/
def Ctx.released (c : Ctx) : Option Hold := c.w.holds.find? fun h => h.released && (h.mask &&& c.iss.mask) != 0

/-- Takes the released hold of the issuing run off the wave. -/
def dropHold (c : Ctx) (s : State) : State :=
  s.modWave c.iss.gid c.iss.wave fun w => { w with holds := w.holds.filter fun h => !(h.released && (h.mask &&& c.iss.mask) != 0) }

/-- Restricts the issuing run to the lanes of a mask. -/
def State.narrow (s : State) (m : Word) : State :=
  { s with issue := s.issue.map fun i => { i with mask := i.mask &&& m } }

/-- The issuing run as a run that is only tried: a fault stays in its issue. -/
def State.tried (s : State) : State := { s with issue := s.issue.map fun i => { i with probe := some none } }

/-- The fault that a run which was tried has raised. -/
def State.failed (s : State) : Option FaultInfo := (s.issue.bind (·.probe)).join

/-- An instruction that acts once per issuing run, on the state without the run's released hold, in one half of a wave. -/
def halfRun (s : State) (k : Ctx → State → Out) : Out := withRun s fun c => k c (dropHold c s)

/-- Raises a fault that a run met when it was tried: nothing of the instruction has taken effect in any lane (00 R11). -/
def refault (f : FaultInfo) (c : Ctx) (s : State) : Out := if f.code = 1 then illegal c s else raise c f s

/-- An instruction that acts once per issuing run. In W16 mode the runs of the two halves that issue as one instruction each act, the
lower half first; where either half faults the instruction has no effect in any lane (00 R11; 13 R307, R308). -/
def perRun (s : State) (k : Ctx → State → Out) : Out :=
  withRun s fun c =>
    if c.g.w16 && c.lanes.any (· < 16) && c.lanes.any (16 ≤ ·) then
      let lo := s.narrow 0x0000FFFF#32
      let hi := fun (t : State) => ({ t with issue := s.issue } : State).narrow 0xFFFF0000#32
      match halfRun lo.tried k with
      | .next t =>
        match t.failed with
        | some f => halfRun lo (refault f)
        | none =>
          match halfRun (hi t).tried k with
          | .next v =>
            match v.failed with
            | some f => halfRun (hi s) (refault f)
            | none => .next { v with issue := s.issue }
          | o => o
      | o => o
    else k c (dropHold c s)

/-- A lane-local instruction with one operand of type t and a result of type rt. -/
def lane1 (s : State) (rt t : Ty) (a : Opnd) (f : Ctx → Bits → Acc → Bits × Acc) : Out :=
  laneMap s fun c l acc => (evalOp s c l t a).map fun x => let (y, acc) := f c x acc; (some ⟨rt, y⟩, acc)

/-- A lane-local instruction with two operands. -/
def lane2 (s : State) (rt t u : Ty) (a b : Opnd) (f : Ctx → Bits → Bits → Acc → Bits × Acc) : Out :=
  laneMap s fun c l acc =>
    match evalOp s c l t a, evalOp s c l u b with
    | some x, some y => let (z, acc) := f c x y acc; some (some ⟨rt, z⟩, acc)
    | _, _ => none

/-- A lane-local instruction with three operands. -/
def lane3 (s : State) (rt t u v : Ty) (a b d : Opnd) (f : Ctx → Bits → Bits → Bits → Acc → Bits × Acc) : Out :=
  laneMap s fun c l acc =>
    match evalOp s c l t a, evalOp s c l u b, evalOp s c l v d with
    | some x, some y, some z => let (r, acc) := f c x y z acc; some (some ⟨rt, r⟩, acc)
    | _, _, _ => none

/-- A lane-local instruction with four operands. -/
def lane4 (s : State) (rt t u v w : Ty) (a b d e : Opnd) (f : Ctx → Bits → Bits → Bits → Bits → Acc → Bits × Acc) : Out :=
  laneMap s fun c l acc =>
    match evalOp s c l t a, evalOp s c l u b, evalOp s c l v d, evalOp s c l w e with
    | some x, some y, some z, some q => let (r, acc) := f c x y z q acc; some (some ⟨rt, r⟩, acc)
    | _, _, _, _ => none

end Sys2Proof.Machine
end

