-- ==== Sys2Proof/Machine/Buckets.lean ====
section
/-! DEFINITION. Token buckets of the L2 ports and of the link ports, lending among the domains of a port, and the line requests of a
domain (09 R233 to R236; 19 R413; log entry 42). -/
namespace Sys2Proof.Machine

/-- A regulator's fields. -/
structure Rate where
  rate : Nat
  least : Nat
  depth : Nat
  weight : Nat
  deriving DecidableEq, Repr

/-- Buckets of a port with their regulators, in ascending order of domain. -/
abbrev Port := List (Nat × Rate × Bucket)

/-- The sum of lenders' amounts. -/
def tokensIn (l : List (Nat × Nat)) : Nat := (l.map (·.2)).sum

/-- Adds tokens to the bucket of one domain, capped at DEPTH. -/
def giveBack (d n : Nat) (p : Port) : Port :=
  p.map fun (k, r, b) => (k, r, if k = d then { b with own := min (b.own + n) r.depth } else b)

/-- Unspent borrowed tokens, and those that the division left over, return to their lenders, in ascending order (09 R235). -/
def returnLoans (p : Port) : Port :=
  let back := p.flatMap fun (k, _, b) => (k, b.aside) :: b.borrowed
  back.foldl (fun p (d, n) => giveBack d n p) (p.map fun (k, r, b) => (k, r, { b with borrowed := [], aside := 0 }))

/-- What an idle domain lends: one that issued no request in the period and has none waiting. -/
def lendable (x : Nat × Rate × Bucket) : Nat :=
  if !x.2.2.issued ∧ x.2.2.waiting = 0 then x.2.2.own - x.2.1.least else 0

/-- Takes n tokens from lenders' amounts, the first first: what is taken, and what stays. -/
def takeTokens : Nat → List (Nat × Nat) → List (Nat × Nat) × List (Nat × Nat)
  | _, [] => ([], [])
  | n, (d, k) :: r =>
    let t := min n k
    let (a, b) := takeTokens (n - t) r
    ((if t = 0 then a else (d, t) :: a), (if k - t = 0 then b else (d, k - t) :: b))

/-- Drops n tokens from the front of lenders' amounts. -/
def dropTokens (n : Nat) (l : List (Nat × Nat)) : List (Nat × Nat) := (takeTokens n l).2

/-- Hands the pool to the borrowers in ascending order: `pool` lists what each lender has lent. What no borrower receives is listed
after the port. -/
def shareOut (P wb : Nat) : List (Nat × Rate × Bucket) → List (Nat × Nat) → Port × List (Nat × Nat)
  | [], pool => ([], pool)
  | (k, r, b) :: t, pool =>
    if b.waiting = 0 then
      let (p, left) := shareOut P wb t pool
      ((k, r, b) :: p, left)
    else
      let (mine, rest) := takeTokens (P * r.weight / wb) pool
      let (p, left) := shareOut P wb t rest
      ((k, r, { b with borrowed := mine }) :: p, left)

/-- Lending at a tick (09 R235): each idle domain's bucket falls by what it lends; what the division leaves over is kept aside for its
lenders. Which lender's tokens go to which borrower is open: the lowest lenders' go to the lowest borrowers (the model's choice, log
entry 42). -/
def lend (p : Port) : Port :=
  let P := p.foldl (fun n x => n + lendable x) 0
  let wb := p.foldl (fun n x => if x.2.2.waiting = 0 then n else n + x.2.1.weight) 0
  if wb = 0 then p
  else
    let (q, left) := shareOut P wb (p.map fun (k, r, b) => (k, r, { b with own := b.own - lendable (k, r, b) }))
      (p.map fun x => (x.1, lendable x))
    q.map fun (k, r, b) => (k, r, { b with aside := (left.lookup k).getD 0 })

/-- Waiting requests leave while there are tokens, borrowed ones first (09 R234). -/
def leavePort (b : Bucket) : Bucket :=
  let lent := tokensIn b.borrowed
  let n := min b.waiting (lent + b.own)
  { b with borrowed := dropTokens (min n lent) b.borrowed, own := b.own - (n - lent), waiting := b.waiting - n, gone := b.gone + n }

/-- A refill tick (09 R234, R235): loans return, buckets are refilled, idle domains lend, and waiting requests leave. -/
def tickPort (p : Port) : Port :=
  let p := (returnLoans p).map fun (k, r, b) => (k, r, { b with own := min (b.own + r.rate) r.depth })
  (lend p).map fun (k, r, b) => (k, r, leavePort { b with issued := false })

/-- n requests of a domain at a port: they wait, and leave with a token in their turn (09 R234). -/
def requestPort (n : Nat) (b : Bucket) : Bucket :=
  leavePort { b with waiting := b.waiting + n, issued := b.issued || decide (0 < n) }

/-- Tokens lent by domain d come back, and its waiting requests leave on them (09 R236). -/
def revokeLoans (d : Nat) (p : Port) : Port :=
  let n := p.foldl (fun n x => n + tokensIn (x.2.2.borrowed.filter fun q => q.1 == d) + (if x.1 = d then x.2.2.aside else 0)) 0
  (giveBack d n (p.map fun (k, r, b) =>
    (k, r, { b with borrowed := b.borrowed.filter (fun q => q.1 != d), aside := if k = d then 0 else b.aside }))).map
    fun (k, r, b) => (k, r, if k = d then leavePort b else b)

/-! ### L2 ports -/

/-- The fields of an L2 port regulator (09 R233). -/
def l2Rate (v : DWord) : Rate := ⟨field v 0 10, field v 10 10, field v 20 12, field v 32 8⟩

/-- The buckets of a core's port: one for each domain with a valid entry. -/
def State.l2Port (s : State) (c : Nat) : Port :=
  let es := (List.range 8).filter fun e => field (s.dpra c e) 7 1 == 1
  let ds := es.foldl (fun l e => sadd l (field (s.dpra c e) 0 7)) []
  ds.filterMap fun d =>
    (es.find? fun e => field (s.dpra c e) 0 7 == d).map fun e => (d, l2Rate (s.l2reg c e), mget Bucket.reset (s.coreSt c).buckets d)

/-- Stores the buckets of a core's port. -/
def setL2Port (c : Nat) (p : Port) (s : State) : State :=
  s.modCore c fun k => { k with buckets := p.foldl (fun m (d, _, b) => mset Bucket.reset m d b) k.buckets }

/-- A domain's bucket at a core's port. -/
def State.bucket (s : State) (c d : Nat) : Bucket := mget Bucket.reset (s.coreSt c).buckets d

/-- n lines of a domain come to a core's port (09 R234). A lender's request ends its loans (09 R236). -/
def askL2 (core d n : Nat) (s : State) : State :=
  let lent := (s.coreSt core).buckets.any fun x => x.2.borrowed.any fun q => q.1 == d
  let s := s.modCore core fun k => { k with buckets := mset Bucket.reset k.buckets d (requestPort n (mget Bucket.reset k.buckets d)) }
  if lent && decide (0 < n) then s.due (.loanRevoke core d) else s

/-- Whether a bucket has a token for each of n requests, with none waiting. -/
def Bucket.enough (b : Bucket) (n : Nat) : Bool := b.waiting == 0 && decide (n ≤ b.own + tokensIn b.borrowed)

/-- The lines among n that are not in the core's L1: which ones the spec leaves open, so their number is a free value (log entry 42). -/
def State.missing (s : State) (n : Nat) : Nat := (Config.freeWord s.free).toNat % (n + 1)

/-- n lines are wanted by a domain on a core: those that miss come to the port, with the number of the last request among the domain's
there; `none` where every one of them leaves the port at once. -/
def wantLines (core d n : Nat) (s : State) : Option Nat × State :=
  if n = 0 then (none, s)
  else
    let t := askL2 core d (s.missing n) { s with free := s.free + 1 }
    let last := (s.bucket core d).gone + (s.bucket core d).waiting + s.missing n
    (if (s.bucket core d).enough n ∨ s.missing n = 0 ∨ last ≤ (t.bucket core d).gone then none else some last, t)

/-- n lines that an engine moves for a domain come to the issuing core's port, each for a token (12 R281): the number of the last among the
domain's requests there; none where every one of them leaves the port at once. -/
def moveLines (core d n : Nat) (s : State) : Option Nat × State :=
  if n = 0 then (none, s)
  else
    let last := (s.bucket core d).gone + (s.bucket core d).waiting + n
    let t := askL2 core d n s
    (if last ≤ (t.bucket core d).gone then none else some last, t)

end Sys2Proof.Machine
end

