-- ==== Sys2Proof/Machine/Memory.lean ====
section
/-! DEFINITION. The memory that programs see: regions, translation, the ten checks of every access, and reading and writing
bytes (09 R210 to R232; 10 R254 to R256; 17 R383 to R386; 22 R478, R481, R487). -/
namespace Sys2Proof.Machine

/-! ### Bytes, tags and poison by key (log entry 2)

Keys below 2^52 are physical device bytes; the other kinds of storage have windows of their own. -/

/-- The key of a byte of host memory. -/
def hostKey (a : Nat) : Nat := 2 ^ 60 + a
/-- The key of byte `off` of core c's scratchpad. -/
def spadKey (c off : Nat) : Nat := 2 ^ 61 + c * 2 ^ 24 + off
/-- The key of byte `off` of the scratchpad part of a saved group's image. -/
def savedKey (gid off : Nat) : Nat := 2 ^ 62 + gid * 2 ^ 24 + off
/-- The key of a byte of a peer package's export window for a domain. -/
def peerKey (pkg d off : Nat) : Nat := 2 ^ 64 + ((pkg * 128 + d) * 2 ^ 36 + off)

/-- What a byte of memory that nothing has written reads as (01 R32; log entry 2). -/
def memDefault : Byte := 0

/-- The byte at a key. -/
def State.byte (s : State) (k : Nat) : Byte := mget memDefault s.mem k

/-- Writes one byte. -/
def State.setByte (s : State) (k : Nat) (b : Byte) : State := { s with mem := mset memDefault s.mem k b }

/-- Reads n bytes from a key on. -/
def State.bytes (s : State) : Nat → Nat → List Byte
  | 0, _ => []
  | n + 1, k => s.byte k :: s.bytes n (k + 1)

/-- Writes bytes from a key on, the lowest first. -/
def State.setBytes (s : State) : List Byte → Nat → State
  | [], _ => s
  | b :: r, k => (s.setByte k b).setBytes r (k + 1)

/-- Little-endian bytes as a number (00 R3). -/
def leNat : List Byte → Nat
  | [] => 0
  | b :: r => b.toNat + 256 * leNat r

/-- An aligned 8-byte word at a key. -/
def State.word8 (s : State) (k : Nat) : DWord := BitVec.ofNat 64 (leNat (s.bytes 8 k))

/-- The tag of the granule of a key (09 R227). -/
def State.tagAt (s : State) (k : Nat) : BitVec 4 := mget 0 s.tags (k / 64)

/-- Sets the tag of the granule of a key. -/
def State.setTag (s : State) (k : Nat) (t : BitVec 4) : State := { s with tags := mset 0 s.tags (k / 64) t }

/-- The memory die, 0 to 5, of a physical address (09 R224). -/
def memDieOf (pa : Nat) : Option Nat :=
  if pa < 384 * 2 ^ 30 then some (pa / 2 ^ 36)
  else if 2 ^ 40 ≤ pa ∧ pa < 3 * 2 ^ 40 then
    let s := (pa - 2 ^ 40) / 2 ^ 30
    some (if s ≤ 341 then 0 else if s ≤ 683 then 1 else if s ≤ 1024 then 2 else if s ≤ 1365 then 3 else if s ≤ 1706 then 4 else 5)
  else none

/-- Whether a key stands on a memory die whose link is lost (19 R409). -/
def State.onLostDie (s : State) (k : Nat) : Bool := match memDieOf k with | some d => s.lost.contains (9 + d) | none => false

/-- Whether the granule of a key is poisoned. -/
def State.poisoned (s : State) (k : Nat) : Bool := s.poison.contains (k / 64) || s.onLostDie k

/-- Poisons the granule of a key. -/
def State.addPoison (s : State) (k : Nat) : State := { s with poison := sadd s.poison (k / 64) }

/-- Clears the poison of the granule of a key. -/
def State.clearPoison (s : State) (k : Nat) : State := { s with poison := sdel s.poison (k / 64) }

/-- Zeroes n granules from a key on, with their tags and poison (09 R217, R219; 20 R424). -/
def zeroGranules : Nat → Nat → State → State
  | 0, _, s => s
  | n + 1, k, s => zeroGranules n (k + 64) (((s.setBytes (List.replicate 64 0) k).setTag k 0).clearPoison k)

/-- The entries of a map with keys outside [lo, hi). -/
def outside {V : Type} (lo hi : Nat) (m : List (Nat × V)) : List (Nat × V) := m.filter fun (k, _) => !(lo ≤ k && k < hi)

/-- A range of whole granules with every byte and tag 0 and no poison (09 R217, R219; 20 R424). -/
def State.zeroRange (s : State) (k n : Nat) : State :=
  { s with mem := outside k (k + n) s.mem, tags := outside (k / 64) ((k + n) / 64) s.tags,
           poison := s.poison.filter fun g => !(k / 64 ≤ g && g < (k + n) / 64) }

/-! ### Domain stamps of slices (09 R224; 20 R424; 22 R478) -/

/-- The package register that holds the slice-table entry of a physical address. -/
def sliceReg (pa : Nat) : Option Nat :=
  if pa < 384 * 2 ^ 30 then some (0x10000 + 8 * (pa / 2 ^ 30))
  else if 2 ^ 40 ≤ pa ∧ pa < 3 * 2 ^ 40 then some (0x11000 + 8 * ((pa - 2 ^ 40) / 2 ^ 30))
  else none

/-- The domain whose stamp a physical address carries. -/
def State.stampOf (s : State) (pa : Nat) : Option Nat :=
  (sliceReg pa).bind fun r => if field (s.preg r) 7 1 = 1 then some (field (s.preg r) 0 7) else none

/-- Whether a domain may use a physical address: its own stamp, or, for domain 0, a tenant's grant. -/
def State.mayUse (s : State) (d pa : Nat) : Bool :=
  match s.stampOf pa with
  | some t => t == d || (d == 0 && field (s.dreg t 0x1B0) 0 1 == 1)
  | none => false

/-- Memory of a domain is lost at a physical address: its owner gets a POISON report, and domain 0 a copy with the address (00 R13; 20
R446). -/
def reportLine (pa : Nat) (s : State) : State :=
  match s.stampOf pa with
  | none => s
  | some d =>
    let s := postReport d (report 16 d 0) s
    if d = 0 then s else postReport 0 (report 16 d (BitVec.ofNat 64 pa)) s

/-! ### Page tables (17 R383) -/

/-- Whether an entry is invalid at any level. -/
def pteBad (e : DWord) : Bool :=
  field e 0 1 == 0 || field e 52 12 != 0 || field e 8 8 != 0 || field e 1 1 != 0 ||
  (field e 6 1 == 1 && field e 5 1 == 1) || (field e 4 1 == 1 && field e 5 1 == 1)

/-- The physical address of an entry. -/
def ptePa (e : DWord) : Nat := field e 16 36 * 2 ^ 16

/-- What a walk ends in: a foreign table, no translation, or a leaf. -/
inductive Walk where
  | foreign
  | none
  | leaf (e : TlbEntry)
  deriving DecidableEq, Repr

/-- A leaf as a cached translation; `n` bytes from a page-aligned va. -/
def leafOf (e : DWord) (va n : Nat) : TlbEntry :=
  { va := va / n * n, len := n, pa := ptePa e, r := field e 2 1 == 1, w := field e 3 1 == 1, tagged := field e 4 1 == 1,
    host := field e 5 1 == 1 }

/-- The walk of a domain's page table (17 R383). -/
def State.walk (s : State) (d va : Nat) : Walk :=
  let root := (s.dom d).ptroot
  if s.stampOf root ≠ some d then .foreign
  else
    let e1 := s.word8 (root + 8 * (va / 2 ^ 42 % 8192))
    if pteBad e1 || field e1 7 1 == 1 then .none
    else if s.stampOf (ptePa e1) ≠ some d then .foreign
    else
      let e2 := s.word8 (ptePa e1 + 8 * (va / 2 ^ 29 % 8192))
      if pteBad e2 then .none
      else if field e2 7 1 = 1 then (if ptePa e2 % 2 ^ 29 = 0 then .leaf (leafOf e2 va (2 ^ 29)) else .none)
      else if s.stampOf (ptePa e2) ≠ some d then .foreign
      else
        let e3 := s.word8 (ptePa e2 + 8 * (va / 2 ^ 16 % 8192))
        if pteBad e3 || field e3 7 1 == 0 then .none else .leaf (leafOf e3 va (2 ^ 16))

/-- The translation of a local address: a cached one where there is one, else the walk's (17 R384 to R386). -/
def State.translate (s : State) (d va : Nat) : Walk :=
  match (s.dom d).tlb.find? fun e => e.va ≤ va && va < e.va + e.len with
  | some e => .leaf e
  | none => s.walk d va

/-! ### Who accesses, and what -/

/-- The agent of an access. `quiet` is a helper lane, which no watchpoint matches. -/
structure Who where
  dom : Nat
  core : Nat
  gid : Nat
  wave : Nat
  lane : Nat
  eng : Bool
  waive : Bool
  quiet : Bool
  deriving DecidableEq, Repr

/-- One range of an access. `hostOk` is 0 for a read-modify-write that no HOST page performs (11 R270); `tagop` marks
`tagld` and `tagst` (11 R274). -/
structure Part where
  ptr : DWord
  len : Nat
  rd : Bool
  wr : Bool
  align : Nat
  hostOk : Bool
  tagop : Bool
  deriving DecidableEq, Repr

/-- A plain read or write. -/
def Part.read (p : DWord) (n align : Nat) : Part := ⟨p, n, true, false, align, true, false⟩
def Part.write (p : DWord) (n align : Nat) : Part := ⟨p, n, false, true, align, true, false⟩

/-- Address bits [55:0] of a pointer. -/
def ptrAddr (p : DWord) : Nat := p.toNat % 2 ^ 56

/-- A pointer's bits [63:56] with address a. -/
def ptrWith (p : DWord) (a : Nat) : DWord := BitVec.ofNat 64 (p.toNat / 2 ^ 56 * 2 ^ 56 + a % 2 ^ 56)

/-- The tag of a pointer. -/
def ptrTag (p : DWord) : BitVec 4 := p.extractLsb' 56 4

/-- ACC of a fault record (17 R380). -/
def accOf (eng rd wr : Bool) : Nat :=
  if rd && wr then 3 else if wr then (if eng then 5 else 2) else (if eng then 4 else 1)

/-- A piece of a part within one granule: address and length. -/
structure Piece where
  part : Part
  va : Nat
  len : Nat
  deriving DecidableEq, Repr

/-- Splits a range into pieces within granules; `fuel` bounds their number. -/
def splitPieces (p : Part) : Nat → Nat → Nat → List Piece
  | 0, _, _ => []
  | fuel + 1, va, n =>
    if n = 0 then []
    else
      let k := min n (64 - va % 64)
      ⟨p, va % 2 ^ 56, k⟩ :: splitPieces p fuel (va + k) (n - k)

/-- The pieces of a part. -/
def Part.pieces (p : Part) : List Piece := splitPieces p (p.len / 64 + 2) (ptrAddr p.ptr) p.len

/-- A failed check at an address. -/
def failAt (w : Who) (p : Part) (code check a : Nat) : FaultInfo :=
  ⟨code, w.lane, check, accOf w.eng p.rd p.wr, ptrWith p.ptr a, 0, none⟩

/-! ### Places -/

/-- Where a piece lies and what its page allows. -/
structure Place where
  piece : Piece
  key : Nat
  stampOk : Bool
  r : Bool
  w : Bool
  tagged : Bool
  host : Bool
  /-- local and peer addresses, which an interface in ERROR does not reach (22 R481) -/
  outer : Bool
  /-- the domain's own virtual address, where its page tables translate the piece -/
  own : Option Nat
  deriving DecidableEq, Repr

/-- The region of an address (09 R210). -/
inductive Region where
  | local | peer | aperture | reserved
  deriving DecidableEq, Repr

def regionOf (va : Nat) : Region :=
  if va / 2 ^ 54 ≤ 1 then .local
  else if va / 2 ^ 54 = 2 then .peer
  else if va / 2 ^ 28 = 2 ^ 28 - 1 then .aperture
  else .reserved

/-- SCRATCH × 64 KiB of a group (09 R211). -/
def Group.scratchLen (g : Group) : Nat := field g.hdr 18 6 * 65536

/-- The key of byte `off` of a group's allocation (09 R218). -/
def Group.spad (g : Group) (off : Nat) : Nat :=
  if g.st = .resident then spadKey g.core (g.bank * 65536 + off) else savedKey g.gid off

/-- The group whose allocation an aperture address names (09 R211). -/
def State.apertureGroup (s : State) (gid sel : Nat) : Option Group :=
  match s.group? gid with
  | none => none
  | some g =>
    if sel = 0 then some g
    else if sel < 8 then none
    else
      match g.troupe with
      | none => none
      | some (first, n) =>
        if sel - 8 < n then
          s.groups.find? fun x => x.launch == g.launch && x.lin == first + (sel - 8) && x.st != .ended
        else none

/-- The domain that a bank of a core is stamped with; a bank that the split leaves to the cache is no scratchpad (09 R217, R218;
20 R425). -/
def State.bankStamp (s : State) (c bank : Nat) : Option Nat :=
  if 4 * (s.coreSt c).split ≤ bank then none
  else ((List.range 8).find? fun e =>
    let a := s.dpra c e
    field a 7 1 == 1 && field a 32 5 ≤ bank && bank < field a 32 5 + field a 37 6).map fun e => field (s.dpra c e) 0 7

/-- Step 3 (09 R210, R211): whether the address names something. -/
def State.regionOk (s : State) (w : Who) (x : Piece) : Bool :=
  match regionOf x.va with
  | .reserved => false
  | .aperture =>
    match s.apertureGroup w.gid (x.va / 2 ^ 24 % 16) with
    | some g => x.va / 2 ^ 21 % 8 == 0 && x.va % 2 ^ 21 + x.len ≤ g.scratchLen
    | none => false
  | _ => true

/-- The export registers of a domain (22 R487). -/
def State.expctl (s : State) (d : Nat) : DWord := s.preg (0x400000 + 16 * d)
def State.expbase (s : State) (d : Nat) : DWord := s.preg (0x400000 + 16 * d + 8)

/-- Whether EXPCTL allows an access (22 R487). -/
def exportOk (ctl : DWord) (rd wr : Bool) : Bool :=
  field ctl 0 1 == 1 && (!rd || field ctl 1 1 == 1) && (!wr || field ctl 2 1 == 1)

/-- The place of a piece behind a translation. -/
def placeOf (s : State) (d : Nat) (x : Piece) (va : Nat) (e : TlbEntry) : Place :=
  let pa := e.pa + (va - e.va)
  { piece := x, key := if e.host then hostKey pa else pa, stampOk := e.host || s.mayUse d pa, r := e.r, w := e.w,
    tagged := e.tagged, host := e.host, outer := true, own := some va }

/-- Step 4 (09 R212 to R214; 22 R487): the place, or the fault and the step it is recorded with. -/
def State.place (s : State) (w : Who) (x : Piece) : Except (Nat × Nat) Place :=
  match regionOf x.va with
  | .reserved => .error (4, 3)
  | .aperture =>
    match s.apertureGroup w.gid (x.va / 2 ^ 24 % 16) with
    | none => .error (4, 3)
    | some g =>
      let off := x.va % 2 ^ 21
      .ok { piece := x, key := g.spad off,
            stampOk := if g.st = .resident then s.bankStamp g.core (g.bank + off / 65536) == some w.dom else g.dom == w.dom,
            r := true, w := true, tagged := true, host := false, outer := false, own := none }
  | .local =>
    match s.translate w.dom x.va with
    | .leaf e => .ok (placeOf s w.dom x x.va e)
    | _ => .error (3, 4)
  | .peer =>
    let pkg := x.va / 2 ^ 36 % 2 ^ 18
    let off := x.va % 2 ^ 36
    if pkg = Config.packageId.toNat then
      if exportOk (s.expctl w.dom) x.part.rd x.part.wr then
        let va := ((s.expbase w.dom).toNat + off) % 2 ^ 56
        match s.translate w.dom va with
        | .leaf e => .ok (placeOf s w.dom x va e)
        | _ => .error (3, 4)
      else .error (4, 5)
    else
      match s.peers.find? fun p => p.pkg == pkg && p.dom == w.dom with
      | none => .error (3, 4)
      | some p =>
        if exportOk p.ctl x.part.rd x.part.wr then
          match p.pages.find? fun q => q.off ≤ off && off < q.off + q.len with
          | none => .error (3, 4)
          | some q =>
            .ok { piece := x, key := peerKey pkg w.dom off, stampOk := q.stampOk, r := q.r, w := q.w, tagged := q.tagged, host := q.host,
                  outer := true, own := none }
        else .error (4, 5)

/-- The first of n bytes at a virtual address that lies in the text of a loaded module of the domain, which is mapped read-only (01
R33), by its distance. -/
def State.textIn (s : State) (d va n : Nat) : Option Nat :=
  (List.range n).find? fun i => s.modules.any fun m => m.dom == d && m.textLo ≤ va + i && va + i < m.textHi

/-- Whether the page of a place permits the access (09 R213; 11 R270, R274; 22 R481). -/
def State.pagePermits (s : State) (w : Who) (x : Place) : Bool :=
  let p := x.piece.part
  (!p.rd || x.r) && (!p.wr || x.w) && !(x.outer && (s.dom w.dom).ifstate == .error) && !(x.host && !p.hostOk) &&
  !(p.tagop && p.wr && !x.tagged)

/-- The first byte of a written place that is text (01 R33), as the address that the access names it by. -/
def State.textAt (s : State) (w : Who) (x : Place) : Option Nat :=
  if x.piece.part.wr then x.own.bind fun va => (s.textIn w.dom va x.piece.len).map (x.piece.va + ·) else none

/-- Step 5 (09 R213): the lowest byte of a place that the page does not permit. -/
def State.pageFails (s : State) (w : Who) (x : Place) : Option Nat := if s.pagePermits w x then s.textAt w x else some x.piece.va

/-- The first byte of a piece that lies in [base, base + len) modulo 2^56. -/
def firstIn (x : Piece) (base len : Nat) : Option Nat :=
  ((List.range x.len).find? fun i => (x.va + i + 2 ^ 56 - base % 2 ^ 56) % 2 ^ 56 < len).map fun i => (x.va + i) % 2 ^ 56

/-- Step 7 (10 R254, R255): the lowest byte of a piece that a lock of the core forbids. -/
def State.lockedAt (s : State) (w : Who) (x : Piece) : Option Nat :=
  if w.eng then none
  else
    ((s.coreSt w.core).rlt.filterMap fun k =>
      if k.dom = w.dom ∧ (k.src = false ∨ x.part.wr) then firstIn x k.base k.len else none).foldl
      (fun a b => some (match a with | some a => min a b | none => b)) none

/-- Whether an enabled entry matches the access of a piece, and its first byte (09 R231). -/
def watchHit (w : Who) (x : Piece) (e : Watch) : Option Nat :=
  let k := if x.part.rd && x.part.wr then 8 else if x.part.wr then 7 else 6
  let scope := field e.ctl 10 2
  if field e.ctl 17 1 = 1 ∧ field e.ctl k 1 = 1 ∧ (w.eng = false ∨ field e.ctl 9 1 = 1) ∧
     (scope ≠ 0 ∨ field e.ctl 12 5 = w.lane) then
    let n := 2 ^ field e.ctl 0 6
    firstIn x (ptrAddr e.addr / n * n) n
  else none

/-- The sets that apply to an access, with the code of DEPTH [14:8] (09 R231; 17 R380). -/
def State.watches (s : State) (w : Who) : List (Nat × Watch) :=
  let g := s.group? w.gid
  let ws := match g.bind fun g => g.waves[w.wave]? with | some x => x.watch | none => []
  let gs := match g with | some g => g.watch | none => []
  ws.mapIdx (fun i e => (i, e)) ++ gs.mapIdx (fun i e => (32 + i, e)) ++ (s.dom w.dom).watch.mapIdx (fun i e => (64 + i, e))

/-- Step 9 for a piece: the lowest matching byte. -/
def State.watchedAt (s : State) (w : Who) (x : Piece) : Option Nat :=
  if w.waive || w.quiet then none
  else
    (s.watches w).foldl (fun a (_, e) =>
      match a, watchHit w x e with
      | some a, some b => some (min a b)
      | none, b => b
      | a, none => a) none

/-- Whether every byte of a granule is written by the pieces of an access. -/
def coversGranule (ps : List Place) (key : Nat) : Bool :=
  ps.any fun p => p.key == key / 64 * 64 && p.piece.len == 64 && p.piece.part.wr && !p.piece.part.rd

/-- Step 10 for a place (09 R214, R215). -/
def State.poisonHit (s : State) (ps : List Place) (x : Place) : Bool :=
  s.poisoned x.key && !x.piece.part.tagop && (x.piece.part.rd || !coversGranule ps x.key)

/-- Steps 4 of all pieces. -/
def State.placeAll (s : State) (w : Who) : List Piece → Except FaultInfo (List Place)
  | [] => .ok []
  | x :: r =>
    match s.place w x with
    | .error (code, step) => .error (failAt w x.part code step x.va)
    | .ok p =>
      match s.placeAll w r with
      | .error f => .error f
      | .ok ps => .ok (p :: ps)

/-- Steps 5 to 10 of placed pieces, each step over every byte before the next. -/
def State.checkPlaces (s : State) (w : Who) (ps : List Place) : Option FaultInfo :=
  let at_ := fun (x : Place) (code step : Nat) => failAt w x.piece.part code step x.piece.va
  match ps.findSome? fun x => (s.pageFails w x).map fun a => failAt w x.piece.part 4 5 a with
  | some f => some f
  | none =>
  match ps.find? fun x => !x.stampOk with
  | some x => some (at_ x 7 6)
  | none =>
  match ps.findSome? fun x => (s.lockedAt w x.piece).map fun a => failAt w x.piece.part 6 7 a with
  | some f => some f
  | none =>
  match ps.find? fun x => x.tagged && !x.piece.part.tagop && s.tagAt x.key != ptrTag x.piece.part.ptr with
  | some x => some (at_ x 5 8)
  | none =>
  match ps.findSome? fun x => (s.watchedAt w x.piece).map fun a => failAt w x.piece.part 9 9 a with
  | some f =>
    let e := ((s.watches w).find? fun (_, e) => ps.any fun x => (watchHit w x.piece e).isSome).map (·.1)
    some { f with entry := e.getD 0 }
  | none =>
  match ps.find? fun x => s.poisonHit ps x with
  | some x => some (at_ x 16 10)
  | none => none

/-- The ten checks over all bytes of an access, in order (09 R214, R215; 04 R136): the places, or the first failure. -/
def State.checkParts (s : State) (w : Who) (parts : List Part) : Except FaultInfo (List Place) :=
  match parts.find? fun p => p.ptr.toNat / 2 ^ 60 != 0 with
  | some p => .error ⟨4, w.lane, 1, accOf w.eng p.rd p.wr, p.ptr, 0, none⟩
  | none =>
  match parts.find? fun p => ptrAddr p.ptr % p.align != 0 with
  | some p => .error ⟨2, w.lane, 2, accOf w.eng p.rd p.wr, p.ptr, 0, none⟩
  | none =>
  let xs := parts.flatMap Part.pieces
  match xs.find? fun x => !s.regionOk w x with
  | some x => .error (failAt w x.part 4 3 (if regionOf x.va = .aperture ∧ x.va / 2 ^ 21 % 8 = 0 then
      match s.apertureGroup w.gid (x.va / 2 ^ 24 % 16) with
      | some g => max x.va (x.va - x.va % 2 ^ 21 + g.scratchLen)
      | none => x.va
      else x.va))
  | none =>
  match s.placeAll w xs with
  | .error f => .error f
  | .ok ps =>
    match s.checkPlaces w ps with
    | some f => .error f
    | none => .ok ps

/-! ### Reading and writing checked places -/

/-- The bytes of the read places, in order. -/
def State.readPlaces (s : State) : List Place → List Byte
  | [] => []
  | p :: r => (if p.piece.part.rd then s.bytes p.piece.len p.key else []) ++ s.readPlaces r

/-- Writes bytes to the written places, in order; a store of a whole granule clears its poison (09 R215). -/
def State.writePlaces (s : State) : List Place → List Byte → State
  | [], _ => s
  | p :: r, bs =>
    if p.piece.part.wr then
      let n := p.piece.len
      let s := s.setBytes (bs.take n) p.key
      let s := if n = 64 ∧ p.key % 64 = 0 then s.clearPoison p.key else s
      s.writePlaces r (bs.drop n)
    else s.writePlaces r bs

/-- A read by an agent of a domain outside any wave (the CP, the Assayer, the trap unit). -/
def Who.device (d : Nat) : Who := ⟨d, 0, 0, 0, 0, true, true, true⟩

/-- Reads n bytes of a domain's memory under its checks. -/
def State.devRead (s : State) (d : Nat) (p : DWord) (n align : Nat) : Except FaultInfo (List Byte) :=
  match s.checkParts (Who.device d) [Part.read p n align] with
  | .ok ps => .ok (s.readPlaces ps)
  | .error f => .error f

/-- Writes bytes into a domain's memory under its checks. -/
def State.devWrite (s : State) (d : Nat) (p : DWord) (bs : List Byte) (align : Nat) : Except FaultInfo State :=
  match s.checkParts (Who.device d) [Part.write p bs.length align] with
  | .ok ps => .ok (s.writePlaces ps bs)
  | .error f => .error f

/-- Adds to an 8-byte counter of a domain, with release (06 R171, R172). -/
def State.addCounter (s : State) (d : Nat) (p inc : DWord) : Except FaultInfo State :=
  match s.checkParts (Who.device d) [⟨p, 8, true, true, 8, true, false⟩] with
  | .ok ps => .ok (s.writePlaces ps (leBytes 8 ((BitVec.ofNat 64 (leNat (s.readPlaces ps))) + inc).toNat))
  | .error f => .error f

/-- Writes a completion word (22 R492); a failure is reported to the domain. -/
def State.completionWord (s : State) (d : Nat) (p : DWord) : State :=
  match s.devWrite d p (leBytes 8 1) 8 with
  | .ok s => s
  | .error f => postReport d (report f.code d p) s

/-! ### The lanes of one memory instruction (11 R262 to R264) -/

/-- The agent that lane l of the issuing run is. -/
def Ctx.who (c : Ctx) (l : Nat) : Who :=
  ⟨c.g.dom, c.g.core, c.g.gid, c.iss.wave, l, false, inMask c.w.waive l, c.helper l⟩

/-- The checks of every ordinary lane: the first failure in lane order (11 R262). -/
def firstFault (f : Nat → Except FaultInfo (List Place)) : List Nat → Option FaultInfo
  | [] => none
  | l :: r => match f l with | .error e => some e | .ok _ => firstFault f r

/-- Whether a place lies behind a peer that does not answer (22 R488). -/
def State.unanswered (s : State) (x : Place) : Bool :=
  x.key ≥ 2 ^ 64 && s.peers.any fun p => !p.answers && p.pkg == (x.key - 2 ^ 64) / 2 ^ 43 && p.dom == (x.key - 2 ^ 64) / 2 ^ 36 % 128

/-! ### Lines at the L2 port (09 R234) -/

/-- The 64-byte lines that places want of the L2 port: those of local and peer memory. A scratchpad is no line of the L2. -/
def linesOf (ps : List Place) : List Nat := ((ps.filter (·.outer)).map fun x => x.key / 64).eraseDups

/-- What the run's instruction does once its accesses have passed their checks: its lines come to the core's L2 port. Where one waits
for a token the run is held until it leaves; a run that was held comes with its lines. A native slot does not wait: its result lands
later (15 R346). -/
def throughPort (c : Ctx) (n : Nat) (s : State) (act : State → State) : Out :=
  if c.released.isSome then .next (act s)
  else
    match wantLines c.g.core c.g.dom n s with
    | (none, s) => .next (act s)
    | (some last, s) => if c.iss.bind.isSome then .next (act s) else .next (holdRun c c.iss.mask (.port c.g.core last) 0 s)

/-- A failed check whose walk met a table in a foreign slice is also counted and reported to domain 0 (17 R383). -/
def noteForeign (d : Nat) (f : FaultInfo) (s : State) : State :=
  if f.code = 3 ∧ regionOf (ptrAddr f.addr) = .local ∧ s.translate d (ptrAddr f.addr) = .foreign then s.configError (0x4000 + 8 * d) else s

/-- Raises a memory fault. -/
def memRaise (c : Ctx) (f : FaultInfo) (s : State) : Out := raise c f (noteForeign c.g.dom f s)

end Sys2Proof.Machine
end

