-- ==== Sys2Proof/Machine/Control.lean ====
section
/-! DEFINITION. Transfers of control, calls and thread ends (01 R22, R35 to R37; 04 R101 to R108), ejection to the gondolas
(05 R148 to R152) and arrival at a join (05 R154). -/
namespace Sys2Proof.Machine

/-! ### Moving a lane -/

/-- Binds values to value numbers from n on. -/
def bindArgs (n : Nat) : List TVal → Frame → Frame
  | [], f => f
  | v :: r, f => bindArgs (n + 1) r (f.define n v)

/-- A lane that enters block b of its function with the block's arguments bound (01 R22). -/
def Lane.enter (b : Block) (vs : List TVal) (x : Lane) : Lane :=
  x.modTop fun f => { bindArgs b.val0 vs f with idx := b.first }

/-- The values of arguments in lane l, each of the type that its parameter has. -/
def evalArgs (s : State) (c : Ctx) (l : Nat) (ts : List Ty) (as : List Opnd) : Option (List TVal) :=
  if ts.length = as.length then
    (evalOps s c l (ts.zip as)).map fun xs => (ts.zip xs).map fun (t, x) => ⟨t, x⟩
  else none

/-- A move of one lane: its target's number in the function, the block and the values that it binds. -/
structure Move where
  lane : Nat
  num : Nat
  /-- the move takes a `switch`'s default -/
  dflt : Bool
  blk : Block
  vals : List TVal
  deriving DecidableEq, Repr

/-- The move of lane l to a target. -/
def moveTo (s : State) (c : Ctx) (f : Func) (l : Nat) (t : Target) (dflt : Bool := false) : Option Move :=
  match f.blocks[t.blk.toNat]? with
  | some b => (evalArgs s c l b.args t.args).map fun vs => ⟨l, t.blk.toNat, dflt, b, vs⟩
  | none => none

/-- Moves the lanes of a list of moves in a wave. -/
def applyMoves (ms : List Move) (w : Wave) : Wave :=
  ms.foldl (fun w m => w.modLane m.lane (Lane.enter m.blk m.vals)) w

/-! ### Arrival at a join (05 R154) -/

/-- Whether a lane stands at the join of a rejoin set. -/
def atJoin (g : Group) (l : Nat) (x : Lane) (e : EjSet) : Bool :=
  e.func == x.top.func && e.join == x.top.idx && e.chain == x.chain && (!g.w16 || e.half == l / 16)

/-- Lanes park at the join for a set: with the first of them its timer starts (05 R154, R155). -/
def EjSet.waited (e : EjSet) (m : Word) (now : Nat) : EjSet :=
  { e with waiting := e.waiting ||| m, timerOn := true, since := if e.timerOn then e.since else now }

/-- Lane l of a wave has transferred control: an ejected lane that stands at the join of a set that it is away for is due to rejoin; a
lane of the wave, a helper lane too, that awaits ejected lanes of sets with this join parks for them, and the timers of those sets
start (05 R154, R155). A lane that was ejected, and went on in the wave after a fault, leaves its set here (05 R157). -/
def arrive (gid wi l : Nat) (s : State) : State :=
  match s.group? gid, s.wave? gid wi with
  | some g, some w =>
    match w.lanes[l]? with
    | some x =>
      if !x.alive || !w.ejSets.any (atJoin g l x) then s
      else if x.ejected then (if w.ejSets.any fun e => atJoin g l x e && inMask e.away l then s.due (.rejoin gid wi l) else s)
      else
        let bit : Word := 1#32 <<< l
        let sets := w.ejSets.map fun e =>
          if atJoin g l x e then
            let e := { e with away := e.away &&& ~~~bit }
            if e.away ≠ 0 ∧ e.timedOut = false then e.waited bit s.now else e
          else e
        let w := { w with ejSets := sets }
        let w := if heldByOther sets l then w.modLane l fun x => { x with park := .join } else w
        s.modWave gid wi fun _ => releaseJoins g w
    | none => s
  | _, _ => s

/-! ### Ejection at a branch (05 R150 to R152) -/

/-- Lane entries that wait in a cluster's ejection queue (05 R151). -/
def ClusterSt.queued (k : ClusterSt) : Nat := (k.ejq.filter fun e => e.gondola == none).length

/-- One side of a divergent branch in one half: the target block, whether it is the default, its first index and the lanes that take it. -/
structure Side where
  num : Nat
  dflt : Bool
  first : Nat
  lanes : List Nat
  deriving DecidableEq, Repr

/-- Inserts a side by ascending portable point. -/
def insertSide (x : Side) : List Side → List Side
  | [] => [x]
  | y :: r => if x.first < y.first then x :: y :: r else y :: insertSide x r

/-- Whether a move takes a side: every distinct target block is one side, and the default one more (05 R150). -/
def Side.takes (x : Side) (m : Move) : Bool := x.num == m.num && x.dflt == m.dflt

/-- The sides that the ordinary lanes of half h take. -/
def sidesOf (c : Ctx) (h : Nat) (ms : List Move) : List Side :=
  let mine := ms.filter fun m => !c.helper m.lane && (!c.g.w16 || m.lane / 16 == h)
  mine.foldl (fun (ss : List Side) m =>
    if ss.any (·.takes m) then ss.map fun x => if x.takes m then { x with lanes := x.lanes ++ [m.lane] } else x
    else insertSide ⟨m.num, m.dflt, m.blk.first, [m.lane]⟩ ss) []

/-- Ejects the lanes of one side: they leave the wave for the cluster's queue, in a set of the branch; lanes that are parked at its join
already wait for them too (05 R150 to R154). -/
def ejectSide (c : Ctx) (h setId join : Nat) (x : Side) (s : State) : State :=
  let m := maskOf x.lanes
  let now := s.now
  let s := s.modWave c.iss.gid c.iss.wave fun w =>
    let ch := match c.lanes.head? with | some l => (match c.lane? l with | some y => y.chain | none => []) | none => []
    let fn := match c.lanes.head? with | some l => (match c.lane? l with | some y => y.top.func | none => 0) | none => 0
    let sets := if w.ejSets.any (·.id == setId) then
        w.ejSets.map fun e => if e.id = setId then { e with away := e.away ||| m } else e
      else
        let e : EjSet := ⟨setId, h, fn, ch, join, m, 0, false, false, 0⟩
        let there := maskOf ((w.lanes.zipIdx.filter fun (y, i) => y.alive && y.park == .join && atJoin c.g i y e).map (·.2))
        w.ejSets ++ [if there = 0 then e else e.waited there now]
    { w.mapLanes (fun l y => if inMask m l then { y with ejected := true, age := 0 } else y) with ejSets := sets }
  s.modCluster (clusterOf c.g.core) fun k =>
    { k with ejq := k.ejq ++ x.lanes.map (fun l => ⟨c.iss.gid, c.iss.wave, l, none⟩), made := k.made + x.lanes.length }

/-- Tests the sides of one half in ascending portable point (05 R150). -/
def ejectSides (c : Ctx) (h setId join : Nat) (ok : List Nat) (all : List Side) : List Side → State → State
  | [], s => s
  | x :: r, s =>
    let n := x.lanes.length
    let e := c.g.eject
    let s :=
      if n ≤ e ∧ ok.contains x.num ∧ all.any (fun y => !(y.num == x.num && y.dflt == x.dflt) && e < y.lanes.length) then
        let s := s.modDom c.g.dom fun d => { d with guest := modNth (· + n) d.guest 14 }
        if (s.cluster (clusterOf c.g.core)).queued + n ≤ 16 then ejectSide c h setId join x s
        else s.modCluster (clusterOf c.g.core) fun k => { k with refused := k.refused + n }
      else s
    ejectSides c h setId join ok all r s

/-- The ejections of a branch whose lanes have moved; none on a gondola, in a native slot, or with STEP set (17 R392). -/
def ejectAt (c : Ctx) (pt : Point) (ms : List Move) (s : State) : State :=
  match pt.join with
  | none => s
  | some j =>
    if c.iss.gondola ∨ c.g.eject = 0 ∨ field c.w.dbg 0 1 = 1 then s
    else
      let (a, s) := s.newId
      let (b, s) := s.newId
      let s := ejectSides c 0 a j pt.eject (sidesOf c 0 ms) (sidesOf c 0 ms) s
      if c.g.w16 then ejectSides c 1 b j pt.eject (sidesOf c 1 ms) (sidesOf c 1 ms) s else s

/-- The function and the point at which the run stands. -/
def Ctx.here (s : State) (c : Ctx) : Option (Func × Point) :=
  match c.lanes.head? with
  | none => none
  | some l =>
    match (c.lane? l).map Lane.top with
    | none => none
    | some t => (s.func? c.g t.func).bind fun f => (f.points[t.idx]?).map fun p => (f, p)

/-- The terminator, call or return of a run is a choice point of its halves; that of an ejected lane is none of its wave's (05 R145,
R156, R168). -/
def Ctx.choicePoint (c : Ctx) (w : Wave) : Wave := if c.iss.gondola then w else w.choiceDue c.g (maskOf c.lanes)

/-- Transfers the lanes of a run: moves, ejection, arrivals, and a choice point (01 R22; 05 R145). -/
def transfer (c : Ctx) (pt : Point) (ms : List Move) (s : State) : State :=
  let s := s.modWave c.iss.gid c.iss.wave fun w => c.choicePoint (applyMoves ms w)
  let s := ejectAt c pt ms s
  ms.foldl (fun s m => arrive c.iss.gid c.iss.wave m.lane s) s

/-- The moves of lanes, or none where some lane has none. -/
def movesOf (f : Nat → Option Move) : List Nat → Option (List Move)
  | [] => some []
  | l :: r =>
    match f l, movesOf f r with
    | some m, some ms => some (m :: ms)
    | _, _ => none

/-- A branch whose target each lane chooses. -/
def branch (s : State) (pick : Ctx → Nat → Option Target) : Out :=
  withRun s fun c =>
    match c.here s with
    | none => illegal c s
    | some (f, pt) =>
      match movesOf (fun l => (pick c l).bind (moveTo s c f l)) c.lanes with
      | some ms => .next (transfer c pt ms s)
      | none => illegal c s

/-- `br` (04 R102). -/
def execBr (t : Target) (s : State) : Out := branch s fun _ _ => some t

/-- `brc` (04 R103). -/
def execBrc (cnd : Opnd) (t f : Target) (s : State) : Out :=
  branch s fun c l => (evalOp s c l .i1 cnd).map fun b => if b = 1 then t else f

/-- The target of `switch` for index i: none where the index is out of range and no default stands (04 R104). -/
def switchPick (dflt : Option Target) (ts : List Target) (i : Nat) : Option Target :=
  match ts[i]? with
  | some t => some t
  | none => dflt

/-- Whether index i takes the default of `switch`. -/
def switchDflt (ts : List Target) (i : Nat) : Bool := ts[i]?.isNone

/-- `switch` (04 R104): every ordinary lane's index is checked before any lane moves; a helper lane out of range exits
(05 R142). -/
def execSwitch (ty : Ty) (idx : Opnd) (dflt : Option Target) (ts : List Target) (s : State) : Out :=
  withRun s fun c =>
    match c.here s, evalAll s c ty idx c.lanes with
    | some (f, pt), some is =>
      let bad := fun (l : Nat) => (is.lookup l).all fun i => (switchPick dflt ts (uRd ty.width i)).isNone
      match c.ordinary.find? bad with
      | some l =>
        let t := exitHelpers c (c.helpers.filter bad) s
        raise ((t.ctx?).getD c) (FaultInfo.plain 12 l (BitVec.ofNat 64 (uRd ty.width ((is.lookup l).getD 0)))) t
      | none =>
        let stay := c.lanes.filter fun l => !bad l
        let out := c.lanes.filter bad
        let goes := fun (l : Nat) => (is.lookup l).bind fun i =>
          (switchPick dflt ts (uRd ty.width i)).bind fun t => moveTo s c f l t (switchDflt ts (uRd ty.width i))
        match movesOf goes stay with
        | some ms => .next (exitHelpers c out (transfer c pt ms s))
        | none => illegal c s
    | _, _ => illegal c s
where
  /-- The values of one operand in every lane. -/
  evalAll (s : State) (c : Ctx) (t : Ty) (o : Opnd) : List Nat → Option (List (Nat × Bits))
    | [] => some []
    | l :: r =>
      match evalOp s c l t o, evalAll s c t o r with
      | some x, some xs => some ((l, x) :: xs)
      | _, _ => none

/-! ### Calls (01 R35, R36; 04 R107) -/

/-- `call` (04 R107): the caller's point stays at the call until the return. -/
def execCall (_ty : Option Ty) (f : BitVec 32) (args : List Opnd) (s : State) : Out :=
  withRun s fun c =>
    match s.func? c.g f.toNat with
    | none => illegal c s
    | some fn =>
      let b := fn.blocks.headD ⟨0, [], 0⟩
      match gatherVals (fun l => evalArgs s c l b.args args) c.lanes with
      | none => illegal c s
      | some vs =>
        .next (s.modWave c.iss.gid c.iss.wave fun w =>
          c.choicePoint (w.mapLanes fun l x =>
              match vs.lookup l with
              | some vs => { x with frames := bindArgs b.val0 vs ⟨f.toNat, 0, []⟩ :: x.frames }
              | none => x))
where
  /-- The argument values of every lane. -/
  gatherVals (f : Nat → Option (List TVal)) : List Nat → Option (List (Nat × List TVal))
    | [] => some []
    | l :: r =>
      match f l, gatherVals f r with
      | some x, some xs => some ((l, x) :: xs)
      | _, _ => none

/-- The value number that a call's result takes in the caller. -/
def State.callRes (s : State) (g : Group) (f : Frame) : Option Nat :=
  (s.func? g f.func).bind fun fn => (fn.points[f.idx]?).bind (·.res)

/-- A lane that returns to its caller with an optional value. -/
def Lane.back (res : Option Nat) (v : Option TVal) (x : Lane) : Lane :=
  match x.frames with
  | _ :: f :: r =>
    let f := match res, v with | some n, some v => f.define n v | _, _ => f
    { x with frames := { f with idx := f.idx + 1 } :: r }
  | _ => x

/-- A lane of a gate context with what it hands back: a value, or 0 (20 R440). -/
def Lane.handBack (v : Option TVal) (x : Lane) : Lane :=
  { x with gateVal := some (match v with | some v => v.bits.extractLsb' 0 64 | none => 0) }

/-- Returns every lane of the run: to its caller, or, in the kernel's own body, to the end of the thread (01 R17, R35); the
outermost frame of a gate context hands its value back (20 R440). -/
def returnLanes (c : Ctx) (v : Nat → Option TVal) (s : State) : State :=
  let s := s.modWave c.iss.gid c.iss.wave fun w =>
    c.choicePoint (w.mapLanes fun l x =>
        if c.lanes.contains l then
          match x.frames with
          | _ :: f :: _ => x.back (s.callRes c.g f) (v l)
          | _ => if c.g.gate.isSome then x.handBack (v l) else x
        else x)
  c.lanes.foldl (fun s l =>
    match c.lane? l with
    | some x => if x.frames.length ≤ 1 then endLane false c.iss.gid c.iss.wave l s else s
    | none => s) s

/-- `ret` without an operand (04 R105). -/
def execRet (s : State) : Out := withRun s fun c => .next (returnLanes c (fun _ => none) s)

/-- `ret` with a value (04 R105). -/
def execRetValue (ty : Ty) (v : Opnd) (s : State) : Out :=
  withRun s fun c =>
    if c.lanes.all fun l => (evalOp s c l ty v).isSome then
      .next (returnLanes c (fun l => (evalOp s c l ty v).map fun x => ⟨ty, x⟩) s)
    else illegal c s

/-- `exit` (01 R37; 04 R106); in a gate context it hands 0 back (20 R440). -/
def execExit (s : State) : Out :=
  withRun s fun c =>
    let s := s.modWave c.iss.gid c.iss.wave fun w =>
      w.mapLanes fun l x => if c.g.gate.isSome ∧ c.lanes.contains l then x.handBack none else x
    .next (c.lanes.foldl (fun s l => endLane false c.iss.gid c.iss.wave l s) s)

/-- SOFTWARE at the lowest ordinary lane, with a code; a helper lane passes (04 R108; 05 R142). -/
def softwareTrap (code : Nat) (s : State) : Out :=
  withRun s fun c =>
    match c.ordinary with
    | [] => .next (commit c (c.lanes.map fun l => (l, none, match c.lane? l with | some x => x.acc | none => ⟨0, ⟨0, 0, 0, 0⟩⟩)) s)
    | l :: _ => raise c (FaultInfo.plain 11 l (BitVec.ofNat 64 code)) s

/-- `trap` (04 R108). -/
def execTrap (s : State) : Out := softwareTrap 0 s

/-- `trap` with a code (04 R108). -/
def execTrapCode (code : BitVec 30) (s : State) : Out := softwareTrap code.toNat s

end Sys2Proof.Machine
end

