-- ==== Sys2Proof/Machine/MemoryOps.lean ====
section
/-! DEFINITION. Memory, atomic, fence, tag and watchpoint instructions (11 R260 to R280) and the block-scaled conversions
(04 R134 to R136). -/
namespace Sys2Proof.Machine

/-- What each lane of a memory instruction may do: the places of its access, or none where a check fails. -/
abbrev LanePlaces := List (Nat × Option (List Place))

/-- The accesses of the active lanes: the checks of every ordinary lane first (11 R262); a helper lane's failure is silent
(R264). -/
def lanePlaces (s : State) (c : Ctx) (req : Nat → List Part) : List Nat → Except FaultInfo LanePlaces
  | [] => .ok []
  | l :: r =>
    match s.checkParts (c.who l) (req l) with
    | .error f =>
      if c.helper l then (lanePlaces s c req r).map fun ps => (l, none) :: ps else .error f
    | .ok ps => (lanePlaces s c req r).map fun qs => (l, some ps) :: qs

/-- The lanes whose access waits for a peer that does not answer, with the address. -/
def waitingPeers (s : State) (c : Ctx) (ps : LanePlaces) : List (Nat × DWord) :=
  ps.filterMap fun (l, q) =>
    match q with
    | some q => if c.helper l then none else
        (q.find? fun x => x.piece.part.rd && s.unanswered x).map fun x => (l, ptrWith x.piece.part.ptr x.piece.va)
    | none => none

/-- A memory instruction: operands, checks, the lines at the L2 port (09 R234), and then the access of every lane. A read that a peer
does not answer holds the run until the peer answers or 1 ms passes (22 R488). -/
def memInstr {A : Type} (s : State) (opnds : Ctx → Nat → Option A) (req : A → List Part)
    (act : Ctx → List (Nat × A × Option (List Place)) → State → State) : Out :=
  withRun s fun c =>
    let s := dropHold c s
    let as := c.lanes.filterMap fun l => (opnds c l).map fun a => (l, a)
    if as.length ≠ c.lanes.length then illegal c s
    else
      match lanePlaces s c (fun l => match as.lookup l with | some a => req a | none => []) c.lanes with
      | .error f => memRaise c f s
      | .ok ps =>
        match waitingPeers s c ps with
        | (l, a) :: r =>
          .next ((holdRun c c.iss.mask (.peer ((l, a) :: r)) 0 s).due (.peerReadTimeout c.iss.gid c.iss.wave l))
        | [] =>
          throughPort c (linesOf (ps.flatMap fun (_, q) => q.getD [])).length s
            (act c (as.map fun (l, a) => (l, a, (ps.lookup l).getD none)))

/-- The value of type t in a list of bytes. -/
def valOfBytes (t : Ty) (bs : List Byte) : TVal := ⟨t, ofU t.width (leNat bs)⟩

/-- The bytes of a value. -/
def bytesOfVal (t : Ty) (b : Bits) : List Byte := leBytes t.size (uRd t.width b)

/-- The alignment of a load or a store (11 R265). -/
def alignOf (t : Ty) : Nat := if t = .lay then 4 else t.size

/-- A lane that only receives a value. -/
def Ctx.give (c : Ctx) (l : Nat) (v : Option TVal) : Nat × LaneOut :=
  (l, v, match c.lane? l with | some x => x.acc | none => ⟨0, ⟨0, 0, 0, 0⟩⟩)

/-- The bytes that a store could not deliver, because the peer does not answer, are reported (22 R488). -/
def reportLost (c : Ctx) (ps : List Place) (s : State) : State :=
  match ps.find? fun x => s.unanswered x with
  | some x => s.due (.peerWriteTimeout c.g.dom (ptrWith x.piece.part.ptr x.piece.va))
  | none => s

/-- Stores bytes at checked places. -/
def storePlaces (c : Ctx) (ps : List Place) (bs : List Byte) (s : State) : State :=
  if ps.any fun x => s.unanswered x then reportLost c ps s else s.writePlaces ps bs

/-- Loads of every lane, before any store. -/
def loadAll (c : Ctx) (s : State) (ty : Ty) {A : Type} (as : List (Nat × A × Option (List Place))) : List (Nat × LaneOut) :=
  as.map fun (l, _, q) =>
    c.give l (some (match q with | some ps => valOfBytes ty (s.readPlaces ps) | none => ⟨ty, 0⟩))

/-- Stores of every ordinary lane, in ascending lane number (11 R263). -/
def storeAll (c : Ctx) {A : Type} (bytes : A → List Byte) : List (Nat × A × Option (List Place)) → State → State
  | [], s => s
  | (l, a, q) :: r, s =>
    storeAll c bytes r (match q with
      | some ps => if c.helper l then s else storePlaces c ps (bytes a) s
      | none => s)

/-- `ld` (11 R265). -/
def execLd (_nt : Bool) (_sc : Scope) (_o : Ord4) (ty : Ty) (p : Opnd) (s : State) : Out :=
  memInstr s (fun c l => evalOp s c l .ptr p) (fun a => [Part.read (a.extractLsb' 0 64) ty.size (alignOf ty)])
    fun c as s => commit c (loadAll c s ty as) s

/-- `st` (11 R265). -/
def execSt (_nt : Bool) (_sc : Scope) (_o : Ord4) (ty : Ty) (p v : Opnd) (s : State) : Out :=
  memInstr s
    (fun c l => match evalOp s c l .ptr p, evalOp s c l ty v with | some a, some x => some (a, x) | _, _ => none)
    (fun a => [Part.write (a.1.extractLsb' 0 64) ty.size (alignOf ty)])
    fun c as s => storeAll c (fun a => bytesOfVal ty a.2) as (commit c (as.map fun (l, _, _) => c.give l none) s)

/-! ### Layout-addressed accesses (09 R220 to R222; 11 R267, R268) -/

/-- The fields of a layout word. -/
def layBase (l : Bits) : Nat := bitsAt l 0 21
def layPerm (l : Bits) : Nat := bitsAt l 21 4
def laySize (l : Bits) : Nat := bitsAt l 25 3
def layStride (l : Bits) (k : Nat) : Nat := bitsAt l (32 + 16 * k) 16

/-- Whether a layout word is malformed (09 R222). -/
def layBad (l : Bits) : Bool := bitsAt l 28 4 != 0 || bitsAt l 80 16 != 0 || 5 < layPerm l

/-- The unpermuted byte offset of an element (09 R221). -/
def layByte (l : Bits) (i0 i1 i2 : Nat) : Nat :=
  layBase l + (i0 * layStride l 0 + i1 * layStride l 1 + i2 * layStride l 2) * 2 ^ laySize l

/-- The permuted offset (09 R221). -/
def layOff (l : Bits) (b : Nat) : Nat :=
  let u := max 4 (2 ^ laySize l)
  let key := if layPerm l = 0 then 0 else b / 128 % 2 ^ layPerm l * u % 128
  b ^^^ key

/-- The address of the own allocation's first byte (09 R211). -/
def ownBase : Nat := 0xFFFFFFF0000000

/-- The operands of a layout access in one lane. -/
structure LayReq where
  lay : Bits
  ptr : DWord
  i0 : Nat
  i1 : Nat
  i2 : Nat
  val : Bits
  deriving DecidableEq, Repr

/-- The layout checks inside steps 1 to 3 (11 R268); `n` is the access size. -/
def layCheck (w : Who) (wr : Bool) (n : Nat) (q : LayReq) : Option FaultInfo :=
  let acc := if wr then 2 else 1
  let b := layByte q.lay q.i0 q.i1 q.i2
  let base : DWord := BitVec.ofNat 64 (layBase q.lay)
  if q.ptr.toNat / 2 ^ 60 ≠ 0 then some ⟨4, w.lane, 1, acc, q.ptr, 0, none⟩
  else if layBase q.lay % 2 ^ laySize q.lay ≠ 0 then some ⟨2, w.lane, 2, acc, base, 0, none⟩
  else if layBad q.lay then some ⟨4, w.lane, 3, acc, base, 0, none⟩
  else if n ≠ 2 ^ laySize q.lay then some ⟨4, w.lane, 3, acc, base, 0, none⟩
  else if 2 ^ 21 < b + n then some ⟨4, w.lane, 3, acc, ptrWith q.ptr (ownBase + b), 0, none⟩
  else none

/-- The element's access. -/
def layPart (wr : Bool) (n : Nat) (q : LayReq) : Part :=
  ⟨ptrWith q.ptr (ownBase + layOff q.lay (layByte q.lay q.i0 q.i1 q.i2)), n, !wr, wr, 1, true, false⟩

/-- The operands of a layout access. -/
def layOpnds (s : State) (c : Ctx) (l : Nat) (lay : BitVec 24) (p i0 i1 i2 : Opnd) (v : Option (Ty × Opnd)) : Option LayReq :=
  match typedVal c l .lay lay.toNat, evalOps s c l [(.ptr, p), (.i32, i0), (.i32, i1), (.i32, i2)] with
  | some w, some [p, i0, i1, i2] =>
    match v with
    | none => some ⟨w, p.extractLsb' 0 64, i0.toNat, i1.toNat, i2.toNat, 0⟩
    | some (t, o) => (evalOp s c l t o).map fun x => ⟨w, p.extractLsb' 0 64, i0.toNat, i1.toNat, i2.toNat, x⟩
  | _, _ => none

/-- The accesses of the lanes of a layout instruction: the first failing lane's first failing step. -/
def layPlaces (s : State) (c : Ctx) (wr : Bool) (n : Nat) : List (Nat × LayReq) → Except FaultInfo (List (Nat × LayReq × Option (List Place)))
  | [] => .ok []
  | (l, q) :: r =>
    let res : Except FaultInfo (List Place) :=
      match layCheck (c.who l) wr n q with
      | some f => .error f
      | none => s.checkParts (c.who l) [layPart wr n q]
    match res with
    | .error f => if c.helper l then (layPlaces s c wr n r).map fun x => (l, q, none) :: x else .error f
    | .ok ps => (layPlaces s c wr n r).map fun x => (l, q, some ps) :: x

/-- A layout-addressed instruction: it reaches the own scratchpad alone, and no line of the L2 port. -/
def layInstr (s : State) (wr : Bool) (n : Nat) (opnds : Ctx → Nat → Option LayReq)
    (act : Ctx → List (Nat × LayReq × Option (List Place)) → State → State) : Out :=
  withRun s fun c =>
    let as := c.lanes.filterMap fun l => (opnds c l).map fun a => (l, a)
    if as.length ≠ c.lanes.length then illegal c s
    else
      match layPlaces s c wr n as with
      | .error f => memRaise c f s
      | .ok ps => .next (act c ps s)

/-- `ldlay` (11 R268). -/
def execLdlay (_sc : Scope) (ty : Ty) (l : BitVec 24) (p i0 i1 i2 : Opnd) (s : State) : Out :=
  layInstr s false ty.size (fun c ln => layOpnds s c ln l p i0 i1 i2 none) fun c as s => commit c (loadAll c s ty as) s

/-- `stlay` (11 R268). -/
def execStlay (_sc : Scope) (ty : Ty) (l : BitVec 24) (p i0 i1 i2 v : Opnd) (s : State) : Out :=
  layInstr s true ty.size (fun c ln => layOpnds s c ln l p i0 i1 i2 (some (ty, v))) fun c as s =>
    storeAll c (fun q => bytesOfVal ty q.val) as (commit c (as.map fun (l, _, _) => c.give l none) s)

/-- `laymake` (11 R267). -/
def execLaymake (base perm size st0 st1 st2 : Opnd) (s : State) : Out :=
  laneMap s fun c l acc =>
    match evalOps s c l [(.i32, base), (.i32, perm), (.i32, size), (.i32, st0), (.i32, st1), (.i32, st2)] with
    | some [b, p, z, x, y, w] =>
      let bad := decide (2 ^ 21 ≤ b.toNat ∨ 5 < p.toNat ∨ 3 < z.toNat ∨ 2 ^ 16 ≤ x.toNat ∨ 2 ^ 16 ≤ y.toNat ∨ 2 ^ 16 ≤ w.toNat)
      let w0 := b.toNat % 2 ^ 21 + p.toNat % 16 * 2 ^ 21 + z.toNat % 8 * 2 ^ 25 + (if bad then 2 ^ 28 else 0)
      let w1 := x.toNat % 2 ^ 16 + y.toNat % 2 ^ 16 * 2 ^ 16
      some (some ⟨.lay, BitVec.ofNat 96 (w0 + w1 * 2 ^ 32 + w.toNat % 2 ^ 16 * 2 ^ 64)⟩, acc)
    | _ => none

/-! ### Atomics (11 R269 to R272) -/

/-- The read-modify-writes of the lanes, one after another in ascending lane number; a helper lane reads only (11 R263,
R264). `new` gives the value written from the old one, none where nothing is written. -/
def rmwAll (c : Ctx) (ty : Ty) {A : Type} (new : A → Bits → Option Bits) :
    List (Nat × A × Option (List Place)) → State → List (Nat × LaneOut) × State
  | [], s => ([], s)
  | (l, a, q) :: r, s =>
    let old := match q with | some ps => valOfBytes ty (s.readPlaces ps) | none => ⟨ty, 0⟩
    let s' := match q, new a old.bits with
      | some ps, some x => if c.helper l then s else storePlaces c ps (bytesOfVal ty x) s
      | _, _ => s
    let (rs, s'') := rmwAll c ty new r s'
    (c.give l (some old) :: rs, s'')

/-- An atomic instruction; `host` says whether a HOST page performs it (11 R270). -/
def rmwInstr (s : State) (ty : Ty) (host : Bool) {A : Type} (opnds : Ctx → Nat → Option (DWord × A))
    (new : A → Bits → Option Bits) : Out :=
  memInstr s opnds (fun a => [⟨a.1, ty.size, true, true, ty.size, host, false⟩]) fun c as s =>
    let (rs, s) := rmwAll c ty (fun (a : DWord × A) => new a.2) as s
    commit c rs s

/-- The new value of `atom` (11 R269). -/
def atomNew (op : AtomOp) (ty : Ty) (v old : Bits) : Bits :=
  let w := ty.width
  match op with
  | .add => ofU w (uRd w old + uRd w v)
  | .and => ofU w (uRd w old &&& uRd w v)
  | .or => ofU w (uRd w old ||| uRd w v)
  | .xor => ofU w (uRd w old ^^^ uRd w v)
  | .smin => if sRd w old ≤ sRd w v then old else v
  | .smax => if sRd w old ≥ sRd w v then old else v
  | .umin => if uRd w old ≤ uRd w v then old else v
  | .umax => if uRd w old ≥ uRd w v then old else v

/-- A pointer operand and a value operand. -/
def ptrVal (s : State) (ty : Ty) (p v : Opnd) (c : Ctx) (l : Nat) : Option (DWord × Bits) :=
  match evalOp s c l .ptr p, evalOp s c l ty v with
  | some a, some x => some (a.extractLsb' 0 64, x)
  | _, _ => none

/-- `atom` (11 R269). -/
def execAtom (op : AtomOp) (_sc : Scope) (_o : Ord4) (ty : Ty) (p v : Opnd) (s : State) : Out :=
  rmwInstr s ty (op == .add) (ptrVal s ty p v) fun v old => some (atomNew op ty v old)

/-- `xchg` (11 R269). -/
def execXchg (_sc : Scope) (_o : Ord4) (ty : Ty) (p v : Opnd) (s : State) : Out :=
  rmwInstr s ty (ty != .ptr) (ptrVal s ty p v) fun v _ => some v

/-- `cas` (11 R271). -/
def execCas (_sc : Scope) (_o : Ord4) (ty : Ty) (p e v : Opnd) (s : State) : Out :=
  rmwInstr s ty (ty != .ptr)
    (fun c l => match ptrVal s ty p e c l, evalOp s c l ty v with | some (a, x), some y => some (a, (x, y)) | _, _ => none)
    fun a old => if old = a.1 then some a.2 else none

/-- The new value of `fatom` (11 R272): RNE, subnormals kept, no flag. -/
def fatomNew (op : FAtomOp) (ty : Ty) (v old : Bits) : Bits :=
  match op with
  | .add =>
    (mapElems ty (fun k a =>
      let f := fmtOf ty
      let e := (elemsOf ty).2
      ((f.round .rne false false 0 ((f.read false (elemOf e k old)).add .rne (f.read false (elemOf e k v))).1).1, a))
      ⟨0, ⟨0, 0, 0, 0⟩⟩).1
  | .min => ofU ty.width ((fmtOf ty).minmax false false (uRd ty.width old) (uRd ty.width v))
  | .max => ofU ty.width ((fmtOf ty).minmax false true (uRd ty.width old) (uRd ty.width v))

/-- `fatom` (11 R272). -/
def execFatom (op : FAtomOp) (_sc : Scope) (_o : Ord4) (ty : Ty) (p v : Opnd) (s : State) : Out :=
  rmwInstr s ty false (ptrVal s ty p v) fun v old => some (fatomNew op ty v old)

/-- `fence` (11 R273): no access and no result. -/
def execFence (_sc : Scope) (_o : Ord4) (s : State) : Out := laneMap s fun _ _ acc => some (none, acc)

/-! ### Tags (11 R274) -/

/-- The granule of a pointer as an access of 64 bytes. -/
def granulePart (wr : Bool) (p : DWord) : Part := ⟨ptrWith p (ptrAddr p / 64 * 64), 64, !wr, wr, 1, true, true⟩

/-- `tagld` (11 R274). -/
def execTagld (p : Opnd) (s : State) : Out :=
  memInstr s (fun c l => (evalOp s c l .ptr p).map (BitVec.extractLsb' 0 64)) (fun a => [granulePart false a]) fun c as s =>
    commit c (as.map fun (l, _, q) =>
      c.give l (some (match q with
        | some [x] => ⟨.i8, if x.tagged then (s.tagAt x.key).zeroExtend 96 else 0⟩
        | _ => ⟨.i8, 0⟩))) s

/-- Sets the tags of the ordinary lanes' granules in ascending lane number (11 R275). -/
def tagAll (c : Ctx) : List (Nat × (DWord × Bits) × Option (List Place)) → State → State
  | [], s => s
  | (l, a, q) :: r, s =>
    tagAll c r (match q with
      | some [x] => if c.helper l then s else s.setTag x.key (a.2.extractLsb' 0 4)
      | _ => s)

/-- `tagst` (11 R274). -/
def execTagst (p t : Opnd) (s : State) : Out :=
  memInstr s (ptrVal s .i8 p t) (fun a => [granulePart true a.1]) fun c as s =>
    tagAll c as (commit c (as.map fun (l, _, _) => c.give l none) s)

/-! ### Watchpoint control (11 R276, R277) -/

/-- The entries of a watchpoint set (09 R230). -/
def setSize (set : Nat) : Nat := if set = 0 then 8 else if set = 1 then 16 else 32

/-- Condition 1 of R277. -/
def selBad (sel : Nat) : Bool :=
  let set := sel / 2 ^ 14 % 4
  set == 3 || setSize set ≤ sel % 32 || sel / 2 ^ 16 != 0 || sel / 2 ^ 5 % 2 ^ 9 != 0

/-- Condition 2 of R277. -/
def watchBad (set : Nat) (addr ctl : DWord) : Bool :=
  let scope := field ctl 10 2
  addr.toNat / 2 ^ 56 != 0 || ctl.toNat / 2 ^ 18 != 0 || 55 < field ctl 0 6 ||
  !((set == 0 && scope ≤ 1) || (set == 1 && scope == 2) || (set == 2 && scope == 3))

/-- Writes an entry of a watchpoint set. -/
def setWatch (c : Ctx) (sel : Nat) (e : Watch) (s : State) : State :=
  let i := sel % 32
  match sel / 2 ^ 14 % 4 with
  | 0 => s.modWave c.iss.gid c.iss.wave fun w => { w with watch := w.watch.set i e }
  | 1 => s.modGroup c.iss.gid fun g => { g with watch := g.watch.set i e }
  | _ => s.modDom c.g.dom fun d => { d with watch := d.watch.set i e }

/-- The result of a per-run instruction in every active lane: a helper lane receives h (13 R307; 07 R188). -/
def giveAll (c : Ctx) (v : Option TVal) (h : Option TVal) (s : State) : State :=
  commit c (c.lanes.map fun l => c.give l (if c.helper l then h else v)) s

/-- `watchset` and `watchclr`, once per run: the operands of the lowest ordinary lane; none is an undefined operand. -/
def watchInstr (s : State) (sel : State → Ctx → Nat → Option (Nat × Option (DWord × DWord))) : Out :=
  perRun s fun c s =>
    match c.ordinary with
    | [] => .next (giveAll c none (some ⟨.i32, 0⟩) s)
    | l :: _ =>
      match sel s c l with
      | none => illegal c s
      | some (sel, e) =>
        let st : Nat :=
          if selBad sel then 1
          else match e with
            | some (a, k) => if watchBad (sel / 2 ^ 14 % 4) a k then 2 else 0
            | none => 0
        let s := if st = 0 then
            setWatch c sel (match e with | some (a, k) => ⟨a, k⟩ | none => ⟨0, 0⟩) s
          else s
        .next (giveAll c (some ⟨.i32, ofU 32 st⟩) (some ⟨.i32, 0⟩) s)

/-- `watchset` (11 R277). -/
def execWatchset (sel addr ctl : Opnd) (s : State) : Out :=
  watchInstr s fun s c l =>
    match evalOp s c l .i32 sel, evalOp s c l .i64 addr, evalOp s c l .i64 ctl with
    | some x, some a, some k => some (x.toNat, some (a.extractLsb' 0 64, k.extractLsb' 0 64))
    | _, _, _ => none

/-- `watchclr` (11 R277). -/
def execWatchclr (sel : Opnd) (s : State) : Out :=
  watchInstr s fun s c l => (evalOp s c l .i32 sel).map fun x => (x.toNat, none)

/-- The place of the line that a prefetch asks for, where steps 1, 3, 4 and 5 of 09 R214 pass and it is no scratchpad's (11 R279). -/
def State.prefetchPlace (s : State) (w : Who) (p : DWord) : Option Place :=
  let x : Piece := ⟨Part.read p 1 1, ptrAddr p, 1⟩
  if p.toNat / 2 ^ 60 ≠ 0 ∨ !s.regionOk w x then none
  else
    match s.place w x with
    | .ok q => if q.outer ∧ (s.pageFails w q).isNone then some q else none
    | .error _ => none

/-- The lines of a prefetch at the L2 port: those that miss take tokens while there are any and no request waits; the others are dropped
(11 R279 lets them wait or be dropped: the model's choice, log entry 42). -/
def prefetchLines (core d n : Nat) (s : State) : State :=
  if n = 0 then s
  else
    let b := s.bucket core d
    let k := min (s.missing n) (if b.waiting = 0 then b.own + tokensIn b.borrowed else 0)
    askL2 core d k { s with free := s.free + 1 }

/-- `prefetch` (11 R279): no event, no fault and no result. -/
def execPrefetch (_sc : Scope) (p : Opnd) (s : State) : Out :=
  withRun s fun c =>
    let as := c.lanes.filterMap fun l => (evalOp s c l .ptr p).map fun a => (l, a.extractLsb' 0 64)
    if as.length ≠ c.lanes.length then illegal c s
    else
      let ps := as.filterMap fun (l, a) => s.prefetchPlace (c.who l) a
      .next (commit c (c.lanes.map fun l => c.give l none) (prefetchLines c.g.core c.g.dom (linesOf ps).length s))

/-! ### Block-scaled conversions (02 R63; 04 R134 to R136) -/

/-- Bytes of an element block. -/
def blockBytes (ty : Ty) : Nat := if ty = .v8e2m1 then 16 else 32

/-- emax of a block format (02 R63). -/
def blockEmax (ty : Ty) : Int := if ty = .v8e2m1 then 2 else if ty = .e4m3 then 8 else 15

/-- floor(log2 |x|) of a finite non-zero value. -/
def FV.exponent : FV → Option Int
  | .num _ m e _ => if m = 0 then none else some (e + m.log2)
  | _ => none

/-- The greatest exponent among values; none where all are zeros. -/
def maxExponent (xs : List FV) : Option Int :=
  xs.foldl (fun a x => match a, x.exponent with
    | some a, some b => some (max a b)
    | none, b => b
    | a, none => a) none

/-- Element codes joined into a block's bytes. -/
def packBlock (ty : Ty) (cs : List Nat) : List Byte :=
  leBytes (blockBytes ty) (joinElems (if ty = .v8e2m1 then 4 else 8) cs)

/-- Quantises 32 values (02 R63): the scale code, the element codes, and what is accumulated; draws 32 times under SR. -/
def quantise (rm : Rm) (ty : Ty) (xs : List FV) (acc : Acc) : Nat × List Nat × Acc :=
  let fm := fmtOf ty
  let drawAll := fun (acc : Acc) => (xs.foldl (fun a _ => (a.draw rm).2) acc)
  if xs.any fun x => x == .nan || x == .inf true || x == .inf false then (255, xs.map fun _ => 0, (drawAll acc).flag fNV)
  else
    match maxExponent xs with
    | none => (127, xs.map fun _ => 0, drawAll acc)
    | some e =>
      let x : Int := max 0 (min 254 (e - blockEmax ty + 127))
      let (cs, acc) := xs.foldl (fun (cs, a) v =>
        let v' := match v with | .num n m g st => FV.num n m (g - (x - 127)) st | v => v
        let (p, a) := a.round fm rm true false (v', 0)
        (cs ++ [p], a)) ([], acc)
      (x.toNat, cs, acc)

/-- The 32 `f32` values of 128 bytes, read under FTZ. -/
def f32Values (ftz : Bool) : Nat → List Byte → List FV
  | 0, _ => []
  | n + 1, bs => fmtF32.read ftz (leNat (bs.take 4)) :: f32Values ftz n (bs.drop 4)

/-- Expands a block (04 R135): 128 bytes of `f32` values and what is accumulated. -/
def dequantise (rm : Rm) (ty : Ty) (ftz : Bool) (elems : List Byte) (scale : Nat) (acc : Acc) : List Byte × Acc :=
  let w := if ty = .v8e2m1 then 4 else 8
  let b := leNat elems
  if scale = 255 then
    ((List.replicate 32 (leBytes 4 0x7FC00000)).flatten,
     ((List.range 32).foldl (fun a _ => (a.draw rm).2) acc).flag fNV)
  else
    (List.range 32).foldl (fun (bs, a) i =>
      let v := match (fmtOf ty).read false (b / 2 ^ (w * i) % 2 ^ w) with
        | .num n m e st => FV.num n m (e + (scale - 127 : Int)) st
        | v => v
      let (p, a) := a.round fmtF32 rm false ftz (v, 0)
      (bs ++ leBytes 4 p, a)) ([], acc)

/-- The three pointer operands of a block conversion. -/
def threePtrs (s : State) (a b d : Opnd) (c : Ctx) (l : Nat) : Option (DWord × DWord × DWord) :=
  match evalOp s c l .ptr a, evalOp s c l .ptr b, evalOp s c l .ptr d with
  | some x, some y, some z => some (x.extractLsb' 0 64, y.extractLsb' 0 64, z.extractLsb' 0 64)
  | _, _, _ => none

/-- Parts in ascending address order (04 R136). -/
def sortParts (a b : Part) : List Part := if ptrAddr a.ptr ≤ ptrAddr b.ptr then [a, b] else [b, a]

/-- The places of one range of an access: the range of n bytes at a pointer. Ranges of an access that start at one pointer differ in
their length or in their direction. -/
def placesAt (p : DWord) (n : Nat) (ps : List Place) : List Place := ps.filter fun x => x.piece.part.ptr == p && x.piece.part.len == n

/-- The lanes of a block conversion: all reads come from the state before it, writes follow in ascending lane number. -/
def blockAll (c : Ctx) (s0 : State) (f : (DWord × DWord × DWord) → List Place → State → Acc → List (List Place × List Byte) × Acc) :
    List (Nat × (DWord × DWord × DWord) × Option (List Place)) → State → List (Nat × LaneOut) × State
  | [], s => ([], s)
  | (l, a, q) :: r, s =>
    let acc := match c.lane? l with | some x => x.acc | none => ⟨0, ⟨0, 0, 0, 0⟩⟩
    let (ws, acc) := f a (q.getD []) s0 acc
    let s := if c.helper l then s else ws.foldl (fun s (ps, bs) => storePlaces c ps bs s) s
    let (rs, s) := blockAll c s0 f r s
    ((l, none, acc) :: rs, s)

/-- The written places of a range, in the order of its bytes. -/
def wrOf (p : DWord) (n : Nat) (ps : List Place) : List Place := (placesAt p n ps).filter fun x => x.piece.part.wr

/-- The read places of a range. -/
def rdOf (p : DWord) (n : Nat) (ps : List Place) : List Place := (placesAt p n ps).filter fun x => x.piece.part.rd

/-- `bsquant` (04 R134, R136). -/
def execBsquant (rm : Rm) (ty : Ty) (elem scale src : Opnd) (s : State) : Out :=
  memInstr s (threePtrs s elem scale src)
    (fun (e, x, p) =>
      let n := blockBytes ty
      Part.read p 128 4 :: sortParts (Part.write e n n) (Part.write x 1 1))
    fun c as s =>
      let (rs, s') := blockAll c s (fun (e, x, p) ps s0 acc =>
        let bs := s0.readPlaces (rdOf p 128 ps)
        let (sc, cs, acc) := quantise rm ty (f32Values c.g.ftz 32 (if bs.length = 128 then bs else List.replicate 128 0)) acc
        ([(wrOf e (blockBytes ty) ps, packBlock ty cs), (wrOf x 1 ps, [BitVec.ofNat 8 sc])], acc)) as s
      commit c rs s'

/-- `bsdequant` (04 R135, R136). -/
def execBsdequant (rm : Rm) (ty : Ty) (dst elem scale : Opnd) (s : State) : Out :=
  memInstr s (threePtrs s dst elem scale)
    (fun (d, e, x) =>
      let n := blockBytes ty
      sortParts (Part.read e n n) (Part.read x 1 1) ++ [Part.write d 128 4])
    fun c as s =>
      let (rs, s') := blockAll c s (fun (d, e, x) ps s0 acc =>
        let bs := s0.readPlaces (rdOf e (blockBytes ty) ps)
        let sc := leNat (s0.readPlaces (rdOf x 1 ps))
        let (out, acc) := dequantise rm ty c.g.ftz bs sc acc
        ([(wrOf d 128 ps, out)], acc)) as s
      commit c rs s'

end Sys2Proof.Machine
end

