-- ==== Sys2Proof/Machine/Buffers.lean ====
section
/-! DEFINITION. Circular-buffer handles and the commands of the copy and collective engines as instructions (12 R282 to R289;
13 R306 to R317). -/
namespace Sys2Proof.Machine

/-! ### Handles (12 R282, R283) -/

/-- Slots of a handle's ring. -/
def Handle.ring (h : Handle) : Nat := 2 ^ h.logn

/-- PUSH − ADV modulo 2^32. -/
def Handle.pushed (h : Handle) : Nat := (h.push - h.adv).toNat

/-- CLAIM − ADV modulo 2^32. -/
def Handle.claimed (h : Handle) : Nat := (h.claim - h.adv).toNat

/-- The number of a valid handle's slot in a group (12 R283). -/
def Group.handleOf (g : Group) (h : Word) : Option Nat :=
  let n := h.toNat % 32
  match g.handles[n]? with
  | some x =>
    if h.toNat / 2 ^ 5 % 8 = 0 ∧ h.toNat / 2 ^ 23 = 0 ∧ h.toNat / 2 ^ 16 % 128 = g.dom ∧ x.valid ∧ x.gen.toNat = h.toNat / 2 ^ 8 % 256
    then some n else none
  | none => none

/-- An invalid handle slot with its other fields at 0 (log entry 5). -/
def Handle.none : Handle := ⟨false, 0, 0, 0, 0, 0, 0, 0, 0, 0, [], []⟩

/-- Handle slot n of a group. -/
def Group.handle (g : Group) (n : Nat) : Handle := g.handles.getD n Handle.none

/-- Changes a handle slot of a group. -/
def State.modHandle (gid n : Nat) (f : Handle → Handle) (s : State) : State :=
  s.modGroup gid fun g => { g with handles := modNth f g.handles n }

/-- Entry c of CODES: DLV and CODE of the latest push (12 R282). -/
def Handle.codeAt (h : Handle) (c : Nat) : BitVec 9 := h.codes.getD c 0

/-- What stands for a push before the first of a ring slot. -/
def PushInfo.none : PushInfo := ⟨0, 0, 0, 0, 0, 0, 0, 0, 0, 0, 0⟩

/-- What the engine recorded with the latest push of ring slot c. -/
def Handle.infoAt (h : Handle) (c : Nat) : PushInfo := h.infos.getD c PushInfo.none

/-- The status word (12 R285). -/
def statusWord (i : PushInfo) (code : BitVec 9) : DWord :=
  BitVec.ofNat 64 (code.toNat % 256 + i.flags.toNat * 2 ^ 8 + code.toNat / 256 * 2 ^ 16 + i.count % 2 ^ 32 * 2 ^ 32)

/-- The address of ring slot c's status word. -/
def Handle.statAt (h : Handle) (c : Nat) : DWord := ptrWith h.stat (ptrAddr h.stat + c * 8)

/-- The agent of an engine access for a group's lane (12 R281). -/
def engineWho (g : Group) (wave lane : Nat) : Who := ⟨g.dom, g.core, g.gid, wave, lane, true, false, false⟩

/-- The engine writes the status word of ring slot c; a failure is reported to the domain with the word's own address (12 R284, R289). -/
def writeStatus (g : Group) (h : Handle) (c : Nat) (code : BitVec 9) (s : State) : State :=
  let i := h.infoAt c
  match s.checkParts (engineWho g i.wave i.lane) [Part.write (h.statAt c) 8 8] with
  | .ok ps => s.writePlaces ps (leBytes 8 (statusWord i code).toNat)
  | .error f =>
    postReport g.dom { report f.code g.dom (h.statAt c) with ifunc := i.func, iindex := i.index, iwave := i.wave, group := g.lin, launch := s.launchWord g } s

/-! ### Operands of a per-run instruction -/

/-- The handle operand of lane l. -/
def handleOp (c : Ctx) (l : Nat) (h : BitVec 24) : Option Word :=
  (typedVal c l .cbh h.toNat).map fun b => b.extractLsb' 0 32

/-- An instruction that acts once per run with the operands of the lowest ordinary lane; helper lanes alone perform nothing
and a result is 0 (13 R307). -/
def runInstr {A : Type} (s : State) (rt : Option Ty) (opnds : State → Ctx → Nat → Option A)
    (act : Ctx → Nat → A → State → Out) : Out :=
  perRun s fun c s =>
    match c.ordinary with
    | [] => .next (giveAll c none (rt.map fun t => ⟨t, 0⟩) s)
    | l :: _ =>
      match opnds s c l with
      | none => illegal c s
      | some a => act c l a s

/-- The instruction completes with a result in every active lane (13 R307). -/
def complete (c : Ctx) (v : Option TVal) (s : State) : Out := .next (giveAll c v v s)

/-! ### Buffer instructions -/

/-- CB_ERROR (12 R283). -/
def cbError (c : Ctx) (l : Nat) (s : State) : Out := raise c (FaultInfo.plain 14 l 0) s

/-- The operands of `cbinit`. -/
structure CbInit where
  slot : Nat
  data : DWord
  slotb : Word
  stat : DWord
  deriving DecidableEq, Repr

/-- Whether `cbinit` raises CB_ERROR (13 R309). -/
def cbinitBad (g : Group) (a : CbInit) : Bool :=
  32 ≤ a.slot || field a.data 0 6 != 0 || field a.stat 0 3 != 0 || a.slotb.toNat % 64 != 0 || a.slotb.toNat < 64 ||
  2 ^ 24 < a.slotb.toNat || ((g.handle a.slot).valid && (g.handle a.slot).claim != (g.handle a.slot).push)

/-- A handle slot after `cbinit` (13 R309). -/
def Handle.init (logn scope : Nat) (a : CbInit) (h : Handle) : Handle :=
  { valid := true, gen := h.gen + 1, data := a.data, slotb := a.slotb, logn, stat := a.stat, scope, claim := 0, push := 0,
    adv := 0, codes := List.replicate (2 ^ logn) 0, infos := List.replicate (2 ^ logn) PushInfo.none }

/-- The `cbh` value of a slot (12 R282). -/
def cbhWord (d n : Nat) (gen : Byte) : Nat := n % 32 + gen.toNat * 2 ^ 8 + d % 128 * 2 ^ 16

/-- `cbinit` (13 R309). -/
def execCbinit (logn : BitVec 4) (sc : Scope) (slot data slotb stat : Opnd) (s : State) : Out :=
  runInstr s (some .cbh)
    (fun s c l => match evalOps s c l [(.i32, slot), (.ptr, data), (.i32, slotb), (.ptr, stat)] with
      | some [a, b, d, e] => some (⟨a.toNat, b.extractLsb' 0 64, d.extractLsb' 0 32, e.extractLsb' 0 64⟩ : CbInit)
      | _ => none)
    fun c l a s =>
      if cbinitBad c.g a then cbError c l s
      else
        let h := (c.g.handle a.slot).init logn.toNat sc.code a
        complete c (some ⟨.cbh, ofU 32 (cbhWord c.g.dom a.slot h.gen)⟩) (s.modHandle c.g.gid a.slot fun _ => h)

/-- A handle and a count. -/
def handleCount (h : BitVec 24) (n : Opnd) (s : State) (c : Ctx) (l : Nat) : Option (Word × Nat) :=
  match handleOp c l h, evalOp s c l .i32 n with
  | some h, some n => some (h, n.toNat)
  | _, _ => none

/-- The first of the next k claims from ADV whose CODE is above 0 and not delivered, as its ring slot. -/
def undelivered (h : Handle) : Nat → Nat → Option Nat
  | 0, _ => none
  | k + 1, i =>
    let c := (h.adv.toNat + i) % h.ring
    let e := h.codeAt c
    if e.toNat % 256 ≠ 0 ∧ e.toNat / 256 = 0 then some c else undelivered h k (i + 1)

/-- Delivers the fault of ring slot c at a `cbwait`: DLV is set, the status word is written again, and the trap of its code is
taken (12 R289). -/
def deliver (c : Ctx) (l n slot : Nat) (h : Handle) (s : State) : Out :=
  let e := h.codeAt slot ||| 0x100#9
  let i := h.infoAt slot
  let s := s.modHandle c.g.gid n fun h => { h with codes := h.codes.set slot e }
  let s := writeStatus c.g h slot e s
  let code := if e.toNat % 256 = 1 then i.fault else 15
  raise c ⟨code, l, i.check, i.acc, i.addr, i.entry, some (i.wave, i.lane, i.func, i.index)⟩ s

/-- `cbwait` (13 R310). -/
def execCbwait (room : Bool) (h : BitVec 24) (n : Opnd) (s : State) : Out :=
  runInstr s none (handleCount h n) fun c l (h, k) s =>
    match c.g.handleOf h with
    | none => cbError c l s
    | some n =>
      let x := c.g.handle n
      if k = 0 ∨ x.ring < k then cbError c l s
      else if room then
        if k ≤ x.ring - x.claimed then complete c none s else .next (holdRun c c.iss.mask (.room h k) 0 s)
      else if x.pushed < k then .next (holdRun c c.iss.mask (.pushes h k) 0 s)
      else
        match undelivered x k 0 with
        | some slot => deliver c l n slot x s
        | none => complete c none s

/-- `cbadv` (13 R311). -/
def execCbadv (h : BitVec 24) (n : Opnd) (s : State) : Out :=
  runInstr s none (handleCount h n) fun c l (h, k) s =>
    match c.g.handleOf h with
    | none => cbError c l s
    | some n =>
      if k = 0 ∨ (c.g.handle n).pushed < k then cbError c l s
      else complete c none (s.modHandle c.g.gid n fun h => { h with adv := h.adv + BitVec.ofNat 32 k })

/-- The address of the data slot of ring slot c (12 R284). -/
def Handle.dataAt (h : Handle) (c : Nat) (off : Nat) : DWord := ptrWith h.data (ptrAddr h.data + c * h.slotb.toNat + off)

/-- `cbstat` (13 R312). -/
def execCbstat (k : CbKey) (h : BitVec 24) (s : State) : Out :=
  runInstr s (some (cbKeyTy k)) (fun _ c l => handleOp c l h) fun c l h s =>
    match c.g.handleOf h with
    | none => cbError c l s
    | some n =>
      let x := c.g.handle n
      match k with
      | .pushes => complete c (some ⟨.i64, ofU 64 x.push.toNat⟩) s
      | .claims => complete c (some ⟨.i64, ofU 64 x.claim.toNat⟩) s
      | .advs => complete c (some ⟨.i64, ofU 64 x.adv.toNat⟩) s
      | .head => complete c (some ⟨.ptr, ofU 64 (x.dataAt (x.adv.toNat % x.ring) 0).toNat⟩) s
      | .status =>
        match s.checkParts (c.who l) [Part.read (x.statAt (x.adv.toNat % x.ring)) 8 8] with
        | .error f => memRaise c f s
        | .ok ps =>
          match waitingPeers s c [(l, some ps)] with
          | (l, a) :: r => .next ((holdRun c c.iss.mask (.peer ((l, a) :: r)) 0 s).due (.peerReadTimeout c.iss.gid c.iss.wave l))
          | [] => throughPort c (linesOf ps).length s fun s =>
              let v := some ⟨.i64, ofU 64 (leNat (s.readPlaces ps))⟩
              giveAll c v v s
where
  /-- The result type of a key. -/
  cbKeyTy : CbKey → Ty
    | .head => .ptr
    | _ => .i64

/-! ### Commands (12 R286, R287, R293; 13 R313 to R316) -/

/-- A command of one lane before it issues: its handle, and what it makes of the slot that it claims. -/
structure CmdReq where
  h : Word
  kind : CmdKind
  /-- staging values; a slot offset stands in place of its address -/
  stg : List DWord
  /-- the staging value that is a slot offset, and the bytes it covers -/
  slot : Option (Nat × Nat)
  /-- locked ranges: staging value of the base, length, source -/
  ranges : List (Nat × Nat × Bool)
  table : Nat
  version : Nat
  slots : List Nat
  /-- the command completes with BAD_CMD whatever the slot -/
  bad : Bool
  deriving DecidableEq, Repr

/-- Whether the command goes to the copy engine. -/
def CmdKind.onCe : CmdKind → Bool
  | .copy | .gather | .scatter => true
  | _ => false

/-- The command as it enters its engine's queue. -/
def CmdReq.make (r : CmdReq) (g : Group) (wave lane : Nat) (pt : Nat × Nat) (id n : Nat) (x : Handle) : Cmd :=
  let c := x.claim.toNat % x.ring
  let stg := match r.slot with
    | some (k, _) => modNth (fun o => x.dataAt c o.toNat) r.stg k
    | none => r.stg
  let bad := match r.slot with
    | some (k, len) => x.slotb.toNat < (r.stg.getD k 0).toNat + len
    | none => false
  { id, kind := r.kind, dom := g.dom, core := g.core, gid := g.gid, wave, lane, func := pt.1, index := pt.2, handle := n,
    claim := x.claim, stg, phase := .queued, code := 0, count := 0, flags := 0, addr := 0, fault := 0, check := 0, facc := 0,
    locks := r.ranges.map fun (k, len, src) => ⟨ptrAddr (stg.getD k 0), len % 2 ^ 56, src, g.dom, id⟩,
    fentry := 0, csrs := [0, 0, 0, 0, 0, 0], comm := none, units := 0, lines := [], port := none, sent := false, worked := false, contribs := [], table := r.table, version := r.version,
    slots := r.slots, bad := bad || r.bad }

/-- Whether a command can claim, lock and enter its queue now (12 R284, R286, R287). -/
def State.cmdRoom (s : State) (g : Group) (n entries : Nat) (ce : Bool) : Bool :=
  let x := g.handle n
  let k := s.coreSt g.core
  decide (x.claimed < x.ring) && decide (k.rlt.length + entries ≤ 64) && (!ce || decide (k.ceQueue.length < 32))

/-- The contributions of a list that have come early for a collective of a domain with a receive buffer, the first of each rank and offset,
and those that stay (12 R294). -/
def takeEarly (d a : Nat) : List (Nat × Nat × Nat × Nat × List Byte) →
    List (Nat × Nat × List Byte) × List (Nat × Nat × Nat × Nat × List Byte)
  | [] => ([], [])
  | (e, b, r, o, bs) :: t =>
    let (mine, rest) := takeEarly d a t
    if e = d ∧ b = a then
      let again := mine.filter fun x => x.1 == r && x.2.1 == o
      ((r, o, bs) :: mine.filter fun x => !(x.1 == r && x.2.1 == o), again.map (fun (r, o, bs) => (d, a, r, o, bs)) ++ rest)
    else (mine, (e, b, r, o, bs) :: rest)

/-- A command with the contributions that have come before it was issued. -/
def withEarly (c : Cmd) (s : State) : Cmd × State :=
  match c.kind with
  | .coll _ =>
    let (mine, rest) := takeEarly c.dom (ptrAddr (c.stg.getD 1 0)) s.early
    ({ c with contribs := mine }, { s with early := rest })
  | _ => (c, s)

/-- Issues the command of one lane (13 R313). -/
def issueCmd (g : Group) (wave lane : Nat) (pt : Nat × Nat) (r : CmdReq) (n : Nat) (s : State) : State :=
  let (id, s) := s.newId
  let x := match s.group? g.gid with | some g => g.handle n | none => g.handle n
  let cmd := r.make g wave lane pt id n x
  let s := s.modHandle g.gid n fun h => { h with claim := h.claim + 1 }
  let s := s.modCore g.core fun k =>
    { k with rlt := k.rlt ++ cmd.locks, ceQueue := if r.kind.onCe then k.ceQueue ++ [id] else k.ceQueue }
  let s := if r.kind.onCe then s else s.modCluster (clusterOf g.core) fun k => { k with keQueue := k.keQueue ++ [id] }
  let (cmd, s) := withEarly cmd s
  { s with cmds := s.cmds ++ [cmd] }

/-- Issues the commands of lanes in ascending order until one must wait: that lane, or none when all have issued. -/
def issueLanes (c : Ctx) : List (Nat × CmdReq) → State → Option (Nat × CmdReq) × State
  | [], s => (none, s)
  | (l, r) :: rest, s =>
    match s.group? c.g.gid with
    | none => (none, s)
    | some g =>
      let n := (g.handleOf r.h).getD 0
      if s.cmdRoom g n r.ranges.length r.kind.onCe then
        let pt := match c.iss.bind, c.lane? l with
          | some b, _ => (b.func, b.index)
          | none, some x => x.point
          | none, none => (0, 0)
        let s := issueCmd g c.iss.wave l pt r n s
        let s := s.modWave c.g.gid c.iss.wave fun w => { w with issued := w.issued ||| (1#32 <<< l) }
        issueLanes c rest s
      else (some (l, r), s)

/-- The requests of lanes, or none where an operand is undefined. -/
def reqsOf (f : Nat → Option CmdReq) : List Nat → Option (List (Nat × CmdReq))
  | [] => some []
  | l :: r =>
    match f l, reqsOf f r with
    | some x, some xs => some ((l, x) :: xs)
    | _, _ => none

/-- A command instruction (13 R313): every ordinary lane's handle is tested, then the lanes that have not issued issue in
ascending order; a lane that must wait holds the run. -/
def cmdInstr (s : State) (req : State → Ctx → Nat → Option CmdReq) : Out :=
  perRun s fun c s =>
    let ls := c.ordinary.filter fun l => !inMask c.w.issued l
    match reqsOf (req s c) ls with
    | none => illegal c s
    | some rs =>
      match rs.find? fun (_, r) => (c.g.handleOf r.h).isNone with
      | some (l, _) => cbError c l s
      | none =>
        match issueLanes c rs s with
        | (some (_, r), s) => .next (holdRun c c.iss.mask (.issue r.h r.ranges.length (!r.kind.onCe)) 0 s)
        | (none, s) =>
          complete c none (s.modWave c.g.gid c.iss.wave fun w => { w with issued := w.issued &&& ~~~c.iss.mask })

/-- `acopy` (13 R314). -/
def execAcopy (sel : SlotSel) (h : BitVec 24) (dst src len : Opnd) (s : State) : Out :=
  cmdInstr s fun s c l =>
    match handleOp c l h, evalOps s c l [(if sel = .dslot then .i64 else .ptr, dst), (if sel = .sslot then .i64 else .ptr, src), (.i64, len)] with
    | some h, some [d, x, n] =>
      some { h, kind := .copy, stg := [d.extractLsb' 0 64, x.extractLsb' 0 64, n.extractLsb' 0 64],
             slot := match sel with | .none => none | .dslot => some (0, n.toNat) | .sslot => some (1, n.toNat),
             ranges := [(1, n.toNat, true), (0, n.toNat, false)], table := 0, version := 0, slots := [], bad := false }
    | _, _ => none

/-- STG2 of a gather or scatter (12 R293; 13 R315). -/
def windowWord (nwin : Nat) (z : BitVec 2) : DWord := BitVec.ofNat 64 ((nwin + 2 ^ 64 - 1) % 2 ^ 32 + z.toNat * 2 ^ 32)

/-- `agather` (13 R315). -/
def execAgather (z : BitVec 2) (slot : Bool) (h : BitVec 24) (dst win nwin idx cnt : Opnd) (s : State) : Out :=
  cmdInstr s fun s c l =>
    match handleOp c l h, evalOps s c l [(if slot then .i64 else .ptr, dst), (.ptr, win), (.i64, nwin), (.ptr, idx), (.i32, cnt)] with
    | some h, some [d, w, n, i, k] =>
      some { h, kind := .gather,
             stg := [d.extractLsb' 0 64, w.extractLsb' 0 64, windowWord n.toNat z, i.extractLsb' 0 64, BitVec.ofNat 64 k.toNat, n.extractLsb' 0 64],
             slot := if slot then some (0, k.toNat * 2 ^ z.toNat) else none,
             ranges := [(3, 4 * k.toNat, true), (1, n.toNat * 2 ^ z.toNat, true), (0, k.toNat * 2 ^ z.toNat, false)],
             table := 0, version := 0, slots := [], bad := false }
    | _, _ => none

/-- `ascatter` (13 R315). -/
def execAscatter (z : BitVec 2) (slot : Bool) (h : BitVec 24) (win src nwin idx cnt : Opnd) (s : State) : Out :=
  cmdInstr s fun s c l =>
    match handleOp c l h, evalOps s c l [(.ptr, win), (if slot then .i64 else .ptr, src), (.i64, nwin), (.ptr, idx), (.i32, cnt)] with
    | some h, some [w, x, n, i, k] =>
      some { h, kind := .scatter,
             stg := [w.extractLsb' 0 64, x.extractLsb' 0 64, windowWord n.toNat z, i.extractLsb' 0 64, BitVec.ofNat 64 k.toNat, n.extractLsb' 0 64],
             slot := if slot then some (1, k.toNat * 2 ^ z.toNat) else none,
             ranges := [(3, 4 * k.toNat, true), (1, k.toNat * 2 ^ z.toNat, true), (0, n.toNat * 2 ^ z.toNat, false)],
             table := 0, version := 0, slots := [], bad := false }
    | _, _ => none

/-! ### Collectives (12 R293; 13 R316) -/

/-- Bytes of an element of a collective. -/
def ktySize : KType → Nat
  | .f32 | .i32 => 4
  | .bf16 | .f16 => 2
  | .i64 => 8

/-- The communicator descriptor of 64 bytes. -/
def commOf (bs : List Byte) : Comm :=
  { p := leNat (bs.take 4), rank := leNat ((bs.drop 4).take 4), table := BitVec.ofNat 64 (leNat ((bs.drop 8).take 8)),
    bound := leNat ((bs.drop 16).take 4), root := leNat ((bs.drop 20).take 4), resv := leNat ((bs.drop 24).take 40) }

/-- Reads a communicator descriptor for the engine; none where it is misaligned or not readable. -/
def State.comm (s : State) (w : Who) (p : DWord) : Option Comm :=
  match s.checkParts w [Part.read p 64 64] with
  | .ok ps => some (commOf (s.readPlaces ps))
  | .error _ => none

/-- Elements of the send buffer and of the receive buffer, and whether this rank's send buffer is read (13 R316). -/
def collCounts (k : KKind) (n : Nat) (m : Comm) : Nat × Nat × Bool :=
  match k with
  | .allred => (n, n, true)
  | .redscat => (m.p * n, n, true)
  | .allgath => (n, m.p * n, true)
  | .bcast => (n, n, m.rank == m.root)

/-- STG2 of a collective (12 R293). -/
def collWord (n : Nat) (ty : KType) (op : KOp) (exact : Bool) : DWord :=
  BitVec.ofNat 64 (n % 2 ^ 32 + ty.code * 2 ^ 32 + op.code * 2 ^ 36 + exact.toNat * 2 ^ 38)

/-- `kstart` (13 R316): an all-reduce in place locks its destination alone. The ranges come from the communicator at issue; where it is not readable only a rank's own elements
count (log entry 20). -/
def execKstart (k : KKind) (ty : KType) (op : KOp) (exact : Bool) (h : BitVec 24) (send recv count comm : Opnd) (s : State) : Out :=
  cmdInstr s fun s c l =>
    match handleOp c l h, evalOps s c l [(.ptr, send), (.ptr, recv), (.i32, count), (.ptr, comm)] with
    | some h, some [a, b, n, m] =>
      let cm := (s.comm (engineWho c.g c.iss.wave l) (m.extractLsb' 0 64)).getD ⟨1, 0, 0, 0, 0, 0⟩
      let (ns, nr, rd) := collCounts k n.toNat cm
      let dst := (1, nr * ktySize ty, false)
      let one := k = .allred ∧ ptrAddr (a.extractLsb' 0 64) = ptrAddr (b.extractLsb' 0 64)
      let rs := if rd ∧ ¬one then [(0, ns * ktySize ty, true), dst] else [dst]
      some { h, kind := .coll k, stg := [a.extractLsb' 0 64, b.extractLsb' 0 64, collWord n.toNat ty op exact, m.extractLsb' 0 64],
             slot := none, ranges := rs, table := 0, version := 0, slots := [], bad := false }
    | _, _ => none

end Sys2Proof.Machine
end

