-- ==== Sys2Proof/Machine/WaveOps.lean ====
section
/-! DEFINITION. Lane, quad and wave instructions (07 R185 to R208), the flag instructions (04 R109) and `sysread`
(04 R137). -/
namespace Sys2Proof.Machine

/-! ### Identities (07 R190; 20 R439) -/

/-- The launch of a group; a gate context has none of its own. -/
def State.launchOf (s : State) (g : Group) : Option Launch := if g.gate.isSome then none else s.launch? g.launch

/-- `waveid` of a lane: the logical wave in W16 mode. -/
def waveIdOf (g : Group) (w l : Nat) : Nat := if g.w16 then 2 * w + l / 16 else w

/-- `laneid` of a lane. -/
def laneIdOf (g : Group) (l : Nat) : Nat := if g.w16 then l % 16 else l

/-- `gridid.tid`. -/
def tidOf (g : Group) (w l : Nat) : Nat := waveIdOf g w l * (if g.w16 then 16 else 32) + laneIdOf g l

/-- `groupid`: the linear group index (07 R190); 0 in a gate context. -/
def groupIdOf (g : Group) : Nat := if g.gate.isSome then 0 else g.lin

/-- The value of a `gridid` key. -/
def gridVal (s : State) (g : Group) (w l : Nat) (k : GridKey) : Nat :=
  let la := s.launchOf g
  match k with
  | .gx => if g.gate.isSome then 0 else g.gx
  | .gy => if g.gate.isSome then 0 else g.gy
  | .gz => if g.gate.isSome then 0 else g.gz
  | .nx => match la with | some x => x.gridx | none => 1
  | .ny => match la with | some x => x.gridy | none => 1
  | .nz => match la with | some x => x.gridz | none => 1
  | .extent => match la with | some x => x.extent | none => 32
  | .tid => tidOf g w l

/-- An identity instruction: every active lane, helper lanes among them, receives its value (07 R188). -/
def identity (s : State) (ty : Ty) (f : Ctx → Nat → Nat) : Out :=
  laneMap s fun c l acc => some (some ⟨ty, ofU ty.width (f c l)⟩, acc)

/-- `laneid` (07 R190). -/
def execLaneid (s : State) : Out := identity s .i32 fun c l => laneIdOf c.g l
/-- `waveid` (07 R190). -/
def execWaveid (s : State) : Out := identity s .i32 fun c l => waveIdOf c.g c.w.index l
/-- `groupid` (07 R190). -/
def execGroupid (s : State) : Out := identity s .i32 fun c _ => groupIdOf c.g
/-- `gridid` (07 R190). -/
def execGridid (k : GridKey) (s : State) : Out := identity s .i32 fun c l => gridVal s c.g c.w.index l k

/-! ### Cross-lane reads -/

/-- The mask result of a set of lanes for a reader: in W16 mode the reader's half in bits [15:0] (07 R189). -/
def maskFor (g : Group) (l : Nat) (ls : List Nat) : Bits :=
  let m := maskOf (ls.filter fun j => g.halfOf j == g.halfOf l)
  ofU 32 (if g.w16 then m.toNat / 2 ^ (16 * g.halfOf l) else m.toNat)

/-- `activemask` (07 R190); a helper lane receives 0 (R188). -/
def execActivemask (s : State) : Out :=
  laneMap s fun c l acc => some (some ⟨.msk, if c.helper l then 0 else maskFor c.g l c.ordinary⟩, acc)

/-- A cross-lane instruction on the operand x of every active lane: `f c xs l` is lane l's result, where xs lists the active
lanes' operands; none where some lane's operand is undefined. -/
def crossLane (s : State) (rt t : Ty) (x : Opnd) (f : Ctx → (Nat → Option Bits) → Nat → Acc → Option (Bits × Acc)) : Out :=
  withRun s fun c =>
    let xs := c.lanes.filterMap fun l => (evalOp s c l t x).map fun b => (l, b)
    if xs.length ≠ c.lanes.length then illegal c s
    else
      match gather (fun l => (c.lane? l).bind fun y => (f c (fun j => xs.lookup j) l y.acc).map fun (b, a) => (some ⟨rt, b⟩, a))
        c.lanes with
      | some rs => .next (commit c rs s)
      | none => illegal c s

/-- What the reader l gets from source lane j: its own operand where j is not active (07 R187). -/
def fromLane (xs : Nat → Option Bits) (j l : Nat) : Option Bits := match xs j with | some b => some b | none => xs l

/-- `quadswap` (07 R191). -/
def execQuadswap (dir : QDir) (ty : Ty) (x : Opnd) (s : State) : Out :=
  crossLane s ty ty x fun _ xs l a => (fromLane xs (l ^^^ (dir.code + 1)) l).map fun b => (b, a)

/-- `quadbcast` (07 R192). -/
def execQuadbcast (ty : Ty) (x k : Opnd) (s : State) : Out :=
  crossLane s ty ty x fun c xs l a =>
    match evalOp s c l .i32 k with
    | some k => (fromLane xs (4 * (l / 4) + k.toNat % 4) l).map fun b => (b, a)
    | none => none

/-- The source lane of `shfl` (07 R193). -/
def shflSource (w16 : Bool) (m : ShflMode) (clamp : Bool) (l d : Nat) : Nat :=
  let n := if w16 then 16 else 32
  let h := if w16 then l / 16 * 16 else 0
  let j := l % n
  let t : Int := match m with
    | .idx => (d % n : Nat)
    | .up => (j : Int) - d
    | .down => (j : Int) + d
    | .xor => ((j ^^^ d) % n : Nat)
  let t := if (m = .up ∨ m = .down) ∧ (t < 0 ∨ (n : Int) ≤ t) then (if clamp then (j : Int) else t % n) else t
  h + t.toNat

/-- `shfl` (07 R193). -/
def execShfl (m : ShflMode) (clamp : Bool) (ty : Ty) (x i : Opnd) (s : State) : Out :=
  crossLane s ty ty x fun c xs l a =>
    match evalOp s c l .i32 i with
    | some d => (fromLane xs (shflSource c.g.w16 m clamp l d.toNat) l).map fun b => (b, a)
    | none => none

/-- `bcast` (07 R194): the lowest active lane, helper lanes counting; of the reader's half in W16 mode. -/
def execBcast (ty : Ty) (x : Opnd) (s : State) : Out :=
  crossLane s ty ty x fun c xs l a =>
    (fromLane xs ((c.lanes.find? fun j => c.g.halfOf j == c.g.halfOf l).getD l) l).map fun b => (b, a)

/-- The contributing lanes for a reader (07 R195, R189). -/
def contributors (c : Ctx) (l : Nat) : List Nat := c.ordinary.filter fun j => c.g.halfOf j == c.g.halfOf l

/-- `ballot` (07 R195). -/
def execBallot (cnd : Opnd) (s : State) : Out :=
  crossLane s .msk .i1 cnd fun c xs l a =>
    some (if c.helper l then 0 else maskFor c.g l ((contributors c l).filter fun j => xs j == some 1), a)

/-- `vote` (07 R195). -/
def execVote (op : VoteOp) (cnd : Opnd) (s : State) : Out :=
  crossLane s .i1 .i1 cnd fun c xs l a =>
    let ys := (contributors c l).map fun j => xs j == some 1
    let r := match op with
      | .all => ys.all id
      | .any => ys.any id
      | .eq => ys.all id || !ys.any id
    some (if c.helper l then 0 else if r then 1 else 0, a)

/-- `match` (07 R196). -/
def execMatchLanes (ty : Ty) (x : Opnd) (s : State) : Out :=
  crossLane s .msk ty x fun c xs l a =>
    some (if c.helper l then 0 else maskFor c.g l ((contributors c l).filter fun j => xs j == xs l), a)

/-- `elect` (07 R197). -/
def execElect (s : State) : Out :=
  laneMap s fun c l acc =>
    some (some ⟨.i1, if !c.helper l && (contributors c l).head? == some l then 1 else 0⟩, acc)

/-! ### Reductions and scans (07 R198 to R200) -/

/-- The combine of an integer operation, `fmin` or `fmax`. -/
def redCombine (op : RedOp) (ty : Ty) (ftz : Bool) (a b : Bits) : Bits :=
  let w := ty.width
  match op with
  | .add => ofU w (uRd w a + uRd w b)
  | .and => ofU w (uRd w a &&& uRd w b)
  | .or => ofU w (uRd w a ||| uRd w b)
  | .xor => ofU w (uRd w a ^^^ uRd w b)
  | .smin => if sRd w b < sRd w a then b else a
  | .smax => if sRd w a < sRd w b then b else a
  | .umin => if uRd w b < uRd w a then b else a
  | .umax => if uRd w a < uRd w b then b else a
  | .fmax => ofU w ((fmtOf ty).minmax ftz true (uRd w a) (uRd w b))
  | _ => ofU w ((fmtOf ty).minmax ftz false (uRd w a) (uRd w b))

/-- The exclusive identity of an integer operation (07 R198). -/
def redIdentity (op : RedOp) (ty : Ty) : Bits :=
  let w := ty.width
  match op with
  | .and | .umin => ofU w (2 ^ w - 1)
  | .smin => ofU w (2 ^ (w - 1) - 1)
  | .smax => ofU w (2 ^ (w - 1))
  | _ => 0

/-- A node of the tree: the pattern and the flags (02 R67): subnormals kept. -/
def treeNode (f : Fmt) (rm : Rm) (a b : Nat) : Nat × Byte :=
  let (x, fl) := (f.read false a).add rm (f.read false b)
  let (p, g) := f.round rm false false 0 x
  (p, fl ||| g)

/-- One level of the tree of 07 R199 and 12 R303: pairs of neighbours, absent leaves passing the other. -/
def treeLevel (f : Fmt) (rm : Rm) : List (Option Nat) → List (Option Nat) × Byte
  | [] => ([], 0)
  | [x] => ([x], 0)
  | x :: y :: r =>
    let (rs, g) := treeLevel f rm r
    match x, y with
    | some a, some b => let (p, fl) := treeNode f rm a b; (some p :: rs, fl ||| g)
    | some a, none => (some a :: rs, g)
    | none, y => (y :: rs, g)

/-- The tree over its levels: the root and the flags of every node. -/
def treeRoot (f : Fmt) (rm : Rm) : Nat → List (Option Nat) → Option Nat × Byte
  | 0, xs => (xs.headD none, 0)
  | n + 1, xs =>
    let (ys, fl) := treeLevel f rm xs
    let (r, g) := treeRoot f rm n ys
    (r, fl ||| g)

/-- FTZ applied to a finished sum (07 R199): a tiny result becomes a zero, with UF and IX (02 R58). -/
def flushSum (f : Fmt) (ftz : Bool) (p : Nat) : Nat × Byte :=
  let m := p % 2 ^ (f.width - 1)
  if ftz ∧ f.flushes ∧ m ≠ 0 ∧ m < 2 ^ f.mbits then (f.signed (f.sign p) 0, fUF ||| fIX) else (p, 0)

/-- `wred` over the contributing lanes of a reader (07 R199). Where one lane contributes, its operand passes unchanged, a non-canonical
NaN with it: 07 R199 says so, 02 R49 asks for the canonical NaN (the model's choice, log entry 22). -/
def redValue (op : RedOp) (rm : Rm) (ty : Ty) (c : Ctx) (xs : Nat → Option Bits) (l : Nat) : Bits × Byte :=
  let js := contributors c l
  if op = .fadd then
    let f := fmtOf ty
    let n := if c.g.w16 then 16 else 32
    let leaves := (List.range n).map fun j =>
      let j := c.g.halfOf l * 16 + j
      if js.contains j then (xs j).map fun b => f.asRead c.g.ftz (uRd ty.width b) else none
    let (r, fl) := treeRoot f rm 5 leaves
    let (p, g) := flushSum f c.g.ftz (r.getD 0)
    (ofU ty.width p, fl ||| g)
  else
    match js.filterMap xs with
    | [] => (redIdentity op ty, 0)
    | [x] => (if op.isInt then x else ofU ty.width ((fmtOf ty).minmax c.g.ftz false (uRd ty.width x) (uRd ty.width x)), 0)
    | x :: r => (r.foldl (redCombine op ty c.g.ftz) x, 0)

/-- `wred` (07 R199). -/
def execWred (op : RedOp) (rm : Rm) (ty : Ty) (x : Opnd) (s : State) : Out :=
  crossLane s ty ty x fun c xs l a =>
    if c.helper l then some (0, a)
    else let (b, fl) := redValue op rm ty c xs l; some (b, a.flag fl)

/-- The running sum along lanes with the flags so far (07 R200). -/
def scanSum (f : Fmt) (rm : Rm) : List Nat → Option Nat × Byte → Option Nat × Byte
  | [], a => a
  | x :: r, (none, fl) => scanSum f rm r (some x, fl)
  | x :: r, (some s, fl) => let (p, g) := treeNode f rm s x; scanSum f rm r (some p, fl ||| g)

/-- `wscan` at lane l (07 R200). -/
def scanValue (op : RedOp) (rm : Rm) (excl : Bool) (ty : Ty) (c : Ctx) (xs : Nat → Option Bits) (l : Nat) : Bits × Byte :=
  let js := (contributors c l).filter fun j => if excl then j < l else j ≤ l
  if op = .fadd then
    let f := fmtOf ty
    let (r, fl) := scanSum f rm (js.filterMap fun j => (xs j).map fun b => f.asRead c.g.ftz (uRd ty.width b)) (none, 0)
    let (p, g) := flushSum f c.g.ftz (r.getD 0)
    (ofU ty.width p, fl ||| g)
  else
    match js.filterMap xs with
    | [] => (redIdentity op ty, 0)
    | [x] => (if op.isInt then x else ofU ty.width ((fmtOf ty).minmax c.g.ftz false (uRd ty.width x) (uRd ty.width x)), 0)
    | x :: r => (r.foldl (redCombine op ty c.g.ftz) x, 0)

/-- `wscan` (07 R200). -/
def execWscan (op : RedOp) (rm : Rm) (excl : Bool) (ty : Ty) (x : Opnd) (s : State) : Out :=
  crossLane s ty ty x fun c xs l a =>
    if c.helper l then some (0, a)
    else let (b, fl) := scanValue op rm excl ty c xs l; some (b, a.flag fl)

/-! ### Barriers (05 R160, R161; 07 R201) -/

/-- Parks the ordinary lanes of the run at a barrier; helper lanes pass (05 R142). A run in the native form stands at the
portable point of the barrier's slot and leaves the native form there. -/
def parkAt (p : Park) (c : Ctx) (s : State) : State :=
  let s := s.modWave c.iss.gid c.iss.wave fun w =>
    (w.mapLanes fun l x =>
        if c.lanes.contains l then (if x.helper then x.advance else { x with park := p }) else x).choiceDue c.g (maskOf c.lanes)
  s.modGroup c.iss.gid completeBarriers

/-- `wbar` (05 R160). -/
def execWbar (s : State) : Out := withRun s fun c => .next (parkAt .wbar c s)
/-- `gbar` (05 R161). -/
def execGbar (s : State) : Out := withRun s fun c => .next (parkAt .gbar c s)

/-! ### Random numbers (07 R206, R207) -/

/-- `rand` of one lane. -/
def randVal (ty : Ty) (a : Acc) : Bits × Acc :=
  let (x, g) := a.rng.draw
  match ty with
  | .i64 => let (y, g) := g.draw; (ofU 64 (x.toNat + y.toNat * 2 ^ 32), { a with rng := g })
  | .f32 => (ofU 32 (fmtF32.round .rne false false 0 (.num false (x.toNat / 256) (-24) false)).1, { a with rng := g })
  | _ => (ofU 32 x.toNat, { a with rng := g })

/-- `rand` (07 R207). -/
def execRand (ty : Ty) (s : State) : Out :=
  laneMap s fun _ _ acc => let (b, acc) := randVal ty acc; some (some ⟨ty, b⟩, acc)

/-- `randseed` (07 R206). -/
def execRandseed (seed : Opnd) (s : State) : Out :=
  laneMap s fun c l acc =>
    (evalOp s c l .i64 seed).map fun x =>
      (none, { acc with rng := rngSeed (x.extractLsb' 0 64) (groupIdOf c.g) (tidOf c.g c.w.index l) })

/-! ### Flags (04 R109) -/

/-- `flagrd` (04 R109). -/
def execFlagrd (s : State) : Out := laneMap s fun _ _ acc => some (some ⟨.i8, ofU 8 (acc.flags.toNat % 128)⟩, acc)

/-- `flagclr` (04 R109). -/
def execFlagclr (m : Opnd) (s : State) : Out :=
  laneMap s fun c l acc =>
    (evalOp s c l .i8 m).map fun x => (none, { acc with flags := acc.flags &&& ~~~(x.extractLsb' 0 8 &&& 0x7F#8) })

/-! ### Reading the machine (04 R137, R138) -/

/-- The code of an interface state (04 R137). -/
def IfState.code : IfState → Nat
  | .unlocked => 0 | .locked => 1 | .run => 2 | .error => 3

/-- The value of a `sysread` key for a group on its core. -/
def sysVal (s : State) (g : Group) (k : SysKey) : Nat :=
  match k with
  | .device => 0x9820 + Config.stepping.toNat * 2 ^ 16
  | .gen => if isW3 (dieOf g.core) then 3 else 2
  | .width => if isW3 (dieOf g.core) then (if s.isSplit g.core then 5 else 10) else (if s.isSplit g.core then 3 else 6)
  | .die => dieOf g.core
  | .cluster => g.core / 8 % 16
  | .core => g.core % 8
  | .domain => g.dom
  | .partition => s.partOf g.dom
  | .package => Config.packageId.toNat
  | .time => s.now
  | .ifstate => (s.dom g.dom).ifstate.code
  | .gennum => s.gen g.dom
  | .hdr => g.hdr.toNat

/-- `sysread` (04 R137); no key faults, and a helper lane reads as any lane. -/
def execSysread (k : SysKey) (s : State) : Out :=
  laneMap s fun c _ acc => some (some ⟨.i64, ofU 64 (sysVal s c.g k)⟩, acc)

end Sys2Proof.Machine
end

