-- ==== Sys2Proof/Machine/Matrix.lean ====
section
/-! DEFINITION. The matrix engine: leases, turns, the format table, operand banks, multiplies and stores (02 R53, R66, R67;
12 R297 to R302; 13 R318 to R325). -/
namespace Sys2Proof.Machine

/-! ### Shapes and formats (12 R297, R300) -/

/-- Rows and columns of a shape. -/
def shapeRows (sh : Shape) : Nat := if sh = .m64n64 ∨ sh = .m64n128 then 64 else 128
def shapeCols (sh : Shape) : Nat := if sh = .m64n64 ∨ sh = .m128n64 then 64 else 128

/-- Tiles of a shape. -/
def shapeTiles (sh : Shape) : Nat := shapeRows sh / 64 * (shapeCols sh / 64)

/-- The key of element (m, n) of a shape of c columns at first tile t (12 R297). -/
def accKey (t c m n : Nat) : Nat := (t + m / 64 * (c / 64) + n / 64) * 4096 + m % 64 * 64 + n % 64

/-- Fields of a format-table entry (12 R300). -/
def aFmt (e : Word) : Nat := e.toNat % 16
def bFmt (e : Word) : Nat := e.toNat / 2 ^ 4 % 16
def fmtSparse (e : Word) : Bool := e.getLsbD 8
def outRnd (e : Word) : Nat := e.toNat / 2 ^ 12 % 8
def fmtSat (e : Word) : Bool := e.getLsbD 15
def outFmt (e : Word) : Nat := e.toNat / 2 ^ 16 % 16

/-- Format classes (12 R300). -/
inductive FmtClass where
  | f16 | f8 | block | int
  deriving DecidableEq, Repr

/-- The class of a pair of formats. -/
def classOf (a b : Nat) : Option FmtClass :=
  if (a = 0 ∧ b = 0) ∨ (a = 1 ∧ b = 1) then some .f16
  else if (a = 2 ∨ a = 3) ∧ (b = 2 ∨ b = 3) then some .f8
  else if 4 ≤ a ∧ a ≤ 6 ∧ 4 ≤ b ∧ b ≤ 6 then some .block
  else if (a = 7 ∧ b = 7) ∨ (a = 7 ∧ b = 8) ∨ (a = 8 ∧ b = 7) then some .int
  else none

/-- Whether an entry passes every condition of 12 R300 but the last. -/
def entryOk (e : Word) : Bool :=
  e.toNat / 2 ^ 20 == 0 && e.toNat / 2 ^ 9 % 8 == 0 && outRnd e ≤ 3 &&
  (!fmtSat e || outFmt e == 2 || outFmt e == 3 || outFmt e == 7) &&
  match classOf (aFmt e) (bFmt e) with
  | none => false
  | some .f16 | some .f8 => outFmt e == 9 || outFmt e ≤ 3
  | some .block => (outFmt e == 9 || outFmt e ≤ 3) && !fmtSparse e
  | some .int => (outFmt e == 10 || outFmt e == 7) && (!fmtSparse e || (aFmt e == 7 && bFmt e == 7))

/-- The multiply instructions. -/
inductive MulKind where
  | dense | sparse | ternary
  deriving DecidableEq, Repr

/-- The last condition of 12 R300: the entry matches the instruction. -/
def entryFits (k : MulKind) (e : Word) : Bool :=
  let t2 := aFmt e == 8 || bFmt e == 8
  match k with
  | .dense => !fmtSparse e && !t2
  | .sparse => fmtSparse e
  | .ternary => t2

/-- Bits of an element (13 R322). -/
def fmtBits (f : Nat) : Nat :=
  if f ≤ 1 then 16 else if f = 4 then 4 else if f = 8 then 2 else 8

/-- Whether a format is block-scaled. -/
def fmtBlock (f : Nat) : Bool := 4 ≤ f && f ≤ 6

/-- The floating format of a code. -/
def fmtFloat (f : Nat) : Fmt :=
  match f with
  | 0 => fmtBF16
  | 1 => fmtF16
  | 2 | 5 => fmtE4M3
  | 3 | 6 => fmtE5M2
  | 4 => fmtE2M1
  | _ => fmtF32

/-- Element i of packed bytes. -/
def packedElem (w i : Nat) (bs : List Byte) : Nat :=
  if w = 16 then leNat ((bs.drop (2 * i)).take 2)
  else (bs.getD (i * w / 8) 0).toNat / 2 ^ (i * w % 8) % 2 ^ w

/-- The integer that an element of the integer class reads as, with TV for an invalid digit (02 R52). -/
def intElem (f p : Nat) : Int × Byte := if f = 8 then readDigit p else (if 128 ≤ p then (p : Int) - 256 else p, 0)

/-! ### Dot products (02 R66, R67; 12 R302) -/

/-- One level of the tree over exact values, each node rounded to `f32`. -/
def dotLevel : List FV → List FV × Byte
  | x :: y :: r =>
    let (s, f) := x.add .rne y
    let (p, g) := fmtF32.round .rne false false 0 s
    let (rest, h) := dotLevel r
    (fmtF32.read false p :: rest, f ||| g ||| h)
  | l => (l, 0)

/-- The tree of n levels. -/
def dotTree : Nat → List FV → FV × Byte
  | 0, l => (l.headD (.num false 0 0 false), 0)
  | n + 1, l =>
    let (l, f) := dotLevel l
    let (x, g) := dotTree n l
    (x, f ||| g)

/-- Multiplies a value by a power of two exactly. -/
def FV.scale (d : Int) : FV → FV
  | .num n m e st => .num n m (e + d) st
  | v => v

/-- A rounded `f32` value. -/
def f32Of (x : FV × Byte) : FV × Byte :=
  let (p, g) := fmtF32.round .rne false false 0 x.1
  (fmtF32.read false p, x.2 ||| g)

/-- One block of 32 terms added to the running sum; `sc` holds the scale codes of a block-scaled pair. A position of a
sparse operand that is not kept contributes +0. -/
def dotBlock (acc : FV × Byte) (as : List (Option FV)) (bs : List FV) (sc : Option (Nat × Nat)) : FV × Byte :=
  let bad := match sc with | some (x, y) => x == 255 || y == 255 | none => false
  let ps : List (FV × Byte) := (as.zip bs).map fun (a, b) =>
    match a with
    | none => (.num false 0 0 false, 0)
    | some a => if bad then (.nan, fNV) else a.mul b
  let fl := ps.foldl (fun f p => f ||| p.2) 0
  let (root, g) := dotTree 5 (ps.map (·.1))
  let (root, h) := match sc with
    | some (x, y) => if bad then (root, 0) else f32Of (root.scale ((x : Int) + y - 254), 0)
    | none => (root, 0)
  let (s, f) := acc.1.add .rne root
  let (r, k) := f32Of (s, f)
  (r, acc.2 ||| fl ||| g ||| h ||| k)

/-- The blocks of a floating dot product, the first of the rest numbered j. -/
def dotBlocks (blk : Nat → List (Option FV) × List FV × Option (Nat × Nat)) : Nat → Nat → FV × Byte → FV × Byte
  | 0, _, acc => acc
  | n + 1, j, acc =>
    let (as, bs, sc) := blk j
    dotBlocks blk n (j + 1) (dotBlock acc as bs sc)

/-- The exact sum of an integer dot product with TV of invalid digits. -/
def intDot : List (Option (Int × Byte)) → List (Int × Byte) → Int × Byte
  | a :: r, b :: t =>
    let (s, f) := intDot r t
    match a with
    | some a => (a.1 * b.1 + s, a.2 ||| b.2 ||| f)
    | none => (s, b.2 ||| f)
  | _, _ => (0, 0)

/-! ### Leases and turns (12 R298, R299; 13 R319) -/

/-- LEASE and ENGINE_ERROR. -/
def leaseFault (c : Ctx) (l : Nat) (s : State) : Out := raise c (FaultInfo.plain 13 l 0) s
def engineError (c : Ctx) (l : Nat) (s : State) : Out := raise c (FaultInfo.plain 15 l 0) s

/-- DPRB of the domain's entry on the group's core; 0 where it has none. -/
def State.groupDprb (s : State) (g : Group) : DWord :=
  match s.dprOf g.core g.half g.dom with
  | some e => s.dprb g.core e
  | none => 0

/-- Matrix-lease share in tiles (20 R425). -/
def State.mxShare (s : State) (g : Group) : Nat := field (s.groupDprb g) 16 5

/-- Lease quantum (20 R425). -/
def State.mxQuantum (s : State) (g : Group) : Nat := field (s.groupDprb g) 21 13

/-- Accumulator tiles of a die (12 R298). -/
def tileCount (core : Nat) : Nat := if isW3 (dieOf core) then 16 else 8

/-- Tiles that groups of the domain hold on the core or half (12 R298). -/
def State.mxUsed (s : State) (g : Group) : Nat :=
  (s.groups.filter fun x => x.dom == g.dom && x.core == g.core && x.half == g.half && x.st == .resident).foldl
    (fun n x => n + match x.lease with | some l => l.tiles | none => 0) 0

/-- Tiles that all groups of a core hold: the halves of a split core lease the one engine (12 R302). -/
def State.mxHeld (s : State) (core : Nat) : Nat :=
  (s.groups.filter fun x => x.core == core && x.st == .resident).foldl (fun n x => n + match x.lease with | some l => l.tiles | none => 0) 0

/-- Whether t tiles are free for a group, within its domain's share and in the engine (12 R298; 13 R319; 20 R426). -/
def State.mxRoom (s : State) (g : Group) (t : Nat) : Bool :=
  decide (s.mxUsed g + t ≤ s.mxShare g) && decide (s.mxHeld g.core + t ≤ tileCount g.core)

/-- The format-table image of the running kernel (12 R301). -/
def State.kernelFmts (s : State) (g : Group) : List Word :=
  match s.func? g g.kernel with
  | some f => (List.range 16).map fun i => f.fmts.getD i 0
  | none => List.replicate 16 0

/-- A fresh lease of n tiles. -/
def Lease.fresh (n : Nat) (fmts : List Word) : Lease := ⟨n, [], none, fmts, 0, 0⟩

/-- `mxlease` (13 R319). -/
def execMxlease (n : Opnd) (s : State) : Out :=
  runInstr s none (fun s c l => evalOp s c l .i32 n) fun c l n s =>
    let t := n.toNat
    if !c.g.mxuse || c.g.lease.isSome || t == 0 || decide (tileCount c.g.core < t) || decide (s.mxShare c.g < t) then leaseFault c l s
    else if !s.mxRoom c.g t then .next (holdRun c c.iss.mask (.tiles t) 0 s)
    else complete c none (s.modGroup c.g.gid fun g => { g with lease := some (Lease.fresh t (s.kernelFmts g)) })

/-- Whether the group may issue its next matrix operation now: in its turn, up to Q operations while another group waits; where no group
has the turn, the one that has waited longest (12 R299). -/
def CoreSt.mayTurn (k : CoreSt) (gid q : Nat) : Bool :=
  match k.turn with
  | none => k.mxWait.headD gid == gid
  | some h => h == gid && (decide (k.turnOps < q) || k.mxWait.all (· == gid))

/-- An operation of a group's turn has been performed; the turn ends with the lease (12 R299). -/
def countTurn (g : Group) (s : State) : State :=
  if ((s.group? g.gid).bind (·.lease)).isNone then s
  else s.modCore g.core fun k => { k with turn := some g.gid, turnOps := if k.turn = some g.gid then k.turnOps + 1 else 1 }

/-- A matrix instruction other than `mxlease`: the wait for the group's turn comes first, then the checks of 13 R318 from the
lease on (12 R299). `op` gets the lease. One that faults has no part in the turn (00 R11). -/
def mxInstr {A : Type} (s : State) (rt : Option Ty) (opnds : State → Ctx → Nat → Option A)
    (op : Ctx → Nat → A → Lease → State → Out) : Out :=
  runInstr s rt opnds fun c l a s =>
    match c.g.lease with
    | none => leaseFault c l s
    | some le =>
      if (s.coreSt c.g.core).mayTurn c.g.gid (s.mxQuantum c.g) then
        match op c l a le (s.modCore c.g.core fun k => { k with mxWait := k.mxWait.filter (· != c.g.gid) }) with
        | .next t => .next (if t.issue.isSome ∧ t.failed = none then countTurn c.g t else t)
        | o => o
      else
        let s := s.modCore c.g.core fun k => { k with mxWait := if k.mxWait.contains c.g.gid then k.mxWait else k.mxWait ++ [c.g.gid] }
        .next (holdRun c c.iss.mask .turn 0 s)

/-- Changes the lease of a group. -/
def State.modLease (gid : Nat) (f : Lease → Lease) (s : State) : State :=
  s.modGroup gid fun g => { g with lease := g.lease.map f }

/-- Ends a group's lease; its turn and its place among the waiting groups end with it (12 R299; 13 R320). -/
def dropLease (g : Group) (s : State) : State :=
  let s := s.modGroup g.gid fun g => { g with lease := none }
  s.modCore g.core fun k =>
    { k with turn := if k.turn = some g.gid then none else k.turn, turnOps := if k.turn = some g.gid then 0 else k.turnOps,
             mxWait := k.mxWait.filter (· != g.gid) }

/-- `mxrel` (13 R320). -/
def execMxrel (s : State) : Out :=
  mxInstr s (some .i8) (fun _ _ _ => some ()) fun c _ _ le s =>
    complete c (some ⟨.i8, ofU 8 (le.flags.toNat % 128)⟩) (dropLease c.g s)

/-- `mxfmt` (13 R321). -/
def execMxfmt (i : Opnd) (s : State) : Out :=
  mxInstr s none (fun s c l => evalOp s c l .i32 i) fun c l i _ s =>
    if 16 ≤ i.toNat then engineError c l s
    else complete c none (s.modLease c.g.gid fun le => { le with fidx := i.toNat })

/-- A matrix instruction other than `mxlease`. -/
def isMatrix : Instr → Bool
  | .mxrel | .mxfmt _ | .mxldb _ _ _ _ | .mxzero _ _ | .mxmma _ _ _ _ _ | .mxsmma _ _ _ _ _ | .mxtma _ _ _ _ | .mxst _ _ _ _ _ => true
  | _ => false

/-- Whether a lane of a wave stands before a matrix instruction, in the native form before a bundle with an X slot (15 R327). -/
def Wave.mxNext (s : State) (g : Group) (w : Wave) (l : Nat) (x : Lane) : Bool :=
  match w.native.bind fun n => n.lanes.lookup l with
  | some y => match (s.cluster (clusterOf g.core)).xlates.find? fun t => decide (t.base ≤ y.npc) && decide (y.npc < t.base + 64 * t.lines.length) with
    | some t => (t.lines.getD ((y.npc - t.base) / 64) 0).extractLsb' 432 28 != 0
    | none => false
  | none => match s.fetch g x.point with | some (i, _) => isMatrix i | none => false

/-- Whether a group has a matrix operation waiting: some lane that runs, or is held for the turn, stands before one (12 R299). -/
def State.mxPending (s : State) (gid : Nat) : Bool :=
  match s.group? gid with
  | some g => g.st == .resident && g.lease.isSome && g.waves.any fun w =>
      w.trap.isNone && !w.stopped && w.lanes.zipIdx.any fun (x, i) => (x.eligible || (x.alive && x.park == .held)) && w.mxNext s g i x
  | none => false

/-- Whether the path passes at this boundary: another leased group waits, and the group that has the turn has had its quantum, or has no
matrix operation waiting (12 R299). -/
def State.mxPasses (s : State) (core : Nat) : Bool :=
  let k := s.coreSt core
  match k.turn with
  | none => !k.mxWait.isEmpty
  | some h => k.mxWait.any (· != h) &&
      ((match s.group? h with | some g => decide (s.mxQuantum g ≤ k.turnOps) | none => true) || !s.mxPending h)

/-- MX_TURN_PASS (12 R299): the path passes to the group that has waited longest. -/
def execMxTurnPass (core : Nat) (s : State) : Out :=
  .next (if !s.mxPasses core then s
    else s.modCore core fun k =>
      match k.mxWait with
      | [] => k
      | g :: r => { k with turn := some g, turnOps := 0, mxWait := r })

/-! ### Scratchpad operands (13 R318 step 4) -/

/-- Whether a pointer addresses the group's own allocation (SEL 0). -/
def ownPtr (p : DWord) : Bool := ptrAddr p / 2 ^ 24 == ownBase / 2 ^ 24

/-- One operand's ranges under 09 R214 and R215; a byte outside the group's own allocation fails at step 3, with the lowest such address
in the record (13 R318 step 4). -/
def mxRange (s : State) (w : Who) (ps : List Part) : Except FaultInfo (List Place) :=
  match ps.find? fun p => !ownPtr p.ptr, s.checkParts w ps with
  | none, r => r
  | some p, .error f => .error (if f.check < 3 ∨ (f.check = 3 ∧ ptrAddr f.addr < ptrAddr p.ptr) then f else outside p)
  | some p, .ok _ => .error (outside p)
where
  /-- The fault of a range outside the allocation. -/
  outside (p : Part) : FaultInfo := ⟨4, w.lane, 3, accOf false p.rd p.wr, p.ptr, 0, none⟩

/-- The operand ranges in operand order. -/
def mxParts (s : State) (w : Who) : List (List Part) → Except FaultInfo (List (List Place))
  | [] => .ok []
  | ps :: r =>
    match mxRange s w ps with
    | .error f => .error f
    | .ok q => (mxParts s w r).map fun qs => q :: qs

/-- The entry that the lease uses. -/
def Lease.entry (l : Lease) : Word := l.fmts.getD l.fidx 0

/-- `mxldb` (13 R322). -/
def execMxldb (n128 : Bool) (b bs kb : Opnd) (s : State) : Out :=
  mxInstr s none
    (fun s c l => match evalOps s c l [(.ptr, b), (.ptr, bs), (.i32, kb)] with
      | some [x, y, k] => some (x.extractLsb' 0 64, y.extractLsb' 0 64, k.toNat)
      | _ => none)
    fun c l (b, bs, kb) le s =>
      let f := bFmt le.entry
      if !entryOk le.entry || kb == 0 || decide (16 < kb) then engineError c l s
      else
        let n := if n128 then 128 else 64
        let k := 32 * kb
        let rs := [Part.read b (n * k * fmtBits f / 8) 64] :: (if fmtBlock f then [[Part.read bs (n * kb) 64]] else [])
        match mxParts s (c.who l) rs with
        | .error e => memRaise c e s
        | .ok qs =>
          let bank : BBank := { n, k, fmt := f, data := s.readPlaces (qs.headD []),
                                scales := if fmtBlock f then s.readPlaces ((qs.drop 1).headD []) else [] }
          complete c none (s.modLease c.g.gid fun le => { le with bank := some bank })

/-- Zeroes the tiles of a shape. -/
def zeroTiles (t n : Nat) (acc : List (Nat × Word)) : List (Nat × Word) :=
  acc.filter fun (k, _) => !(t * 4096 ≤ k && k < (t + n) * 4096)

/-- Whether the tiles of a shape lie within a lease. -/
def Lease.holds (le : Lease) (sh : Shape) (t : Nat) : Bool := t + shapeTiles sh ≤ le.tiles

/-- `mxzero` (13 R323). -/
def execMxzero (sh : Shape) (t : Opnd) (s : State) : Out :=
  mxInstr s none (fun s c l => evalOp s c l .i32 t) fun c l t le s =>
    if !le.holds sh t.toNat then leaseFault c l s
    else complete c none (s.modLease c.g.gid fun le => { le with acc := zeroTiles t.toNat (shapeTiles sh) le.acc })

/-! ### Multiplies (12 R302; 13 R324) -/

/-- The operands of a multiply. -/
structure MulReq where
  t : Nat
  a : DWord
  x : DWord
  kb : Nat
  deriving DecidableEq, Repr

/-- The bytes that a multiply reads: A, then scales or metadata. -/
structure MulData where
  a : List Byte
  x : List Byte
  deriving DecidableEq, Repr

/-- The metadata code of row m and group g (12 R302): first and second kept position. -/
def metaCode (k m g : Nat) (d : List Byte) : Nat × Nat :=
  let i := m * (k / 4) + g
  let c := (d.getD (i / 2) 0).toNat / 2 ^ (4 * (i % 2)) % 16
  (c % 4, c / 4)

/-- The pattern of A at row m and position k; none where a sparse operand does not keep it. -/
def aElem (mk : MulKind) (w kk m k : Nat) (d : MulData) : Option Nat :=
  if mk = .sparse then
    let (p, q) := metaCode kk m (k / 4) d.x
    let base := m * (kk / 2) + 2 * (k / 4)
    if k % 4 = p then some (packedElem w base d.a)
    else if k % 4 = q then some (packedElem w (base + 1) d.a)
    else none
  else some (packedElem w (m * kk + k) d.a)

/-- One output element: the new accumulator word and the flags. -/
def mulElem (mk : MulKind) (e : Word) (bk : BBank) (d : MulData) (m n : Nat) (old : Word) : Word × Byte :=
  let fa := aFmt e
  let fb := bFmt e
  let a := fun k => aElem mk (fmtBits fa) bk.k m k d
  let b := fun k => packedElem (fmtBits fb) (n * bk.k + k) bk.data
  if classOf fa fb = some .int then
    let ks := List.range bk.k
    let (i, f) := intDot (ks.map fun k => (a k).map (intElem fa)) (ks.map fun k => intElem fb (b k))
    (old + BitVec.ofInt 32 i, f)
  else
    let blk := fun (j : Nat) =>
      let ks := (List.range 32).map fun i => 32 * j + i
      (ks.map fun k => (a k).map ((fmtFloat fa).read false), ks.map fun k => (fmtFloat fb).read false (b k),
       if classOf fa fb = some .block then
         some ((d.x.getD (m * (bk.k / 32) + j) 0).toNat, (bk.scales.getD (n * (bk.k / 32) + j) 0).toNat)
       else none)
    let (v, f) := dotBlocks blk (bk.k / 32) 0 (fmtF32.read false old.toNat, 0)
    (BitVec.ofNat 32 (fmtF32.round .rne false false 0 v).1, f)

/-- Runs a function over the elements of a shape: the words keyed, and the flags. -/
def overShape (t rows cols : Nat) (f : Nat → Nat → Word → Word × Byte) (acc : List (Nat × Word)) : List (Nat × Word) × Byte :=
  (List.range rows).foldl (fun a m =>
    (List.range cols).foldl (fun (acc, fl) n =>
      let k := accKey t cols m n
      let (w, g) := f m n (mget 0 acc k)
      (mset 0 acc k w, fl ||| g)) a) (acc, 0)

/-- A multiply (13 R324). -/
def mulInstr (s : State) (mk : MulKind) (sh : Shape) (opnds : State → Ctx → Nat → Option MulReq) : Out :=
  mxInstr s none opnds fun c l q le s =>
    let e := le.entry
    let rows := shapeRows sh
    let k := 32 * q.kb
    if !le.holds sh q.t then leaseFault c l s
    else
      match le.bank with
      | none => engineError c l s
      | some bk =>
        if !entryOk e || !entryFits mk e || q.kb == 0 || decide (16 < q.kb) || bk.n != shapeCols sh || bk.k != k ||
           bk.fmt != bFmt e then engineError c l s
        else
          let na := rows * k * fmtBits (aFmt e) / 8 / (if mk = .sparse then 2 else 1)
          let ax : List (List Part) :=
            if mk = .sparse then [[Part.read q.x (rows * k / 8) 64]]
            else if mk = .dense ∧ fmtBlock (aFmt e) then [[Part.read q.x (rows * q.kb) 64]]
            else []
          match mxParts s (c.who l) ([Part.read q.a na 64] :: ax) with
          | .error f => memRaise c f s
          | .ok ps =>
            let d : MulData := ⟨s.readPlaces (ps.headD []), s.readPlaces ((ps.drop 1).headD [])⟩
            if mk = .sparse ∧ (List.range rows).any (fun m => (List.range (k / 4)).any fun g =>
                decide ((metaCode k m g d.x).2 ≤ (metaCode k m g d.x).1)) then engineError c l s
            else
              complete c none (s.modLease c.g.gid fun le =>
                let (acc, f) := overShape q.t rows (shapeCols sh) (mulElem mk e bk d) le.acc
                { le with acc, flags := le.flags ||| f })

/-- `mxmma` (13 R324). -/
def execMxmma (sh : Shape) (t a as kb : Opnd) (s : State) : Out :=
  mulInstr s .dense sh fun s c l =>
    match evalOps s c l [(.i32, t), (.ptr, a), (.ptr, as), (.i32, kb)] with
    | some [t, a, x, k] => some ⟨t.toNat, a.extractLsb' 0 64, x.extractLsb' 0 64, k.toNat⟩
    | _ => none

/-- `mxsmma` (13 R324). -/
def execMxsmma (sh : Shape) (t a md kb : Opnd) (s : State) : Out :=
  mulInstr s .sparse sh fun s c l =>
    match evalOps s c l [(.i32, t), (.ptr, a), (.ptr, md), (.i32, kb)] with
    | some [t, a, x, k] => some ⟨t.toNat, a.extractLsb' 0 64, x.extractLsb' 0 64, k.toNat⟩
    | _ => none

/-- `mxtma` (13 R324). -/
def execMxtma (sh : Shape) (t a kb : Opnd) (s : State) : Out :=
  mulInstr s .ternary sh fun s c l =>
    match evalOps s c l [(.i32, t), (.ptr, a), (.i32, kb)] with
    | some [t, a, k] => some ⟨t.toNat, a.extractLsb' 0 64, 0, k.toNat⟩
    | _ => none

/-! ### Stores (12 R302; 13 R325) -/

/-- Bytes of an output element. -/
def outSize (f : Nat) : Nat := if f = 9 ∨ f = 10 then 4 else if f ≤ 1 then 2 else 1

/-- The rounding mode of OUTRND. -/
def rmOf (n : Nat) : Rm := match n with | 0 => .rne | 1 => .rz | 2 => .rd | _ => .ru

/-- An accumulator word as it is stored: the pattern and the flags (12 R302). -/
def outWord (e w : Word) : Nat × Byte :=
  let f := outFmt e
  if f = 10 then (w.toNat, 0)
  else if f = 9 then fmtF32.round (rmOf (outRnd e)) false false 0 (fmtF32.read false w.toNat)
  else if f = 7 then
    if fmtSat e then
      let (i, sat) := saturate true 8 w.toInt
      ((i % 256).toNat, if sat then fSV else 0)
    else (w.toNat % 256, 0)
  else (fmtFloat f).round (rmOf (outRnd e)) (fmtSat e) false 0 (fmtF32.read false w.toNat)

/-- The bytes of row m of a shape, and the flags of its conversions. -/
def outRow (e : Word) (t cols m : Nat) (acc : List (Nat × Word)) : List Byte × Byte :=
  (List.range cols).foldl (fun (bs, fl) n =>
    let (p, g) := outWord e (mget 0 acc (accKey t cols m n))
    (bs ++ leBytes (outSize (outFmt e)) p, fl ||| g)) ([], 0)

/-- `mxst` (13 R325): rows are written in ascending order. -/
def execMxst (sh : Shape) (clr : Bool) (t d stride : Opnd) (s : State) : Out :=
  mxInstr s none
    (fun s c l => match evalOps s c l [(.i32, t), (.ptr, d), (.i32, stride)] with
      | some [t, d, x] => some (t.toNat, d.extractLsb' 0 64, x.toNat)
      | _ => none)
    fun c l (t, d, st) le s =>
      let e := le.entry
      let sz := outSize (outFmt e)
      let rows := shapeRows sh
      let cols := shapeCols sh
      if !le.holds sh t then leaseFault c l s
      else if !entryOk e || decide (st < cols * sz) || st % sz != 0 || decide (2 ^ 21 ≤ st) then engineError c l s
      else
        let parts := (List.range rows).map fun m => Part.write (ptrWith d (ptrAddr d + m * st)) (cols * sz) sz
        match mxParts s (c.who l) [match parts with | p :: r => { p with ptr := d } :: r | [] => []] with
        | .error f => memRaise c f s
        | .ok ps =>
          let out := (List.range rows).map fun m => outRow e t cols m le.acc
          let s := s.writePlaces (ps.headD []) (out.flatMap (·.1))
          complete c none (s.modLease c.g.gid fun le =>
            { le with acc := if clr then zeroTiles t (shapeTiles sh) le.acc else le.acc,
                      flags := out.foldl (fun f o => f ||| o.2) le.flags })

end Sys2Proof.Machine
end

