-- ==== Sys2Proof/Machine/Records.lean ====
section
/-! DEFINITION. Records that the device writes into a domain's rings: fault records (17 R380, R381), translation events
(16 R372), trace records (17 R394) and Winch log records (21 R460), with the interrupts they raise (22 R475, R476). -/
namespace Sys2Proof.Machine

/-! ### Interrupts (22 R475, R476) -/

/-- Whether the gang schedule has taken a domain's groups off the dies, and none is resident (19 R419; 22 R476). -/
def State.descheduled (s : State) (d : Nat) : Bool :=
  let gs := s.groups.filter fun g => g.dom == d && g.gate.isNone
  (gs.any fun g => g.st == .saved && g.why == .gang) && gs.all fun g => g.st != .resident

/-- Interrupts and doorbells of a domain are withheld while it is paused or descheduled (22 R476). -/
def State.withheld (s : State) (d : Nat) : Bool := (s.dom d).paused || s.descheduled d

/-- Sets a bit of INTSTAT; a bit that becomes set and is not masked signals its vector (22 R475). -/
def setInt (d k : Nat) (s : State) : State :=
  let v := s.dreg d 0x1C0
  if v.getLsbD k then s
  else
    let s := s.setDreg d 0x1C0 (v ||| (1#64 <<< k))
    if (s.dreg d 0x1C8).getLsbD k || s.withheld d then s
    else s.modDom d fun x => { x with msix := x.msix ++ [k] }

/-! ### The frozen set (22 R479, R480, R491) -/

/-- Whether a domain's interface is locked: writes to its frozen set are not performed. -/
def State.frozen (s : State) (d : Nat) : Bool := (s.dom d).ifstate == .locked || (s.dom d).ifstate == .run

/-- The interface of a domain enters ERROR. -/
def toError (d : Nat) (s : State) : State := setInt d 5 (s.modDom d fun x => { x with ifstate := .error })

/-- A write to a member of a domain's frozen set: performed while the interface is unlocked or in ERROR. -/
def frozenWrite (d : Nat) (f : State → State) (s : State) : State := if s.frozen d then toError d s else f s

/-! ### Rings (17 R381; 22 R471) -/

/-- A ring of a domain: its registers, the range of LOGN, the size of a record and the INTSTAT bit. -/
structure Ring where
  base : Nat
  wr : Nat
  rd : Nat
  hi : Nat
  size : Nat
  int : Nat
  deriving DecidableEq, Repr

def trapRing : Ring := ⟨0x110, 0x118, 0x120, 16, 64, 0⟩
def eventRing : Ring := ⟨0x130, 0x138, 0x140, 16, 32, 1⟩
def traceRing : Ring := ⟨0x150, 0x158, 0x160, 16, 32, 2⟩
def winchRing : Ring := ⟨0x170, 0x178, 0x180, 12, 32, 3⟩

/-- LOGN of a ring. -/
def State.ringLog (s : State) (d : Nat) (r : Ring) : Nat := field (s.dreg d r.base) 0 5

/-- Whether a ring's base has been set. -/
def State.ringSet (s : State) (d : Nat) (r : Ring) : Bool := 4 ≤ s.ringLog d r && s.ringLog d r ≤ r.hi

/-- Whether a ring holds as many unread records as it has room for. -/
def State.ringFull (s : State) (d : Nat) (r : Ring) : Bool :=
  2 ^ s.ringLog d r ≤ (s.dreg d r.wr - s.dreg d r.rd).toNat

/-- The address of the next record. -/
def State.ringAddr (s : State) (d : Nat) (r : Ring) : DWord :=
  let b := s.dreg d r.base
  BitVec.ofNat 64 (b.toNat - b.toNat % 32 + (s.dreg d r.wr).toNat % 2 ^ s.ringLog d r * r.size)

/-- The write of a record, under the domain's checks; trap records are still written for an interface in ERROR (22 R491). -/
def State.ringWrite (s : State) (d : Nat) (r : Ring) (bs : List Byte) : Except FaultInfo State :=
  let c := if r.int = 0 ∧ (s.dom d).ifstate = .error then s.modDom d fun x => { x with ifstate := .run } else s
  match c.checkParts (Who.device d) [Part.write (s.ringAddr d r) bs.length 8] with
  | .ok ps => .ok (s.writePlaces ps bs)
  | .error f => .error f

/-- Writes a record and then advances the write count; none where the ring counts as full (17 R381). -/
def State.ringPut (s : State) (d : Nat) (r : Ring) (bs : List Byte) : Option State :=
  if s.ringSet d r && !s.ringFull d r then
    match s.ringWrite d r bs with
    | .ok t => some (setInt d r.int (t.setDreg d r.wr (t.dreg d r.wr + 1)))
    | .error _ => none
  else none

/-- Whether the ring counts as full although it has room: its base is not set, or the next address fails a check. -/
def State.ringBroken (s : State) (d : Nat) (r : Ring) : Bool :=
  !s.ringSet d r ||
  (!s.ringFull d r && match s.ringWrite d r (List.replicate r.size 0) with | .ok _ => false | .error _ => true)

/-! ### Fault records -/

/-- The 64 bytes of a fault record (17 R380). -/
def FaultRec.bytes (r : FaultRec) (seq : Word) : List Byte :=
  leBytes 2 r.code ++ leBytes 1 r.cls ++ [r.lane] ++ leBytes 1 r.check ++ leBytes 1 r.acc ++ leBytes 1 r.dom ++
  [r.flags] ++ leBytes 8 r.addr.toNat ++ leBytes 4 r.func ++ leBytes 4 r.index ++ leBytes 4 r.ifunc ++
  leBytes 4 r.iindex ++ leBytes 4 r.group ++ leBytes 1 r.wave ++ leBytes 1 r.iwave ++ leBytes 2 r.depth ++
  leBytes 4 r.dead.toNat ++ leBytes 4 r.run.toNat ++ leBytes 8 r.native.toNat ++ leBytes 4 r.launch.toNat ++
  leBytes 4 seq.toNat

/-- TRAP_RECORD_WRITE (17 R381): the oldest record of the domain is written, or waits; a queue that is not set or not
writable is reported to domain 0 once for the episode. -/
def execTrapRecordWrite (dom : Nat) (s : State) : Out :=
  match (s.dom dom).trapPend with
  | [] => .next s
  | r :: rest =>
    match s.ringPut dom trapRing (r.fr.bytes r.seq) with
    | some t =>
      let t := t.modDom dom fun x => { x with trapPend := rest, cfgEpisode := false }
      .next (if rest.isEmpty then t else t.due (.trapRecordWrite dom))
    | none =>
      if s.ringBroken dom trapRing && !(s.dom dom).cfgEpisode then
        .next ((s.configError 0x110).modDom dom fun x => { x with cfgEpisode := true })
      else .next s

/-- Whether a waiting fault record of a domain could be written now. -/
def State.recordReady (s : State) (d : Nat) : Bool :=
  match (s.dom d).trapPend with
  | [] => false
  | r :: _ => (s.ringPut d trapRing (r.fr.bytes r.seq)).isSome

/-! ### Event records (16 R372) -/

/-- The record of a translation event. -/
def eventBytes (items : List Nat) : List Byte := (List.range 32).map (Config.eventByte items)

/-- Writes waiting event records in order while there is room. -/
def flushEvents (d : Nat) : Nat → State → State
  | 0, s => s
  | n + 1, s =>
    match (s.dom d).evPend with
    | [] => s
    | b :: r =>
      match s.ringPut d eventRing b with
      | some t => flushEvents d n (t.modDom d fun x => { x with evPend := r })
      | none => s

/-! ### Trace records (17 R394) -/

/-- STAMP: the time; in the ring of domain 0 and of a domain whose GRANT has NATIVE, the privileged view, with a native point and the
core's cycle count, which is free (00 R8; 17 R394; 22 R478; log entry 39). -/
def traceStamp (d nat : Nat) (s : State) : DWord × State :=
  if d = 0 ∨ field (s.dreg d 0x1B0) 3 1 = 1 then
    let (v, s) := s.fresh
    (BitVec.ofNat 64 (nat % 2 ^ 29 + v.toNat % 2 ^ 32 * 2 ^ 32), s)
  else (BitVec.ofNat 64 s.now, s)

/-- A record that finds the ring full is dropped and counted; when room returns, a kind-11 record comes first. -/
def tracePut (d : Nat) (b : List Byte) (s : State) : State :=
  let s1 :=
    if (s.dom d).trDropped = 0 then some s
    else
      let (st, s) := traceStamp d 0 s
      (s.ringPut d traceRing (traceRecord 11 0 0 d 0 0 0 0 (s.dom d).trDropped st)).map (State.modDom d fun x => { x with trDropped := 0 })
  match s1.bind fun t => t.ringPut d traceRing b with
  | some t => t
  | none => (s1.getD s).modDom d fun x => { x with trDropped := x.trDropped + 1 }

/-- Writes a trace record of a wave, at a portable and a native point, if the domain's TRACECTL enables its kind. -/
def trace (kind : Nat) (g : Group) (wi : Nat) (pt : Nat × Nat) (nat : Nat) (mask : Word) (aux : Nat) (s : State) : State :=
  if (s.dreg g.dom 0x168).getLsbD kind then
    let (st, s) := traceStamp g.dom nat s
    tracePut g.dom (traceRecord kind ((lanesOf mask).headD 0) wi g.dom g.lin pt.1 pt.2 mask aux st) s
  else s

/-! ### Translation events (16 R372) -/

/-- A translation event: counted in the cluster's counters for the domain, recorded while EVEN is set, and traced (16 R372; 17 R394).
`k` is the counter: 0 to 2 misses by form, 3 installs, 4 to 7 evictions by cause, 8 pressure, 9 corrected, 10 accepted, 11 dropped. The
items begin with the event's code; those at 6 and 7 are its function and index. -/
def xlateEvent (d k : Nat) (recorded : Bool) (items : List Nat) (s : State) : State :=
  let s := s.modDom d fun x => { x with xlate := modNth (· + 1) x.xlate k, guest := modNth (· + 1) x.guest 13 }
  if !recorded then s
  else
    let s :=
      if field (s.dreg d 0x148) 0 1 == 1 then
        let s := s.modDom d fun x => { x with evPend := x.evPend ++ [eventBytes items] }
        flushEvents d (s.dom d).evPend.length s
      else s
    if (s.dreg d 0x168).getLsbD 10 then
      let (st, s) := traceStamp d 0 s
      tracePut d (traceRecord 10 0 0 d 0 (items.getD 6 0) (items.getD 7 0) 0 (items.headD 0) st) s
    else s

/-! ### Winch log records (21 R460) -/

/-- The 32 bytes of a Winch log record. -/
def WLog.bytes (r : WLog) : List Byte :=
  leBytes 1 r.kind ++ leBytes 1 r.table ++ leBytes 1 r.reason ++ leBytes 1 r.fault ++ leBytes 2 r.expert ++
  leBytes 2 r.slot ++ leBytes 4 r.version ++ leBytes 4 r.refs ++ leBytes 8 r.addr.toNat ++ leBytes 8 r.time.toNat

/-- Queues a Winch log record; its write is due. -/
def winchLog (d : Nat) (r : WLog) (s : State) : State :=
  (s.modDom d fun x => { x with wlPend := x.wlPend ++ [{ r with time := BitVec.ofNat 64 s.now }] }).due (.winchLogWrite d)

/-- WINCH_LOG_WRITE (21 R460): the oldest record is written, or waits for room. -/
def execWinchLogWrite (dom : Nat) (s : State) : Out :=
  match (s.dom dom).wlPend with
  | [] => .next s
  | r :: rest =>
    match s.ringPut dom winchRing r.bytes with
    | some t =>
      let t := t.modDom dom fun x => { x with wlPend := rest }
      .next (if rest.isEmpty then t else t.due (.winchLogWrite dom))
    | none => .next s

/-- Whether a waiting Winch log record could be written now. -/
def State.winchReady (s : State) (d : Nat) : Bool :=
  match (s.dom d).wlPend with
  | [] => false
  | r :: _ => (s.ringPut d winchRing r.bytes).isSome

end Sys2Proof.Machine
end

