-- ==== Sys2Proof/Machine/Place.lean ====
section
/-! DEFINITION. Room on cores and the making of groups: eligibility, slots, windows and banks (05 R139 to R142, R166; 06 R178
to R180; 09 R217 to R219; 16 R364; 20 R425 to R429), and freeing them again. -/
namespace Sys2Proof.Machine

/-! ### What a group needs and what a core offers -/

/-- What placement asks of a core for one group. -/
structure Need where
  slots : Nat
  banks : Nat
  mx : Bool
  deriving DecidableEq, Repr

/-- Wave slots of a group by its kernel header word (05 R140, R166). -/
def hdrSlots (hdr : DWord) : Nat :=
  let n := field hdr 9 5 + 1
  if field hdr 0 1 = 1 then (n + 1) / 2 else n

/-- The need of a group of a kernel (06 R178). -/
def needOf (hdr : DWord) : Need := ⟨hdrSlots hdr, field hdr 18 6, field hdr 36 1 == 1⟩

/-- Wave slots of a core or half-core (15 R355). -/
def State.coreSlots (s : State) (c : Nat) : Nat := (if isW3 (dieOf c) then 32 else 24) / (if s.isSplit c then 2 else 1)

/-- The largest windows of a wave: vector and scalar registers (15 R331, R355). -/
def maxVwin (c : Nat) : Nat := if isW3 (dieOf c) then 128 else 64

/-- Shares of entry e of core c: slots, vector and scalar registers, first bank and banks, tiles (20 R425). -/
structure Share where
  slots : Nat
  vregs : Nat
  sregs : Nat
  bank : Nat
  banks : Nat
  tiles : Nat
  deriving DecidableEq, Repr

def State.share (s : State) (c e : Nat) : Share :=
  let a := s.dpra c e
  ⟨field a 14 6, 128 * field a 20 6, 64 * field a 26 6, field a 32 5, field a 37 6, field (s.dprb c e) 16 5⟩

/-- Cores and halves of a partition, ascending by core. -/
def State.placesOf (s : State) (part : Nat) : List (Nat × Nat) :=
  (s.pregs.filterMap fun (k, _) => if k < 0x2400 ∧ k % 8 = 0 then some (k / 8) else none).flatMap fun c =>
    (if s.isSplit c then [0, 1] else [0]).filterMap fun h => if s.corePart c h = some part then some (c, h) else none

/-- Groups resident on a core or half. -/
def State.residentOn (s : State) (c h : Nat) : List Group := s.groups.filter fun g => g.st == .resident && g.core == c && g.half == h

/-- The waves of a group that have not ended. -/
def Group.liveWaves (g : Group) : List Wave := g.waves.filter fun w => !w.ended

/-- The wave slots that a group holds now: a wave that has ended has freed its own (05 R162). -/
def Group.slotsNow (g : Group) : Nat := if g.waves.isEmpty then g.nslots else g.liveWaves.length

/-- Slots that groups hold. -/
def slotsHeld (gs : List Group) : Nat := gs.foldl (fun n g => n + g.slotsNow) 0

/-- Registers that the windows of groups hold: vector, scalar. -/
def regsHeld (gs : List Group) : Nat × Nat :=
  gs.foldl (fun n g => g.liveWaves.foldl (fun n w => (n.1 + w.vwin, n.2 + w.swin)) n) (0, 0)

/-- What a saved group needs to come back. -/
def Group.need (g : Group) : Need := { needOf g.hdr with slots := g.slotsNow }

/-- A place-table entry of a die (19 R404; 22 R472): `o` is the table's offset, k the logical unit. -/
def State.placeEntry (s : State) (die o k : Nat) : DWord := s.preg (0x100000 + 0x20000 * die + o + 8 * k)

/-- Whether a physical core may stand for a core of a cluster: one of the cluster's own, or the spare that serves it. -/
def coreTarget (w3 : Bool) (cluster u : Nat) : Bool :=
  u / 8 == cluster && decide (u < if w3 then 96 else 128) ||
  (if w3 then decide (96 ≤ u) && decide (u < 100) && u - 96 == cluster / 3
   else decide (128 ≤ u) && decide (u < 132) && u - 128 == cluster / 4)

/-- Whether a logical core is absent (19 R404). -/
def State.coreAbsent (s : State) (c : Nat) : Bool :=
  let v := s.placeEntry (dieOf c) 0 (c % 128)
  let w3 := isW3 (dieOf c)
  field v 15 1 == 1 || !coreTarget w3 (c % 128 / 8) (field v 0 12) || s.lost.contains (dieOf c) ||
  !(decide (1 ≤ dieOf c) && decide (dieOf c ≤ 8) && decide (c % 128 < if w3 then 96 else 128))

/-- Whether a logical SRAM bank of a core is absent. -/
def State.bankAbsent (s : State) (c b : Nat) : Bool :=
  let v := s.placeEntry (dieOf c) 0x8000 (64 * (c % 128) + b)
  field v 15 1 == 1 || decide ((if isW3 (dieOf c) then 50 else 34) ≤ field v 0 12)

/-- Whether a bank is scratchpad of a core: within its split, and present (09 R217; 19 R404). -/
def State.bankHere (s : State) (c b : Nat) : Bool := decide (b < 4 * (s.coreSt c).split) && !s.bankAbsent c b

/-- The first banks of the runs of n scratchpad banks within a share, ascending. -/
def State.bankStarts (s : State) (c : Nat) (x : Share) (n : Nat) : List Nat :=
  ((List.range (x.banks + 1 - n)).map (· + x.bank)).filter fun b => (List.range n).all fun i => s.bankHere c (b + i)

/-- Whether the core could hold a group of the domain if nothing were resident (06 R178; 05 R140; 03 R86; 20 R429). -/
def State.fitsEmpty (s : State) (d : Nat) (n : Need) (c h : Nat) : Bool :=
  match s.dprOf c h d with
  | none => false
  | some e =>
    let x := s.share c e
    decide (n.slots ≤ x.slots) && decide (n.slots ≤ s.coreSlots c) && decide (16 * n.slots ≤ x.vregs) &&
    decide (16 * n.slots ≤ x.sregs) && !(s.bankStarts c x n.banks).isEmpty && (decide (n.banks ≤ 16) || isW3 (dieOf c)) &&
    (!n.mx || decide (0 < x.tiles)) && !s.coreAbsent c

/-- The lowest free run of n banks among the entry's banks that no resident group of the core holds. -/
def State.freeBank (s : State) (c : Nat) (x : Share) (n : Nat) : Option Nat :=
  let gs := s.groups.filter fun g => g.st == .resident && g.core == c
  (s.bankStarts c x n).find? fun b =>
    gs.all fun g => decide (g.nbanks = 0) || decide (n = 0) || decide (b + n ≤ g.bank) || decide (g.bank + g.nbanks ≤ b)

/-- Room found for a group: first bank, windows of each wave, and whether its slots are borrowed. -/
structure Room where
  core : Nat
  half : Nat
  bank : Nat
  vwin : Nat
  swin : Nat
  borrowed : Bool
  deriving DecidableEq, Repr

/-- A window of one wave: an equal part of the domain's share, at least the smallest, within what is free (log entry 24). -/
def windowOf (share slots free n top : Nat) : Nat := max 16 (min top (min (share / max 1 slots) (free / max 1 n)))

/-- Whether a resize in progress on a core keeps a domain's groups off a half: the whole core in a mode change, the departing half
in an assignment, the domain of the entry in a deferred DPR write (20 R427, R431, R432). -/
def State.departing (s : State) (c h d : Nat) : Bool :=
  match (s.coreSt c).reshape with
  | none => false
  | some r =>
    match r.dpr with
    | some (e, _, _) => field (s.dpra c e) 0 7 == d && (field (s.dpra c e) 8 1 == h || !s.isSplit c)
    | none => if r.kind = 0 ∧ s.isSplit c then h == 0 else true

/-- Room for a group on a core or half beside the resident groups `gs`, on the domain's own slots or, with `borrow`, on idle
slots of other entries (06 R178, R180; 16 R364). -/
def State.roomBeside (s : State) (gs : List Group) (d : Nat) (n : Need) (c h : Nat) (borrow : Bool) : Option Room :=
  match s.dprOf c h d with
  | none => none
  | some e =>
    let x := s.share c e
    let own := gs.filter fun g => g.dom == d
    let (v, r) := regsHeld own
    let k := s.coreSt c
    if k.failed || s.departing c h d then none
    else if s.fitsEmpty d n c h && decide (slotsHeld gs + n.slots ≤ s.coreSlots c) &&
        (borrow || decide (slotsHeld (own.filter (!·.borrowed)) + n.slots ≤ x.slots)) &&
        decide (v + 16 * n.slots ≤ x.vregs) && decide (r + 16 * n.slots ≤ x.sregs) then
      (s.freeBank c x n.banks).map fun b =>
        { core := c, half := h, bank := b, vwin := windowOf x.vregs x.slots (x.vregs - v) n.slots (maxVwin c),
          swin := windowOf x.sregs x.slots (x.sregs - r) n.slots 64, borrowed := borrow }
    else none

/-- Room for a group on a core or half now. -/
def State.roomOn (s : State) (d : Nat) (n : Need) (borrow : Bool) (p : Nat × Nat) : Option Room :=
  s.roomBeside (s.residentOn p.1 p.2) d n p.1 p.2 borrow

/-- Resident waves of a domain on a core: on a split core those of both halves (log entry 45). -/
def State.domWaves (s : State) (d c : Nat) : Nat :=
  (s.groups.filter fun g => g.st == .resident && g.dom == d && g.core == c).foldl (fun n g => n + g.liveWaves.length) 0

/-- The first entry of a list with the least measure. -/
def leastBy {A : Type} (f : A → Nat) : List A → Option A
  | [] => none
  | x :: r => match leastBy f r with | some y => if f y < f x then some y else some x | none => some x

/-- The class at which a launch places its groups (06 R174). -/
def Launch.placeClass (l : Launch) : Nat := if l.background then 3 else l.cls

/-! ### Lanes and waves at a group's start -/

/-- Bytes of a parameter in the argument buffer: its place is aligned (03 R88). -/
def paramAlign (t : Ty) : Nat := if t = .lay then 4 else min 8 (max 1 t.size)

/-- The values of a kernel's parameters from the bytes of its argument buffer (03 R88). -/
def paramVals (bs : List Byte) : List Ty → Nat → List TVal
  | [], _ => []
  | t :: r, o =>
    let o := (o + paramAlign t - 1) / paramAlign t * paramAlign t
    ⟨t, ofU t.width (leNat ((bs.drop o).take t.size))⟩ :: paramVals bs r (o + t.size)

/-- The innermost frame at the start of a function whose parameters have the given values. -/
def startFrame (f : Func) (vs : List TVal) : Frame :=
  (bindVals ((f.blocks.headD ⟨0, [], 0⟩).val0) vs ⟨f.sym, 0, []⟩)
where
  /-- Binds values to value numbers from n on. -/
  bindVals (n : Nat) : List TVal → Frame → Frame
    | [], f => f
    | v :: r, f => bindVals (n + 1) r (f.define n v)

/-- The first physical byte of a slice by its register's offset (22 R472). -/
def sliceBase (off : Nat) : Nat := if off < 0x11000 then (off - 0x10000) / 8 * 2 ^ 30 else 2 ^ 40 + (off - 0x11000) / 8 * 2 ^ 30

/-- SPB of wave w of a group: a place of its own choice in the domain's memory (15 R344; log entry 27). -/
def State.spillBase (s : State) (d gid w : Nat) : Nat :=
  let mine := s.pregs.filter fun (k, v) => 0x10000 ≤ k && k < 0x15000 && field v 7 1 == 1 && field v 0 7 == d
  let base := match mine with | (k, _) :: _ => sliceBase k | [] => 0
  base + (Config.spillBase d gid w).toNat % ((2 ^ 30 - 128 * 33280) / 128) * 128

/-- A lane at its start. -/
def freshLane (st : LaneSt) (helper : Bool) (frames : List Frame) (rng : Rng) : Lane :=
  { st, helper, frames, flags := 0, rng, park := .none, ejected := false, age := 0, gateVal := none }

/-- A wave at its start (05 R145, R163; 09 R230; 22 R473). -/
def freshWave (index : Nat) (lanes : List Lane) (vwin swin spb : Nat) : Wave :=
  { index, lanes, chosen := 0, lastHalf := 2, promoted := 0, holds := [], ejSets := [], dead := 0,
    watch := List.replicate 8 ⟨0, 0⟩, dbg := 0, trap := none, pendAct := none, stopAsked := false, stopped := false,
    frozen := false, issued := 0, waive := 0, ilk := false, vwin, swin, mwin := 8, spb, native := none, gond := [], gfault := none, replay := 0 }

/-- Lane i of wave w of a group with the given extent: live, a helper, or never started (05 R142, R166). -/
def startLane (w16 : Bool) (extent lin : Nat) (frames : List Frame) (w i : Nat) : Lane :=
  let k := if w16 then (2 * w + i / 16) * 16 + i % 16 else 32 * w + i
  let rng := rngSeed 0 lin k
  if k < extent then freshLane .live false frames rng
  else if k / 4 * 4 < extent then freshLane .live true frames rng
  else freshLane .never false [] rng

/-- A group of a launch at its start in the room found for it (05 R139 to R142; 09 R219; 12 R282). -/
def makeGroup (s : State) (gid : Nat) (l : Launch) (f : Func) (lin : Nat) (r : Room) (troupe : Option (Nat × Nat)) : Group :=
  let fr := startFrame f (paramVals l.args (f.blocks.headD ⟨0, [], 0⟩).args 0)
  let n := hdrSlots f.hdr
  { gid, dom := l.dom, launch := l.id, lin, gx := lin % l.gridx, gy := lin / l.gridx % l.gridy, gz := lin / (l.gridx * l.gridy),
    modH := l.modH, kernel := l.kernel, hdr := f.hdr, core := r.core, half := r.half, slot := 0, nslots := n, st := .resident,
    waves := (List.range n).map fun w =>
      freshWave w ((List.range 32).map fun i => startLane (field f.hdr 0 1 == 1) l.extent lin [fr] w i) r.vwin r.swin (s.spillBase l.dom gid w),
    handles := List.replicate 32 Handle.none, watch := List.replicate 16 ⟨0, 0⟩, bank := r.bank, nbanks := field f.hdr 18 6,
    lease := none, troupe, gate := none, borrowed := r.borrowed, cls := l.placeClass, why := .none, stopBy := 0, saves := 0 }

/-! ### Freeing what a group holds -/

/-- Zeroes the allocation of a group with its tags (09 R219). -/
def clearSpad (g : Group) (s : State) : State :=
  if g.st = .resident then s.zeroRange (spadKey g.core (g.bank * 65536)) (g.nbanks * 65536)
  else s.zeroRange (savedKey g.gid 0) (g.nbanks * 65536)

/-- Takes the group's commands' locks off a core's table (12 R287; 17 R391). -/
def dropLocks (cmds : List Nat) (c : Nat) (s : State) : State :=
  s.modCore c fun k => { k with rlt := k.rlt.filter fun r => !cmds.contains r.cmd }

/-- Whether every wave of a group has stopped. -/
def Group.allStopped (g : Group) : Bool := g.waves.all (·.stopped)

/-- Whether a group stands on its core and its save is in progress. -/
def Group.inSave (g : Group) : Bool := g.st == .resident && g.why != .none && g.allStopped

/-- The request that a core serves after a save: the highest class, then the earliest; one whose groups have all left the core is
passed over (06 R181). -/
def serveNext (core : Nat) (s : State) : State :=
  let live := (s.coreSt core).preempt.filter fun r => r.2.2.any fun i =>
    match s.group? i with | some g => g.st == .resident && g.core == core && g.why == .none | none => false
  match leastBy (fun r : Nat × Nat × List Nat => r.1) live with
  | none => s.modCore core fun k => { k with preempt := [] }
  | some r =>
    let (cls, dom, gids) := r
    (s.modCore core fun k => { k with preempt := live.erase r }).due (.stopRequest dom gids cls)

/-- A save on a core has ended: the next request is served (06 R181). -/
def endSave (core : Nat) (s : State) : State := serveNext core (s.modCore core fun k => { k with saving := false })

/-- A group leaves the machine: its allocation, lease, slots and waves, and a save of it that was in progress (05 R162; 06 R181;
12 R299; 13 R317). -/
def removeGroup (g : Group) (s : State) : State :=
  let s := clearSpad g (if g.st = .resident then dropLease g s else s)
  let s := { s with groups := s.groups.filter fun x => x.gid != g.gid }
  if g.inSave then endSave g.core s else s

/-- Whether a group's commands have all pushed (13 R317). -/
def State.quiet (s : State) (gid : Nat) : Bool := s.cmds.all fun c => c.gid != gid

end Sys2Proof.Machine
end

