-- ==== Sys2Proof/Machine/Launch.lean ====
section
/-! DEFINITION. The command processor: queues, admission, budgets, counters, placement and completion (06 R169 to R184). -/
namespace Sys2Proof.Machine

/-! ### Reports of the CP (06 R170, R172, R177) -/

/-- A report of a failed access by the CP, with LAUNCH. -/
def cpReport (d : Nat) (f : FaultInfo) (addr : DWord) (launch : Word) (s : State) : State :=
  postReport d { report f.code d addr with launch } s

/-- Whether the interface of a domain is in ERROR: the CP then does nothing for it (22 R491). -/
def State.inError (s : State) (d : Nat) : Bool := (s.dom d).ifstate == .error

/-- A write by the CP; a failure is reported, with the address given, and changes nothing else. -/
def cpWriteAt (d : Nat) (p : DWord) (bs : List Byte) (launch : Word) (addr : DWord) (s : State) : State :=
  if s.inError d then s
  else
  match s.devWrite d p bs bs.length with
  | .ok s => s
  | .error f => cpReport d f addr launch s

/-- A write by the CP; a failure is reported with its own address. -/
def cpWrite (d : Nat) (p : DWord) (bs : List Byte) (launch : Word) (s : State) : State := cpWriteAt d p bs launch p s

/-- LAUNCH of entry n of queue q (17 R380). -/
def entryWord (q n : Nat) : Word := BitVec.ofNat 32 (q % 32 + 32 * (n % 2 ^ 27))

/-- A pointer moved by n bytes. -/
def cpPtr (p : DWord) (n : Nat) : DWord := ptrWith p (ptrAddr p + n)

/-- A write of STATUS of the launch descriptor in a ring slot: a failure is reported with the slot's address (06 R172). -/
def statusWrite (d : Nat) (slot : DWord) (v : Nat) (launch : Word) (s : State) : State :=
  cpWriteAt d (cpPtr slot 4) (leBytes 4 v) launch slot s

/-! ### Queues (06 R169, R170) -/

/-- The address of the descriptor of queue q. -/
def State.queueAddr (s : State) (d q : Nat) : DWord := cpPtr (s.dreg d 0x108) (64 * q)

/-- The fields of a queue descriptor. -/
structure QDesc where
  ring : DWord
  logn : Nat
  cls : Nat
  enable : Bool
  state : Nat
  wridx : Nat
  rdidx : Nat
  /-- reserved bits and bytes are 0 -/
  clean : Bool
  deriving DecidableEq, Repr

/-- A number from bytes [o, o + n). -/
def bytesAt (bs : List Byte) (o n : Nat) : Nat := leNat ((bs.drop o).take n)

/-- The descriptor in 64 bytes. -/
def qdesc (b : List Byte) : QDesc :=
  ⟨BitVec.ofNat 64 (bytesAt b 0 8), bytesAt b 8 1, bytesAt b 9 1, bytesAt b 10 1 % 2 == 1, bytesAt b 11 1, bytesAt b 16 8,
    bytesAt b 24 8, bytesAt b 10 1 / 2 == 0 && bytesAt b 12 4 == 0 && bytesAt b 32 16 == 0 && bytesAt b 48 16 == 0⟩

/-- Entries written and neither admitted nor rejected, modulo 2^64. -/
def QDesc.pending (x : QDesc) : Nat := (x.wridx + 2 ^ 64 - x.rdidx) % 2 ^ 64

/-- The checks of 06 R170. -/
def QDesc.ok (x : QDesc) : Bool :=
  decide (4 ≤ x.logn) && decide (x.logn ≤ 16) && decide (x.cls ≤ 3) && x.clean && decide (x.pending ≤ 2 ^ x.logn)

/-- The CP's view of a queue. -/
def State.queue (s : State) (d q : Nat) : Queue := (s.dom d).queues.getD q ⟨false, 0, 0, 0, 0, 0, 0, false, false, none⟩

/-- Changes the CP's view of a queue. -/
def State.modQueue (d q : Nat) (f : Queue → Queue) (s : State) : State :=
  s.modDom d fun x => { x with queues := modNth f x.queues q }

/-- Sets STATE of a queue, in the view and in its descriptor. -/
def setQState (d q st : Nat) (s : State) : State :=
  cpWrite d (cpPtr (s.queueAddr d q) 11) [BitVec.ofNat 8 st] (entryWord q 0) (s.modQueue d q fun x => { x with state := st })

/-- The queue enters STATE 2 (06 R170, R173; 22 R475). -/
def haltQueue (d q : Nat) (s : State) : State := setInt d 4 (setQState d q 2 (s.modQueue d q fun x => { x with waiting := false, head := none }))

/-- Reads the descriptor of a queue (06 R169). -/
def State.readQueue (s : State) (d q : Nat) : Except FaultInfo QDesc :=
  match s.devRead d (s.queueAddr d q) 64 64 with
  | .ok bs => .ok (qdesc bs)
  | .error f => .error f

/-- What a doorbell does (06 R169, R170). -/
def ring (d q : Nat) (s : State) : State :=
  match s.readQueue d q with
  | .error f => cpReport d f (s.queueAddr d q) (BitVec.ofNat 32 q) s
  | .ok x =>
    let view := fun (st : Nat) => s.modQueue d q fun y =>
      { y with enabled := x.enable, wridx := x.wridx, rdidx := x.rdidx, cls := x.cls, ring := x.ring, logn := x.logn, state := st }
    if x.state = 2 then
      -- a halted queue leaves STATE 2 at a read that finds ENABLE 0
      if x.enable then view 2 else setQState d q 0 (view 0)
    else if !x.ok then haltQueue d q (view 0)
    else if x.enable && decide (0 < x.pending) then (setQState d q 1 (view 1)).due (.admission d q)
    else setQState d q 0 (view 0)

/-- DOORBELL (06 R170; 22 R476): a domain that is paused or descheduled latches it. -/
def execDoorbell (dom q : Nat) (s : State) : Out :=
  if 32 ≤ q ∨ !s.domValid dom ∨ s.inError dom then .next s
  else if s.withheld dom then .next (s.modDom dom fun x => { x with latched := sadd x.latched q })
  else .next (ring dom q s)

/-! ### Admission (06 R171 to R174) -/

/-- The fields of a launch descriptor. -/
structure LDesc where
  ctrl : Nat
  modH : Nat
  kernel : Nat
  gridx : Nat
  gridy : Nat
  gridz : Nat
  extent : Nat
  args : DWord
  cost : Nat
  resv : Nat
  waits : List (DWord × DWord)
  sigAddr : DWord
  sigInc : DWord
  deriving DecidableEq, Repr

/-- The descriptor in 128 bytes. -/
def ldesc (b : List Byte) : LDesc :=
  ⟨bytesAt b 0 4, bytesAt b 8 4, bytesAt b 12 4, bytesAt b 16 4, bytesAt b 20 4, bytesAt b 24 4, bytesAt b 28 4,
    BitVec.ofNat 64 (bytesAt b 32 8), bytesAt b 40 4, bytesAt b 44 4,
    (List.range 4).map fun i => (BitVec.ofNat 64 (bytesAt b (48 + 16 * i) 8), BitVec.ofNat 64 (bytesAt b (56 + 16 * i) 8)),
    BitVec.ofNat 64 (bytesAt b 112 8), BitVec.ofNat 64 (bytesAt b 120 8)⟩

/-- KIND and BARRIER of CTRL. -/
def LDesc.marker (x : LDesc) : Bool := x.ctrl % 4 == 1
def LDesc.barrier (x : LDesc) : Bool := x.ctrl / 4 % 2 == 1

/-- The kernel that a descriptor names: a global kernel of a loaded module (06 R172, R184). -/
def State.kernelOf (s : State) (d : Nat) (x : LDesc) : Option Func :=
  match s.module? d x.modH with
  | some m => if m.unloading then none else (m.func? x.kernel).bind fun f => if f.kernel && f.global then some f else none
  | none => none

/-- The greatest extent of a kernel (06 R171). -/
def maxExtent (hdr : DWord) : Nat := (field hdr 9 5 + 1) * (if field hdr 0 1 = 1 then 16 else 32)

/-- Whether the CP may add to a counter (06 R172). -/
def State.counterOk (s : State) (d : Nat) (p : DWord) : Bool :=
  match s.checkParts (Who.device d) [⟨p, 8, true, true, 8, true, false⟩] with
  | .ok _ => true
  | .error _ => false

/-- Whether a domain may read n bytes. -/
def State.readable (s : State) (d : Nat) (p : DWord) (n align : Nat) : Bool :=
  match s.devRead d p n align with
  | .ok _ => true
  | .error _ => false

/-- Whether a core of the partition could hold a group, or a cluster of it a troupe (06 R178, R179). -/
def State.everFits (s : State) (d : Nat) (hdr : DWord) (groups : Nat) : Bool :=
  let n := needOf hdr
  let ps := (s.placesOf (s.partOf d)).filter fun p => s.fitsEmpty d n p.1 p.2
  let t := min (field hdr 14 4) groups
  if t ≤ 1 then !ps.isEmpty
  else ps.any fun p => t ≤ (ps.filter fun q => clusterOf q.1 == clusterOf p.1).foldl (fun k q => k + groupsHeld s d n q) 0
where
  /-- Groups of a need that an empty core or half holds at once. -/
  groupsHeld (s : State) (d : Nat) (n : Need) (p : Nat × Nat) : Nat :=
    match s.dprOf p.1 p.2 d with
    | none => 0
    | some e =>
      let x := s.share p.1 e
      let a := min (min x.slots (s.coreSlots p.1) / max 1 n.slots) (min (x.vregs / (16 * max 1 n.slots)) (x.sregs / (16 * max 1 n.slots)))
      if n.banks = 0 then a else min a (runsApart n.banks (s.bankStarts p.1 x n.banks) 0)
  /-- Runs of n banks that do not meet, among ascending first banks from `lo` on. -/
  runsApart (n : Nat) : List Nat → Nat → Nat
    | [], _ => 0
    | b :: r, lo => if lo ≤ b then runsApart n r (b + n) + 1 else runsApart n r lo

/-- The rejection code of a descriptor, or none (06 R172). -/
def State.rejection (s : State) (d : Nat) (cls : Nat) (x : LDesc) : Option Nat :=
  let grid := x.gridx * x.gridy * x.gridz
  let badCounter := x.waits.any (fun (p, _) => p != 0 && !s.readable d p 8 8) || (x.sigAddr != 0 && !s.counterOk d x.sigAddr)
  if 2 ≤ x.ctrl % 4 ∨ x.ctrl / 8 ≠ 0 ∨ x.resv ≠ 0 then some 8
  else if x.marker then (if badCounter then some 11 else none)
  else if grid = 0 ∨ 2 ^ 32 < grid then some 8
  else
    match s.kernelOf d x with
    | none => some 9
    | some f =>
      if x.extent = 0 ∨ maxExtent f.hdr < x.extent then some 8
      else if !s.everFits d f.hdr grid then some 10
      else if badCounter then some 11
      else if field f.hdr 24 12 ≠ 0 ∧ !s.readable d x.args (8 * field f.hdr 24 12) 8 then some 12
      else if ((s.dom d).budgets.getD cls ⟨0, 0, 0⟩).total < x.cost then some 13
      else none

/-- The launch status word (06 R172). -/
def Launch.status (l : Launch) : Nat := l.code + 256 * l.late.toNat + 512 * l.overrun.toNat + 1024 * l.killed.toNat

/-- The ring slot of a launch's descriptor. -/
def Launch.slot (l : Launch) : DWord := cpPtr l.statusAddr (2 ^ 56 - 4)

/-- Writes the status word of a launch. -/
def writeLaunch (l : Launch) (s : State) : State := statusWrite l.dom l.slot l.status l.word s

/-- STATUS of launches of which a step has killed a lane for the first time (06 R173). -/
def writeKilled (before : List Launch) (s : State) : State :=
  before.foldl (fun s l =>
    match s.launch? l.id with
    | some x => if x.killed && !l.killed then writeLaunch x s else s
    | none => s) s

/-- Whether the wait entries of a launch are met (06 R176). -/
def Launch.ready (l : Launch) : Bool := l.waits.all fun (p, _, m) => m || p == 0

/-- Groups of a launch. -/
def Launch.total (l : Launch) : Nat := if l.marker then 0 else l.gridx * l.gridy * l.gridz

/-- The launch that an admitted descriptor becomes. -/
def LDesc.launch (x : LDesc) (id d q n cls : Nat) (slot : DWord) (args : List Byte) (now : Nat) : Launch :=
  { id, dom := d, queue := q, ring := n, cls, marker := x.marker, modH := x.modH, kernel := x.kernel, gridx := x.gridx,
    gridy := x.gridy, gridz := x.gridz, extent := x.extent, args, cost := if x.marker then 0 else x.cost,
    waits := x.waits.map fun (p, v) => (p, v, false), sigAddr := x.sigAddr, sigInc := x.sigInc, barrier := x.barrier,
    statusAddr := cpPtr slot 4, code := 1, late := false, overrun := false, killed := false, next := 0, ended := 0, used := 0, charged := 0,
    background := false, since := now }

/-- RDIDX passes the entry at the head; the next one is due when it stands and the queue is not halted. -/
def passEntry (d q : Nat) (s : State) : State :=
  let y := s.queue d q
  let s := s.modQueue d q fun y => { y with rdidx := (y.rdidx + 1) % 2 ^ 64, waiting := false, head := none }
  let s := cpWrite d (cpPtr (s.queueAddr d q) 24) (leBytes 8 ((y.rdidx + 1) % 2 ^ 64)) (entryWord q y.rdidx) s
  if y.state = 2 then s
  else if (y.rdidx + 1) % 2 ^ 64 = y.wridx then setQState d q 0 s
  else s.due (.admission d q)

/-- Takes COST off the remaining budget of a class (06 R174). -/
def spend (d cls n : Nat) (s : State) : State :=
  s.modDom d fun x => { x with budgets := modNth (fun b => { b with left := b.left - n }) x.budgets cls }

/-- The place of a counter of a domain. -/
def State.counterPlace (s : State) (d : Nat) (p : DWord) : Option Nat :=
  match s.checkParts (Who.device d) [Part.read p 8 8] with
  | .ok (x :: _) => some x.key
  | _ => none

/-- Whether a wait entry is met now: its counter can be read and has reached the value. -/
def State.waitMet (s : State) (d : Nat) (p v : DWord) : Bool :=
  match s.devRead d p 8 8 with
  | .ok bs => decide (v.toNat ≤ leNat bs)
  | .error _ => false

/-- The counter's value at a place. -/
def State.counterAt (s : State) (k : Nat) : DWord := BitVec.ofNat 64 (leNat (s.bytes 8 k))

/-- Whether the CP has observed the value that a counter holds now (06 R176). -/
def State.observed (s : State) (d : Nat) (p : DWord) : Bool :=
  match s.counterPlace d p with
  | some k => mget 0 s.cpSeen k == s.counterAt k
  | none => false

/-- The wait entries of a descriptor at its admission: one is met where the CP has observed that its counter reached the value. A
change by neither a signal nor `ccadd` may stand before or after the CP's last poll: a free bit says which (06 R176, R184; log entry
45). -/
def admitWaits (d : Nat) : List (DWord × DWord) → State → List (DWord × DWord × Bool) × State
  | [], s => ([], s)
  | (p, v) :: r, s =>
    let (b, s) :=
      if p = 0 ∨ !s.waitMet d p v then (false, s)
      else if s.observed d p then (true, s)
      else let (w, s) := s.fresh; (w.getLsbD 0, s)
    let (ws, s) := admitWaits d r s
    ((p, v, b) :: ws, s)

/-- Whether the entries of a queue before an entry have all completed (06 R171). -/
def State.earlierDone (s : State) (d q n : Nat) : Bool := s.launches.all fun l => !(l.dom == d && l.queue == q && l.ring != n)

/-- Admits a descriptor: budget, argument copy, STATUS 1, and the launch (06 R174). -/
def admitLaunch (d q n : Nat) (slot : DWord) (x : LDesc) (s : State) : State :=
  let cls := (s.queue d q).cls
  let args := match s.kernelOf d x with
    | some f => if x.marker then [] else (match s.devRead d x.args (8 * field f.hdr 24 12) 8 with | .ok bs => bs | .error _ => [])
    | none => []
  let (id, s) := s.newId
  let (ws, s) := admitWaits d x.waits s
  let l := { x.launch id d q n cls slot args s.now with waits := ws }
  let s := spend d cls l.cost { s with launches := s.launches ++ [l] }
  let s := passEntry d q (writeLaunch l s)
  if l.ready && l.marker then s.due (.launchComplete id) else s

/-- The descriptor at the head of a queue: as the CP has read it, or read now, whole (06 R171). -/
def State.headOf (s : State) (d q : Nat) : Except FaultInfo (List Byte) :=
  let y := s.queue d q
  let slot := cpPtr y.ring (128 * (y.rdidx % 2 ^ y.logn))
  match y.head with
  | some (n, p, bs) => if n = y.rdidx ∧ p = slot then .ok bs else s.devRead d slot 128 128
  | none => s.devRead d slot 128 128

/-- ADMISSION (06 R171 to R174): the entry at the head of a queue is admitted, rejected, or waits for a budget refill or, with
BARRIER set, for the earlier entries. The checks that reject an entry are made when it is read, before the earlier entries of a
BARRIER entry have completed (DESIGN CHOICE, log entry 45). -/
def execAdmission (dom q : Nat) (s : State) : Out :=
  let y := s.queue dom q
  if !y.enabled ∨ y.state = 2 ∨ y.rdidx = y.wridx ∨ (s.dom dom).paused ∨ !s.domValid dom ∨ s.inError dom then .next s
  else
    let n := y.rdidx
    let slot := cpPtr y.ring (128 * (n % 2 ^ y.logn))
    match s.headOf dom q with
    | .error f => .next (cpReport dom f slot (entryWord q n) (haltQueue dom q s))
    | .ok bs =>
      let x := ldesc bs
      let t := s.modQueue dom q fun y => { y with head := some (n, slot, bs) }
      match s.rejection dom y.cls x with
      | some code => .next (passEntry dom q (haltQueue dom q (statusWrite dom slot code (entryWord q n) t)))
      | none =>
        if x.barrier && !s.earlierDone dom q n then .next t
        else if !x.marker && decide (((s.dom dom).budgets.getD y.cls ⟨0, 0, 0⟩).left < x.cost) then
          .next (t.modQueue dom q fun y => { y with waiting := true })
        else .next (admitLaunch dom q n slot x t)

/-- BUDGET_WINDOW_REFILL (06 R174): at each window every class has its budget again, less what overruns are charged, and the
waiting entries are tested again. -/
def execBudgetWindowRefill (s : State) : Out :=
  let refill := fun (b : Budget) => (⟨b.total, b.total - min b.owed b.total, b.owed - min b.owed b.total⟩ : Budget)
  let s := s.doms.foldl (fun s p => s.modDom p.1 fun x => { x with budgets := x.budgets.map refill }) s
  .next (s.doms.foldl (fun s p =>
    (List.range 32).foldl (fun s q => if (s.queue p.1 q).waiting then s.due (.admission p.1 q) else s) s) s)

/-- What the CP measures of a launch: its waves' residency in wave-slot microseconds, a started one counted whole (log entry 45). -/
def Launch.measured (l : Launch) : Nat := (l.used + 999) / 1000

/-- What a launch has used beyond its COST. -/
def Launch.excess (l : Launch) : Nat := if l.marker then 0 else l.measured - l.cost

/-- Charges what a launch has used beyond its COST and is not charged for yet: to the next windows of its class, with OVERRUN set,
and its groups still unplaced are background (06 R174). -/
def chargeOverrun (launch : Nat) (s : State) : State :=
  match s.launch? launch with
  | none => s
  | some l =>
    if l.excess ≤ l.charged then s
    else
      let l' := { l with charged := l.excess, overrun := true, background := true }
      let s := s.modDom l.dom fun x => { x with budgets := modNth (fun b => { b with owed := b.owed + (l.excess - l.charged) }) x.budgets l.cls }
      let s := s.modLaunch launch fun _ => l'
      if l.overrun then s else writeLaunch l' s

/-- LAUNCH_OVERRUN (06 R174): the CP finds that a launch's residency, the number of wave-slot microseconds given, exceeds its COST. A
number that is not the launch's measurement names no event. -/
def execLaunchOverrun (launch measured : Nat) (s : State) : Out :=
  match s.launch? launch with
  | some l => .next (if l.measured = measured then chargeOverrun launch s else s)
  | none => .next s

/-! ### Completion counters (06 R175, R176) -/

/-- Tests the unmet wait entries of a launch, all of them or those on one counter. -/
def State.observe (s : State) (only : Option Nat) (l : Launch) : Launch :=
  if l.ready then l
  else
    let ws := l.waits.map fun (p, v, m) =>
      (p, v, m || (p != 0 && (match only with | some k => s.counterPlace l.dom p == some k | none => true) && s.waitMet l.dom p v))
    let l' := { l with waits := ws }
    if l'.ready then { l' with since := s.now } else l'

/-- The places of the counters that a launch waits for. -/
def State.waitPlaces (s : State) (l : Launch) : List Nat :=
  l.waits.filterMap fun (p, _, _) => if p = 0 then none else s.counterPlace l.dom p

/-- The CP notes the values of counters: of one, or of all that launches wait for. -/
def noteCounters (only : Option Nat) (s : State) : State :=
  let ks := match only with
    | some k => [k]
    | none => s.launches.flatMap s.waitPlaces
  { s with cpSeen := ks.foldl (fun m k => mset 0 m k (s.counterAt k)) s.cpSeen }

/-- The CP observes counters: launches whose entries are now met go on (06 R176). -/
def observeCounters (only : Option Nat) (s : State) : State :=
  let s := noteCounters only s
  let t := { s with launches := s.launches.map (s.observe only) }
  t.launches.foldl (fun t l => if l.marker && l.ready then t.due (.launchComplete l.id) else t) t

/-- COUNTER_POLL (06 R176). -/
def execCounterPoll (s : State) : Out := .next (observeCounters none s)

/-- The start bound of a class in nanoseconds (06 R175). -/
def startBound (cls : Nat) : Nat :=
  if cls = 0 then 50000 else if cls = 1 then 500000 else if cls = 2 then 20000000 else 1000000000

/-- The first wave of a launch issues its first bundle: STATUS 2, and LATE where the start bound has passed (06 R172, R175). -/
def launchStarts (i : Nat) (s : State) : State :=
  match s.launch? i with
  | none => s
  | some l =>
    if l.code ≠ 1 then s
    else
      let l' := { l with code := 2, late := l.late || decide (l.since + startBound l.cls < s.now) }
      writeLaunch l' (s.modLaunch i fun _ => l')

/-! ### Pre-emption for placement (06 R175, R180) -/

/-- Whether a class may pre-empt another (06 R175). -/
def mayPreempt (a b : Nat) : Bool := decide (a ≤ 1) && decide (a < b)

/-- Whether a group is being pre-empted. -/
def Group.leaving (g : Group) : Bool := match g.why with | .preempt _ => true | _ => false

/-- Groups of a core or half that a launch of domain d and class cls may pre-empt, or that already leave: borrowed ones of other
domains, and those of its own domain of a lower class (06 R180). No launch pre-empts a gate context (log entry 25). -/
def State.victims (s : State) (d cls c h : Nat) : List Group :=
  (s.residentOn c h).filter fun g =>
    (g.why == .none || g.leaving) && g.gate.isNone && ((g.dom != d && g.borrowed) || (g.dom == d && mayPreempt cls g.cls))

/-- The first place where a group fits once the victims have left, with the victims: all of that core or half, even where fewer
would make room (DESIGN CHOICE, log entry 45). -/
def State.preemptPlan (s : State) (d cls : Nat) (n : Need) : List (Nat × Nat) → Option (List Group)
  | [] => none
  | (c, h) :: r =>
    let vs := s.victims d cls c h
    let rest := (s.residentOn c h).filter fun g => !vs.any fun v => v.gid == g.gid
    let t := { s with groups := s.groups.filter fun g => !vs.any fun v => v.gid == g.gid }
    if !vs.isEmpty && (t.roomBeside rest d n c h false).isSome then some vs else s.preemptPlan d cls n r

/-! ### Placing groups (06 R178 to R180) -/

/-- Whether a launch may place its next group now: its entries are met, groups remain, its domain runs, and no saved group of
it waits for placement (06 R176, R180; 20 R433). -/
def State.placing (s : State) (l : Launch) : Bool :=
  l.ready && !l.marker && decide (l.next < l.total) && !(s.dom l.dom).paused && s.domValid l.dom && !s.inError l.dom &&
  s.groups.all fun g => !(g.launch == l.id && g.st == .saved && g.why == .none)

/-- The domain and the need of a launch or a saved group that waits for room; none where it no longer does. -/
def State.asker (s : State) (id : Nat) : Option (Nat × Need) :=
  match s.launch? id with
  | some l => if s.placing l then ((s.module? l.dom l.modH).bind (·.func? l.kernel)).map fun f => (l.dom, needOf f.hdr) else none
  | none =>
    match s.group? id with
    | some g => if g.st = .saved ∧ g.why = .none ∧ !(s.dom g.dom).paused then some (g.dom, g.need) else none
    | none => none

/-- Whether groups of a core's half are leaving, or are named by a pre-emption request that waits there. -/
def State.clearing (s : State) (c h : Nat) : Bool :=
  let gs := s.residentOn c h
  gs.any Group.leaving || (s.coreSt c).preempt.any fun r => r.2.2.any fun i => gs.any fun g => g.gid == i

/-- The requests that stand on a core's half, in order of arrival: class, identifier and domain of those for which groups still
leave, or for which the room they left is there (06 R180, R181). -/
def State.standing (s : State) (c h : Nat) : List (Nat × Nat × Nat) :=
  (s.coreSt c).asked.filterMap fun (cls, k, id) =>
    match s.asker id with
    | some (d, n) => if k = h ∧ (s.clearing c h ∨ (s.roomOn d n false (c, h)).isSome) then some (cls, id, d) else none
    | none => none

/-- Whether room on a core's half is kept from a launch or saved group by a request that stands there. Of the requests the one of
the highest class, then the earliest, comes first (06 R181); none may borrow there before them; and of the same domain only a higher
class may use the domain's own slots (06 R180; log entry 45). -/
def State.barred (s : State) (d cls id : Nat) (borrow : Bool) (p : Nat × Nat) : Bool :=
  let rs := s.standing p.1 p.2
  match leastBy (fun r : Nat × Nat × Nat => r.1) rs with
  | none => false
  | some r => r.2.1 != id && (rs.any (fun q => q.2.1 == id) || borrow || rs.any fun q => q.2.2 == d && decide (q.1 ≤ cls))

/-- The room that the CP takes for a group among some places, for a domain, class and identifier: on the domain's own slots of any
place before borrowed ones (DESIGN CHOICE, log entry 45), and of several cores the one with the fewest waves of the domain; of two
halves of one core half 0 first (06 R178, R180). -/
def State.findRoom (s : State) (d cls id : Nat) (n : Need) (ps : List (Nat × Nat)) : Option Room :=
  let on := fun (borrow : Bool) => leastBy (fun r : Room => s.domWaves d r.core)
    (ps.filterMap fun p => if s.barred d cls id borrow p then none else s.roomOn d n borrow p)
  match on false with
  | some r => some r
  | none => on true

/-- The victims of a plan that are not asked to leave yet. -/
def State.unasked (s : State) (vs : List Group) : List Group :=
  vs.filter fun g => g.why == .none && !((s.coreSt g.core).preempt.any fun r => r.2.2.contains g.gid)

/-- Whether a pre-emption plan asks for something new. -/
def State.newPlan (s : State) (id : Nat) (vs : List Group) : Bool :=
  match vs with
  | [] => false
  | v :: _ => !((s.coreSt v.core).asked.any fun r => r.2 == (v.half, id)) || !(s.unasked vs).isEmpty

/-- A request to pre-empt groups of one core's half for a launch or a saved group; they are asked domain by domain (06 R180). -/
def requestPreempt (cls id : Nat) (vs : List Group) (s : State) : State :=
  match vs with
  | [] => s
  | v :: _ =>
    let gs := s.unasked vs
    let s := s.modCore v.core fun k =>
      { k with asked := (k.asked.filter fun r => (s.asker r.2.2).isSome && r.2 != (v.half, id)) ++
                 (match k.asked.find? fun r => r.2 == (v.half, id) with | some r => [r] | none => [(cls, v.half, id)]) }
    (gs.map (·.dom)).eraseDups.foldl (fun s d => s.due (.stopRequest d ((gs.filter fun g => g.dom == d).map (·.gid)) cls)) s

/-- Puts a group of a launch into the room found for it. -/
def putGroup (l : Launch) (f : Func) (lin : Nat) (troupe : Option (Nat × Nat)) (r : Room) (s : State) : State :=
  let (gid, s) := s.newId
  let g := makeGroup s gid l f lin r troupe
  { s with groups := s.groups ++ [g] }

/-- PLACE_GROUP (06 R178, R180): the next group of a launch that forms no troupe is placed; where no core has room, the groups
that its class may pre-empt are asked to stop. -/
def execPlaceGroup (launch : Nat) (s : State) : Out :=
  match s.launch? launch with
  | none => .next s
  | some l =>
    match (s.module? l.dom l.modH).bind (·.func? l.kernel) with
    | none => .next s
    | some f =>
      if !s.placing l ∨ field f.hdr 14 4 ≠ 0 then .next s
      else
        let n := needOf f.hdr
        let ps := s.placesOf (s.partOf l.dom)
        match s.findRoom l.dom l.placeClass l.id n ps with
        | some r =>
          .next ((putGroup l f l.next none r s).modLaunch launch fun l => { l with next := l.next + 1 })
        | none =>
          match s.preemptPlan l.dom l.placeClass n ps with
          | some vs => .next (requestPreempt l.placeClass l.id vs s)
          | none => .next s

/-- Places n groups from linear index i on among some cores; none where one of them finds no room. -/
def putTroupe (l : Launch) (f : Func) (first n : Nat) (ps : List (Nat × Nat)) : Nat → State → Option State
  | 0, s => some s
  | k + 1, s =>
    match s.findRoom l.dom l.placeClass l.id (needOf f.hdr) ps with
    | none => none
    | some r => putTroupe l f first n ps k (putGroup l f (first + (n - (k + 1))) (some (first, n)) r s)

/-- The clusters of some places, ascending. -/
def clustersOf (ps : List (Nat × Nat)) : List Nat := (ps.map fun p => clusterOf p.1).eraseDups

/-- Resident waves of a domain on a cluster. -/
def State.clusterWaves (s : State) (d k : Nat) : Nat :=
  (s.groups.filter fun g => g.st == .resident && g.dom == d && clusterOf g.core == k).foldl (fun n g => n + g.liveWaves.length) 0

/-- PLACE_TROUPE (06 R179): the next troupe of a launch is placed on one cluster, or waits. -/
def execPlaceTroupe (launch : Nat) (s : State) : Out :=
  match s.launch? launch with
  | none => .next s
  | some l =>
    match (s.module? l.dom l.modH).bind (·.func? l.kernel) with
    | none => .next s
    | some f =>
      let t := min (field f.hdr 14 4) (l.total - l.next)
      if !s.placing l ∨ t = 0 then .next s
      else
        let ps := s.placesOf (s.partOf l.dom)
        let fits := (clustersOf ps).filterMap fun k =>
          (putTroupe l f l.next t (ps.filter fun p => clusterOf p.1 == k) t s).map fun u => (k, u)
        match leastBy (fun x : Nat × State => s.clusterWaves l.dom x.1) fits with
        | some (_, u) => .next (u.modLaunch launch fun l => { l with next := l.next + t })
        | none =>
          match s.preemptPlan l.dom l.placeClass (needOf f.hdr) ps with
          | some vs => .next (requestPreempt l.placeClass l.id vs s)
          | none => .next s

/-! ### Ends (06 R177; 13 R317) -/

/-- Whether the caller of a gate context still waits for it. -/
def State.gateAwaited (s : State) (g : Group) : Bool :=
  match g.gate with
  | none => false
  | some c =>
    match s.wave? c.caller c.wave with
    | some w => w.holds.any fun h => h.cond == .gateRun g.gid && h.mask != 0
    | none => false

/-- GROUP_END (13 R317; 05 R162; 06 R177; 20 R438): a group whose lanes have ended and whose commands have pushed leaves the
machine; a gate context that its caller awaits stays, ended, until the caller has read it. -/
def execGroupEnd (gid : Nat) (s : State) : Out :=
  match s.group? gid with
  | none => .next s
  | some g =>
    if !g.allEnded ∨ !s.quiet gid ∨ g.st = .ended ∨ g.inSave then .next s
    else if g.gate.isSome then
      if s.gateAwaited g then
        .next ((clearSpad g (if g.st = .resident then dropLease g s else s)).modGroup gid fun g => { g with st := .ended })
      else .next (removeGroup g s)
    else
      let s := (removeGroup g s).modLaunch g.launch fun l => { l with ended := l.ended + 1 }
      match s.launch? g.launch with
      | some l => .next (if l.ended = l.total then s.due (.launchComplete l.id) else s)
      | none => .next s

/-- The queues that wait for the earlier entries of one of their own to complete. -/
def wakeQueue (d q : Nat) (s : State) : State :=
  let y := s.queue d q
  if y.enabled && y.state != 2 && y.rdidx != y.wridx && !y.waiting then s.due (.admission d q) else s

/-- A module leaves the machine with its engines' control cores, and its translations are evicted with cause 2 (06 R184; 16 R367, R377). -/
def dropModule (d h : Nat) (s : State) : State :=
  let keep := fun (x : Nat × Nat × Rv) => !(x.1 == d && x.2.1 == h)
  let core := fun (k : CoreSt) => { k with fw := k.fw.filter keep }
  let cluster := fun (k : ClusterSt) => { k with fw := k.fw.filter keep }
  let s := { s with modules := s.modules.filter fun x => !(x.dom == d && x.handle == h) }
  let s := { s with cores := s.cores.map fun (u, k) => (u, core k), clusters := s.clusters.map fun (u, k) => (u, cluster k) }
  s.clusters.foldl (fun s (c, k) =>
    k.xlates.foldl (fun s x => if x.key.dom = d ∧ x.key.modH = h ∧ !x.retiring then s.due (.eviction c x.xid 2) else s) s) s

/-- LAUNCH_COMPLETE (06 R177): STATUS 3, then the signal, then what it lets happen. -/
def execLaunchComplete (launch : Nat) (s : State) : Out :=
  match s.launch? launch with
  | none => .next s
  | some l =>
    if !l.ready ∨ l.ended < l.total ∨ s.inError l.dom then .next s
    else
      let s := chargeOverrun launch s
      let l := { l with code := 3, overrun := l.overrun || decide (l.charged < l.excess) }
      let s := writeLaunch l { s with launches := s.launches.filter fun x => x.id != launch }
      let s :=
        if l.sigAddr = 0 then s
        else
          match s.addCounter l.dom l.sigAddr l.sigInc with
          | .ok s => observeCounters (s.counterPlace l.dom l.sigAddr) s
          | .error f => cpReport l.dom f l.sigAddr l.word s
      let s := wakeQueue l.dom l.queue s
      .next (match s.module? l.dom l.modH with
        | some m =>
          if m.unloading && !l.marker && s.launches.all (fun x => !(x.dom == l.dom && x.modH == l.modH && !x.marker)) then
            dropModule l.dom l.modH s
          else s
        | none => s)

end Sys2Proof.Machine
end

