-- ==== Sys2Proof/Machine/System.lean ====
section
/-! DEFINITION. The system instructions (20 R437 to R444): `spawn`, `ccwait`, `ccadd`, and call gates (20 R435 to R441). -/
namespace Sys2Proof.Machine

/-! ### `spawn` (20 R442) -/

/-- The CP places one launch for a lane: its status, and the state after. -/
def spawnOne (d q : Nat) (bs : List Byte) (s : State) : Nat × State :=
  if 32 ≤ q then (3, s)
  else
    match s.readQueue d q with
    | .error _ => (3, s)
    | .ok x =>
      if !x.ok then (3, haltQueue d q s)
      else if !x.enable ∨ x.state = 2 then (2, s)
      else if x.pending = 2 ^ x.logn then (1, s)
      else
        match s.devWrite d (cpPtr x.ring (128 * (x.wridx % 2 ^ x.logn))) (bs.take 4 ++ [0, 0, 0, 0] ++ bs.drop 8) 128 with
        | .error _ => (4, haltQueue d q s)
        | .ok t =>
          match t.devWrite d (cpPtr (s.queueAddr d q) 16) (leBytes 8 ((x.wridx + 1) % 2 ^ 64)) 8 with
          | .error _ => (4, haltQueue d q s)
          | .ok t => (0, ring d q t)

/-- The launches of the lanes in ascending order. -/
def spawnAll (d : Nat) : List (Nat × Nat × List Byte) → State → List (Nat × Nat) × State
  | [], s => ([], s)
  | (l, q, bs) :: r, s =>
    let (st, s) := spawnOne d q bs s
    let (rs, s) := spawnAll d r s
    ((l, st) :: rs, s)

/-- `spawn` (20 R442): every lane's descriptor is checked and read before the CP acts. -/
def execSpawn (q desc : Opnd) (s : State) : Out :=
  withRun s fun c =>
    let as := c.ordinary.filterMap fun l =>
      match evalOp s c l .i32 q, evalOp s c l .ptr desc with
      | some a, some p => some (l, a.toNat, p.extractLsb' 0 64)
      | _, _ => none
    if as.length ≠ c.ordinary.length then illegal c s
    else
      let check := fun (l : Nat) => match as.lookup l with
        | some (_, p) => s.checkParts (c.who l) [Part.read p 128 8]
        | none => .ok []
      match firstFault check c.ordinary with
      | some f => memRaise c f s
      | none =>
        let reqs := as.map fun (l, a, _) => (l, a, match check l with | .ok ps => s.readPlaces ps | .error _ => [])
        let (rs, s) := spawnAll c.g.dom reqs s
        .next (commit c (c.lanes.map fun l => c.give l (some ⟨.i32, ofU 32 ((rs.lookup l).getD 0)⟩)) s)

/-! ### `ccwait` and `ccadd` (20 R443, R444) -/

/-- The counters and values of the ordinary lanes, or none where an operand is undefined. -/
def ccArgs (s : State) (c : Ctx) (ctr v : Opnd) : List Nat → Option (List (Nat × DWord × DWord))
  | [] => some []
  | l :: r =>
    match evalOp s c l .ptr ctr, evalOp s c l .i64 v, ccArgs s c ctr v r with
    | some p, some x, some t => some ((l, p.extractLsb' 0 64, x.extractLsb' 0 64) :: t)
    | _, _, _ => none

/-- Whether lane l's counter has reached its value. -/
def counterMet (s : State) (w : Who) (p v : DWord) : Bool :=
  match s.checkParts w [Part.read p 8 8] with
  | .ok ps => !(ps.any fun x => s.unanswered x) && decide (v.toNat ≤ leNat (s.readPlaces ps))
  | .error _ => false

/-- `ccwait` (20 R443). -/
def execCcwait (_sc : Scope) (ctr v : Opnd) (s : State) : Out :=
  perRun s fun c s =>
    if c.released.isSome then .next (giveAll c none none s)
    else
      match ccArgs s c ctr v c.ordinary with
      | none => illegal c s
      | some as =>
        match firstFault (fun l => match as.lookup l with
            | some (p, _) => s.checkParts (c.who l) [Part.read p 8 8]
            | none => .ok []) c.ordinary with
        | some f => memRaise c f s
        | none =>
          let met := maskOf ((as.filter fun (l, p, x) => counterMet s (c.who l) p x).map (·.1))
          if as.all fun (l, _, _) => inMask met l then .next (giveAll c none none s)
          else .next (holdRun c c.iss.mask (.counters as) met s)

/-- `ccadd` (20 R444): the CP observes the change at once (06 R176). -/
def execCcadd (_sc : Scope) (ctr inc : Opnd) (s : State) : Out :=
  memInstr s (ptrVal s .i64 ctr inc) (fun a => [⟨a.1, 8, true, true, 8, true, false⟩]) fun c as s =>
    let (_, s) := rmwAll c .i64 (fun (a : DWord × Bits) old => some (atomNew .add .i64 a.2 old)) as s
    let s := commit c (as.map fun (l, _, _) => c.give l none) s
    as.foldl (fun s (_, _, q) => match q with
      | some (x :: _) => observeCounters (some x.key) s
      | _ => s) s

/-! ### Call gates (20 R435 to R441) -/

/-- GATE with its reason (20 R440). -/
def gateFault (c : Ctx) (l g reason : Nat) (s : State) : Out :=
  raise c (FaultInfo.plain 8 l (BitVec.ofNat 64 (g % 64 + 256 * reason))) s

/-- A gate table entry (20 R436). -/
structure GateEntry where
  flags : Nat
  target : Nat
  offer : Nat
  modH : Nat
  bufmax : Nat
  tlimit : Nat
  gbase : DWord
  /-- reserved fields are 0 -/
  clean : Bool
  deriving DecidableEq, Repr

/-- The entry in 32 bytes. -/
def gateEntry (b : List Byte) : GateEntry :=
  ⟨bytesAt b 0 1, bytesAt b 1 1, bytesAt b 2 1, bytesAt b 4 4, bytesAt b 8 4, bytesAt b 12 4, BitVec.ofNat 64 (bytesAt b 16 8),
    bytesAt b 3 1 == 0 && bytesAt b 24 8 == 0 && bytesAt b 0 1 / 8 == 0⟩

/-- Whether an entry is VALID with every field in its range (20 R436). -/
def GateEntry.ok (e : GateEntry) : Bool :=
  e.flags % 2 == 1 && e.clean && decide (1 ≤ e.target) && decide (e.target ≤ 64) && e.bufmax % 64 == 0 &&
  decide (e.bufmax ≤ 65536) && decide (1 ≤ e.tlimit) && decide (e.tlimit ≤ 1000) && field e.gbase 0 6 == 0

/-- The entry of gate g of a domain; none where it is not valid. -/
def State.gateOf (s : State) (d g : Nat) : Option GateEntry :=
  if 64 ≤ g then none
  else
    match s.devRead 0 (cpPtr (s.dreg d 0x1D0) (32 * g)) 32 8 with
    | .error _ => none
    | .ok bs => if (gateEntry bs).ok then some (gateEntry bs) else none

/-- What the target module offers: argument count and function. -/
def State.offerOf (s : State) (e : GateEntry) : Option (Nat × Func) :=
  match s.module? e.target e.modH with
  | none => none
  | some m =>
    match m.gates.find? fun (i, _, _) => i == e.offer with
    | none => none
    | some (_, argc, f) => (m.func? f).map fun f => (argc, f)

/-- Whether the target is available to a caller's group (20 R438). -/
def State.gateReady (s : State) (g : Group) (e : GateEntry) : Bool :=
  s.domValid e.target && !(s.dom e.target).paused && (s.dprOf g.core g.half e.target).isSome && (s.offerOf e).isSome

/-- IN and OUT of a direction. -/
def dirIn : GateDir → Bool
  | .dIn | .inout => true
  | _ => false
def dirOut : GateDir → Bool
  | .dOut | .inout => true
  | _ => false

/-- The operands of one lane of a `gatecall`. -/
structure GateArg where
  lane : Nat
  buf : DWord
  blen : Nat
  args : List Bits
  deriving DecidableEq, Repr

/-- The operands of the lanes, or none where one is undefined. -/
def gateArgs (s : State) (c : Ctx) (buf blen : Opnd) (args : List Opnd) : List Nat → Option (List GateArg)
  | [] => some []
  | l :: r =>
    match evalOp s c l .ptr buf, evalOp s c l .i32 blen, evalOps s c l (args.map fun a => (.i64, a)), gateArgs s c buf blen args r with
    | some b, some n, some as, some t => some (⟨l, b.extractLsb' 0 64, n.toNat, as⟩ :: t)
    | _, _, _, _ => none

/-- A part of a caller's buffer; an empty range has no byte to check. -/
def bufPart (wr : Bool) (a : GateArg) : List Part :=
  if a.blen = 0 then [] else [if wr then Part.write a.buf a.blen 1 else Part.read a.buf a.blen 1]

/-- The checks of the callers' buffers (20 R438). -/
def bufChecks (s : State) (c : Ctx) (dir : GateDir) : List GateArg → Option FaultInfo
  | [] => none
  | a :: r =>
    let chk := fun (wr on : Bool) => if on then s.checkParts (c.who a.lane) (bufPart wr a) else .ok []
    match chk false (dirIn dir) with
    | .error f => some f
    | .ok _ =>
      match chk true (dirOut dir) with
      | .error f => some f
      | .ok _ => bufChecks s c dir r

/-- The gate buffer of lane l. -/
def gateBuf (x : GateCtx) (l : Nat) : DWord := ptrWith x.gbase (ptrAddr x.gbase + l * x.bufmax)

/-- A failure while buffers are copied: of the caller's own bytes, or of a gate buffer. -/
inductive BufFail where
  | own (f : FaultInfo)
  | gate (lane : Nat)
  deriving DecidableEq, Repr

/-- Zeroes the gate buffers and copies the callers' bytes in (20 R438). -/
def fillBufs (c : Ctx) (x : GateCtx) (target : Nat) (dir : GateDir) : List GateArg → State → Except BufFail State
  | [], s => .ok s
  | a :: r, s =>
    match s.checkParts (c.who a.lane) (if dirIn dir then bufPart false a else []) with
    | .error f => .error (.own f)
    | .ok ps =>
      let bs := s.readPlaces ps
      if x.bufmax = 0 then fillBufs c x target dir r s
      else
        match s.devWrite target (gateBuf x a.lane) (bs ++ List.replicate (x.bufmax - bs.length) 0) 1 with
        | .error _ => .error (.gate a.lane)
        | .ok s => fillBufs c x target dir r s

/-- The lanes' bytes of the gate buffers, with the places that they return to: every check before any write. -/
def drainBufs (s : State) (c : Ctx) (x : GateCtx) (target : Nat) : List GateArg → Except BufFail (List (List Place × List Byte))
  | [] => .ok []
  | a :: r =>
    if a.blen = 0 then drainBufs s c x target r
    else
      match s.devRead target (gateBuf x a.lane) a.blen 1 with
      | .error _ => .error (.gate a.lane)
      | .ok bs =>
        match s.checkParts (c.who a.lane) (bufPart true a) with
        | .error f => .error (.own f)
        | .ok ps =>
          match drainBufs s c x target r with
          | .error e => .error e
          | .ok t => .ok ((ps, bs) :: t)

/-- The header word of a gate context (20 R439). -/
def gateHdr : DWord := 0x60

/-- The wave of a gate context (20 R439). -/
def gateWave (f : Func) (x : GateCtx) (as : List GateArg) (r : Room) (spb : Nat) : Wave :=
  freshWave 0 ((List.range 32).map fun i =>
    match as.find? fun a => a.lane == i with
    | some a =>
      let vs := a.args.map (fun b => (⟨.i64, b⟩ : TVal)) ++ [⟨.ptr, ofU 64 (gateBuf x i).toNat⟩, ⟨.i32, ofU 32 a.blen⟩]
      freshLane .live false [startFrame f vs] (rngSeed 0 0 i)
    | none => freshLane .never false [] (rngSeed 0 0 i)) r.vwin r.swin spb

/-- Starts a gate context that has room: the buffers, then its wave; then the caller is held until its lanes have ended. -/
def gateStart (c : Ctx) (gid : Nat) (dir : GateDir) (as : List GateArg) (s : State) : Out :=
  match s.group? gid with
  | none => illegal c s
  | some t =>
    match t.gate, (s.module? t.dom t.modH).bind (·.func? t.kernel), s.roomOn t.dom ⟨1, 0, false⟩ false (c.g.core, c.g.half) with
    | some x, some f, some r =>
      match fillBufs c x t.dom dir as s with
      | .error (.own e) => memRaise c e { s with groups := s.groups.filter fun g => g.gid != gid }
      | .error (.gate l) => gateFault c l x.gate 10 { s with groups := s.groups.filter fun g => g.gid != gid }
      | .ok s =>
        let s := s.modGroup gid fun g =>
          { g with st := .resident, nslots := 1, bank := r.bank, waves := [gateWave f x as r (s.spillBase t.dom gid 0)] }
        .next (holdRun c c.iss.mask (.gateRun gid) 0 s)
    | some x, _, _ =>
      gateFault c (as.headD ⟨0, 0, 0, []⟩).lane x.gate 5 { s with groups := s.groups.filter fun g => g.gid != gid }
    | none, _, _ => illegal c s

/-- A gate context that has not started (20 R438). -/
def newGate (c : Ctx) (gid g : Nat) (e : GateEntry) (f : Func) (now : Nat) : Group :=
  { gid, dom := e.target, launch := 0, lin := 0, gx := 0, gy := 0, gz := 0, modH := e.modH, kernel := f.sym, hdr := gateHdr,
    core := c.g.core, half := c.g.half, slot := 0, nslots := 0, st := .ended, waves := [],
    handles := List.replicate 32 Handle.none, watch := List.replicate 16 ⟨0, 0⟩, bank := 0, nbanks := 0, lease := none,
    troupe := none, borrowed := false, cls := 0, why := .none, stopBy := 0, saves := 0,
    gate := some ⟨c.iss.gid, c.iss.wave, maskOf c.ordinary, g, 0, 32, e.gbase, e.bufmax, now + 1000 * e.tlimit⟩ }

/-- The first issue of a `gatecall`: the checks in order, then the call (20 R438). -/
def gateBegin (c : Ctx) (g : Nat) (dir : GateDir) (as : List GateArg) (k : Nat) (s : State) : Out :=
  let l0 := c.ordinary.headD 0
  let bad := fun (e : GateEntry) (a : GateArg) => decide (e.bufmax < a.blen) || (dir == .none && a.blen != 0)
  if c.g.gate.isSome then gateFault c l0 g 6 s
  else
    match s.gateOf c.g.dom g with
    | none => gateFault c l0 g 1 s
    | some e =>
      let argc := match s.offerOf e with | some (n, _) => n | none => k
      -- a K slot has places for every argument; the call takes those that the offer names (15 R341; log entry 36)
      let k := if c.iss.bind.isSome then argc else k
      let as := if c.iss.bind.isSome then as.map fun a => { a with args := a.args.take argc } else as
      if k ≠ argc then gateFault c l0 g 2 s
      else if (dirIn dir ∧ e.flags / 2 % 2 = 0) ∨ (dirOut dir ∧ e.flags / 4 % 2 = 0) then gateFault c l0 g 3 s
      else
        match as.find? (bad e) with
        | some a => gateFault c a.lane g 4 s
        | none =>
          match s.offerOf e with
          | none => gateFault c l0 g 5 s
          | some (_, f) =>
            if !s.gateReady c.g e then gateFault c l0 g 5 s
            else
              match bufChecks s c dir as with
              | some f => memRaise c f s
              | none =>
                let (gid, s) := s.newId
                let s := { s with groups := s.groups ++ [newGate c gid g e f s.now] }
                if (s.roomOn e.target ⟨1, 0, false⟩ false (c.g.core, c.g.half)).isSome then gateStart c gid dir as s
                else .next (holdRun c c.iss.mask (.gateRoom gid) 0 s)

/-- The end of a `gatecall`: GATE with the reason of an end by force, or the buffers and results (20 R438, R440). -/
def gateFinish (c : Ctx) (gid : Nat) (dir : GateDir) (as : List GateArg) (s : State) : Out :=
  match s.group? gid with
  | none => illegal c s
  | some t =>
    let s' := { s with groups := s.groups.filter fun g => g.gid != gid }
    match t.gate with
    | none => illegal c s
    | some x =>
      if x.reason ≠ 0 then
        gateFault c (if x.lane < 32 ∧ x.reason ≠ 5 then x.lane else c.ordinary.headD 0) x.gate x.reason s'
      else
        match (if dirOut dir then drainBufs s c x t.dom as else .ok []) with
        | .error (.own f) => memRaise c f s'
        | .error (.gate l) => gateFault c l x.gate 10 s'
        | .ok ws =>
          let s := ws.foldl (fun s (ps, bs) => storePlaces c ps bs s) s'
          let val := fun (l : Nat) => match t.waves with
            | w :: _ => ((w.lanes[l]?).bind (·.gateVal)).getD 0
            | [] => 0
          .next (commit c (c.lanes.map fun l =>
            c.give l (some ⟨.i64, if c.helper l then 0 else ofU 64 (val l).toNat⟩)) s)

/-- `gatecall` (20 R438). -/
def execGatecall (dir : GateDir) (gate buf blen : Opnd) (args : List Opnd) (s : State) : Out :=
  perRun s fun c s =>
    match c.ordinary with
    | [] => .next (giveAll c none (some ⟨.i64, 0⟩) s)
    | l :: _ =>
      match evalOp s c l .i32 gate, gateArgs s c buf blen args c.ordinary with
      | some g, some as =>
        match (c.released.map Hold.cond : Option Cond) with
        | some (.gateRoom gid) =>
          match (s.group? gid).bind (·.gate) with
          | some x => if x.reason ≠ 0 then gateFinish c gid dir as s else gateStart c gid dir as s
          | none => gateBegin c g.toNat dir as args.length s
        | some (.gateRun gid) => gateFinish c gid dir as s
        | _ => gateBegin c g.toNat dir as args.length s
      | _, _ => illegal c s

/-- `gateret` (20 R440): helper lanes pass. -/
def execGateret (v : Opnd) (s : State) : Out :=
  withRun s fun c =>
    match c.ordinary with
    | [] => .next (giveAll c none none s)
    | l :: _ =>
      if c.g.gate.isNone then gateFault c l 0 7 s
      else if c.lanes.all fun l => (evalOp s c l .i64 v).isSome then
        let s := s.modWave c.iss.gid c.iss.wave fun w =>
          w.mapLanes fun l x => if c.lanes.contains l then x.handBack ((evalOp s c l .i64 v).map fun b => ⟨.i64, b⟩) else x
        .next (c.lanes.foldl (fun s l => endLane false c.iss.gid c.iss.wave l s) s)
      else illegal c s

/-- Ends a gate context by force with a reason (20 R440, R441). -/
def forceGate (gid reason : Nat) (s : State) : State :=
  match s.group? gid with
  | none => s
  | some g =>
    let first := match g.waves with
      | w :: _ => ((lanesOf 0xFFFFFFFF#32).find? fun l => match w.lanes[l]? with | some x => x.alive | none => false).getD 32
      | [] => match g.gate with | some x => (lanesOf x.mask).headD 32 | none => 32
    let s := s.modGroup gid fun g =>
      { g with gate := g.gate.map fun x => if x.reason = 0 then { x with reason, lane := min x.lane first } else x }
    killGroup gid s

/-- A pause, a reset or a move of the target ends a gate context with reason 5, with a kill notice to the target where its lanes ran
(20 R441, R449). -/
def stopGate (g : Group) (s : State) : State :=
  forceGate g.gid 5 (if g.st = .resident ∧ !g.allEnded then killNotice g s else s)

/-- GATE_TLIMIT (20 R440): TLIMIT has expired before the call has ended. -/
def execGateTlimit (gid : Nat) (s : State) : Out :=
  match s.group? gid with
  | none => .next s
  | some g =>
    if g.gate.isNone ∨ (g.st = .ended ∧ g.waves ≠ []) then .next s
    else .next (forceGate gid 8 s)

end Sys2Proof.Machine
end

