-- ==== Sys2Proof/Machine/Runs.lean ====
section
/-! DEFINITION. Runs of a wave, their choice and aging (05 R143 to R147, R164, R168; 08 R209), gondolas and rejoining (05 R151 to
R157), and held runs (13 R308). -/
namespace Sys2Proof.Machine

/-! ### Runs (05 R143, R144) -/

/-- The order of keys (05 R143): by the index at the first position that differs; a key that ends first comes first. -/
def keyLt : List (Nat × Nat) → List (Nat × Nat) → Bool
  | [], [] => false
  | [], _ :: _ => true
  | _ :: _, [] => false
  | (_, i) :: r, (_, j) :: t => if i < j then true else if j < i then false else keyLt r t

/-- A run: its key, its lanes, and its age, the smallest of its lanes' (05 R146). -/
structure Run where
  key : List (Nat × Nat)
  mask : Word
  age : Nat
  deriving DecidableEq, Repr

/-- Adds a lane to the runs, which stand in rising order of keys. -/
def addLane (k : List (Nat × Nat)) (l age : Nat) : List Run → List Run
  | [] => [⟨k, 1#32 <<< l, age⟩]
  | r :: t =>
    if r.key = k then { r with mask := r.mask ||| (1#32 <<< l), age := min r.age age } :: t
    else if keyLt k r.key then ⟨k, 1#32 <<< l, age⟩ :: r :: t
    else r :: addLane k l age t

/-- The runs of the eligible lanes that a mask names, smallest key first. -/
def Wave.runs (w : Wave) (m : Word) : List Run :=
  (w.lanes.zipIdx.filter fun (x, i) => x.eligible && inMask m i).foldl (fun rs (x, i) => addLane x.key i x.age rs) []

/-- The run that holds a lane of a mask. -/
def runOf (rs : List Run) (m : Word) : Option Run := rs.find? fun r => (r.mask &&& m) != 0

/-- The run of one half that a choice point takes: the promoted one, or the one with the smallest key (05 R145). -/
def Wave.pickHalf (g : Group) (w : Wave) (h : Nat) : Option Run :=
  let rs := w.runs (g.halfMask h)
  match runOf rs (w.promoted &&& g.halfMask h) with
  | some r => some r
  | none => rs.head?

/-- The lanes of a half's chosen run as they stand: those whose key a chosen lane has (05 R144); none where a choice point is due. -/
def Wave.currentHalf (g : Group) (w : Wave) (h : Nat) : Option Run := runOf (w.runs (g.halfMask h)) (w.chosen &&& g.halfMask h)

/-- A choice point at which the halves' runs have different keys: the half that issues first is the other than at the last such one; the
one with the smaller key where the halves have issued together since (08 R209). -/
def Wave.turnHalf (w : Wave) (a b : Run) : Nat :=
  if w.lastHalf = 0 then 1 else if w.lastHalf = 1 then 0 else if keyLt b.key a.key then 1 else 0

/-- The runs that the halves of a W16 wave have chosen and the half that issues, 2 for both (05 R145, R168; 08 R209): runs chosen
with equal keys issue together; a half in its turn goes on until its own next choice point; a half whose other half has no eligible
run goes on alone. -/
def Wave.pickHalves (g : Group) (w : Wave) : Option (Word × Nat × Nat) :=
  let meet := fun (a b : Run) =>
    let m := a.mask ||| b.mask
    if a.key = b.key then (m, 2, 2) else (m, w.turnHalf a b, w.turnHalf a b)
  match w.currentHalf g 0, w.currentHalf g 1 with
  | some a, some b => if w.lastHalf = 2 then some (meet a b) else some (a.mask ||| b.mask, w.lastHalf, w.lastHalf)
  | some a, none =>
    match w.pickHalf g 1 with
    | none => some (a.mask, w.lastHalf, 0)
    | some b => if w.lastHalf = 0 then some (a.mask ||| b.mask, 0, 0) else some (meet a b)
  | none, some b =>
    match w.pickHalf g 0 with
    | none => some (b.mask, w.lastHalf, 1)
    | some a => if w.lastHalf = 1 then some (a.mask ||| b.mask, 1, 1) else some (meet a b)
  | none, none =>
    match w.pickHalf g 0, w.pickHalf g 1 with
    | some a, some b => some (meet a b)
    | some a, none => some (a.mask, w.lastHalf, 0)
    | none, some b => some (b.mask, w.lastHalf, 1)
    | none, none => none

/-- The runs that stand chosen, with the half of the last choice point between different keys and the half that issues now (05 R145). -/
def Wave.pick (g : Group) (w : Wave) : Option (Word × Nat × Nat) :=
  if g.w16 then w.pickHalves g
  else
    match w.currentHalf g 0 with
    | some r => some (r.mask, 2, 2)
    | none => (w.pickHalf g 0).map fun r => (r.mask, 2, 2)

/-- The lanes of the runs of a half, or of both. -/
def Group.turnMask (g : Group) (h : Nat) : Word := if g.w16 ∧ h < 2 then g.halfMask h else 0xFFFFFFFF#32

/-- A wave with its choice made where one is due, and the lanes that issue (05 R145); none where no lane is eligible. -/
def Wave.choose (g : Group) (w : Wave) : Option (Wave × Word) :=
  (w.pick g).map fun (m, last, h) =>
    let on := m &&& g.turnMask h
    ({ w with chosen := m, lastHalf := last, promoted := w.promoted &&& ~~~on }, on)

/-- A wave after a bundle of some lanes: they have age 0, and every other eligible lane is one bundle older (05 R146). -/
def Wave.aged (m : Word) (w : Wave) : Wave :=
  w.mapLanes fun i x => if inMask m i then { x with age := 0 } else if x.eligible then { x with age := x.age + 1 } else x

/-- The lanes that issue until the next choice point. -/
def Wave.issuing (g : Group) (w : Wave) : Word := match w.choose g with | some (_, m) => m | none => 0

/-- The runs of a half that may be promoted: eligible, not issuing, of age 64 or more, where none of the half is promoted. A run that
waits for the other half's turn ages too (08 R209). -/
def Wave.oldRuns (g : Group) (w : Wave) (h : Nat) : List Run :=
  if (w.promoted &&& g.halfMask h) ≠ 0 then []
  else (w.runs (g.halfMask h)).filter fun r => (r.mask &&& w.issuing g) == 0 && decide (64 ≤ r.age)

/-- Whether a promotion is due in a wave. -/
def Wave.promotes (g : Group) (w : Wave) : Bool := !(w.oldRuns g 0).isEmpty || (g.w16 && !(w.oldRuns g 1).isEmpty)

/-- AGING_PROMOTION (05 R146): in each half the old run with the smallest key is promoted, which is a choice point. -/
def execAgingPromotion (gid wave : Nat) (s : State) : Out :=
  match s.group? gid, s.wave? gid wave with
  | some g, some w =>
    let m := (match w.oldRuns g 0 with | r :: _ => r.mask | [] => 0) |||
      (if g.w16 then (match w.oldRuns g 1 with | r :: _ => r.mask | [] => 0) else 0)
    if m = 0 then .next s
    else .next (s.modWave gid wave fun w => ({ w with promoted := w.promoted ||| m } : Wave).choiceDue g m)
  | _, _ => .next s

/-! ### Gondolas (05 R151) -/

/-- Lanes that run on a gondola. -/
def ClusterSt.onGondola (k : ClusterSt) (n : Nat) : Nat := (k.ejq.filter fun e => e.gondola == some n).length

/-- The first waiting lane goes to a gondola. -/
def takeFirst (n : Nat) : List EjLane → List EjLane
  | [] => []
  | e :: r => if e.gondola = none then { e with gondola := some n } :: r else e :: takeFirst n r

/-- GONDOLA_TAKE (05 R151): a gondola with room takes the lane that has waited longest. -/
def execGondolaTake (cluster gondola : Nat) (s : State) : Out :=
  let k := s.cluster cluster
  if gondola < 4 ∧ k.onGondola gondola < 4 then
    .next (s.modCluster cluster fun k => { k with ejq := takeFirst gondola k.ejq })
  else .next s

/-! ### Rejoining (05 R154, R155) -/

/-- REJOIN (05 R154): an ejected lane that stands at its join is reinserted; it waits there with the lanes of its set, which
are released when none of the set is away. -/
def execRejoin (gid wave lane : Nat) (s : State) : Out :=
  match s.group? gid, (s.wave? gid wave).bind fun w => w.lanes[lane]? with
  | some g, some x =>
    if !x.ejected ∨ !x.alive then .next s
    else
      let s := s.modCluster (clusterOf g.core) (dropEjected gid wave lane)
      let s := s.modWave gid wave fun w =>
        ({ w.modLane lane (fun x => { x with ejected := false, age := 0 }) with gond := w.gond.filter fun n => n.1 != lane } : Wave).choiceDue g (1#32 <<< lane)
      .next (arrive gid wave lane s)
  | _, _ => .next s

/-- Whether a set's timer has run for 2^(13 + c) core cycles, c being the REJOIN field of the kernel header word (05 R155). -/
def State.rejoinDue (s : State) (g : Group) (e : EjSet) : Bool :=
  decide (2 ^ (13 + field g.hdr 5 3) * 10 ≤ (s.now - e.since) * s.power.clock)

/-- REJOIN_TIMEOUT (05 R155): the set no longer holds lanes back; the event is counted and reported to the domain. -/
def execRejoinTimeout (gid wave set : Nat) (s : State) : Out :=
  match s.group? gid, s.wave? gid wave with
  | some g, some w =>
    match w.ejSets.find? fun e => e.id == set with
    | none => .next s
    | some e =>
      if !e.timerOn || e.timedOut || e.away == 0 then .next s
      else
        let s := s.modWave gid wave fun w =>
          releaseJoins g { w with ejSets := w.ejSets.map fun e => if e.id = set then { e with timedOut := true } else e }
        let s := s.modDom g.dom fun x => { x with rejoins := x.rejoins + 1 }
        if field (s.dreg g.dom 0x148) 0 1 = 1 then
          let s := s.modDom g.dom fun x => { x with evPend := x.evPend ++ [eventBytes [15, g.dom, e.func, e.join, s.now]] }
          .next (flushEvents g.dom (s.dom g.dom).evPend.length s)
        else .next s
  | _, _ => .next s

/-! ### Held runs (13 R308; 20 R438, R443; 22 R488) -/

/-- The lanes of a hold whose counters have reached their values, with those already met (20 R443). -/
def metNow (s : State) (g : Group) (wave : Nat) (h : Hold) (l : List (Nat × DWord × DWord)) : Word :=
  h.met ||| maskOf ((l.filter fun (i, p, v) => counterMet s ⟨g.dom, g.core, g.gid, wave, i, false, true, true⟩ p v).map (·.1))

/-- Whether a peer still does not answer a read of a lane. -/
def State.stillWaiting (s : State) (g : Group) (wave : Nat) (l : Nat × DWord) : Bool :=
  match s.checkParts ⟨g.dom, g.core, g.gid, wave, l.1, false, true, true⟩ [Part.read l.2 1 1] with
  | .ok ps => ps.any fun x => s.unanswered x
  | .error _ => false

/-- Whether the condition of a hold is met. -/
def State.condMet (s : State) (g : Group) (wave : Nat) (h : Hold) : Bool :=
  let handle := fun (x : Word) (f : Handle → Bool) => match g.handleOf x with | some n => f (g.handle n) | none => true
  match h.cond with
  | .pushes x k => handle x fun y => decide (k ≤ y.pushed)
  | .room x k => handle x fun y => decide (k ≤ y.ring - y.claimed)
  | .issue x n ke => match g.handleOf x with | some i => s.cmdRoom g i n (!ke) | none => true
  | .tiles t => s.mxRoom g t
  | .turn => (s.coreSt g.core).mayTurn g.gid (s.mxQuantum g)
  | .counters l => let m := metNow s g wave h l; l.all fun (i, _, _) => inMask m i || !inMask h.mask i
  | .gateRoom i =>
    match s.group? i with
    | some t =>
      (match t.gate with | some x => x.reason != 0 | none => true) || (s.dprOf g.core g.half t.dom).isNone ||
      (s.roomOn t.dom ⟨1, 0, false⟩ false (g.core, g.half)).isSome
    | none => true
  | .gateRun i => match s.group? i with | some t => t.st == .ended | none => true
  | .peer l => l.all fun x => !s.stillWaiting g wave x || !inMask h.mask x.1
  | .port c last => decide (last ≤ (s.bucket c g.dom).gone)

/-- Lanes of a mask are no longer held. -/
def unpark (g : Group) (m : Word) (w : Wave) : Wave :=
  let free := maskOf ((w.lanes.zipIdx.filter fun (x, i) => inMask m i && x.park == .held).map (·.2))
  let home := maskOf ((w.lanes.zipIdx.filter fun (x, i) => inMask free i && !x.ejected).map (·.2))
  (w.mapLanes fun i x => if inMask free i then { x with park := .none, age := 0 } else x).choiceDue g home

/-- Releases the holds of a wave whose conditions are met; a hold none of whose lanes is left goes away. -/
def releaseHolds (s : State) (g : Group) (wave : Nat) (w : Wave) : Wave :=
  let upd := fun (h : Hold) =>
    let h := match h.cond with | .counters l => { h with met := metNow s g wave h l } | _ => h
    if h.released then h else { h with released := s.condMet g wave h }
  let hs := (w.holds.filter fun h => h.mask != 0).map upd
  let freed := (hs.filter fun h => h.released).foldl (fun m h => m ||| h.mask) 0
  unpark g freed { w with holds := hs }

/-- Whether a hold of a wave would be released now. -/
def State.holdReady (s : State) (g : Group) (wave : Nat) (w : Wave) : Bool :=
  w.holds.any fun h => !h.released && (h.mask == 0 || s.condMet g wave h)

/-- HELD_RUN_RELEASE (13 R308). -/
def execHeldRunRelease (gid wave : Nat) (s : State) : Out :=
  match s.group? gid, s.wave? gid wave with
  | some g, some w => if s.holdReady g wave w then .next (s.modWave gid wave fun _ => releaseHolds s g wave w) else .next s
  | _, _ => .next s

/-- PEER_READ_TIMEOUT (22 R488): a read that a peer has not answered completes as poisoned, and the lane raises POISON. -/
def execPeerReadTimeout (gid wave lane : Nat) (s : State) : Out :=
  match s.group? gid, s.wave? gid wave with
  | some g, some w =>
    let waits := fun (h : Hold) => inMask h.mask lane && (match h.cond with | .peer l => (l.lookup lane).isSome | _ => false)
    match w.holds.find? waits with
    | none => .next s
    | some h =>
      let p := match h.cond with | .peer l => (l.lookup lane).getD 0 | _ => 0
      let out := match w.lanes[lane]? with | some x => x.ejected | none => false
      let s := s.modWave gid wave fun w => unpark g h.mask { w with holds := w.holds.filter fun h => !waits h }
      let s := { s with issue := some ⟨gid, wave, h.mask, out, 0, none, none⟩ }
      match s.ctx? with
      | some c => raise c ⟨16, lane, 10, 1, p, 0, none⟩ s
      | none => .next { s with issue := none }
  | _, _ => .next s

/-- PEER_WRITE_TIMEOUT (22 R488): an unacknowledged write is reported to the issuing domain. -/
def execPeerWriteTimeout (dom : Nat) (addr : DWord) (s : State) : Out := .next (postReport dom (report 16 dom addr) s)

end Sys2Proof.Machine
end

