-- ==== Sys2Proof/Machine/Assayer.lean ====
section
/-! DEFINITION. Translations as state: keys, the translation cache, installing, evicting and freeing, events and prefetch
(16 R358 to R377; 17 R397, R398). The step that installs a translation carries what the Assayer made (log entry 12). -/
namespace Sys2Proof.Machine

/-! ### Keys and lookup (16 R358) -/

/-- The generation of a core: 3 on W3, 2 on N2. -/
def genOf (core : Nat) : Nat := if isW3 (dieOf core) then 3 else 2

/-- The key of a region entry for a wave. -/
def State.xkey (s : State) (g : Group) (w : Wave) (form func entry : Nat) : XlateKey :=
  { dom := g.dom, modH := g.modH, func, entry, gen := genOf g.core, half := s.isSplit g.core, w16 := g.w16, ftz := g.ftz, form,
    vwin := w.vwin, swin := w.swin, mwin := w.mwin }

/-- Whether an image serves the key of a miss: the same key, but that it states its need of registers where a key states a window
(16 R364, R374); unless it must match exactly, of another generation or core shape (16 R376). -/
def imageServes (exact : Bool) (k m : XlateKey) : Bool :=
  let q := { k with vwin := m.vwin, swin := m.swin, mwin := m.mwin }
  (if exact then decide (q = m) else decide ({ q with gen := m.gen, half := m.half } = m)) && decide (k.vwin ≤ m.vwin) && decide (k.swin ≤ m.swin) && decide (k.mwin ≤ m.mwin)

/-- The translation that a wave enters for a key. -/
def ClusterSt.xlateFor (k : ClusterSt) (m : XlateKey) : Option Xlate :=
  match k.xlates.find? fun x => !x.retiring && decide (x.key = m) with
  | some x => some x
  | none => k.xlates.find? fun x => !x.retiring && x.runs.contains m

/-- The translation that holds a TC address. -/
def ClusterSt.xlateAt (k : ClusterSt) (a : Nat) : Option Xlate :=
  k.xlates.find? fun x => decide (x.base ≤ a) && decide (a < x.base + 64 * x.lines.length)

/-- The line at a TC address. -/
def Xlate.lineAt (x : Xlate) (a : Nat) : Option (BitVec 512) := x.lines[(a - x.base) / 64]?

/-- The map-back entry of a slot of the line at a TC address (16 R369). -/
def Xlate.entryAt (x : Xlate) (a slot : Nat) : Option MapEntry := x.entries.find? fun e => e.line == a / 64 && e.slot == slot

/-- Whether a lane of some wave of the cluster runs in a range of TC addresses, or returns into it. -/
def State.inXlate (s : State) (cluster : Nat) (x : Xlate) : Bool :=
  let hit := fun (a : Nat) => decide (x.base ≤ a) && decide (a < x.base + 64 * x.lines.length)
  s.groups.any fun g => clusterOf g.core == cluster && g.waves.any fun w =>
    (w.native.toList ++ w.gond.map (·.2)).any fun n => n.lanes.any fun (_, l) => hit l.npc || l.rstack.any fun r => hit r.1

/-! ### Events (16 R372) -/

/-- The items of a translation event's record. -/
def xlateItems (code cause cluster : Nat) (x : Xlate) (now : Nat) : List Nat :=
  [code, x.key.form, cause, x.key.gen, cluster, x.key.dom, x.key.func, x.key.entry, x.lines.length, x.spills, now]

/-- Marks a translation as retiring, and reports it (16 R367, R372). -/
def evict (cluster xid cause : Nat) (s : State) : State :=
  match (s.cluster cluster).xlates.find? fun x => x.xid == xid with
  | none => s
  | some x =>
    if x.retiring then s
    else
      let s := s.modCluster cluster fun k =>
        { k with xlates := k.xlates.map fun x => if x.xid = xid then { x with retiring := true } else x }
      (xlateEvent x.key.dom (4 + cause) true (xlateItems 1 cause cluster x s.now) s).due (.translationFree cluster xid)

/-- EVICTION (16 R367). -/
def execEviction (cluster xid cause : Nat) (s : State) : Out := .next (evict cluster xid cause s)

/-- TRANSLATION_FREE (16 R367): the space of a retiring translation is freed when no wave runs in it. -/
def execTranslationFree (cluster xid : Nat) (s : State) : Out :=
  match (s.cluster cluster).xlates.find? fun x => x.xid == xid && x.retiring with
  | none => .next s
  | some x =>
    if s.inXlate cluster x then .next s
    else
      .next (s.modCluster cluster fun k =>
        { k with xlates := k.xlates.filter fun y => y.xid != xid,
                 tc := k.tc.filter fun a => !(decide (x.base ≤ a) && decide (a < x.base + 64 * x.lines.length)),
                 badAddrs := k.badAddrs.filter fun a => !(decide (x.base ≤ a) && decide (a < x.base + 64 * x.lines.length)) })

/-- Evicts every translation of a domain's module, or of a domain, on every cluster. -/
def evictAll (p : XlateKey → Bool) (cause : Nat) (s : State) : State :=
  s.clusters.foldl (fun s (c, k) => k.xlates.foldl (fun s x => if p x.key then evict c x.xid cause s else s) s) s

/-! ### Room in the bundle area (16 R365, R366) -/

/-- The lowest gap of n lines among translations. -/
def findGap (n : Nat) (xs : List Xlate) : Option Nat :=
  let ends := 0 :: xs.map fun x => x.base + 64 * x.lines.length
  let ok := fun (b : Nat) => decide (b + 64 * n ≤ 2 ^ 25) &&
    xs.all fun x => decide (b + 64 * n ≤ x.base) || decide (x.base + 64 * x.lines.length ≤ b)
  leastBy id (ends.filter ok)

/-- Bytes of the bundle area that a domain uses. -/
def ClusterSt.xused (k : ClusterSt) (d : Nat) : Nat := (k.xlates.filter fun x => x.key.dom == d).foldl (fun n x => n + 64 * x.lines.length) 0

/-- Bytes of a domain's guaranteed share. -/
def ClusterSt.xshare (k : ClusterSt) (d : Nat) : Nat := mget 0 k.shares d * 2 ^ 20

/-- The translation that gives way to one of domain d (16 R366). -/
def ClusterSt.victim (k : ClusterSt) (d : Nat) : Option Xlate :=
  let live := k.xlates.filter fun x => !x.retiring
  match leastBy Xlate.entered (live.filter fun x => decide (k.xshare x.key.dom < k.xused x.key.dom)) with
  | some x => some x
  | none => leastBy Xlate.entered (live.filter fun x => x.key.dom == d)

/-! ### Translating and installing (16 R368, R376; 17 R398) -/

/-- The fault of reading the text of a region, its entry first, or none (17 R398). -/
def State.textFault (s : State) (k : XlateKey) (entries : List MapEntry) : Option (Nat × DWord) :=
  match (s.module? k.dom k.modH).bind (·.func? k.func) with
  | some f =>
    (k.entry :: entries.map (·.index)).findSome? fun i =>
      let a : DWord := BitVec.ofNat 64 (f.text + 4 * (match f.points[i]? with | some p => p.off | none => 0))
      match s.devRead k.dom a 4 4 with
      | .ok _ => none
      | .error e => if e.code = 3 ∨ e.code = 4 ∨ e.code = 16 then some (e.code, a) else none
  | none => none

/-- A miss asks the Assayer for its key: the request joins one with the same key, or is queued while there is room for it
(16 R368). -/
def askXlate (key : XlateKey) (cls : Nat) (k : ClusterSt) : ClusterSt :=
  if k.xqueue.any fun r => decide (r.key = key) then
    { k with xqueue := k.xqueue.map fun r => if r.key = key then { r with cls := min r.cls cls, hint := false, len := 4096 } else r }
  else if k.xqueue.length < 32 then { k with xqueue := k.xqueue ++ [⟨key, cls, false, 4096⟩] }
  else k

/-- The request that the Assayer serves next: the highest class first, and by arrival within a class (16 R368). -/
def ClusterSt.served (k : ClusterSt) : Option XReq := leastBy XReq.cls k.xqueue

/-- Whether the Assayer may serve a key now: the first request, or one that no request waits for. -/
def ClusterSt.mayServe (k : ClusterSt) (key : XlateKey) : Bool :=
  !(k.xqueue.any fun r => decide (r.key = key)) || (match k.served with | some r => decide (r.key = key) | none => false)

/-- The most instructions that a translation for a key covers: what a prefetch asked for, else 4,096 (16 R358, R373). -/
def ClusterSt.coverOf (k : ClusterSt) (key : XlateKey) : Nat :=
  match k.xqueue.find? fun r => decide (r.key = key) with
  | some r => r.len
  | none => 4096

/-- Rebases an entry's LINE (16 R376). -/
def rebase (b : Nat) (e : MapEntry) : MapEntry := { e with line := e.line + b / 64 }

/-- The recorded failure of a region entry (17 R398). -/
def ClusterSt.failedAt (k : ClusterSt) (g : Group) (func entry : Nat) : Option (Nat × DWord) :=
  (k.xfail.find? fun (d, m, f, i, _) => d == g.dom && m == g.modH && f == func && i == entry).map fun (_, _, _, _, c, a) => (c, a)

/-! ### Lines of the translation cache (16 R365; 17 R397) -/

/-- TC_LINE_FILL (16 R365, R367, R372): a line of the bundle area enters its set of 16 ways; the one longest there leaves a full set. A
line that is filled while it is present is one whose corrected error is counted (log entry 12). -/
def execTcLineFill (cluster addr : Nat) (s : State) : Out :=
  let a := addr / 64 * 64
  let k := s.cluster cluster
  match k.xlateAt a with
  | none => .next s
  | some x =>
    if k.tc.contains a then
      .next (xlateEvent x.key.dom 9 false [] (s.modCluster cluster fun k => { k with corrected := k.corrected + 1 }))
    else
      let same := k.tc.filter fun b => b / 64 % 8192 == a / 64 % 8192
      let tc := if same.length < 16 then k.tc else k.tc.filter fun b => some b != same.head?
      .next (s.modCluster cluster fun k => { k with tc := tc ++ [a] })

/-- TC_LINE_ERROR (17 R397): the line is invalid, and the error is counted, whether or not the bundle issues. -/
def execTcLineError (cluster addr : Nat) (s : State) : Out :=
  let a := addr / 64 * 64
  .next (s.modCluster cluster fun k =>
    { k with tc := k.tc.filter (· != a), badLines := k.badLines + 1,
             badAddrs := if (k.xlateAt a).isSome then sadd k.badAddrs a else k.badAddrs })

/-! ### Prefetch (16 R373) -/

/-- The module and function whose descriptor stands at an address. -/
def State.funcAt (s : State) (d : Nat) (p : DWord) : Option (Module × Func) :=
  s.modules.findSome? fun m => if m.dom = d then (m.funcs.find? fun f => f.desc == p).map fun f => (m, f) else none

/-- First instruction of the block that holds an instruction. -/
def Func.blockOf (f : Func) (i : Nat) : Nat := (f.blocks.filter fun b => decide (b.first ≤ i)).foldl (fun a b => max a b.first) 0

/-- Counts an accepted or dropped prefetch. -/
def prefetchCount (c : Ctx) (ok : Bool) (s : State) : State :=
  let s := s.modCluster (clusterOf c.g.core) fun k =>
    if ok then { k with pfAccepted := k.pfAccepted + 1 } else { k with pfDropped := k.pfDropped + 1 }
  xlateEvent c.g.dom (if ok then 10 else 11) false [] s

/-- `xprefetch` (16 R373): a request of normal form is queued, or dropped; nothing else changes. -/
def execXprefetch (f idx len : Opnd) (s : State) : Out :=
  perRun s fun c s =>
    match c.ordinary with
    | [] => .next (giveAll c none none s)
    | l :: _ =>
      match evalOp s c l .ptr f, evalOp s c l .i32 idx, evalOp s c l .i32 len with
      | some p, some i, some n =>
        let p := p.extractLsb' 0 64
        let k := s.cluster (clusterOf c.g.core)
        let key := match s.funcAt c.g.dom p with
          | some (m, fn) =>
            if i.toNat < fn.ninstr ∧ n ≠ 0 then
              some { s.xkey c.g c.w 0 fn.sym (fn.blockOf i.toNat) with modH := m.handle }
            else none
          | none => none
        let readable := match s.devRead c.g.dom p 64 8 with | .ok _ => true | .error e => !(e.code == 3 || e.code == 4)
        .next (giveAll c none none (match key with
          | some key =>
            if readable && decide (k.xqueue.length < 32) && !(k.xqueue.any fun r => decide (r.key = key)) &&
                (k.xlateFor key).isNone then
              prefetchCount c true (s.modCluster (clusterOf c.g.core) fun k =>
                { k with xqueue := k.xqueue ++ [⟨key, c.g.cls, true, min n.toNat 4096⟩] })
            else prefetchCount c false s
          | none => prefetchCount c false s))
      | _, _, _ => illegal c s

end Sys2Proof.Machine
end

