-- ==== Sys2Proof/Machine/Convert.lean ====
section
/-! DEFINITION. Conversion and packing in registers (04 R130 to R133). -/
namespace Sys2Proof.Machine

/-- `cvt` of one value (04 R130; 02 R60 to R62). Under SR every conversion draws once. With FTZ an `f16` result that is subnormal is
flushed with UF and IX by 02 R58 also from `e5m2`, where R60 calls the conversion exact and without flags (the model's choice, log
entry 22). -/
def cvtOp (rm : Rm) (sat sgn ftz : Bool) (src dst : Ty) (x : Bits) (acc : Acc) : Bits × Acc :=
  if dst.isFT || dst.isF8 then
    let v : FV × Byte :=
      if src.isI then (FV.ofInt (rRd sgn src.width x) 0, 0)
      else if src = .t2 then let (d, f) := readDigit x.toNat; (FV.ofInt d 0, f)
      else ((fmtOf src).read ftz (uRd src.width x), 0)
    let (p, acc) := acc.round (fmtOf dst) rm sat ftz v
    (ofU dst.width p, acc)
  else
    let (u, acc) := acc.draw rm
    let (i, f) : Int × Byte :=
      if src.isI then ((if sRd src.width x ≥ 1 then 1 else if sRd src.width x = 0 then 0 else -1), 0)
      else if src = .t2 then
        let (d, f) := readDigit x.toNat
        if d < intMin sgn dst.width then (0, f ||| fNV) else (d, f)
      else
        let v := (fmtOf src).read ftz (uRd src.width x)
        if dst = .t2 then v.toDigit rm u else v.toInt rm u sgn dst.width
    (if dst = .t2 then ofU 2 (digitBits i) else ofI dst.width i, acc.flag f)

/-- `cvt` (04 R130). -/
def execCvt (rm : Rm) (sat sgn : Bool) (ty : Ty) (v : BitVec 24) (s : State) : Out :=
  laneMap s fun c l acc =>
    (valOf c l v.toNat).bind fun x =>
      if cvtOk sat sgn x.ty ty then
        let (y, acc) := cvtOp rm sat sgn c.g.ftz x.ty ty x.bits acc
        some (some ⟨ty, y⟩, acc)
      else none

/-- `bitcast` (04 R131). -/
def execBitcast (ty : Ty) (v : BitVec 24) (s : State) : Out :=
  laneMap s fun c l acc =>
    (valOf c l v.toNat).bind fun x => if bitcastOk x.ty ty then some (some ⟨ty, x.bits⟩, acc) else none

/-- `pack` (04 R132). -/
def execPack (ty : Ty) (es : List Opnd) (s : State) : Out :=
  laneMap s fun c l acc =>
    match ty.packed with
    | some (_, e) =>
      (evalOps s c l (es.map fun o => (e, o))).map fun xs =>
        (some ⟨ty, BitVec.ofNat 96 (joinElems (elemsOf ty).2 (xs.map (·.toNat)))⟩, acc)
    | none => none

/-- `unpack` (04 R133). -/
def execUnpack (k : BitVec 4) (ty : Ty) (x : Opnd) (s : State) : Out :=
  match ty.packed with
  | some (_, e) => lane1 s e ty x fun _ x acc => (ofU e.width (elemOf (elemsOf ty).2 k.toNat x), acc)
  | none => withRun s fun c => illegal c s

/-- A packed value with element k replaced (04 R133). -/
def insertElem (ty : Ty) (k : Nat) (x e : Bits) : Bits :=
  let (n, w) := elemsOf ty
  BitVec.ofNat 96 (joinElems w ((List.range n).map fun j => if j = k then e.toNat else elemOf w j x))

/-- `insert` (04 R133). -/
def execInsert (k : BitVec 4) (ty : Ty) (x e : Opnd) (s : State) : Out :=
  match ty.packed with
  | some (_, t) => lane2 s ty ty t x e fun _ x e acc => (insertElem ty k.toNat x e, acc)
  | none => withRun s fun c => illegal c s

end Sys2Proof.Machine
end

