-- ==== Sys2Proof/Machine/Translate.lean ====
section
/-! DEFINITION. What the translator finds in a function before any of it runs: portable indices and value numbers
(01 R24), the trap points (01 R19 to R26; 03 R82, R83; 16 R363), the call graph (01 R20), and the joins and ejectable
regions (05 R148, R149). -/
namespace Sys2Proof.Machine

/-! ### What an instruction reads and defines -/

/-- A use of a value: its number, and which types it accepts. -/
structure Use where
  n : Nat
  ok : Ty → Bool

/-- The use that an operand of type t makes. -/
def useOf (t : Ty) : Opnd → List Use
  | .val n => [⟨n.toNat, fun u => u == t⟩]
  | _ => []

/-- The uses of typed operands. -/
def usesOf (l : List (Ty × Opnd)) : List Use := l.flatMap fun (t, o) => useOf t o

/-- The uses of operands of one type. -/
def usesAll (t : Ty) (l : List Opnd) : List Use := l.flatMap (useOf t)

/-- Block references of a terminator, in the order written. -/
def instrTargets : Instr → List Target
  | .br t => [t]
  | .brc _ t f => [t, f]
  | .switch _ _ d ts => d.toList ++ ts
  | _ => []

/-- The terminators (01). -/
def isTerminator : Instr → Bool
  | .br _ | .brc _ _ _ | .switch _ _ _ _ | .ret | .retValue _ _ | .exit => true
  | _ => false

/-- The values that an instruction reads, apart from arguments of blocks and functions, whose types only the program
gives. -/
def instrUses : Instr → List Use
  | .brc c _ _ => useOf .i1 c
  | .switch ty i _ _ => useOf ty i
  | .retValue ty v => useOf ty v
  | .flagclr m => useOf .i8 m
  | .add ty a b | .sub ty a b | .mul ty a b | .mulhi _ ty a b | .sdiv ty a b | .udiv ty a b | .srem ty a b | .urem ty a b
  | .smin ty a b | .smax ty a b | .umin ty a b | .umax ty a b | .addsat _ ty a b | .subsat _ ty a b | .and ty a b
  | .or ty a b | .xor ty a b | .shl ty a b | .lshr ty a b | .ashr ty a b | .rotl ty a b | .rotr ty a b | .icmp _ ty a b
  | .fadd _ ty a b | .fsub _ ty a b | .fmul _ ty a b | .fdiv _ ty a b | .fmin ty a b | .fmax ty a b | .fcopysign ty a b
  | .fcmp _ ty a b => usesAll ty [a, b]
  | .neg ty a | .abs ty a | .not ty a | .popc ty a | .clz ty a | .ctz ty a | .brev ty a | .bswap ty a | .mov ty a
  | .fsqrt _ ty a | .fneg ty a | .fabs ty a | .fclass ty a | .frint _ ty a | .frcp _ ty a | .frsqrt _ ty a | .fexp2 _ ty a
  | .flog2 _ ty a | .fsin _ ty a | .fcos _ ty a | .ftanh _ ty a | .quadswap _ ty a | .matchLanes ty a | .wred _ _ ty a
  | .wscan _ _ _ ty a | .bcast ty a | .unpack _ ty a => useOf ty a
  | .bfext _ ty x p l => usesOf [(ty, x), (.i32, p), (.i32, l)]
  | .bfins ty x y p l => usesOf [(ty, x), (ty, y), (.i32, p), (.i32, l)]
  | .select ty c a b => usesOf [(.i1, c), (ty, a), (ty, b)]
  | .zext ty v | .sext ty v => [⟨v.toNat, fun t => (t == .i1 || t.isI) && t.width < ty.width⟩]
  | .trunc ty v => [⟨v.toNat, fun t => (t == .i1 || t.isI) && ty.width < t.width⟩]
  | .mad _ ty a b c => usesOf [(ty, a), (ty, b), (ty.double, c)]
  | .ptradd p o => useOf .ptr p ++ (match o with | .val n => [⟨n.toNat, fun t => t == .i64 || t == .i32⟩] | _ => [])
  | .ptrdiff a b => usesAll .ptr [a, b]
  | .ptrtag p | .ptrtoint p | .tagld p | .ld _ _ _ _ p | .prefetch _ p => useOf .ptr p
  | .ptrsettag p t | .tagst p t => usesOf [(.ptr, p), (.i8, t)]
  | .inttoptr x | .randseed x | .gateret x => useOf .i64 x
  | .fma _ ty a b c => usesAll ty [a, b, c]
  | .fdot2 _ ty a b c | .fdot4 _ ty a b c => usesOf [(ty, a), (ty, b), (.f32, c)]
  | .cvt _ sat sgn ty v => [⟨v.toNat, fun t => cvtOk sat sgn t ty⟩]
  | .bitcast ty v => [⟨v.toNat, fun t => bitcastOk t ty⟩]
  | .pack ty es => match ty.packed with | some (_, e) => usesAll e es | none => []
  | .insert _ ty x e => useOf ty x ++ (match ty.packed with | some (_, t) => useOf t e | none => [])
  | .bsquant _ _ a b c | .bsdequant _ _ a b c => usesAll .ptr [a, b, c]
  | .quadbcast ty x k => usesOf [(ty, x), (.i32, k)]
  | .shfl _ _ ty x i => usesOf [(ty, x), (.i32, i)]
  | .ballot c | .vote _ c => useOf .i1 c
  | .st _ _ _ ty p v | .atom _ _ _ ty p v | .xchg _ _ ty p v | .fatom _ _ _ ty p v => usesOf [(.ptr, p), (ty, v)]
  | .cas _ _ ty p e v => usesOf [(.ptr, p), (ty, e), (ty, v)]
  | .ldlay _ _ l p i0 i1 i2 => ⟨l.toNat, fun t => t == .lay⟩ :: usesOf [(.ptr, p), (.i32, i0), (.i32, i1), (.i32, i2)]
  | .stlay _ ty l p i0 i1 i2 v =>
      ⟨l.toNat, fun t => t == .lay⟩ :: usesOf [(.ptr, p), (.i32, i0), (.i32, i1), (.i32, i2), (ty, v)]
  | .laymake a b c d e f => usesAll .i32 [a, b, c, d, e, f]
  | .watchset a b c => usesOf [(.i32, a), (.i64, b), (.i64, c)]
  | .watchclr a | .mxlease a | .mxfmt a | .xrtverCur a => useOf .i32 a
  | .cbinit _ _ a b c d => usesOf [(.i32, a), (.ptr, b), (.i32, c), (.ptr, d)]
  | .cbwait _ h n | .cbadv h n => ⟨h.toNat, fun t => t == .cbh⟩ :: useOf .i32 n
  | .cbstat _ h => [⟨h.toNat, fun t => t == .cbh⟩]
  | .acopy s h d x l => ⟨h.toNat, fun t => t == .cbh⟩ ::
      usesOf [(if s == .dslot then .i64 else .ptr, d), (if s == .sslot then .i64 else .ptr, x), (.i64, l)]
  | .agather _ s h d w n i c => ⟨h.toNat, fun t => t == .cbh⟩ ::
      usesOf [(if s then .i64 else .ptr, d), (.ptr, w), (.i64, n), (.ptr, i), (.i32, c)]
  | .ascatter _ s h w x n i c => ⟨h.toNat, fun t => t == .cbh⟩ ::
      usesOf [(.ptr, w), (if s then .i64 else .ptr, x), (.i64, n), (.ptr, i), (.i32, c)]
  | .kstart _ _ _ _ h a b c d => ⟨h.toNat, fun t => t == .cbh⟩ :: usesOf [(.ptr, a), (.ptr, b), (.i32, c), (.ptr, d)]
  | .mxldb _ b x k => usesOf [(.ptr, b), (.ptr, x), (.i32, k)]
  | .mxzero _ t => useOf .i32 t
  | .mxst _ _ t d x => usesOf [(.i32, t), (.ptr, d), (.i32, x)]
  | .mxmma _ t a x k | .mxsmma _ t a x k => usesOf [(.i32, t), (.ptr, a), (.ptr, x), (.i32, k)]
  | .mxtma _ t a k => usesOf [(.i32, t), (.ptr, a), (.i32, k)]
  | .spawn q d => usesOf [(.i32, q), (.ptr, d)]
  | .ccwait _ c v | .ccadd _ c v => usesOf [(.ptr, c), (.i64, v)]
  | .gatecall _ g b l args => usesOf [(.i32, g), (.ptr, b), (.i32, l)] ++ usesAll .i64 args
  | .xprefetch f i l => usesOf [(.ptr, f), (.i32, i), (.i32, l)]
  | .ecount a b c | .xrtlook a b c => usesAll .i32 [a, b, c]
  | .xrtverChk a b c d => usesOf [(.i32, a), (.i32, b), (.i32, c), (.i64, d)]
  | .xrtverDone a d => usesOf [(.i32, a), (.i64, d)]
  | .rmerge _ h a b c d => ⟨h.toNat, fun t => t == .cbh⟩ :: usesOf [(.i32, a), (.i32, b), (.i64, c), (.i32, d)]
  | _ => []

/-- The type of the result that an instruction defines. -/
def instrResult : Instr → Option Ty
  | .call ty _ _ => ty
  | .flagrd | .ptrtag _ | .tagld _ | .mxrel => some .i8
  | .add ty _ _ | .sub ty _ _ | .mul ty _ _ | .mulhi _ ty _ _ | .sdiv ty _ _ | .udiv ty _ _ | .srem ty _ _ | .urem ty _ _
  | .smin ty _ _ | .smax ty _ _ | .umin ty _ _ | .umax ty _ _ | .addsat _ ty _ _ | .subsat _ ty _ _ | .and ty _ _
  | .or ty _ _ | .xor ty _ _ | .shl ty _ _ | .lshr ty _ _ | .ashr ty _ _ | .rotl ty _ _ | .rotr ty _ _
  | .fadd _ ty _ _ | .fsub _ ty _ _ | .fmul _ ty _ _ | .fdiv _ ty _ _ | .fmin ty _ _ | .fmax ty _ _ | .fcopysign ty _ _
  | .neg ty _ | .abs ty _ | .not ty _ | .popc ty _ | .clz ty _ | .ctz ty _ | .brev ty _ | .bswap ty _ | .mov ty _
  | .fsqrt _ ty _ | .fneg ty _ | .fabs ty _ | .frint _ ty _ | .frcp _ ty _ | .frsqrt _ ty _ | .fexp2 _ ty _
  | .flog2 _ ty _ | .fsin _ ty _ | .fcos _ ty _ | .ftanh _ ty _ | .quadswap _ ty _ | .wred _ _ ty _
  | .wscan _ _ _ ty _ | .bcast ty _ | .bfext _ ty _ _ _ | .bfins ty _ _ _ _ | .select ty _ _ _ | .zext ty _ | .sext ty _
  | .trunc ty _ | .fma _ ty _ _ _ | .cvt _ _ _ ty _ | .bitcast ty _ | .pack ty _ | .insert _ ty _ _ | .quadbcast ty _ _
  | .shfl _ _ ty _ _ | .rand ty | .ld _ _ _ ty _ | .ldlay _ ty _ _ _ _ _ | .atom _ _ _ ty _ _ | .xchg _ _ ty _ _
  | .cas _ _ ty _ _ _ | .fatom _ _ _ ty _ _ => some ty
  | .mad _ ty _ _ _ => some ty.double
  | .icmp _ _ _ _ | .fcmp _ _ _ _ | .vote _ _ | .elect => some .i1
  | .fclass _ _ | .laneid | .waveid | .groupid | .gridid _ | .watchset _ _ _ | .watchclr _ | .spawn _ _ => some .i32
  | .xrtlook _ _ _ | .xrtverCur _ | .xrtverChk _ _ _ _ | .xrtverDone _ _ => some .i64
  | .ptradd _ _ | .ptrsettag _ _ | .inttoptr _ => some .ptr
  | .ptrdiff _ _ | .ptrtoint _ | .sysread _ | .gatecall _ _ _ _ _ => some .i64
  | .fdot2 _ _ _ _ _ | .fdot4 _ _ _ _ _ => some .f32
  | .unpack _ ty _ => ty.packed.map (·.2)
  | .activemask | .ballot _ | .matchLanes _ _ => some .msk
  | .laymake _ _ _ _ _ _ => some .lay
  | .cbinit _ _ _ _ _ _ => some .cbh
  | .cbstat k _ => some k.ty
  | _ => none

/-! ### Reading a function's words -/

/-- One instruction as the walk over the text finds it: word offset, the instruction unless its encoding is undefined,
opcode and RES of its head word, and its debug line (03 R72); a trap point's debug line is not read, as its words are not. -/
structure PIns where
  off : Nat
  ins : Option Instr
  op : Nat
  res : Bool
  dline : Option Word

/-- The instructions of a text; none where one runs past the end (03 R83). -/
def readText : Nat → Nat → List Word → Option (List PIns)
  | 0, _, ws => if ws.isEmpty then some [] else none
  | fuel + 1, off, ws =>
    match ws with
    | [] => some []
    | h :: _ =>
      match skipInstr ws with
      | none => none
      | some rest =>
        let got := match decode ws with | .ok (d, _) => some d | .error _ => none
        (readText fuel (off + (ws.length - rest.length)) rest).map fun ps =>
          ⟨off, got.map (·.ins), (h.extractLsb' 0 10).toNat, h.getLsbD 28, got.bind (·.line)⟩ :: ps

/-- Whether an opcode is a terminator's. -/
def opTerminator (op : Nat) : Bool := 1 ≤ op && op ≤ 5

/-- Opcodes that an ejectable region may hold (05 R149). -/
def opEjectable (op : Nat) : Bool :=
  op < 0x184 || op == 0x190 || op == 0x191 || (0x200 ≤ op && op < 0x280 && op != 0x214 && op != 0x215) || op == 0x300

/-- Where a value is defined: its block, its instruction unless it is a block argument, its type if known. -/
structure ValDef where
  blk : Nat
  idx : Option Nat
  ty : Option Ty

/-- One instruction placed in its block, with the value number of its result. -/
structure Placed where
  p : PIns
  blk : Nat
  last : Bool
  res : Option Nat

/-- Places the instructions of block b, numbered from i, with value numbers from n. -/
def placeIns (b : Nat) : List PIns → Nat → Nat → List Placed × List ValDef
  | [], _, _ => ([], [])
  | p :: r, i, n =>
    let (ps, vs) := placeIns b r (i + 1) (if p.res then n + 1 else n)
    (⟨p, b, r.isEmpty, if p.res then some n else none⟩ :: ps,
     if p.res then ⟨b, some i, p.ins.bind instrResult⟩ :: vs else vs)

/-- Numbers the values of blocks from b on (01 R24): the blocks with their first value, the instructions, the values. -/
def placeBlocks : List Block → Nat → Nat → List PIns → List Block × List Placed × List ValDef
  | [], _, _, _ => ([], [], [])
  | k :: r, b, n, ps =>
    let len := match r with | q :: _ => q.first - k.first | [] => ps.length
    let (here, vs) := placeIns b (ps.take len) k.first (n + k.args.length)
    let (bs, more, ws) := placeBlocks r (b + 1) (n + k.args.length + vs.length) (ps.drop len)
    ({ k with val0 := n } :: bs, here ++ more, k.args.map (fun t => ⟨b, none, some t⟩) ++ vs ++ ws)

/-! ### Trap points that need no control graph -/

/-- Whether a use is lawful in type (01 R25); a value whose definition is itself undefined has no type to break. -/
def useTyped (vs : List ValDef) (u : Use) : Bool :=
  match vs[u.n]? with
  | some d => match d.ty with | some t => u.ok t | none => true
  | none => false

/-- The uses that arguments make, with their types, or none where an argument's kind or number is unlawful. -/
def argUses (ts : List Ty) (as : List Opnd) : Option (List Use) :=
  if ts.length = as.length ∧ (ts.zip as).all (fun (t, o) => o.ok t) then some (usesOf (ts.zip as)) else none

/-- The uses of a target's arguments, or none where the target is unlawful (01 R21). -/
def targetUses (bs : List Block) (t : Target) : Option (List Use) :=
  match bs[t.blk.toNat]? with
  | some b => if t.blk.toNat = 0 ∨ 64 < b.args.length then none else argUses b.args t.args
  | none => none

/-- All uses of an instruction, or none where its operands or structure break a rule outside dominance and the call graph
(01 R17 to R26; 04 R107). -/
def allUses (fs : List Func) (f : Func) (bs : List Block) (i : Instr) : Option (List Use) :=
  match i with
  | .call ty g as =>
    match fs.find? (·.sym == g.toNat) with
    | some h =>
      if h.kernel then none
      else if h.result ≠ ty then none
      else argUses (h.blocks.headD ⟨0, [], 0⟩).args as
    | none => none
  | .ret => if f.kernel ∨ f.result = none then some [] else none
  | .retValue ty v => if f.kernel = false ∧ f.result = some ty then some (useOf ty v) else none
  | i => ((instrTargets i).mapM (targetUses bs)).map fun l => instrUses i ++ l.flatten

/-- The uses of a placed instruction, or none where it is a trap point whatever the control graph. -/
def staticUses (fs : List Func) (f : Func) (bs : List Block) (vs : List ValDef) (q : Placed) : Option (List Use) :=
  match q.p.ins with
  | none => none
  | some i =>
    if isTerminator i ≠ q.last then none
    else
      match allUses fs f bs i with
      | some us => if us.all (useTyped vs) then some us else none
      | none => none

/-- A function under analysis: its blocks, its instructions, their uses (none: a trap point), and its values. -/
structure Draft where
  fn : Func
  blocks : List Block
  ins : List Placed
  uses : List (Option (List Use))
  vals : List ValDef

/-- A kernel parameter type that makes the kernel a trap point (03 R88). -/
def badParam (t : Ty) : Bool := t == .i1 || t == .t2 || t == .cbh

/-- The draft of a function, or none where it is translated whole as one trap point (01 R26; 03 R83, R88). -/
def draftOf (fs : List Func) (f : Func) : Option Draft :=
  match readText f.words.length 0 f.words with
  | none => none
  | some ps =>
    if ps.length ≠ f.ninstr then none
    else
      let (bs, ins, vs) := placeBlocks f.blocks 0 0 ps
      let params := (f.blocks.headD ⟨0, [], 0⟩).args
      if vs.length ≠ f.nvals ∨ 64 < params.length ∨ 2 ^ 24 < vs.length ∨ 2 ^ 24 < ps.length then none
      else if f.kernel ∧ params.any badParam then none
      else some ⟨f, bs, ins, ins.map (staticUses fs f bs vs), vs⟩

/-! ### The call graph (01 R20) -/

/-- The calls that the walk follows: portable index and callee. R20 has the walk follow every call but those it finds undefined
itself, and leaves open what it does with a call that is undefined for another reason: a call with a wrong argument or result type is
skipped, one that breaks dominance (01 R25) or stands at a heavy point (16 R363) is followed (the model's choice, log entry 22). -/
def Draft.calls (d : Draft) : List (Nat × Nat) :=
  ((d.ins.zip d.uses).zipIdx).filterMap fun ((q, u), i) =>
    match q.p.ins, u with
    | some (.call _ g _), some _ => some (i, g.toNat)
    | _, _ => none

/-- The walk from function f with the chain of functions above it; `fuel` is the number of calls the chain may still hold.
The undefined calls found are listed as (function, index). -/
def walkCalls (calls : Nat → List (Nat × Nat)) : Nat → List Nat → Nat → List (Nat × Nat) → List (Nat × Nat)
  | fuel, chain, f, bad =>
    (calls f).foldl (fun bad (i, g) =>
      if bad.contains (f, i) then bad
      else if (f :: chain).contains g then bad ++ [(f, i)]
      else match fuel with
        | 0 => bad ++ [(f, i)]
        | n + 1 => walkCalls calls n (f :: chain) g bad) bad

/-- A list with the first of equal numbers kept. -/
def dedupNat (l : List Nat) : List Nat := (l.foldl (fun a x => if a.contains x then a else x :: a) []).reverse

/-- Functions reached from a list along the calls given, by fuel. -/
def reachFuncs (calls : Nat → List (Nat × Nat)) : Nat → List Nat → List Nat
  | 0, l => l
  | n + 1, l => reachFuncs calls n (dedupNat (l ++ l.flatMap fun f => (calls f).map (·.2)))

/-- The calls of a module that close a cycle or pass the depth limit (01 R20). A function that only an undefined call names is one
that no kernel reaches. -/
def badCalls (ds : List Draft) : List (Nat × Nat) :=
  let calls := fun f => match ds.find? (·.fn.sym == f) with | some d => d.calls | none => []
  let kernels := (ds.filter (·.fn.kernel)).map (·.fn.sym)
  let bad := kernels.foldl (fun bad k => walkCalls calls 64 [] k bad) []
  let seen := reachFuncs (fun f => (calls f).filter fun (i, _) => !bad.contains (f, i)) ds.length kernels
  let rest := (ds.map (·.fn.sym)).filter fun f => !seen.contains f
  rest.foldl (fun bad f => walkCalls calls 64 [] f bad) bad

/-! ### Control graph and dominance (01 R23, R25) -/

/-- A set given by its members among the first n numbers. -/
abbrev Marks := List Bool

/-- The trap points of a draft as marks. -/
def Draft.traps (d : Draft) : Marks := d.uses.map (·.isNone)

/-- Whether an instruction is a terminator by its opcode. -/
def Placed.term (q : Placed) : Bool := opTerminator q.p.op

/-- The last instruction of block b with its index. -/
def Draft.lastOf (d : Draft) (b : Nat) : Option (Nat × Placed) :=
  (d.ins.zipIdx.find? fun (q, _) => q.blk == b && q.last).map fun (q, i) => (i, q)

/-- The successors of block b, and whether its path goes to the end node (03 R82; 05 R148). -/
def Draft.succs (d : Draft) (traps : Marks) (b : Nat) : List Nat × Bool :=
  if (d.ins.zip traps).any fun (q, t) => q.blk == b && t && q.term then ([], false)
  else
    match d.lastOf b with
    | some (i, q) =>
      if traps.getD i true then ([], false)
      else match q.p.ins with
        | some .ret | some (.retValue _ _) => ([], true)
        | some i => ((instrTargets i).map (·.blk.toNat), false)
        | none => ([], false)
    | none => ([], false)

/-- The blocks reachable from a list, by fuel, without entering `stop`. -/
def reachFrom (succ : Nat → List Nat) (stop : Nat → Bool) : Nat → List Nat → List Nat → List Nat
  | 0, _, seen => seen
  | n + 1, front, seen =>
    let new := dedupNat (front.filter fun b => !seen.contains b && !stop b)
    if new.isEmpty then seen else reachFrom succ stop n (new.flatMap succ) (seen ++ new)

/-- One round of the dominator equations: the dominators of every node from those of its predecessors. -/
def domRound (preds : Nat → List Nat) (root : Nat → Bool) (all : List Nat) (doms : List (Nat × List Nat)) : List (Nat × List Nat) :=
  doms.map fun (b, _) =>
    if root b then (b, [b])
    else
      let ins := (preds b).filterMap fun p => doms.lookup p
      (b, (match ins with | [] => all | x :: r => r.foldl (fun (a y : List Nat) => a.filter fun z => y.contains z) x).filter (· != b) ++ [b])

/-- Dominator sets after n rounds. -/
def domSets (preds : Nat → List Nat) (root : Nat → Bool) (all : List Nat) : Nat → List (Nat × List Nat)
  | 0 => all.map fun b => (b, if root b then [b] else all)
  | n + 1 => domRound preds root all (domSets preds root all n)

/-- Whether a use of value number n at instruction i of block b is dominated by its definition. -/
def dominated (vs : List ValDef) (doms : List (Nat × List Nat)) (b i n : Nat) : Bool :=
  match vs[n]? with
  | none => false
  | some d =>
    if d.blk = b then (match d.idx with | none => true | some j => j < i)
    else match doms.lookup b with
      | some l => l.contains d.blk
      | none => true

/-- The control graph of a draft with given trap points: reachable blocks and their dominators. -/
def Draft.graph (d : Draft) (traps : Marks) : List Nat × List (Nat × List Nat) :=
  let n := d.blocks.length
  let succ := fun b => (d.succs traps b).1
  let reach := reachFrom succ (fun _ => false) (n + 1) [0] []
  let preds := fun b => reach.filter fun p => (succ p).contains b
  (reach, domSets preds (· == 0) reach n)

/-- The trap points with the instructions added whose uses break dominance in the graph that `edges` makes: the marks of `traps` with
those instructions, only terminators where `term`. -/
def Draft.domTraps (d : Draft) (term : Bool) (edges traps : Marks) : Marks :=
  let (reach, doms) := d.graph edges
  ((d.ins.zip d.uses).zipIdx.zip traps).map fun (((q, u), i), t) =>
    t || ((!term || q.term) && reach.contains q.blk &&
      match u with | some us => !us.all (fun u => dominated d.vals doms q.blk i u.n) | none => true)

/-- What the rule decides of the terminators that break dominance, beyond the trap points `base`: a terminator is a trap point where its
use is undominated even without the edges of every terminator that may be one (`low`), and may be one where its use is undominated with
the edges of all but those (`up`). -/
def Draft.decided (d : Draft) (base : Marks) : Nat → Marks → Marks × Marks
  | 0, low => (low, low)
  | n + 1, low =>
    let up := d.domTraps true low base
    let low' := d.domTraps true up base
    if low' = low then (low, up) else d.decided base n low'

/-- The trap points of a draft (01 R25; 03 R82). A terminator that is a trap point has no edges, so each one found may make the uses of
others dominated. Where the rule decides none of the terminators left, as for one whose use only its own edges leave undominated, the
lowest portable index becomes a trap point (the model's choice, log entry 22). The other instructions follow from the graph. -/
def Draft.settle (d : Draft) : Nat → Marks → Marks
  | 0, t => d.domTraps false t t
  | n + 1, t =>
    let (low, up) := d.decided t (d.ins.length + 1) t
    match (up.zip low).findIdx? fun (u, l) => u && !l with
    | none => d.domTraps false low low
    | some i => d.settle n (low.set i true)

/-! ### Live values (16 R363) -/

/-- The units that a value counts at a point (16 R363). -/
def valUnits (d : ValDef) : Nat :=
  match d.ty with
  | some .lay => 3
  | some .i64 | some .ptr => 2
  | _ => 1

/-- The values that an instruction reads. -/
def readsOf (traps : Marks) (i : Nat) (u : Option (List Use)) : List Nat :=
  if traps.getD i true then [] else match u with | some us => us.map (·.n) | none => []

/-- The live values before each instruction of a list, from those live after it; the last entry is what is live after. -/
def liveBack (traps : Marks) : List ((Placed × Option (List Use)) × Nat) → List Nat → List (List Nat)
  | [], out => [out]
  | ((q, u), i) :: r, out =>
    let rest := liveBack traps r out
    let after := rest.headD []
    let here := (match q.res with | some v => after.filter (· != v) | none => after) ++ readsOf traps i u
    dedupNat here :: rest

/-- The instructions of block b. -/
def Draft.body (d : Draft) (b : Nat) : List ((Placed × Option (List Use)) × Nat) :=
  (d.ins.zip d.uses).zipIdx.filter fun ((q, _), _) => q.blk == b

/-- Values live at the start of each block after n rounds, block arguments apart. -/
def Draft.liveIn (d : Draft) (traps : Marks) : Nat → List (List Nat)
  | 0 => d.blocks.map fun _ => []
  | n + 1 =>
    let prev := d.liveIn traps n
    d.blocks.zipIdx.map fun (k, b) =>
      let out := dedupNat ((d.succs traps b).1.flatMap fun s => prev.getD s [])
      ((liveBack traps (d.body b) out).headD []).filter fun v => !(k.val0 ≤ v && v < k.val0 + k.args.length)

/-- The instructions at which more than 512 units are live. -/
def Draft.heavy (d : Draft) (traps : Marks) : List Nat :=
  let ins := d.liveIn traps (d.blocks.length + 1)
  d.blocks.zipIdx.flatMap fun (_, b) =>
    let out := dedupNat ((d.succs traps b).1.flatMap fun s => ins.getD s [])
    let body := d.body b
    ((body.map (·.2)).zip (liveBack traps body out)).filterMap fun (i, l) =>
      if 512 < (l.map fun v => match d.vals[v]? with | some x => valUnits x | none => 0).sum then some i else none

/-! ### Joins and ejectable regions (05 R148, R149) -/

/-- The join block of the branch that ends block b; `n` is the end node. -/
def Draft.joinOf (d : Draft) (traps : Marks) (b : Nat) : Option Nat :=
  let n := d.blocks.length
  let succ := fun x => if x = n then [] else let (l, e) := d.succs traps x; if e then [n] else l
  let nodes := List.range (n + 1)
  let good := nodes.filter fun x => (reachFrom succ (fun _ => false) (n + 2) [x] []).contains n
  let next := fun x => (succ x).filter fun y => good.contains y
  if good.contains b then
    let pd := domSets next (· == n) good (n + 1)
    let mine := ((pd.lookup b).getD []).filter (· != b)
    let best := mine.find? fun j => ((pd.lookup j).getD []).length == mine.length
    best.bind fun j => if j = n then none else some j
  else none

/-- Whether a function holds only opcodes that may be ejected, with those it calls, by fuel. -/
def funcEjectable (ds : List Draft) : Nat → Nat → Bool
  | 0, _ => false
  | n + 1, f =>
    match ds.find? (·.fn.sym == f) with
    | none => false
    | some d => d.ins.all fun q => opEjectable q.p.op && (match q.p.ins with | some (.call _ g _) => funcEjectable ds n g.toNat | _ => true)

/-- The targets of the branch that ends block b whose regions are ejectable, given the join. -/
def Draft.ejectable (d : Draft) (ds : List Draft) (traps : Marks) (i : Instr) (j : Nat) : List Nat :=
  let n := d.blocks.length
  (dedupNat ((instrTargets i).map (·.blk.toNat))).filter fun t =>
    let region := reachFrom (fun x => (d.succs traps x).1) (· == j) (n + 1) [t] []
    !region.isEmpty && d.ins.all fun q =>
      !region.contains q.blk ||
      (opEjectable q.p.op && (match q.p.ins with | some (.call _ g _) => funcEjectable ds 66 g.toNat | _ => true))

/-! ### The function as it runs -/

/-- The function that is one trap point at index 0 (03 R83). -/
def wholeTrap (f : Func) : Func := { f with points := [⟨0, 0, none, true, none, [], none⟩], whole := true }

/-- The points of a draft. -/
def Draft.finish (d : Draft) (ds : List Draft) (bad : List (Nat × Nat)) : Func :=
  let t0 := d.traps.zipIdx.map fun (t, i) => t || bad.contains (d.fn.sym, i)
  let t1 := d.settle d.ins.length t0
  let hv := d.heavy t1
  let t2 := t1.zipIdx.map fun (t, i) => t || hv.contains i
  let pts := (d.ins.zip t2).map fun (q, t) =>
    let br := match q.p.ins with
      | some (.brc _ _ _) | some (.switch _ _ _ _) => !t
      | _ => false
    let j := if br then d.joinOf t2 q.blk else none
    let first := fun b => (d.blocks.getD b ⟨0, [], 0⟩).first
    { off := q.p.off, blk := q.blk, res := q.res, trap := t, join := j.map first,
      eject := match j, q.p.ins with | some j, some i => d.ejectable ds t2 i j | _, _ => [], dline := q.p.dline : Point }
  { d.fn with blocks := d.blocks, points := pts }

/-- The functions of a module as the translator finds them. -/
def translateFuncs (fs : List Func) : List Func :=
  let ds := fs.filterMap (draftOf fs)
  let bad := badCalls ds
  fs.map fun f =>
    match ds.find? (·.fn.sym == f.sym) with
    | some d => d.finish ds bad
    | none => wholeTrap f

end Sys2Proof.Machine
end

