-- ==== Sys2Proof/Machine/Slots.lean ====
section
/-! DEFINITION. Bundles and their slots (15 R327 to R344, R356): the operation of each slot with the places of its operands and its
result, the registers that it reads and writes, and what makes a bundle illegal. -/
namespace Sys2Proof.Machine

/-! ### Registers that operands and results take (15 R331) -/

/-- Whether values of a type take a register pair (15 R331). -/
def pairTy (t : Ty) : Bool := t == .i64 || t == .ptr

/-- Keys of registers: vector, scalar, mask, staging and loop counter. -/
def vKey (r : Nat) : Nat := r
def sKey (r : Nat) : Nat := 256 + r
def mKey (r : Nat) : Nat := 512 + r
def stgKey (r : Nat) : Nat := 768 + r
def lcKey (r : Nat) : Nat := 1024 + r

/-- The kind of a register key: 0 vector, 1 scalar, 2 mask, 3 staging, 4 loop counter. -/
def regKind (k : Nat) : Nat := k / 256

/-- Whether a register lies in the window of a key (16 R358, R360). -/
def keyHolds (k : XlateKey) (r : Nat) : Bool :=
  if r < 256 then decide (r < k.vwin) else if r < 512 then decide (r < 256 + k.swin) else if r < 768 then decide (r < 512 + k.mwin) else true

/-- Vector registers that a value of a width takes. -/
def regsOfWidth (n : Nat) : Nat := if n ≤ 32 then 1 else if n ≤ 64 then 2 else 3

/-- Vector registers that operand k of an operation takes: those of its type; one where it may have several types of which some take one
register. -/
def operandRegs (i : Instr) (k : Nat) : Nat :=
  match (instrUses i).find? (·.n == k) with
  | some u =>
    if [Ty.i1, .i8, .i16, .i32, .f32, .f16, .bf16, .e4m3, .e5m2, .t2, .msk, .cbh, .v2bf16, .v2f16, .v4e4m3, .v4e5m2, .v4i8, .v8e2m1,
        .v16t2].any u.ok then 1
    else if u.ok .i64 || u.ok .ptr then 2
    else if u.ok .lay then 3 else 1
  | none => 1

/-- Vector registers that the result of an operation takes; 0 without one. -/
def resultRegs (i : Instr) : Nat := match instrResult i with | some t => regsOfWidth t.width | none => 0

/-- The registers of a source whose value takes n vector registers. -/
def NSrc.keys (n : Nat) : NSrc → List Nat
  | .v r => (List.range n).map fun k => vKey (r + k)
  | .s r => [sKey r]
  | .imm _ => []
  | .stg k | .stgHi k | .stgNwin k => [stgKey k]
  | .lay r => [sKey r, sKey (r + 1)]
  | .layPtr r => [sKey (r + 1)]

/-- The registers of a destination whose value takes n vector registers. -/
def NDst.keys (n : Nat) : NDst → List Nat
  | .none => []
  | .v r => (List.range n).map fun k => vKey (r + k)
  | .s r => if n = 0 then [] else [sKey r]

/-- Whether a source or a destination names a pair by an odd register (15 R331). -/
def NSrc.odd (n : Nat) : NSrc → Bool
  | .v r => n == 2 && r % 2 == 1
  | _ => false

def NDst.odd (n : Nat) : NDst → Bool
  | .v r => n == 2 && r % 2 == 1
  | _ => false

/-- The registers behind a mask field; MK 0 names none. -/
def maskKeys (mk : Nat) : List Nat := if mk = 0 then [] else [mKey mk]

/-! ### A slot -/

/-- A slot of a bundle: its code in map-back entries, its operation, the places of its operands with their types and of its result, the
mask register, the registers that it reads and writes, those of its results that land later, and whether it is a FIX load. Where an
operand may have one of several types that no field of the slot states, `alts` lists those of operand 0 (log entry 36). -/
structure NSlot where
  code : Nat
  op : Instr
  srcs : List (NSrc × Ty)
  dst : NDst
  mreg : Nat
  reads : List Nat
  writes : List Nat
  late : List Nat
  fix : Bool
  alts : List Ty
  /-- FSEL and FSH of an X slot -/
  fsel : Nat
  fsh : Nat
  deriving DecidableEq, Repr

/-- The portable instruction with an opcode, a type and a modifier whose operands are values 0, 1, …: the first form that the
portable encoding has among the given types and operand counts. -/
def slotInstr (op mod : Nat) (tys ns : List Nat) : Option (Instr × Nat) :=
  (ns.flatMap fun n => tys.flatMap fun t => [(n, t, true), (n, t, false)]).findSome? fun (n, t, res) =>
    match fromRaw ⟨op, t, mod, res, (List.range n).map fun k => .val (BitVec.ofNat 24 k), []⟩ with
    | .ok i => some (i, n)
    | .error _ => none

/-- A slot that is no native-only operation; none where it names a pair by an odd register (15 R331, R356). -/
def mkSlot (code : Nat) (op : Instr) (srcs : List NSrc) (dst : NDst) (mreg : Nat) (late : Bool) : Option NSlot :=
  let ns := srcs.zipIdx.map fun (x, k) => (x, operandRegs op k)
  let n := resultRegs op
  if (ns.any fun (x, n) => x.odd n) || dst.odd n then none
  else
    let ws := dst.keys n
    some { code, op, srcs := srcs.map fun x => (x, .i64), dst, mreg, reads := (ns.flatMap fun (x, n) => x.keys n) ++ maskKeys mreg,
           writes := ws, late := if late then ws else [], fix := false, alts := [], fsel := 0, fsh := 0 }

/-- The types that the source of a conversion may have, where the slot states only the type of the result: for `zext`, `trunc` and
`bitcast` one that gives the value whichever it is, for `sext` and `cvt` every lawful one that the register can hold. -/
def convTypes (i : Instr) (src : NSrc) : List Ty :=
  let one := match src with | .v r => r % 2 == 1 | .imm _ => true | _ => false
  let all := [Ty.i1, .i8, .i16, .i32, .f32, .f16, .bf16, .e4m3, .e5m2, .t2] ++ (if one then [] else [Ty.i64])
  match i with
  | .zext t _ => if t = .i64 then [.i32] else if t = .i32 then [.i16] else if t = .i16 then [.i8] else [.i1]
  | .trunc t _ => if t = .i32 ∨ !one then [.i64] else if t = .i16 then [.i32] else if t = .i8 then [.i16] else [.i8]
  | .bitcast t _ => [if t = .cbh then .i32 else t]
  | .sext t _ => all.filter fun u => (u == .i1 || u.isI) && decide (u.width < t.width)
  | .cvt _ sat sgn t _ => all.filter fun u => cvtOk sat sgn u t
  | _ => []

/-- A slot with the types of its operands: those of a conversion's source (15 R335; log entry 36), and the offset of `ptradd`, an `i32`
where its register can be no pair. -/
def NSlot.typed (q : NSlot) : NSlot :=
  match q.op, q.srcs with
  | .ptradd _ _, [x, (.v r, _)] =>
    if r % 2 = 1 then { q with srcs := [x, (.v r, .i32)] } else { q with reads := q.reads ++ [vKey (r + 1)] }
  | _, (x, _) :: rest =>
    match convTypes q.op x with
    | [] => q
    | t :: ts => { q with srcs := (x, t) :: rest, alts := t :: ts }
  | _, [] => q

/-! ### Scalar, vector and special-function slots (15 R333 to R337) -/

/-- Type codes that an S slot's width may stand for (15 R333). -/
def widthTys (w : Nat) : List Nat :=
  match w with
  | 0 => [Ty.i8.code, Ty.i1.code, 0]
  | 1 => [Ty.i16.code, 0]
  | 2 => [Ty.i32.code, Ty.msk.code, 0]
  | _ => [Ty.i64.code, Ty.ptr.code, 0]

/-- An S slot that is not native-only (15 R333, R334). -/
def sSlot (code : Nat) (w long : Word) : Option NSlot :=
  let f := readSSlot w long
  let op := (w.extractLsb' 0 10).toNat
  let lg := 2 ≤ f.x.toNat
  let allowed := (0x040 ≤ op && op ≤ 0x065) || (0x070 ≤ op && op ≤ 0x076) || op == 0x181 || op == 0x182 || op == 0x183
  if !allowed then none
  else
    let mod := if lg then (long.extractLsb' 0 8).toNat else 0
    let b : NSrc :=
      if f.x = 1 then .imm (ofU 96 ((f.b.signExtend 64).toNat))
      else if f.x = 3 then .imm (ofU 96 (((long.extractLsb' 8 24).signExtend 64).toNat))
      else .s f.b.toNat
    let srcs := [NSrc.s f.a.toNat, b] ++
      (if f.x = 2 then [NSrc.s (long.extractLsb' 8 6).toNat, NSrc.s (long.extractLsb' 14 6).toNat] else [])
    (slotInstr op mod (widthTys f.w.toNat) (List.range (srcs.length + 1)).reverse).bind fun (i, n) =>
      (mkSlot code i (srcs.take n) (.s f.d.toNat) 0 false).map NSlot.typed

/-- Whether a portable opcode may stand in a V slot (15 R332). -/
def vAllowed (op : Nat) (ty : Ty) : Bool :=
  op == 0x008 || op == 0x009 || (0x040 ≤ op && op ≤ 0x065) || (0x070 ≤ op && op ≤ 0x076) ||
  (0x0C0 ≤ op && op ≤ 0x0CF && ((op != 0x0C3 && op != 0x0C5) || !ty.isFT)) ||
  (0x140 ≤ op && op ≤ 0x144) || (0x180 ≤ op && op ≤ 0x18D) || (0x190 ≤ op && op ≤ 0x192)

/-- The B operand of a V slot (15 R336). -/
def vSrc (v : VSlot) : NSrc :=
  if v.bs then (if v.b.getLsbD 6 then .imm (match v.ext with | some x => ofU 32 x.imm.toNat | none => 0) else .s (v.b.toNat % 64))
  else .v v.b.toNat

/-- A V slot that is not native-only (15 R335, R336). `pack` of eight or sixteen elements, for which the slot has no fields, takes them
from v(A) on (log entry 36). -/
def vSlot (code : Nat) (v : BitVec 44) (w : BitVec 2) (ext : Option (BitVec 44)) : Option NSlot :=
  (readVSlot v w ext).bind fun f =>
    let op := (v.extractLsb' 0 10).toNat
    if !vAllowed op f.type ∨ !f.ok then none
    else
      let mod := f.modl.toNat + (match f.ext with | some x => 16 * x.modh.toNat | none => 0)
      let c : NSrc := match f.ext with
        | some x => if x.cs then .s (x.c.toNat % 64) else .v x.c.toNat
        | none => .v 0
      let srcs := [NSrc.v f.a.toNat, vSrc f, c, NSrc.v f.d.toNat]
      let ns := if f.ext.isSome then [4, 3, 2, 1, 0] else [2, 1, 0]
      let tys := match f.ty with | some t => [t.code, 0] | none => [0]
      (slotInstr op mod tys (if op = 0x142 then [16, 8] ++ ns else ns)).bind fun (i, n) =>
        (mkSlot code i (if 4 < n then (List.range n).map fun k => NSrc.v (f.a.toNat + k) else srcs.take n)
          (.v f.d.toNat) f.mask.toNat false).map NSlot.typed

/-- An F slot (15 R337). -/
def fSlot (code : Nat) (x : BitVec 28) : Option NSlot :=
  let op := 0x0C0 + (x.extractLsb' 0 5).toNat
  let a := (x.extractLsb' 12 7).toNat
  let ty : Option Ty := match (x.extractLsb' 19 2).toNat with | 0 => some .f32 | 1 => some .f16 | 2 => some .bf16 | _ => none
  let allowed := op == 0x0C3 || op == 0x0C5 || (0x0D0 ≤ op && op ≤ 0x0D6)
  if !allowed ∨ x.getLsbD 27 ∨ (op = 0x0C3 ∧ a % 2 = 1) then none
  else
    ty.bind fun t =>
      (slotInstr op (x.extractLsb' 21 3).toNat [t.code] [if op = 0x0C3 then 2 else 1]).bind fun (i, n) =>
        mkSlot code i (([NSrc.v a, NSrc.v (a + 1)] : List NSrc).take n) (.v (x.extractLsb' 5 7).toNat) (x.extractLsb' 24 3).toNat false

/-! ### Memory slots (15 R338) -/

/-- An M slot that is not a spill or a fill. -/
def mSlot (code : Nat) (m : BitVec 44) : Option NSlot :=
  let op := (m.extractLsb' 0 10).toNat
  let a := (m.extractLsb' 22 7).toNat
  let d := (m.extractLsb' 15 7).toNat
  let mod := (m.extractLsb' 30 8).toNat
  let ty := (m.extractLsb' 10 5).toNat
  let mk := (m.extractLsb' 38 3).toNat
  let fix := m.getLsbD 41
  let as := m.getLsbD 29
  let addr : NSrc := if as then .s (a % 64) else .v a
  let block := op == 0x145 || op == 0x146
  let wide := match Ty.ofCode ty with | some t => pairTy t | none => false
  if (!block ∧ m.extractLsb' 42 2 ≠ 0) ∨ (fix ∧ !block ∧ op ≠ 0x200 ∧ op ≠ 0x202) ∨ (as ∧ block) then none
  else
    let mk1 := fun (mod : Nat) (srcs : List NSrc) (dst : NDst) (late : Bool) =>
      (slotInstr op mod [ty] [srcs.length]).bind fun (i, _) =>
        (mkSlot code i srcs dst mk late).map fun q => { q with fix := fix && !block }
    match op with
    | 0x200 => mk1 mod [addr] (.v d) (!fix)
    | 0x201 => mk1 mod [addr, .v d] .none false
    | 0x208 | 0x209 | 0x20B => mk1 mod [addr, .v d] (.v d) true
    | 0x20A => mk1 mod [addr, .v d, .v (if wide then d + 2 else d + 1)] (.v d) true
    | 0x20C => if d ≠ 0 ∨ a ≠ 0 ∨ as then none else mk1 mod [] .none false
    | 0x210 => mk1 mod [addr] (.v d) true
    | 0x211 => mk1 mod [addr, .v d] .none false
    | 0x218 => if d ≠ 0 then none else mk1 mod [addr] .none false
    | 0x202 | 0x203 =>
      let l := 2 * (mod / 8)
      let srcs := [NSrc.lay l, .layPtr l, .v a, .v (a + 1), .v (a + 2)]
      if as then none
      else if op = 0x202 then mk1 (mod % 8) srcs (.v d) (!fix)
      else mk1 (mod % 8) (srcs ++ [.v d]) .none false
    | 0x145 | 0x146 =>
      if mod / 128 = 1 then none else mk1 (m.extractLsb' 41 3).toNat [.v d, .v a, .v (mod % 128)] .none false
    | _ => none

/-! ### Engine slots (15 R340, R341) -/

/-- An X slot (15 R340). -/
def xSlot (x : BitVec 28) : Option NSlot :=
  let op := (x.extractLsb' 0 10).toNat
  let flag := x.getLsbD 17
  let sh := (x.extractLsb' 15 2).toNat
  let mod := if op = 0x292 then flag.toNat else if op = 0x294 then sh + 4 * flag.toNat else sh
  let fsel := (x.extractLsb' 10 3).toNat
  if x.extractLsb' 18 10 ≠ 0 ∨ !(0x290 ≤ op && op ≤ 0x298) ∨ 4 < fsel ∨ (flag ∧ op ≠ 0x292 ∧ op ≠ 0x294) then none
  else
    (slotInstr op mod (List.range 32) [4, 3, 1, 0]).bind fun (i, n) =>
      (mkSlot 12 i ((List.range n).map NSrc.stg) .none 0 false).map fun q =>
        { q with fsel, fsh := (x.extractLsb' 13 2).toNat, reads := q.reads ++ (if fsel = 0 then [] else [lcKey (fsel - 1)]) }

/-- A C slot (15 R341). -/
def cSlot (x : BitVec 28) : Option NSlot :=
  let op := (x.extractLsb' 0 10).toNat
  let mod := (x.extractLsb' 10 8).toNat
  let d := (x.extractLsb' 18 6).toNat
  let mk := (x.extractLsb' 24 3).toNat
  let cmd : Option (List NSrc) :=
    if op = 0x288 then some [.stg 15, .stg 8, .stg 9, .stg 10]
    else if op = 0x289 ∨ op = 0x28A then some [.stg 15, .stg 8, .stg 9, .stgNwin 10, .stg 11, .stg 12]
    else none
  if x.getLsbD 27 then none
  else
    match cmd with
    | some srcs => (slotInstr op mod [0] [srcs.length]).bind fun (i, _) => mkSlot 13 i srcs .none mk false
    | none =>
      if 0x280 ≤ op ∧ op ≤ 0x283 then
        (slotInstr op mod (List.range 32) [4, 2, 1]).bind fun (i, n) =>
          mkSlot 13 i ((List.range n).map fun k => NSrc.stg (8 + k)) (.s d) mk true
      else none

/-- A K slot (15 R341); `gateArgs` is the number of values that the portable `gatecall` at the slot's point passes. -/
def kSlot (gateArgs : Nat) (x : BitVec 24) : Option NSlot :=
  let op := (x.extractLsb' 0 10).toNat
  let mod := (x.extractLsb' 10 8).toNat
  let d := (x.extractLsb' 18 6).toNat
  let allowed := op == 0x18E || op == 0x18F || op == 0x28C || op == 0x214 || op == 0x215 || (0x300 ≤ op && op ≤ 0x303) ||
    op == 0x308 || op == 0x309 || op == 0x310 || (0x318 ≤ op && op ≤ 0x31B)
  if !allowed then none
  else if op = 0x28C then
    (slotInstr op mod [0] [5]).bind fun (i, _) => mkSlot 14 i [.stgHi 18, .stg 16, .stg 17, .stg 18, .stg 19] .none 0 false
  else if op = 0x31B then
    (slotInstr op mod (List.range 32) [5]).bind fun (i, _) => mkSlot 14 i [.stg 16, .stg 17, .stg 18, .stg 19, .v (2 * d)] .none 0 false
  else if op = 0x308 then
    let ops := ([NSrc.stg 16, .stg 17, .stg 18, .stg 19] ++ (List.range 7).map fun k => NSrc.v (2 * d + 2 * k)).take (3 + gateArgs)
    (slotInstr op mod (List.range 32) [ops.length]).bind fun (i, _) => mkSlot 14 i ops (.v (2 * d)) 0 true
  else
    (slotInstr op mod (List.range 32) [4, 3, 2, 1, 0]).bind fun (i, n) =>
      mkSlot 14 i ((List.range n).map fun k => NSrc.stg (16 + k)) (if op = 0x214 ∨ op = 0x215 then .s d else .v (2 * d)) 0 true

/-! ### Native-only operations (15 R343, R344) -/

/-- The register of a spill. -/
def spillKey (k : SpillKind) (r : Nat) : Nat := match k with | .vector => vKey r | .scalar => sKey r | .mask => mKey r

/-- A native-only operation as a slot, with the registers that it reads and writes and those that land later. -/
def ownSlot (code : Nat) (i : Instr) : NSlot :=
  let q := fun (mreg : Nat) (reads writes late : List Nat) =>
    (⟨code, i, [], .none, mreg, reads ++ maskKeys mreg, writes, late, false, [], 0, 0⟩ : NSlot)
  match i with
  | .nmov v => q v.mask.toNat ((vSrc v).keys (regsOfWidth v.type.width)) ((NDst.v v.d.toNat).keys (regsOfWidth v.type.width)) []
  | .nvtos v => q v.mask.toNat ((NSrc.v v.a.toNat).keys (regsOfWidth v.type.width)) [sKey (v.d.toNat % 64)] []
  | .nstgv v => q v.mask.toNat ((NSrc.v v.a.toNat).keys (regsOfWidth v.type.width)) [stgKey v.d.toNat] []
  | .nmask v => q v.mask.toNat [vKey v.a.toNat] [mKey v.d.toNat] []
  | .nmaskv v => q v.mask.toNat [mKey (v.a.toNat % 8)] [vKey v.d.toNat] []
  | .nmovs f => q 0 [sKey f.a.toNat] [sKey f.d.toNat] []
  | .nstg f => q 0 [sKey f.a.toNat] [stgKey f.d.toNat] []
  | .nlit _ clr d _ _ _ => q 0 (if clr then [] else [sKey d.toNat]) [sKey d.toNat] []
  | .nlcset n _ _ _ a => q 0 [sKey a.toNat] [lcKey n.toNat] []
  | .nfill k r _ => q 0 [] [spillKey k r.toNat] [spillKey k r.toNat]
  | .nspill k r _ => q 0 [spillKey k r.toNat] [] []
  | _ => q 0 [] [] []

/-! ### Bundles (15 R327 to R329, R332 to R336, R355, R356) -/

/-- A bundle: header, slots other than B, and the B slot (15 R327, R328). -/
structure Bundle where
  safe : Bool
  slots : List NSlot
  b : Word
  deriving DecidableEq, Repr

/-- One slot field: empty where it is all zeros, none where it is illegal. -/
def fieldSlot (x : Nat) (a b : Option NSlot) : Option (List NSlot) :=
  if x = 0 then some []
  else match a with
    | some y => some [y]
    | none => b.map fun y => [y]

/-- Joins slot fields; none where one is illegal. -/
def joinSlots : List (Option (List NSlot)) → Option (List NSlot)
  | [] => some []
  | some a :: r => (joinSlots r).map fun t => a ++ t
  | none :: _ => none

/-- Lane groups of a width code (15 R328). -/
def groupsOf (w : Nat) : Nat := if w = 0 then 0 else if w = 1 then 1 else if w = 2 then 2 else 4

/-- An S slot field: X 2 and 3 stand in S0 alone, with S1 as the long word, whose bits [31:20] are 0 under X 2; S0L is set for no other
(15 R329, R334, R356). -/
def scalarField (code : Nat) (x : Word) (long : Option Word) : Option (List NSlot) :=
  let wants := decide (2 ≤ (x.extractLsb' 30 2).toNat)
  let lg := long.getD 0
  if wants != long.isSome ∨ (x.extractLsb' 30 2 = 2 ∧ lg.extractLsb' 20 12 ≠ 0) then none
  else fieldSlot x.toNat ((decodeNativeS x lg).map (ownSlot code)) (sSlot code x lg)

/-- The bundle in a line for a core: none where it is illegal; `gateArgs` counts the values of a `gatecall` in its K slot. -/
def readBundle (gateArgs : Nat) (w3 half : Bool) (l : BitVec 512) : Option Bundle :=
  let f := fun (lo n : Nat) => l.toNat / 2 ^ lo % 2 ^ n
  let s0l := f 2 1 == 1
  let v0x := f 3 1 == 1
  let v2x := f 4 1 == 1
  let w := fun (k : Nat) => f (5 + 2 * k) 2
  let limit := (if w3 then 10 else 6) / (if half then 2 else 1)
  let vf := fun (k : Nat) => BitVec.ofNat 44 (f (80 + 44 * k) 44)
  let wd := fun (k : Nat) => BitVec.ofNat 2 (w k)
  let vl := fun (code k : Nat) (ext : Option (BitVec 44)) =>
    fieldSlot (vf k).toNat ((decodeNativeV (vf k) (wd k) ext).map (ownSlot code)) (vSlot code (vf k) (wd k) ext)
  let ml := fun (code k : Nat) =>
    let x := BitVec.ofNat 44 (f (312 + 44 * k) 44)
    fieldSlot x.toNat ((decodeNativeM x).map (ownSlot code)) (mSlot code x)
  let bad := f 1 1 == 1 || decide (limit < groupsOf (w 0) + groupsOf (w 1) + groupsOf (w 2) + groupsOf (w 3)) ||
    (v0x && (w 0 == 0 || w 1 != 0)) || (v2x && (w 2 == 0 || w 3 != 0)) ||
    ((List.range 4).any fun k => (vf k).toNat == 0 && w k != 0) ||
    (half && ((!s0l && f 48 32 != 0) || f 168 44 != 0 || f 212 44 != 0 || f 284 28 != 0 || f 356 44 != 0))
  if bad then none
  else
    (joinSlots [scalarField 1 (BitVec.ofNat 32 (f 16 32)) (if s0l then some (BitVec.ofNat 32 (f 48 32)) else none),
      if s0l then some [] else scalarField 2 (BitVec.ofNat 32 (f 48 32)) none, vl 3 0 (if v0x then some (vf 1) else none),
      if v0x then some [] else vl 4 1 none, vl 5 2 (if v2x then some (vf 3) else none), if v2x then some [] else vl 6 3 none,
      fieldSlot (f 256 28) (fSlot 7 (BitVec.ofNat 28 (f 256 28))) none, fieldSlot (f 284 28) (fSlot 8 (BitVec.ofNat 28 (f 284 28))) none,
      ml 9 0, ml 10 1, fieldSlot (f 432 28) (xSlot (BitVec.ofNat 28 (f 432 28))) none,
      fieldSlot (f 460 28) (cSlot (BitVec.ofNat 28 (f 460 28))) none,
      fieldSlot (f 488 24) (kSlot gateArgs (BitVec.ofNat 24 (f 488 24))) none]).map fun ss => ⟨f 0 1 == 1, ss, BitVec.ofNat 32 (f 400 32)⟩

/-- The values that the portable `gatecall` at a point passes (20 R437); no field of the K slot counts them. -/
def Func.gateArgs (f : Func) (i : Nat) : Nat := match f.instrAt i with | some (.gatecall _ _ _ _ args, _) => args.length | _ => 8

/-- Whether a B slot is legal (15 R332, R339); in a modulo body it is empty. -/
def branchOk (inBody : Bool) (w : Word) : Bool :=
  let op := w.toNat % 1024
  if w = 0 then true
  else if inBody then false
  else if op = 0x001 ∨ op = 0x002 ∨ op = 0x003 ∨ op = 0x006 then true
  else if op = 0x004 ∨ op = 0x005 then w.toNat / 1024 == 0
  else if op = 0x007 then w.toNat / 2 ^ 26 == 0
  else (decodeNativeB w).isSome

/-- The registers that a B slot reads: the mask of `brc`, the index of `switch`, the loop counter of `nloop` (15 R339, R349). -/
def branchReads (w : Word) : List Nat :=
  match w.toNat % 1024 with
  | 0x002 => maskKeys (w.toNat / 2 ^ 10 % 8)
  | 0x003 => [vKey (w.toNat / 2 ^ 10 % 128)]
  | 0x389 => [lcKey (w.toNat / 2 ^ 10 % 4)]
  | _ => []

/-- The registers that a slot names. -/
def NSlot.names (q : NSlot) : List Nat := q.reads ++ q.writes

/-- Whether the registers of a bundle lie in the window of the translation's key (15 R356; 16 R358, R360). -/
def Bundle.inWindow (k : XlateKey) (b : Bundle) : Bool := (b.slots.all fun q => q.names.all (keyHolds k)) && (branchReads b.b).all (keyHolds k)

end Sys2Proof.Machine
end

