-- ==== Sys2Proof/Machine/Native.lean ====
section
/-! DEFINITION. The native form (15): bundles and their slots, native registers and native-only operations, branch slots, the
modulo sequencer, landing, and moving values between registers and the portable form by map-back entries (16 R369 to R371).
A result stands in its register from its issue on; a valid schedule does not see the difference (15 R347). -/
namespace Sys2Proof.Machine

/-! ### Registers of the issuing wave -/

/-- Registers that hold nothing. -/
def NRegs.empty : NRegs := ⟨[], [], [], [], []⟩

/-- The registers that the slots of the issuing bundle read: those before the bundle. -/
def Ctx.regs (c : Ctx) : NRegs :=
  match c.iss.bind with
  | some b => b.snap
  | none => match c.w.native with | some n => n.regs | none => NRegs.empty

/-- TRIP and ITER of loop counter n. -/
def NRegs.trip (r : NRegs) (n : Nat) : Word := mget 0 r.lc (2 * n)
def NRegs.iter (r : NRegs) (n : Nat) : Word := mget 0 r.lc (2 * n + 1)

/-- Writes TRIP and ITER. -/
def NRegs.setLc (r : NRegs) (n : Nat) (trip iter : Word) : NRegs := { r with lc := mset 0 (mset 0 r.lc (2 * n) trip) (2 * n + 1) iter }

/-- A native-only operation: it acts on the registers of a wave that has a native context (15 R343). -/
def nativeOp (s : State) (f : Ctx → NRegs → NRegs) : Out :=
  withRun s fun c =>
    match c.w.native with
    | none => .fault .noRun
    | some _ => .next (s.modWave c.iss.gid c.iss.wave (Wave.modRegs (f c)))

/-- The lanes that execute a slot under mask register mk (15 R342). -/
def Ctx.masked (c : Ctx) (mk : Nat) : List Nat := c.lanes.filter fun l => mk == 0 || inMask (c.regs.mReg mk) l

/-- Low bits of a 64-bit value at S-slot width w (15 R333). -/
def atWidth (w : BitVec 2) (x : DWord) : DWord := BitVec.ofNat 64 (x.toNat % 2 ^ (8 * 2 ^ w.toNat))

/-- `nmov` (15 R343). -/
def execNmov (v : VSlot) (s : State) : Out :=
  nativeOp s fun c r => (c.masked v.mask.toNat).foldl (fun r l => r.setVVal v.type v.d.toNat l (readSrc c.regs v.type l (vSrc v))) r

/-- `nmovs` (15 R343). -/
def execNmovs (f : SSlot) (s : State) : Out :=
  nativeOp s fun c r => r.setS f.d.toNat (atWidth f.w (c.regs.sReg f.a.toNat))

/-- `nvtos` (15 R343). -/
def execNvtos (v : VSlot) (s : State) : Out :=
  nativeOp s fun c r =>
    match c.masked v.mask.toNat with
    | l :: _ => r.setS (v.d.toNat % 64) ((readSrc c.regs v.type l (.v v.a.toNat)).extractLsb' 0 64)
    | [] => r

/-- `nlit` (15 R343). -/
def execNlit (k : BitVec 2) (clr : Bool) (d : BitVec 6) (imm : BitVec 24) (_a _b : BitVec 6) (s : State) : Out :=
  nativeOp s fun _ r =>
    let x := if clr then 0 else r.sReg d.toNat
    let n := if k = 2 then 16 else 24
    r.setS d.toNat (setField x (24 * k.toNat) n imm.toNat)

/-- `nstg` (15 R343): every lane's copy. -/
def execNstg (f : SSlot) (s : State) : Out :=
  nativeOp s fun c r =>
    (List.range 32).foldl (fun r l => r.setStg f.d.toNat l (atWidth f.w (c.regs.sReg f.a.toNat))) r

/-- `nstgv` (15 R343). -/
def execNstgv (v : VSlot) (s : State) : Out :=
  nativeOp s fun c r =>
    (c.masked v.mask.toNat).foldl
      (fun r l => r.setStg v.d.toNat l ((readSrc c.regs v.type l (.v v.a.toNat)).extractLsb' 0 64)) r

/-- `nlcset` (15 R343); it clears the counts of its loop counter (17 R396). -/
def execNlcset (n : BitVec 2) (_x _w : BitVec 2) (_b a : BitVec 6) (s : State) : Out :=
  withRun s fun c =>
    match c.w.native with
    | none => .fault .noRun
    | some _ =>
      .next (s.modWave c.iss.gid c.iss.wave fun w =>
        { w with native := w.native.map fun x =>
            { x with regs := x.regs.setLc n.toNat ((c.regs.sReg a.toNat).extractLsb' 0 32) 0,
                     lcc := x.lcc.filter fun (k, _) => k / 32 != n.toNat } })

/-- `nmask` (15 R343). -/
def execNmask (v : VSlot) (s : State) : Out :=
  nativeOp s fun c r =>
    let ls := c.masked v.mask.toNat
    let set := maskOf (ls.filter fun l => c.regs.vReg v.a.toNat l != 0)
    r.setM v.d.toNat ((r.mReg v.d.toNat &&& ~~~maskOf ls) ||| set)

/-- `nmaskv` (15 R343). -/
def execNmaskv (v : VSlot) (s : State) : Out :=
  nativeOp s fun c r =>
    (c.masked v.mask.toNat).foldl
      (fun r l => r.setV v.d.toNat l (if inMask (c.regs.mReg (v.a.toNat % 8)) l then 1 else 0)) r

/-! ### Spills (15 R344) -/

/-- The physical address of spill slot si of a wave. -/
def Wave.spillAt (w : Wave) (si : Nat) : Nat := w.spb + 128 * si

/-- Bytes of a spill of each kind. -/
def spillBytes : SpillKind → Nat
  | .vector => 128
  | .scalar => 8
  | .mask => 4

/-- Steps 6 and 10 of 09 R214 over a spill slot: the fault, or none. A store of whole granules does not read them. SPB is a physical
address, which no program sees (09 R224), so ADDR is 0 (DESIGN CHOICE, log entry 27). -/
def spillFault (s : State) (c : Ctx) (wr : Bool) (k : SpillKind) (si : Nat) : Option FaultInfo :=
  let a := c.w.spillAt si
  let l := c.lanes.headD 0
  let acc := if wr then 2 else 1
  if !s.mayUse c.g.dom a then some ⟨7, l, 6, acc, 0, 0, none⟩
  else
    let gs := if k = .vector then [a, a + 64] else [a]
    match gs.find? fun p => s.poisoned p && !(wr && k == .vector) with
    | some _ => some ⟨16, l, 10, acc, 0, 0, none⟩
    | none => none

/-- The bytes of a register. -/
def NRegs.spillOf (r : NRegs) (k : SpillKind) (reg : Nat) : List Byte :=
  match k with
  | .vector => (List.range 32).flatMap fun l => leBytes 4 (r.vReg reg l).toNat
  | .scalar => leBytes 8 (r.sReg reg).toNat
  | .mask => leBytes 4 (r.mReg reg).toNat

/-- A register from its bytes: all 32 lanes. -/
def NRegs.fillFrom (r : NRegs) (k : SpillKind) (reg : Nat) (bs : List Byte) : NRegs :=
  match k with
  | .vector => (List.range 32).foldl (fun r l => r.setV reg l (BitVec.ofNat 32 (leNat ((bs.drop (4 * l)).take 4)))) r
  | .scalar => r.setS reg (BitVec.ofNat 64 (leNat bs))
  | .mask => r.setM reg (BitVec.ofNat 32 (leNat bs))

/-- `nspill` (15 R344). -/
def execNspill (k : SpillKind) (reg : BitVec 7) (si : BitVec 16) (s : State) : Out :=
  withRun s fun c =>
    match c.w.native with
    | none => .fault .noRun
    | some _ =>
      match spillFault s c true k si.toNat with
      | some f => raise c f s
      | none =>
        let a := c.w.spillAt si.toNat
        let s := s.setBytes (c.regs.spillOf k reg.toNat) a
        .next (if k = .vector then (s.clearPoison a).clearPoison (a + 64) else s)

/-- `nfill` (15 R344). -/
def execNfill (k : SpillKind) (reg : BitVec 7) (si : BitVec 16) (s : State) : Out :=
  withRun s fun c =>
    match c.w.native with
    | none => .fault .noRun
    | some _ =>
      match spillFault s c false k si.toNat with
      | some f => raise c f s
      | none =>
        .next (s.modWave c.iss.gid c.iss.wave
          (Wave.modRegs fun r => r.fillFrom k reg.toNat (s.bytes (spillBytes k) (c.w.spillAt si.toNat))))

/-! ### Values at a native point (16 R369 to R371) -/

/-- The bits of a value that a location record names, in lane l. -/
def locBits (s : State) (w : Wave) (r : NRegs) (l : Nat) (x : LocRec) : Bits :=
  let v := fun (k : Nat) => (r.vReg k l).toNat
  let slot := fun (k : Nat) => leNat (s.bytes 4 (w.spillAt k + 4 * l))
  let n := x.ty.width
  let words := fun (f : Nat → Nat) => if n ≤ 32 then f x.wher else if n ≤ 64 then f x.wher + f (x.wher + 1) * 2 ^ 32
    else f x.wher + f (x.wher + 1) * 2 ^ 32 + f (x.wher + 2) * 2 ^ 64
  match x.loc with
  | 0 => ofU n (v x.wher)
  | 1 => ofU n (v x.wher + v (x.wher + 1) * 2 ^ 32)
  | 2 => ofU n (v x.wher + v (x.wher + 1) * 2 ^ 32 + v (x.wher + 2) * 2 ^ 64)
  | 3 => ofU n (r.sReg x.wher).toNat
  | 4 => ofU n ((r.sReg x.wher).toNat + (r.sReg (x.wher + 1)).toNat % 2 ^ 32 * 2 ^ 64)
  | 5 => if inMask (r.mReg x.wher) l then 1 else 0
  | 6 => ofU n (words slot)
  | _ => ofU n x.bits.toNat

/-- The values that an entry lists, in lane l. -/
def entryVals (s : State) (w : Wave) (r : NRegs) (l : Nat) (e : MapEntry) : List (Nat × TVal) :=
  e.locs.foldl (fun m x => mput m x.value ⟨x.ty, locBits s w r l x⟩) []

/-- The portable point that an entry stands for: the loop header of an entry with LOOP whose loop has been cut short
(15 R352; 16 R369). -/
def entryPoint (r : NRegs) (e : MapEntry) : Nat :=
  if e.kind.getLsbD 4 ∧ r.iter e.lc ≠ r.trip e.lc then e.aux else e.index

/-- Lanes of a mask stand at the point of an entry, with the callers' frames of their outstanding native calls. -/
def atEntry (s : State) (gid wi : Nat) (m : Word) (e : MapEntry) (point : Nat) : State :=
  s.modWave gid wi fun w =>
    let r := match w.native with | some n => n.regs | none => NRegs.empty
    let calls := fun (l : Nat) => match w.native with
      | some n => (match n.lanes.lookup l with | some x => x.rstack.map (·.2) | none => [])
      | none => []
    w.mapLanes fun l x =>
      if inMask m l ∧ x.alive then { x with frames := ⟨e.func, point, entryVals s w r l e⟩ :: calls l } else x

/-- Writes a value to the place that a location record names, in lane l. -/
def placeLoc (w : Wave) (l : Nat) (x : LocRec) (b : Bits) (sr : State × NRegs) : State × NRegs :=
  let (s, r) := sr
  let word := fun (k : Nat) => BitVec.ofNat 32 (b.toNat / 2 ^ (32 * k))
  match x.loc with
  | 0 => (s, r.setV x.wher l (word 0))
  | 1 => (s, (r.setV x.wher l (word 0)).setV (x.wher + 1) l (word 1))
  | 2 => (s, ((r.setV x.wher l (word 0)).setV (x.wher + 1) l (word 1)).setV (x.wher + 2) l (word 2))
  | 3 => (s, r.setS x.wher (b.extractLsb' 0 64))
  | 4 => (s, (r.setS x.wher (b.extractLsb' 0 64)).setS (x.wher + 1) (BitVec.ofNat 64 (b.toNat / 2 ^ 64)))
  | 5 => (s, r.setM x.wher ((r.mReg x.wher &&& ~~~(1#32 <<< l)) ||| (if b = 0 then 0 else 1#32 <<< l)))
  | 6 =>
    let n := (x.ty.width + 31) / 32
    ((List.range n).foldl (fun s k => s.setBytes (leBytes 4 (word k).toNat) (w.spillAt (x.wher + k) + 4 * l)) s, r)
  | _ => (s, r)

/-- A run enters a translation whose region entry stands at its point: every listed value is placed (16 R371). -/
def enterXlate (gid wi : Nat) (m : Word) (x : Xlate) (s : State) : State :=
  match s.wave? gid wi, x.entryAt x.base 0 with
  | some w, some e =>
    let ls := activeLanes w m
    let r0 := match w.native with | some n => n.regs | none => NRegs.empty
    let (s, r) := ls.foldl (fun sr l =>
      match w.lanes[l]? with
      | none => sr
      | some y => e.locs.foldl (fun sr q =>
          match lookupVal y.top.vals q.value with
          | some v => placeLoc w l q v.bits sr
          | none => sr) sr) (s, r0)
    let s := s.modCluster (match s.group? gid with | some g => clusterOf g.core | none => 0) fun k =>
      { k with xlates := k.xlates.map fun y => if y.xid = x.xid then { y with entered := s.now } else y }
    s.modWave gid wi fun w =>
      let old := match w.native with | some n => n.lanes.filter fun (i, _) => !inMask m i | none => []
      let pend := match w.native with | some n => n.pending | none => []
      let at0 := fun (l : Nat) => (l, (⟨x.base, [], match w.lanes[l]? with | some y => y.frames | none => []⟩ : NLane))
      { w with native := some ⟨old ++ ls.map at0, r, none, pend, (match w.native with | some n => n.lcc | none => [])⟩,
               replay := if x.key.form = 1 then w.replay ||| maskOf ls else w.replay }
  | _, _ => s

/-! ### Sequencer, exits and landing (15 R343, R346, R349 to R352) -/

/-- Changes the native context of the issuing wave. -/
def modNative (gid wi : Nat) (f : Native → Native) (s : State) : State :=
  s.modWave gid wi fun w => { w with native := w.native.map f }

/-- Lanes of a mask stand at a TC address. -/
def setNpc (m : Word) (a : Nat) (n : Native) : Native :=
  { n with lanes := n.lanes.map fun (l, x) => (l, if inMask m l then { x with npc := a } else x) }

/-- The TC address of the line after the stage map of a loop (15 R349). -/
def Loop.done (p : Loop) : Nat := p.body + 64 * p.ii + 64 * ((p.ii + 7) / 8)

/-- The loop ends: ITER holds the iterations completed, and the run goes on after the stage map. -/
def endLoop (m : Word) (p : Loop) (n : Native) : Native :=
  setNpc m p.done { n with loop := none, regs := n.regs.setLc p.lc (n.regs.trip p.lc) (BitVec.ofNat 32 p.trip) }

/-- `nloop` (15 R349, R350): with TRIP 0 no pass runs. -/
def execNloop (lc : BitVec 2) (ii : BitVec 6) (sc : BitVec 4) (s : State) : Out :=
  withRun s fun c =>
    match c.w.native, c.iss.bind with
    | some n, some b =>
      let p : Loop := { lc := lc.toNat, ii := ii.toNat, sc := sc.toNat, body := 64 * b.line + 64, pass := 0, bundle := 0,
                        trip := (n.regs.trip lc.toNat).toNat, drain := false, faulted := false }
      .next (modNative c.iss.gid c.iss.wave (fun n =>
        if p.trip = 0 then endLoop c.iss.mask p n
        else setNpc c.iss.mask p.body { n with loop := some p, regs := n.regs.setLc p.lc (n.regs.trip p.lc) 0 }) s)
    | _, _ => .fault .noRun

/-- `nland` (15 R343): no result of the kinds is pending any more when the bundle goes on. -/
def execNland (kinds : BitVec 4) (s : State) : Out :=
  withRun s fun c =>
    match c.w.native with
    | none => .fault .noRun
    | some _ =>
      .next (modNative c.iss.gid c.iss.wave (fun n => { n with pending := n.pending.filter fun k => !kinds.getLsbD (regKind k) }) s)

/-- The map-back entry of a slot of the line that a binding names. -/
def boundEntry (s : State) (c : Ctx) (b : Bind) : Option MapEntry :=
  ((s.cluster (clusterOf c.g.core)).xlateAt (64 * b.line)).bind fun x => x.entryAt (64 * b.line) b.slot

/-- Lanes of a run leave the native form at the point at which they stand. Their run goes on: this is no choice point (05 R145). -/
def leaveNative (gid wi : Nat) (m : Word) (s : State) : State := s.modWave gid wi (dropNative m)

/-- A run leaves the native form at the point of an entry. -/
def leaveAt (gid wi : Nat) (m : Word) (e : MapEntry) (point : Nat) (s : State) : State := leaveNative gid wi m (atEntry s gid wi m e point)

/-- `nxit` (15 R343): the run goes on at the exit point of the slot's entry, whose values are those live there. -/
def execNxit (s : State) : Out :=
  withRun s fun c =>
    match c.w.native, c.iss.bind with
    | some _, some b =>
      match boundEntry s c b with
      | some e => .next (leaveAt c.iss.gid c.iss.wave c.iss.mask e e.aux s)
      | none => .next (leaveNative c.iss.gid c.iss.wave c.iss.mask s)
    | _, _ => .fault .noRun

/-- `ntrap` (15 R343; 03 R82). -/
def execNtrap (s : State) : Out :=
  withRun s fun c =>
    match c.w.native with
    | none => .fault .noRun
    | some _ => illegal c s

/-- LANDING (15 R346): the oldest outstanding result of a wave arrives. -/
def execLanding (gid wave : Nat) (s : State) : Out :=
  .next (modNative gid wave (fun n => { n with pending := n.pending.tail }) s)

/-! ### Native lanes and their keys (05 R143, R144) -/

/-- The lanes of a mask that stand in the native form. -/
def Wave.nativeOf (w : Wave) (m : Word) : Word := maskOf ((lanesOf m).filter w.isNative)

/-- The TC address of a lane. -/
def Wave.npcOf (w : Wave) (l : Nat) : Nat :=
  match w.native with
  | some n => (match n.lanes.lookup l with | some x => x.npc | none => 0)
  | none => 0

/-- The native lanes of a run that issue together: those that stand at the lowest TC address. Two lanes of one key stand at different
addresses only between the points that map-back entries name (log entry 36). -/
def Wave.together (w : Wave) (m : Word) : Word × Nat :=
  let ls := lanesOf (w.nativeOf m)
  match leastBy w.npcOf ls with
  | some l => (maskOf (ls.filter fun k => w.npcOf k == w.npcOf l), w.npcOf l)
  | none => (0, 0)

/-- The portable point at which a lane stands at a TC address: that of the next map-back entry, or of the last where none follows (log
entry 36). -/
def Xlate.pointAt (x : Xlate) (r : NRegs) (a : Nat) : Option (Nat × Nat) :=
  let place := fun (e : MapEntry) => e.line * 16 + e.slot
  match leastBy place (x.entries.filter fun e => decide (a / 64 ≤ e.line)) with
  | some e => some (e.func, entryPoint r e)
  | none => x.entries.getLast?.map fun e => (e.func, entryPoint r e)

/-- The lanes of a wave in native form have the keys of the points at which they stand now (05 R143). -/
def keyFrames (cluster gid wi : Nat) (s : State) : State :=
  let k := s.cluster cluster
  s.modWave gid wi fun w =>
    match w.native with
    | none => w
    | some n => w.mapLanes fun l x =>
        match n.lanes.lookup l with
        | none => x
        | some y =>
          if !x.alive then x
          else
            let top := match (k.xlateAt y.npc).bind fun t => t.pointAt n.regs y.npc with
              | some (f, i) => { x.top with func := f, idx := i }
              | none => x.top
            { x with frames := top :: y.rstack.map (·.2) }

/-! ### Slots of a bundle that issues (15 R342, R348) -/

/-- What a bundle is issued with: group, wave, lanes, whether they are an ejected lane's, cluster, translation, TC address, and the
registers before it. -/
structure BCtx where
  gid : Nat
  wave : Nat
  mask : Word
  gond : Bool
  cluster : Nat
  x : Xlate
  a : Nat
  snap : NRegs

/-- How a slot's operation ended. -/
inductive SlotEnd where
  | done (s : State) | trapped (s : State) | left (s : State) | stop (o : Out)

/-- The types of a slot's operands: where several are lawful for a conversion's source, a free value picks one (log entry 36). -/
def slotSrcs (q : NSlot) (s : State) : List (NSrc × Ty) × State :=
  match q.srcs, q.alts with
  | (x, _) :: r, t :: u :: ts =>
    let (v, s) := s.fresh
    ((x, (t :: u :: ts).getD (v.toNat % (ts.length + 2)) t) :: r, s)
  | l, _ => (l, s)

/-- Whether a FIX load of a run reaches past the group's own scratchpad: its result lands like any other (15 R346). -/
def NSlot.unfixed (q : NSlot) (r : NRegs) (ls : List Nat) : Bool :=
  q.fix && match q.op, q.srcs with
    | .ld _ _ _ _ _, (x, _) :: _ => ls.any fun l =>
        let va := (readSrc r .ptr l x).toNat % 2 ^ 56
        !(regionOf va == .aperture && va / 2 ^ 24 % 16 == 0)
    | _, _ => false

/-- The issue of a slot of a bundle: the run stands at the slot's portable point while it acts. -/
def slotIssue (b : BCtx) (m : Word) (code : Nat) (srcs : List (NSrc × Ty)) (dst : NDst) (pt : Nat × Nat) : Issue :=
  ⟨b.gid, b.wave, m, b.gond, 0, some ⟨srcs, dst, b.snap, code, b.a / 64, pt.1, pt.2⟩, none⟩

/-- Performs one slot for the lanes that execute it. The run stands at the slot's portable point while it acts, and leaves the
native form there when it traps, is held or is parked (15 R348, R353; 16 R371). -/
def doSlot (run : Instr → State → Out) (b : BCtx) (q : NSlot) (iter : Option Nat) (s : State) : SlotEnd :=
  let m := if q.mreg = 0 then b.mask else b.mask &&& b.snap.mReg q.mreg
  if m = 0 then .done s
  else
    let e := b.x.entryAt b.a q.code
    let pt := match e with | some e => (e.func, entryPoint b.snap e) | none => (b.x.key.func, b.x.key.entry)
    let s0 := match e with | some e => atEntry s b.gid b.wave b.mask e pt.2 | none => s
    let s1 := if q.fsel = 0 then s0
      else
        let n := match iter with | some i => i | none => (b.snap.iter (q.fsel - 1)).toNat
        s0.modGroup b.gid fun g => { g with lease := g.lease.map fun l => { l with fidx := n / 2 ^ q.fsh % 16 } }
    let (srcs, s1) := slotSrcs q s1
    match run q.op { s1 with issue := some (slotIssue b m q.code srcs q.dst pt) } with
    | .next t =>
      match t.issue with
      | none => .trapped (leaveNative b.gid b.wave b.mask t)
      | some _ =>
        let t := { t with issue := none }
        let parked : Bool := match t.wave? b.gid b.wave with
          | some w => (activeLanes w b.mask).any fun l => match w.lanes[l]? with | some y => y.park != .none | none => false
          | none => false
        if parked then .left (leaveNative b.gid b.wave b.mask t)
        else
          let late := if q.unfixed b.snap (lanesOf m) then q.writes else q.late
          .done (modNative b.gid b.wave (fun n => { n with pending := n.pending ++ late.filter fun k => !n.pending.contains k }) t)
    | o => .stop o

/-- The stage of a slot in the current bundle of a loop (15 R349). -/
def stageOf (x : Xlate) (p : Loop) (code : Nat) : Nat :=
  let entry := match x.lineAt (p.body + 64 * p.ii + 64 * (p.bundle / 8)) with
    | some l => l.toNat / 2 ^ (64 * (p.bundle % 8)) % 2 ^ 64
    | none => 0
  let k := if code ≤ 10 then code - 1 else if code = 12 then 10 else if code = 13 then 11 else 12
  entry / 2 ^ (4 * k) % 16

/-- A slot with its loop iteration, or none outside a loop; squashed slots are left out (15 R350). -/
def liveSlots (x : Xlate) (lp : Option Loop) (qs : List NSlot) : List (NSlot × Option Nat) :=
  match lp with
  | none => qs.map fun q => (q, none)
  | some p => qs.filterMap fun q =>
      let st := stageOf x p q.code
      if st ≤ p.pass ∧ p.pass - st < p.trip then some (q, some (p.pass - st)) else none

/-- The portable index of the instruction that a slot performs: that of its map-back entry; a slot without one has an index that no
field of the translation states (log entry 36). -/
def Xlate.slotIndex (x : Xlate) (a code : Nat) : Nat :=
  match x.entryAt a code with
  | some e => e.index
  | none => Config.slotIndex x.key.func x.key.entry ((a - x.base) / 64) ((x.lineAt a).getD 0) code

/-- The order in which the slots of a bundle act: by iteration and portable index (15 R348, R351). -/
def slotBefore (b : BCtx) (q y : NSlot × Option Nat) : Bool :=
  let i := q.2.getD 0
  let j := y.2.getD 0
  decide (i < j) || (i == j && decide (b.x.slotIndex b.a q.1.code < b.x.slotIndex b.a y.1.code))

/-- Inserts a slot by its order, after those that it does not precede. -/
def insertSlot (b : BCtx) (q : NSlot × Option Nat) : List (NSlot × Option Nat) → List (NSlot × Option Nat)
  | [] => [q]
  | y :: r => if slotBefore b q y then q :: y :: r else y :: insertSlot b q r

/-- The modulo loop of the wave of a bundle. -/
def loopOf (b : BCtx) (s : State) : Option Loop := (s.wave? b.gid b.wave).bind fun w => w.native.bind (·.loop)

/-- Iteration i of a loop is cut off: the loop drains to T′ = i, and iteration i is executed in step form after it (15 R352). -/
def cutLoop (b : BCtx) (i : Nat) (s : State) : State :=
  modNative b.gid b.wave (fun n => { n with loop := n.loop.map fun p => { p with trip := i, drain := true, faulted := true } }) s

/-- Performs the slots of a bundle in order. A slot of iteration i of a modulo loop that faults, or would be held, has no effect: the
loop drains to T′ = i, and the step form meets the fault or the hold at its point (15 R352). -/
def doSlots (run : Instr → State → Out) (b : BCtx) : List (NSlot × Option Nat) → State → SlotEnd
  | [], s => .done s
  | (q, i) :: r, s =>
    let go := match i, loopOf b s with | some i, some p => decide (i < p.trip) | _, _ => true
    if !go then doSlots run b r s
    else
      match doSlot run b q i s, i with
      | .done t, _ => doSlots run b r t
      | .trapped _, some i | .left _, some i => doSlots run b r (cutLoop b i s)
      | e, _ => e

/-! ### The B slot (15 R339) -/

/-- A signed field of n bits. -/
def signedField (w : Word) (lo n : Nat) : Int :=
  let x := w.toNat / 2 ^ lo % 2 ^ n
  if x < 2 ^ (n - 1) then x else (x : Int) - 2 ^ n

/-- The TC address that lies n bundles away. -/
def awayFrom (a : Nat) (n : Int) : Nat := ((a : Int) + 64 * n).toNat

/-- Word k of a switch table at a TC address (15 R339). -/
def tableWord (k : ClusterSt) (a i : Nat) : Word :=
  let line := a + 64 * (i / 16)
  match (k.xlateAt line).bind (·.lineAt line) with
  | some l => BitVec.ofNat 32 (l.toNat / 2 ^ (32 * (i % 16)))
  | none => 0

/-- The target of a native `switch` for an index. -/
def tableTarget (k : ClusterSt) (a t i : Nat) : Option Nat :=
  let n := (tableWord k t 0).toNat
  let d := tableWord k t 1
  if i < n then some (awayFrom a (signedField (tableWord k t (i + 2)) 0 22))
  else if d.getLsbD 31 then some (awayFrom a (signedField d 0 22))
  else none

/-- A control operation as a slot of code 11. -/
def controlSlot (i : Instr) : NSlot := ⟨11, i, [], .none, 0, [], [], [], false, [], 0, 0⟩

/-- Native `call` (15 R339; 16 R362, R371): the caller's frame is that of the slot's entry. -/
def nativeCall (b : BCtx) (t : Nat) (s : State) : State :=
  s.modWave b.gid b.wave fun w =>
    let r := match w.native with | some n => n.regs | none => NRegs.empty
    let fr := fun (l : Nat) => match b.x.entryAt b.a 11 with
      | some e => (⟨e.func, e.index, entryVals s w r l e⟩ : Frame)
      | none => ⟨b.x.key.func, b.x.key.entry, []⟩
    { w with native := w.native.map fun n =>
        { n with lanes := n.lanes.map fun (l, x) => (l, if inMask b.mask l then ⟨t, (b.a + 64, fr l) :: x.rstack, x.sp⟩ else x) } }

/-- Native `ret` of lanes with an outstanding native call (15 R339). -/
def nativeRet (m : Word) (n : Native) : Native :=
  { n with lanes := n.lanes.map fun (l, x) => (l, if inMask m l then (match x.rstack with | (a, _) :: r => ⟨a, r, x.sp⟩ | [] => x) else x) }

/-- Whether a divergent branch of a run must be made in the portable form, which tests its sides for ejection (05 R148 to R150): the
lanes of some half part in two sides, one with 1 to E lanes and another with more, and the branch, which the slot's entry names, has a
join. `side` gives the side that a lane takes. -/
def ejectsHere (b : BCtx) (side : Nat → Nat) (s : State) : Bool :=
  match s.group? b.gid, s.wave? b.gid b.wave, b.x.entryAt b.a 11 with
  | some g, some w, some e =>
    let joins := match (s.func? g e.func).bind (·.points[e.index]?) with | some p => p.join.isSome | none => false
    let ls := (activeLanes w b.mask).filter fun l => match w.lanes[l]? with | some x => !x.helper | none => false
    let count := fun (h v : Nat) => (ls.filter fun l => g.halfOf l == h && side l == v).length
    let parts := fun (h : Nat) => ls.any fun l => g.halfOf l == h && decide (count h (side l) ≤ g.eject) &&
      ls.any fun k => g.halfOf k == h && decide (g.eject < count h (side k))
    !b.gond && g.eject != 0 && field w.dbg 0 1 == 0 && joins && (parts 0 || parts 1)
  | _, _, _ => false

/-- The run leaves the native form at the point of its B slot. -/
def leaveBranch (b : BCtx) (s : State) : SlotEnd :=
  match b.x.entryAt b.a 11 with
  | some e => .left (leaveAt b.gid b.wave b.mask e e.index s)
  | none => .done s

/-- Native `switch` (15 R339; 04 R104): an ordinary lane out of range without a default raises SWITCH_RANGE; a helper lane out of range
exits (05 R142). -/
def nativeSwitch (b : BCtx) (w : Word) (s : State) : SlotEnd :=
  let k := s.cluster b.cluster
  let t := awayFrom b.a (signedField w 17 15)
  let ix := w.toNat / 2 ^ 10 % 128
  let dest := fun (l : Nat) => tableTarget k b.a t (b.snap.vReg ix l).toNat
  match s.wave? b.gid b.wave with
  | none => .done s
  | some wv =>
    let ls := activeLanes wv b.mask
    let helper := fun (l : Nat) => match wv.lanes[l]? with | some x => x.helper | none => false
    let out := (ls.filter fun l => (dest l).isNone && helper l)
    match ls.find? fun l => (dest l).isNone && !helper l with
    | some l =>
      -- the fault of the portable `switch` that the slot's entry names, with the index of lane l
      let e := b.x.entryAt b.a 11
      let s0 := match e with | some e => atEntry s b.gid b.wave b.mask e e.index | none => s
      let pt := match e with | some e => (e.func, e.index) | none => (b.x.key.func, b.x.key.entry)
      let s1 := out.foldl (fun s l => endLane false b.gid b.wave l s) { s0 with issue := some (slotIssue b b.mask 11 [] .none pt) }
      match s1.ctx? with
      | some c =>
        match raise c (FaultInfo.plain 12 l (BitVec.ofNat 64 (b.snap.vReg ix l).toNat)) s1 with
        | .next t => .trapped (leaveNative b.gid b.wave b.mask t)
        | o => .stop o
      | none => .done s
    | none =>
      if ejectsHere b (fun l => (dest l).getD 0) s then leaveBranch b s
      else
        let s := modNative b.gid b.wave (fun n =>
          { n with lanes := n.lanes.map fun (l, x) => (l, if ls.contains l then { x with npc := (dest l).getD x.npc } else x) }) s
        .done (out.foldl (fun s l => endLane false b.gid b.wave l s) s)

/-- The B slot of a bundle outside a loop body: the run stands at the next bundle, and the operation moves it (15 R339). -/
def doBranch (run : Instr → State → Out) (b : BCtx) (w : Word) (s : State) : SlotEnd :=
  let op := w.toNat % 1024
  let jump := fun (m : Word) (t : Nat) (s : State) => modNative b.gid b.wave (setNpc m t) s
  let s := jump b.mask (b.a + 64) s
  match op with
  | 0x001 => .done (jump b.mask (awayFrom b.a (signedField w 10 22)) s)
  | 0x002 =>
    let taken := b.snap.mReg (w.toNat / 2 ^ 10 % 8)
    if ejectsHere b (fun l => (inMask taken l).toNat) s then leaveBranch b s
    else .done (jump (b.mask &&& taken) (awayFrom b.a (signedField w 13 19)) s)
  | 0x003 => nativeSwitch b w s
  | 0x004 =>
    let inner := match s.wave? b.gid b.wave with
      | some v => (match v.native with
        | some n => maskOf ((lanesOf b.mask).filter fun l => match n.lanes.lookup l with | some x => !x.rstack.isEmpty | none => false)
        | none => 0)
      | none => 0
    let s := modNative b.gid b.wave (nativeRet inner) s
    let outer := b.mask &&& ~~~inner
    if outer = 0 then .done s
    else
      let s := s.modWave b.gid b.wave fun w => w.mapLanes fun l x => if inMask outer l then { x with frames := x.frames.drop (x.frames.length - 1) } else x
      doSlot run { b with mask := outer } (controlSlot .ret) none s
  | 0x005 => doSlot run b (controlSlot .exit) none s
  | 0x006 => .done (nativeCall b (awayFrom b.a (signedField w 10 22)) s)
  | 0x007 => doSlot run b (controlSlot (.trapCode (BitVec.ofNat 30 (w.toNat / 2 ^ 10 % 2 ^ 16)))) none s
  | _ =>
    match decodeNativeB w with
    | some i => doSlot run b (controlSlot i) none s
    | none => .done s

/-- Whether a B slot holds a terminator, a call or a return, whose completion is a choice point (05 R145). -/
def branchChooses (w : Word) : Bool := 1 ≤ w.toNat % 1024 && w.toNat % 1024 ≤ 7

/-! ### Leaving at safe points -/

/-- The run goes on in a loop after a bundle of its body (15 R350, R352). -/
def nextInBody (m : Word) (n : Native) : Native :=
  match n.loop with
  | none => n
  | some p =>
    if p.bundle + 1 < p.ii ∧ p.pass + 2 ≤ p.trip + p.sc then setNpc m (p.body + 64 * (p.bundle + 1)) { n with loop := some { p with bundle := p.bundle + 1 } }
    else if p.pass + 3 ≤ p.trip + p.sc then setNpc m p.body { n with loop := some { p with bundle := 0, pass := p.pass + 1 } }
    else endLoop m p n

/-- A bundle that no slot of issues: its line is invalid and counted, its translation is evicted, and the run continues through
a miss at the stop point of its last safe point (17 R397); the step form runs its instruction from there again. -/
def badBundle (gid wi : Nat) (m : Word) (cluster : Nat) (x : Option Xlate) (a : Nat) (s : State) : State :=
  let counted := (s.cluster cluster).badAddrs.contains a
  let s := s.modCluster cluster fun k => { k with tc := k.tc.filter (· != a), badLines := k.badLines + (if counted then 0 else 1) }
  let s := match x with | some x => evict cluster x.xid 1 s | none => s
  s.modWave gid wi fun w =>
    let back := fun (l : Nat) (y : Lane) => match w.native.bind fun n => n.lanes.lookup l with
      | some z => if z.sp.isEmpty then y else { y with frames := z.sp }
      | none => y
    let w := dropNative m (w.mapLanes fun l y => if inMask m l ∧ y.alive then back l y else y)
    match x with
    | some x => if x.key.form = 1 then { w with replay := w.replay ||| m } else w
    | none => w

/-- Whether a wave in a translation of another generation or core shape has one of its own key for a point (16 R376). -/
def replaced (s : State) (g : Group) (w : Wave) (x : Xlate) (e : MapEntry) : Bool :=
  x.fromImage && (let key := s.xkey g w 0 e.func e.index
    decide (x.key.gen ≠ key.gen ∨ x.key.half ≠ key.half) &&
    (s.cluster (clusterOf g.core)).xlates.any fun y => !y.retiring && decide (y.key = key))

/-- Whether an eligible lane of a wave stands in the portable form. -/
def Wave.portableLeft (w : Wave) : Bool := w.lanes.zipIdx.any fun (x, i) => x.eligible && !w.isNative i

/-- Whether the run of a translation in step form may leave it at an entry: the instruction has been issued, and either STEP is set or a
translation in normal form has its region entry there (15 R352; 16 R359; 17 R392). -/
def stepLeaves (s : State) (g : Group) (w : Wave) (m : Word) (r : NRegs) (e : MapEntry) : Bool :=
  (w.replay &&& m) == 0 &&
  (field w.dbg 0 1 == 1 || ((s.cluster (clusterOf g.core)).xlateFor (s.xkey g w 0 e.func (entryPoint r e))).isSome)

/-- Whether a run leaves the native form at a safe point: a stop request, a freeze or a trap of the wave, a retiring translation, an
image that has been replaced, a modulo loop that was cut short, the step form, and where other lanes of the wave stand in the portable
form or are ejected (05 R157; 15 R352, R353; 16 R367, R376; 17 R392, R393; log entry 12). -/
def leavesAt (s : State) (g : Group) (w : Wave) (gond : Bool) (m : Word) (x : Xlate) (r : NRegs) (e : MapEntry) : Bool :=
  w.stopAsked || w.frozen || w.trap.isSome || w.gfault.isSome || x.retiring || replaced s g w x e ||
  (e.kind.getLsbD 4 && r.iter e.lc != r.trip e.lc) ||
  (!gond && (!w.ejSets.isEmpty || w.portableLeft || (if x.key.form = 1 then stepLeaves s g w m r e else field w.dbg 0 1 == 1)))

/-- Whether an ejected lane stands at the join at which it rejoins (05 R154). -/
def State.rejoins (s : State) (g : Group) (wi l : Nat) : Bool :=
  match s.wave? g.gid wi with
  | some w => (match w.lanes[l]? with | some x => w.ejSets.any fun e => atJoin g l x e && inMask e.away l | none => false)
  | none => false

/-- A stop for a wave in a modulo loop, or a retiring or replaced translation: the loop drains (15 R352; 16 R376). -/
def askDrain (on : Bool) (n : Native) : Native :=
  { n with loop := n.loop.map fun p => if on ∧ !p.drain then { p with trip := min p.trip (p.pass + 1), drain := true } else p }

/-- Whether an image that a wave runs in has been replaced, at the region's own entry. -/
def imageReplaced (s : State) (g : Group) (w : Wave) (x : Xlate) : Bool :=
  match x.entryAt x.base 0 with
  | some e => replaced s g w x e
  | none => false

/-! ### The mode of a wave (15 R354) -/

/-- Whether a wave runs in interlocked mode in a translation: after a trap or a restore until its earlier results have landed, in an
image of another generation, in the step form, or by its debug register. -/
def Wave.interlocked (w : Wave) (core : Nat) (x : Xlate) : Bool :=
  w.ilk || (x.fromImage && x.key.gen != genOf core) || x.key.form == 1 || field w.dbg 2 1 == 1

/-- A wave that issues: the causes of interlocked mode that end with the landing of all earlier results end here; its run is in step
form no longer because it had to (15 R352, R354), and every other run is one bundle older (05 R146). -/
def Wave.issues (m : Word) (w : Wave) : Wave :=
  let landed := match w.native with | some n => n.pending.isEmpty | none => true
  { w.aged m with ilk := w.ilk && !landed, replay := w.replay &&& ~~~m }

/-! ### Counting slots (17 R395, R396) -/

/-- The slot kind of a slot code: S, V, F, M, B, X, C, K. -/
def slotKind (code : Nat) : Nat :=
  if code ≤ 2 then 0 else if code ≤ 6 then 1 else if code ≤ 8 then 2 else if code ≤ 10 then 3 else code - 7

/-- The 15 slots of a bundle as their codes, and whether each holds an operation; an extension or long word is no slot of its own
(17 R395). -/
def slotCodes (l : BitVec 512) (bu : Bundle) : List (Nat × Bool) :=
  let own := fun (c : Nat) => !(c == 2 && l.getLsbD 2) && !(c == 4 && l.getLsbD 3) && !(c == 6 && l.getLsbD 4)
  ((List.range 14).filterMap fun i => if own (i + 1) then some (i + 1, i + 1 == 11 && bu.b != 0 || bu.slots.any fun q => q.code == i + 1) else none)

/-- Adds 1 to a count. -/
def bump (k : Nat) (m : List (Nat × Nat)) : List (Nat × Nat) := mset 0 m k (mget 0 m k + 1)

/-- Counts the slots of an issued bundle for its core and domain, and for the loop counter of its pass (17 R395, R396). -/
def countBundle (g : Group) (wi : Nat) (m : Word) (r : NRegs) (l : BitVec 512) (bu : Bundle) (live : List Nat) (lp : Option Loop) (s : State) : State :=
  let cs := slotCodes l bu
  let d := 64 * g.dom
  let masked := fun (c : Nat) => bu.slots.any fun q => q.code == c && q.mreg != 0 && (m &&& r.mReg q.mreg) == 0
  let one := fun (t : List (Nat × Nat)) (cf : Nat × Bool) =>
    let c := cf.1
    let key := d + 4 * slotKind c
    if !cf.2 then bump (key + 1) t
    else if c != 11 && !live.contains c then bump (key + 2) t
    else if masked c then bump (key + 3) (bump key t)
    else bump key t
  let s := s.modCore g.core fun k =>
    let t0 := mset 0 k.lost (d + 32) (mget 0 k.lost (d + 32) + shadow l)
    { k with lost := cs.foldl one t0 }
  match lp with
  | none => s
  | some p => modNative g.gid wi (fun n =>
      { n with lcc := cs.foldl (fun t cf => bump (32 * p.lc + 2 * slotKind cf.1 + (if cf.2 then 0 else 1)) t) n.lcc }) s
where
  /-- Cycles after a bundle in which the wave may not issue (15 R330). -/
  shadow (l : BitVec 512) : Nat :=
    let pass := fun (k : Nat) =>
      let g := groupsOf (l.toNat / 2 ^ (5 + 2 * k) % 4)
      let t := l.toNat / 2 ^ (90 + 44 * k) % 32
      if g = 0 then 1 else (if t = 5 ∨ t = 16 then 8 else 4) / g
    max 1 (max (max (pass 0) (pass 1)) (max (pass 2) (pass 3))) - 1 + l.toNat / 2 ^ 13 % 8

/-- Counts the cycles for which a bundle that was chosen is held, of a number that is free, for its cause and for the loop counter of its
pass (17 R395, R396; log entry 36). -/
def countStall (g : Group) (wi cause : Nat) (lp : Option Loop) (s : State) : State :=
  let (v, s) := s.fresh
  let add := fun (k : Nat) (t : List (Nat × Nat)) => mset 0 t k (mget 0 t k + v.toNat)
  let s := s.modCore g.core fun k => { k with lost := add (64 * g.dom + cause) k.lost }
  match lp with
  | none => s
  | some p => modNative g.gid wi (fun n => { n with lcc := add (32 * p.lc + 16) n.lcc }) s

/-! ### Issuing a bundle -/

/-- The number of values of a `gatecall` in the K slot of the line at a TC address. -/
def State.gateArgsAt (s : State) (g : Group) (x : Xlate) (a : Nat) : Nat :=
  match x.entryAt a 14 with
  | some e => (match s.func? g e.func with | some f => f.gateArgs e.index | none => 8)
  | none => 8

/-- A run stands before a safe point: its lanes have the values of the safe point's entry, which are kept as its stop point (15 R353). -/
def reachSafe (gid wi : Nat) (m : Word) (e : MapEntry) (point : Nat) (s : State) : State :=
  (atEntry s gid wi m e point).modWave gid wi fun w =>
    { w with native := w.native.map fun n =>
        { n with lanes := n.lanes.map fun (l, x) =>
            (l, if inMask m l then { x with sp := match w.lanes[l]? with | some y => y.frames | none => x.sp } else x) } }

/-- A loop that ends with an iteration cut off sends its run into the step form (15 R352). -/
def afterBody (gid wi : Nat) (m : Word) (s : State) : State :=
  s.modWave gid wi fun w =>
    match w.native with
    | none => w
    | some n =>
      let t := nextInBody m n
      { w with native := some t,
               replay := match n.loop with | some p => if p.faulted ∧ t.loop = none then w.replay ||| m else w.replay | none => w.replay }

/-- What follows the slots of a bundle: the pass of a loop goes on, or the B slot moves the run. -/
def endBundle (run : Instr → State → Out) (b : BCtx) (g : Group) (inLoop : Bool) (w : Word) : SlotEnd → Out
  | .done s =>
    if inLoop then .next (keyFrames b.cluster b.gid b.wave (afterBody b.gid b.wave b.mask s))
    else
      match doBranch run b w s with
      | .done s =>
        let s := keyFrames b.cluster b.gid b.wave s
        .next (if branchChooses w && !b.gond then s.modWave b.gid b.wave (Wave.choiceDue g b.mask) else s)
      | e => ending e
  | e => ending e
where
  /-- A run that has left the native form, or a stop. An instruction of the step form that trapped is executed again. -/
  ending : SlotEnd → Out
    | .done s | .left s => .next s
    | .trapped s => .next (if b.x.key.form = 1 then s.modWave b.gid b.wave fun w => { w with replay := w.replay ||| b.mask } else s)
    | .stop o => o

/-- Issues the bundle at which the native lanes of a run stand, or lands a result or fetches the line that it waits for. -/
def issueBundle (run : Instr → State → Out) (gid wi : Nat) (m0 : Word) (gond : Bool) (s : State) : Out :=
  match s.group? gid, s.wave? gid wi with
  | some g, some w =>
    let (m, a) := w.together m0
    let cl := clusterOf g.core
    let k := s.cluster cl
    match k.xlateAt a, w.native with
    | some x, some n =>
      let line := (x.lineAt a).getD 0
      match readBundle (s.gateArgsAt g x a) (isW3 (dieOf g.core)) (s.isSplit g.core) line with
      | some bu =>
        let lp := n.loop.filter fun p => p.inBody a
        let live := liveSlots x lp bu.slots
        if k.badAddrs.contains a || !bu.inWindow x.key || !branchOk lp.isSome bu.b || (lp.isSome && bu.safe) then
          .next (badBundle gid wi m cl (some x) a s)
        else if !k.tc.contains a then execTcLineFill cl a (countStall g wi 34 lp s)
        else
          let safe := if bu.safe then x.entryAt a 0 else none
          let s := match safe with | some e => reachSafe gid wi m e (entryPoint n.regs e) s | none => s
          if (match safe with | some e => leavesAt s g w gond m x n.regs e || (gond && (lanesOf m).any (s.rejoins g wi)) | none => false) then .next (leaveNative gid wi m s)
          else if (live.flatMap (fun q => q.1.names) ++ branchReads bu.b).any n.pending.contains then
            execLanding gid wi (countStall g wi (if w.interlocked g.core x then 39 else 33) lp s)
          else
            let s := if gond then s else s.modWave gid wi (Wave.issues m)
            let s := modNative gid wi (askDrain (w.stopAsked || w.frozen || w.trap.isSome || w.gfault.isSome || x.retiring || imageReplaced s g w x)) s
            let s := modNative gid wi (fun n => { n with regs := n.regs.setM 0 m }) s
            let b : BCtx := ⟨gid, wi, m, gond, cl, x, a, n.regs.setM 0 m⟩
            let lp := if lp.isSome then loopOf b s else none
            let live := liveSlots x lp bu.slots
            let s := if gond then s else countBundle g wi m n.regs line bu (live.map (·.1.code)) lp s
            endBundle run b g lp.isSome bu.b (doSlots run b (live.foldl (fun l q => insertSlot b q l) []) s)
      | none => .next (badBundle gid wi m cl (some x) a s)
    | x, _ => .next (badBundle gid wi m cl x a s)
  | _, _ => .next s

/-! ### Native contexts of ejected lanes (16 R359) -/

/-- The spill area of a gondola's lane context (16 R362). -/
def gondSpill (g : Group) (wi l : Nat) : Nat := (Config.spillBase g.dom g.gid (wi + 64 * (l + 1))).toNat

/-- The context of an ejected lane takes the place of the wave's, with its own spill area. -/
def gondIn (g : Group) (wi l : Nat) (s : State) : State :=
  s.modWave g.gid wi fun w => { w with native := w.gond.lookup l, spb := gondSpill g wi l }

/-- The wave's own context is back in its place, and what is left of the lane's is kept by lane. -/
def gondOut (g : Group) (wi l : Nat) (native : Option Native) (spb : Nat) (s : State) : State :=
  s.modWave g.gid wi fun w =>
    let rest := w.gond.filter fun x => x.1 != l
    { w with native, spb, gond := match w.native with | some n => rest ++ [(l, n)] | none => rest }

/-- An ejected lane acts on its own context. -/
def onGondola (g : Group) (wi l : Nat) (f : State → Out) (s : State) : Out :=
  match s.wave? g.gid wi with
  | none => .next s
  | some w =>
    match f (gondIn g wi l s) with
    | .next t => .next (gondOut g wi l w.native w.spb t)
    | o => o

/-- IMAGE_REPLACE (16 R376): a wave in a replaced image leaves at the safe point before which it stands. -/
def execImageReplace (gid wave : Nat) (s : State) : Out :=
  match s.group? gid, s.wave? gid wave with
  | some g, some w =>
    let (m, a) := w.together 0xFFFFFFFF#32
    match (s.cluster (clusterOf g.core)).xlateAt a, w.native with
    | some x, some n =>
      match x.entryAt a 0 with
      | some e => .next (if replaced s g w x e then leaveAt gid wave m e (entryPoint n.regs e) s else s)
      | none => .next s
    | _, _ => .next s
  | _, _ => .next s

end Sys2Proof.Machine
end

