-- ==== Sys2Proof/Machine/Traps.lean ====
section
/-! DEFINITION. What handlers and debuggers do with stopped waves (17 R379, R382, R392, R393; 22 R473; 09 R232), and cached
translations (17 R384 to R386). -/
namespace Sys2Proof.Machine

/-! ### Resume words (17 R382) -/

/-- Whether a wave is stopped at the record with this sequence number of this queue, and no resume word has reached it. -/
def Wave.stoppedAt (w : Wave) (q : Nat) (seq : Word) : Bool :=
  w.pendAct.isNone &&
  match w.trap with
  | some t => (t.queue == q && t.seq == seq) || t.other == some (q, seq)
  | none => false

/-- The stopped wave that a sequence number of a queue names: group, wave. -/
def State.findStop (s : State) (q : Nat) (seq : Word) : Option (Nat × Nat) :=
  s.groups.findSome? fun g =>
    (g.waves.zipIdx.find? fun (w, _) => w.stoppedAt q seq).map fun (_, i) => (g.gid, i)

/-- A wave that continues after the handler of its trap: a SOFTWARE trap's run goes on to the next instruction (01 R42), a
WATCH run passes step 9 once (09 R232), every other run executes its instruction again. -/
def resumeWaveIn (t : TrapStop) (w : Wave) : Wave :=
  let w := { w with trap := none, pendAct := none, chosen := 0, ilk := true }
  if t.fr.code = 11 then w.mapLanes fun l x => if inMask t.fr.run l ∧ x.alive then { x.advance with age := 0 } else x
  else if t.fr.code = 9 then { w with waive := t.fr.run }
  else w

/-- Lets a stopped wave continue, with the waves that its freeze holds (17 R393), and drops its HYP record. -/
def resumeWave (gid wi : Nat) (t : TrapStop) (s : State) : State :=
  let s := s.modWave gid wi (resumeWaveIn t)
  let s := if t.fr.cls = 3 then
      s.modGroup gid fun g => { g with waves := g.waves.map fun w => { w with frozen := false } }
    else s
  s.modDom 0 fun x => { x with hyp := x.hyp.filter fun (r, _) => !(r.gid == gid && r.wave == wi) }

/-- The lane that KILL_LANE ends: with ENG set, of the issuing wave (17 R382). -/
def killNamed (gid : Nat) (r : FaultRec) (s : State) : State :=
  endLane true gid (if r.lane.getLsbD 6 then r.iwave else r.wave) (r.lane.toNat % 32) s

/-- Performs an action of a resume word on a stopped resident wave: 0 RESUME, 1 KILL_LANE, 2 KILL_WAVE. -/
def actOn (a gid wi : Nat) (s : State) : State :=
  match s.wave? gid wi with
  | none => s
  | some w =>
    match w.trap with
    | none => s
    | some t =>
      match a with
      | 0 => resumeWave gid wi t s
      | 1 => resumeWave gid wi t (killNamed gid t.fr s)
      | _ => killWaveLanes gid wi (resumeWave gid wi t s)

/-- A resume word with action a below 3: a saved wave acts on it at its restore; a word that names no stopped wave is ignored
and counted. -/
def resumeWord (q a : Nat) (seq : Word) (s : State) : State :=
  match s.findStop q seq with
  | none => s.ignored (q % 128)
  | some (gid, wi) =>
    match s.group? gid with
    | none => s.ignored (q % 128)
    | some g =>
      if g.st = .saved then s.modWave gid wi fun w => { w with pendAct := some a } else actOn a gid wi s

/-- RESUME (17 R382). -/
def execResume (dom : Nat) (seq : Word) (s : State) : Out := .next (resumeWord dom 0 seq s)

/-- KILL_LANE (17 R382). -/
def execKillLane (dom : Nat) (seq : Word) (s : State) : Out := .next (resumeWord dom 1 seq s)

/-- KILL_WAVE (17 R382). -/
def execKillWave (dom : Nat) (seq : Word) (s : State) : Out := .next (resumeWord dom 2 seq s)

/-- Writes an HYP record to the faulting domain's own queue; the wave stays stopped (17 R379, R382). -/
def toTenant (r : TrapRec) (d : Nat) (s : State) : State :=
  let n := s.nextSeq d
  let s := s.modDom 0 fun x => { x with hyp := x.hyp.filter fun (q, _) => q.seq != r.seq }
  let s := s.modWave r.gid r.wave fun w =>
    { w with trap := w.trap.map fun t => if t.queue = 0 ∧ t.seq = r.seq then { t with other := some (d, n) } else t }
  postRecord d r.fr r.gid r.wave s

/-- FORWARD (17 R382, R399): for an HYP record of domain 0 that the tenant does not hold yet; otherwise ignored and counted. -/
def execForward (seq : Word) (s : State) : Out :=
  match (s.dom 0).hyp.find? fun (r, _) => r.seq == seq with
  | some (r, d) => .next (toTenant r d s)
  | none => .next (s.ignored 0)

/-- HYP_TIMEOUT (17 R379): domain 0 has neither resumed nor forwarded within 1 ms of the record's writing. -/
def execHypTimeout (seq : Word) (s : State) : Out :=
  match (s.dom 0).hyp.find? fun (r, _) => r.seq == seq with
  | some (r, d) => .next (toTenant r d s)
  | none => .next s

/-! ### Cached translations (17 R384 to R386) -/

/-- PAGE_WALK_DONE (17 R383 to R385): a walk returns; a translation that it finds is cached for the domain, a foreign table
is counted and reported to domain 0. -/
def execPageWalkDone (dom : Nat) (va : BitVec 56) (s : State) : Out :=
  match s.walk dom va.toNat with
  | .leaf e =>
    .next (s.modDom dom fun x =>
      if x.tlb.any fun q => q.va ≤ va.toNat && va.toNat < q.va + q.len then x else { x with tlb := x.tlb ++ [e] })
  | .foreign => .next (s.configError (0x4000 + 8 * dom))
  | .none => .next s

/-- TLB_INVALIDATE (17 R386): a write of TLBCW starts the invalidation of the range in TLBVA and TLBLEN. -/
def execTlbInvalidate (dom : Nat) (cw : DWord) (s : State) : Out :=
  .next ((s.modDom dom fun x => { x with tlbPend := x.tlbPend ++ [(cw, s.dreg dom 0x198, s.dreg dom 0x1A0)] }).due
    (.tlbInvalidateDone dom))

/-- Whether a cached translation holds a byte of a range. -/
def TlbEntry.hits (e : TlbEntry) (va len : Nat) : Bool := e.va < va + len && va < e.va + e.len

/-- TLB_INVALIDATE_DONE (17 R386): the cached translations of the range are removed, then the completion word is written. -/
def execTlbInvalidateDone (dom : Nat) (s : State) : Out :=
  match (s.dom dom).tlbPend with
  | [] => .next s
  | (cw, va, len) :: rest =>
    let s := s.modDom dom fun x =>
      { x with tlbPend := rest, tlb := x.tlb.filter fun e => !e.hits (ptrAddr va) len.toNat }
    let s := s.completionWord dom cw
    .next (if rest.isEmpty then s else s.due (.tlbInvalidateDone dom))

/-! ### The debug register (17 R392; 22 R473) -/

/-- The wave that WDSEL names: group, wave. -/
def State.selectedWave (s : State) (d : Nat) : Option (Nat × Nat) :=
  let v := s.dreg d 0x1E0
  let ls := s.launches.filter fun l =>
    l.dom == d && l.queue == field v 37 5 && l.ring % 2 ^ 22 == field v 42 22 && l.code == 2
  match ls.getLast? with
  | none => none
  | some l =>
    match s.groups.find? fun g => g.launch == l.id && g.lin == field v 0 32 && g.st != .ended with
    | none => none
    | some g => if (g.waves[field v 32 5]?).isSome then some (g.gid, field v 32 5) else none

/-- WDCTL_WRITE (22 R473): STEP and FREEZE are written with the debug grant or by domain 0, ILK by domain 0 alone. -/
def execWdctlWrite (by0 : Bool) (dom : Nat) (v : DWord) (s : State) : Out :=
  if !by0 && field (s.dreg dom 0x1B0) 2 1 == 0 then .next (s.ignored dom)
  else
    match s.selectedWave dom with
    | none => .next (s.ignored dom)
    | some (gid, wi) =>
      .next (s.modWave gid wi fun w =>
        { w with dbg := (v &&& 3#64) ||| (if by0 then v &&& 4#64 else w.dbg &&& 4#64) })

/-- A read of WDCTL (22 R473): the value, and whether it is counted. -/
def State.readWdctl (s : State) (d : Nat) : DWord × Bool :=
  match (s.selectedWave d).bind fun (gid, wi) => s.wave? gid wi with
  | some w => (w.dbg, false)
  | none => (0, true)

end Sys2Proof.Machine
end

