-- ==== Sys2Proof/Machine/Preempt.lean ====
section
/-! DEFINITION. Stopping, saving and restoring groups (17 R387 to R391; 06 R180, R181; 05 R158; 20 R441; 19 R415, R417). A saved
group stands in the state as what its image holds (17 R389, R390; log entry 28). -/
namespace Sys2Proof.Machine

/-! ### Migration reports (19 R415) -/

/-- The descriptor address of a troupe member that moves with the group a descriptor names: no report is made for it. -/
def noDesc : DWord := 0xFFFFFFFFFFFFFFFF

/-- STATUS, at an offset of a descriptor of domain 0, then its counter (19 R415; 20 R430). -/
def reportDone (off : Nat) (desc : DWord) (status : Nat) (s : State) : State :=
  if desc = noDesc then s
  else
    let cnt := match s.devRead 0 (cpPtr desc 16) 8 8 with | .ok bs => BitVec.ofNat 64 (leNat bs) | .error _ => 0
    let s := match s.devWrite 0 (cpPtr desc off) (leBytes 4 status) 4 with | .ok s => s | .error _ => s
    match s.addCounter 0 cnt 1 with
    | .ok s => observeCounters (s.counterPlace 0 cnt) s
    | .error _ => s

/-- STATUS of a migration descriptor. -/
def migrateDone (desc : DWord) (status : Nat) (s : State) : State := reportDone 12 desc status s

/-- What a group was stopped for is over: a save in progress ends, and a migration is reported (06 R181; 19 R415). -/
def endWhy (g : Group) (status : Nat) (s : State) : State :=
  let s := s.modGroup g.gid fun g => { g with why := .none }
  let s := if g.inSave then endSave g.core s else s
  match g.why with
  | .migrate d _ => migrateDone d status s
  | _ => s

/-! ### Stopping (17 R387, R388) -/

/-- Asks every wave of a resident group to stop, by the stop deadline of its domain. -/
def askStop (why : StopWhy) (gid : Nat) (s : State) : State :=
  s.modGroup gid fun g =>
    if g.st = .resident ∧ g.why = .none then
      { g with why, stopBy := s.now + 1000 * (s.dom g.dom).stopUs, waves := g.waves.map fun w => { w with stopAsked := true, chosen := 0 } }
    else g

/-- Whether a wave that is asked to stop stands at a safe point in all its lanes: no lane is inside a bundle sequence. -/
def Wave.atSafe (w : Wave) : Bool := w.native.isNone && w.gond.isEmpty

/-- STOP_REQUEST (17 R387; 06 R181): a request for groups of a core on which a save is in progress waits for its end. -/
def execStopRequest (dom : Nat) (gids : List Nat) (cls : Nat) (s : State) : Out :=
  let mine := gids.filter fun i => match s.group? i with | some g => g.dom == dom && g.st == .resident && g.gate.isNone | none => false
  let busy := fun (i : Nat) => match s.group? i with | some g => (s.coreSt g.core).saving | none => false
  let s := (mine.filter fun i => !busy i).foldl (fun s i => askStop (.preempt cls) i s) s
  .next ((mine.filter busy).foldl (fun s i =>
    match s.group? i with
    | some g => s.modCore g.core fun k => { k with preempt := k.preempt ++ [(cls, dom, [i])] }
    | none => s) s)

/-- WAVE_STOP (17 R387): a wave that is asked to stop and stands at a safe point, at a hold, at a barrier or at a trap stops;
with the last wave of its group the save begins. -/
def execWaveStop (gid wave : Nat) (s : State) : Out :=
  match s.group? gid, s.wave? gid wave with
  | some g, some w =>
    if !w.stopAsked || !w.atSafe || w.stopped || g.st != .resident then .next s
    else
      let s := s.modWave gid wave fun w => { w with stopped := true, chosen := 0 }
      match s.group? gid with
      | some g => .next (if g.allStopped then (s.modCore g.core fun k => { k with saving := true }).due (.saveComplete gid) else s)
      | none => .next s
  | _, _ => .next s

/-- STOP_DEADLINE (17 R388): a group with a wave that has not stopped is stopped by force. The deadline does not apply to gang
saves (19 R419). -/
def execStopDeadline (gid : Nat) (s : State) : Out :=
  match s.group? gid with
  | none => .next s
  | some g =>
    if g.why = .none ∨ g.why = .gang ∨ g.allStopped ∨ g.st ≠ .resident then .next s
    else
      let s := killGroup gid (killNotice g s)
      .next ((endWhy g 5 s).modGroup gid fun g => { g with waves := g.waves.map fun w => { w with stopAsked := false, stopped := false } })

/-! ### Saving (17 R389 to R391) -/

/-- Moves n bytes of storage with their tags and poison. -/
def moveRange (a b n : Nat) (s : State) : State :=
  let cells := s.mem.filter fun (k, _) => a ≤ k && k < a + n
  let tags := s.tags.filter fun (k, _) => a / 64 ≤ k && k < (a + n) / 64
  let bad := s.poison.filter fun k => a / 64 ≤ k && k < (a + n) / 64
  let s := (s.zeroRange a n).zeroRange b n
  { s with mem := cells.foldl (fun m (k, v) => mset memDefault m (k - a + b) v) s.mem,
           tags := tags.foldl (fun m (k, v) => mset 0 m (k - a / 64 + b / 64) v) s.tags,
           poison := bad.foldl (fun m k => sadd m (k - a / 64 + b / 64)) s.poison }

/-- The gate contexts that runs of a group await (20 R438). -/
def State.gateCalls (s : State) (gid : Nat) : List Group :=
  s.groups.filter fun x => match x.gate with | some c => c.caller == gid | none => false

/-- A gate context whose caller is saved ends by force, with a kill notice where it had started (20 R441). -/
def dropGateCall (x : Group) (s : State) : State :=
  let s := if x.st = .resident then killNotice x (killGroup x.gid s) else s
  match s.group? x.gid with
  | some y => removeGroup y s
  | none => s

/-- A wave as its image holds it: ejected lanes are lanes of the wave (05 R158), no run is chosen, no native register stays. -/
def savedWave (w : Wave) : Wave :=
  { w.mapLanes (fun _ x => { x with ejected := false }) with native := none, gond := [], gfault := none, replay := 0, chosen := 0, promoted := 0 }

/-- The commands of a group that have not pushed. -/
def State.groupCmds (s : State) (gid : Nat) : List Nat := (s.cmds.filter fun c => c.gid == gid).map (·.id)

/-- What a group that has been saved waits for: a pre-empted or moved group waits for placement at once. -/
def afterSave (w : StopWhy) : StopWhy :=
  match w with
  | .preempt _ => .none
  | .reshape => .none
  | w => w

/-- SAVE_COMPLETE (17 R387, R389 to R391): the group leaves its core; its slots, banks and windows are free. A group whose lanes
have all ended meanwhile is not saved (06 R181). -/
def execSaveComplete (gid : Nat) (s : State) : Out :=
  match s.group? gid with
  | none => .next s
  | some g =>
    if g.why = .none ∨ g.st ≠ .resident ∨ !g.allStopped then .next s
    else
      if g.allEnded then
        .next ((endWhy g 3 s).modGroup gid fun g => { g with waves := g.waves.map fun w => { w with stopAsked := false, stopped := false } })
      else
        let s := (s.gateCalls gid).foldl (fun s x => dropGateCall x s) s
        let s := moveRange (spadKey g.core (g.bank * 65536)) (savedKey gid 0) (g.nbanks * 65536) s
        let s := dropLocks (s.groupCmds gid) g.core s
        let s := s.modCluster (clusterOf g.core) fun k => { k with ejq := k.ejq.filter fun e => e.gid != gid }
        let s := s.modCore g.core fun k =>
          { k with turn := if k.turn = some gid then none else k.turn, turnOps := if k.turn = some gid then 0 else k.turnOps,
                   mxWait := k.mxWait.filter (· != gid) }
        let s := s.modGroup gid fun g =>
          { g with st := .saved, why := afterSave g.why, waves := g.waves.map savedWave, borrowed := false, saves := g.saves + 1 }
        .next (endSave g.core s)

/-! ### Restoring (17 R391) -/

/-- A lane at restore: held lanes execute their instruction again, and lanes parked at a join are released (05 R158). -/
def restoredLane (x : Lane) : Lane :=
  { x with age := 0, park := if x.park = .held ∨ x.park = .join then .none else x.park }

/-- A wave at restore, in its new windows: interlocked, with no hold, and no rejoin set (05 R158; 15 R354). -/
def restoredWave (spb : Nat → Nat) (r : Room) (w : Wave) : Wave :=
  { w.mapLanes (fun _ x => restoredLane x) with
    ilk := true, stopAsked := false, stopped := false, holds := [], ejSets := [], lastHalf := 2, vwin := r.vwin, swin := r.swin, mwin := 8,
    spb := spb w.index }

/-- Acts on the resume words that reached a saved group (17 R382). -/
def actPending (gid : Nat) (s : State) : State :=
  match s.group? gid with
  | none => s
  | some g => (g.waves.zipIdx.filterMap fun (w, i) => w.pendAct.map fun a => (i, a)).foldl (fun s (i, a) => actOn a gid i s) s

/-- Whether the engine of a core has the tiles that a saved group's lease holds (12 R298, R299). -/
def State.leaseFits (s : State) (g : Group) (core half : Nat) : Bool :=
  match g.lease with
  | none => true
  | some l => s.mxRoom { g with core, half } l.tiles

/-- Room for a saved group on a core's half. A group that moves, and one of a gang, comes back where it must, whatever requests
stand there (19 R416, R419). -/
def State.restoreRoom (s : State) (g : Group) (core half : Nat) : Option Room :=
  if g.why = .none then s.findRoom g.dom g.cls g.gid g.need [(core, half)]
  else
    match s.roomOn g.dom g.need false (core, half) with
    | some r => some r
    | none => s.roomOn g.dom g.need true (core, half)

/-- RESTORE (17 R391): a saved group comes back on a core that has room for it, or the groups that its class may pre-empt there are
asked to stop; with a bad image, or without its module, it is
killed with a kill notice. -/
def execRestore (gid core half : Nat) (crcOk : Bool) (s : State) : Out :=
  match s.group? gid with
  | none => .next s
  | some g =>
    if g.st ≠ .saved ∨ (s.dom g.dom).paused then .next s
    else if !crcOk || (s.module? g.dom g.modH).isNone then .next (endWhy g 5 (killGroup gid (killNotice g s)))
    else
      match s.restoreRoom g core half with
      | none =>
        .next (match (if g.why = .none then s.preemptPlan g.dom g.cls g.need [(core, half)] else none) with
          | some vs => requestPreempt g.cls gid vs s
          | none => s)
      | some r =>
        if !s.leaseFits g core half then .next s
        else
          let s := moveRange (savedKey gid 0) (spadKey core (r.bank * 65536)) (g.nbanks * 65536) s
          let s := s.modCore core fun k =>
            { k with rlt := k.rlt ++ (s.cmds.filter fun (c : Cmd) => c.gid == gid && c.core != core).flatMap Cmd.locks }
          let s := s.modGroup gid fun g =>
            { g with st := .resident, core, half, bank := r.bank, borrowed := r.borrowed,
                     waves := g.waves.map (restoredWave (s.spillBase g.dom gid) r) }
          let s := endWhy g 1 s
          .next (actPending gid s)

end Sys2Proof.Machine
end

