-- ==== Sys2Proof/Machine/Ports.lean ====
section
/-! DEFINITION. Steps of the L2 ports and of the link ports (09 R217, R233 to R236; 19 R412 to R414), and the rails of the links:
flits, replay and retraining (19 R407 to R411). -/
namespace Sys2Proof.Machine

/-! ### L2 ports (09 R233 to R236) -/

/-- L2_REFILL_TICK (09 R234, R235). -/
def execL2RefillTick (core : Nat) (s : State) : Out := .next (setL2Port core (tickPort (s.l2Port core)) s)

/-- L2_PORT_GRANT (09 R234): a line request of a domain comes to the port and leaves it with a token. A lender's request ends
its loans (09 R236). -/
def execL2PortGrant (core dom : Nat) (s : State) : Out :=
  .next (askL2 core dom 1 s)

/-- LOAN_REVOKE (09 R236). -/
def execLoanRevoke (core dom : Nat) (s : State) : Out := .next (setL2Port core (revokeLoans dom (s.l2Port core)) s)

/-- SRAM_SPLIT_CHANGE (09 R217): scratchpad in steps of 256 KiB, within the die's limit and while no group with SCRATCH is
resident; the banks that become scratchpad are zeroed. -/
def execSramSplitChange (core steps : Nat) (s : State) : Out :=
  let top := if isW3 (dieOf core) then 8 else 4
  if top < steps || (s.groups.any fun g => g.st == .resident && g.core == core && g.nbanks != 0) then .next (s.ignored 0)
  else
    let old := (s.coreSt core).split
    let s := s.zeroRange (spadKey core (old * 262144)) ((steps - old) * 262144)
    .next (s.modCore core fun k => { k with split := steps })

/-! ### Link ports (19 R412 to R414) -/

/-- The fields of a link port regulator (19 R413). -/
def linkRate (v : DWord) : Rate := ⟨field v 0 13, field v 13 13, field v 26 16, field v 42 8⟩

/-- The key of a virtual channel of a port. -/
def vcKey (port vc : Nat) : Nat := port * 66 + vc

/-- A virtual channel. -/
def State.vc (s : State) (port vc : Nat) : Vc := mget Vc.reset s.vcs (vcKey port vc)

/-- Changes a virtual channel. -/
def State.modVc (port vc : Nat) (f : Vc → Vc) (s : State) : State :=
  { s with vcs := mset Vc.reset s.vcs (vcKey port vc) (f (s.vc port vc)) }

/-- The buckets of a link port; VC 65 has a reserved share that takes no part in lending (19 R412). -/
def State.linkPort (s : State) (port : Nat) : Port :=
  (List.range 65).map fun v => (v, linkRate (s.preg (0x300000 + 0x800 * port + 8 * v)), (s.vc port v).bucket)

/-! ### Flits (19 R407, R408) -/

/-- One step of CRC-64 with the ECMA-182 polynomial, most significant bit first (log entry 29). -/
def crcBit (c : DWord) : DWord := if c.getLsbD 63 then (c <<< 1) ^^^ 0x42F0E1EBA9EA3693#64 else c <<< 1

/-- n steps. -/
def crcBits : Nat → DWord → DWord
  | 0, c => c
  | n + 1, c => crcBits n (crcBit c)

/-- CRC-64 of bytes (17 R389; 19 R407). -/
def crc64 (bs : List Byte) : DWord := bs.foldl (fun c b => crcBits 8 (c ^^^ (BitVec.ofNat 64 b.toNat <<< 56))) 0

/-- Byte k of a flit. -/
def flitByte (f : BitVec 2048) (k : Nat) : Byte := f.extractLsb' (8 * k) 8

/-- The fields of a flit's header. -/
structure FlitHead where
  seq : BitVec 12
  ack : BitVec 12
  ackv : Bool
  vc : Nat
  kind : Nat
  cid : Nat
  /-- reserved fields are 0 and the fields are in range -/
  clean : Bool
  deriving DecidableEq, Repr

/-- The header (19 R407). -/
def flitHead (f : BitVec 2048) : FlitHead :=
  let h := f.extractLsb' 0 64
  ⟨h.extractLsb' 0 12, h.extractLsb' 12 12, h.getLsbD 24, field h 25 7, field h 32 4, field h 40 16,
    field h 36 4 == 0 && field h 56 8 == 0 && decide (field h 25 7 ≤ 65) && decide (field h 32 4 ≤ 3)⟩

/-- Whether a flit's CRC holds. -/
def flitOk (f : BitVec 2048) : Bool := crc64 ((List.range 248).map (flitByte f)) == f.extractLsb' 1984 64

/-- A rail; rail r of the link of logical die n is 16n + r. -/
def State.rail (s : State) (r : Nat) : Rail := mget Rail.reset s.rails r

/-- Changes a rail. -/
def State.modRail (r : Nat) (f : Rail → Rail) (s : State) : State := { s with rails := mset Rail.reset s.rails r (f (s.rail r)) }

/-- The active rails of a port's link. -/
def State.activeRails (s : State) (port : Nat) : List Nat :=
  ((List.range 16).map fun i => 16 * port + i).filter fun r => (s.rail r).st == 0

/-- Flits that a retry buffer holds (19 R408; 22 R486). -/
def retryDepth (rail : Nat) : Nat := if rail / 16 < 32 then 64 else 512

/-- Sends the flits of a virtual channel of a port that hold tokens, oldest first, on the rail of their stream, while its retry buffer
has room (19 R408, R410). -/
def sendOut (port vc : Nat) : Nat → State → State
  | 0, s => s
  | n + 1, s =>
    match (s.vc port vc).out, s.activeRails port with
    | f :: rest, r :: rs =>
      let rail := (r :: rs).getD (Config.railHash port vc % (rs.length + 1)) r
      if (s.rail rail).buf.length < retryDepth rail then
        let s := s.modRail rail fun x => { x with buf := x.buf ++ [(x.next, f)], next := x.next + 1 }
        sendOut port vc n (s.modVc port vc fun x => { x with out := rest })
      else s
    | _, _ => s

/-- Sends what it can of every virtual channel of a port: VC 65 first (19 R412). -/
def sendAll (port : Nat) (s : State) : State :=
  (65 :: List.range 65).foldl (fun s v => sendOut port v (s.vc port v).out.length s) s

/-- The port of the Headframe at which a flit leaves it. -/
def flitPort (f : BitVec 2048) : Nat := 1 + Config.flitRoute f % 14

/-- Takes the first flit for a port out of a list. -/
def takeFor (port : Nat) : List (BitVec 2048) → Option (BitVec 2048 × List (BitVec 2048))
  | [] => none
  | f :: r => if flitPort f = port then some (f, r) else (takeFor port r).map fun (g, t) => (g, f :: t)

/-- A receive buffer after its depth has changed (19 R412): stop above 48 flits, go below 16; VC 65 is never stopped. -/
def watermark (vc : Nat) (x : Vc) : Vc :=
  if vc = 65 then x
  else { x with stopped := if 48 < x.held.length then true else if x.held.length < 16 then false else x.stopped }

/-- n flits of a virtual channel have their tokens at a port of the Headframe: they leave the receive buffers of the ports at which they
came, the lowest first (19 R413). -/
def granted (port vc : Nat) : Nat → State → State
  | 0, s => s
  | n + 1, s =>
    match ((List.range 14).map (· + 1)).findSome? fun p => (takeFor port (s.vc p vc).held).map fun x => (p, x) with
    | some (p, f, rest) =>
      let s := s.modVc p vc fun x => watermark vc { x with held := rest }
      granted port vc n (s.modVc port vc fun x => { x with out := x.out ++ [f] })
    | none => s

/-- The flits of a port whose requests have left a bucket since it stood at `was` move on. -/
def afterGrant (was : State) (port : Nat) (s : State) : State :=
  sendAll port ((List.range 66).foldl (fun s v => granted port v ((s.vc port v).bucket.gone - (was.vc port v).bucket.gone) s) s)

/-- Stores the buckets of a link port. -/
def setLinkPort (port : Nat) (p : Port) (s : State) : State := p.foldl (fun s (v, _, b) => s.modVc port v fun x => { x with bucket := b }) s

/-- A flit wants a token of its virtual channel at a port; a lender's request ends its loans (09 R236; 19 R413). -/
def askLink (port vc : Nat) (s : State) : State :=
  let lent := (s.linkPort port).any fun (_, _, b) => b.borrowed.any fun q => q.1 == vc
  let t := s.modVc port vc fun x => { x with bucket := requestPort 1 x.bucket }
  afterGrant s port (if lent then setLinkPort port (revokeLoans vc (t.linkPort port)) t else t)

/-- LINK_REFILL_TICK (19 R413): the buckets of a port are refilled, and the flits that wait leave on their tokens. At the die's end of a
link, and at a Bridle port, the port passes on what it has received. -/
def execLinkRefillTick (port : Nat) (s : State) : Out :=
  let t := setLinkPort port (tickPort (s.linkPort port)) s
  let r := linkRate (s.preg (0x300000 + 0x800 * port + 8 * 65))
  let t := t.modVc port 65 fun x =>
    { x with bucket := leavePort { x.bucket with own := min (x.bucket.own + r.rate) r.depth, issued := false } }
  .next (if port ≤ 14 then afterGrant s port t
    else (List.range 66).foldl (fun s v => s.modVc port v fun x => watermark v { x with held := [] }) t)

/-- Drops from a retry buffer the flits that an ACK covers. -/
def ackFlits (ack : BitVec 12) (b : List (BitVec 12 × BitVec 2048)) : List (BitVec 12 × BitVec 2048) :=
  if b.any fun x => x.1 == ack then (b.dropWhile fun x => x.1 != ack).drop 1 else b

/-- Whether the containment identifier of a transaction is that of a domain whose channel carries it, of its partition and its reset
generation (20 R422, R446); VC 65 carries what belongs to any domain. -/
def State.contained (s : State) (h : FlitHead) : Bool :=
  let d := h.cid % 128
  (h.vc == 65 || h.vc == d) && decide (d ≤ 64) && h.cid / 128 % 32 == (if d = 0 then 31 else s.partOf d) && h.cid / 4096 == s.gen d % 16

/-- FLIT_RECEIVE (19 R407, R408): a flit with a CRC error, and a transaction out of sequence, are discarded and the first missing
SEQ is refused; a transaction in sequence reaches its virtual channel, and in the Headframe it wants a token of the port at which it
leaves. One whose containment identifier does not hold is discarded, counted and reported to domain 0 (20 R422). -/
def execFlitReceive (rail : Nat) (flit : BitVec 2048) (s : State) : Out :=
  let h := flitHead flit
  if !flitOk flit || !h.clean then .next (s.modRail rail fun r => { r with nak := some r.expect })
  else
    let s := if h.ackv then sendAll (rail / 16) (s.modRail rail fun r => { r with buf := ackFlits h.ack r.buf }) else s
    if h.kind = 2 then .next (s.due (.nakReplay rail h.seq))
    else if h.kind ≠ 1 then .next s
    else if h.seq ≠ (s.rail rail).expect then .next (s.modRail rail fun r => { r with nak := some r.expect })
    else
      let s := s.modRail rail fun r => { r with expect := r.expect + 1, nak := none }
      if !s.contained h then .next (s.configError (0x300000 + 0x800 * (rail / 16) + 8 * h.vc))
      else
      let s := s.modVc (rail / 16) h.vc fun x => watermark h.vc { x with held := x.held ++ [flit] }
      .next (if 1 ≤ rail / 16 ∧ rail / 16 ≤ 14 then askLink (flitPort flit) h.vc s else s)

/-- NAK_REPLAY (19 R408, R409): the buffered flits from a SEQ on are sent again, in order; the replay is counted over the last
millisecond, and the 16th and the 64th have their own steps. -/
def execNakReplay (rail : Nat) (seq : BitVec 12) (s : State) : Out :=
  let r := s.rail rail
  if !r.buf.any fun x => x.1 == seq then .next s
  else
    let times := (r.replays.filter fun t => decide (s.now < t + 1000000)) ++ [s.now]
    let s := s.modRail rail fun r => { r with replays := times }
    .next (if times.length = 16 then s.due (.replayThreshold rail) else if times.length = 64 then s.due (.railRetrain rail) else s)

/-- REPLAY_THRESHOLD (19 R409): a corrected-error interrupt to domain 0, counted. -/
def execReplayThreshold (rail : Nat) (s : State) : Out := .next { s with cerrs := s.cerrs ++ [rail] }

/-- The other active rails of a rail's link. -/
def State.otherRails (s : State) (rail : Nat) : List Nat :=
  ((List.range 16).map fun i => rail / 16 * 16 + i).filter fun r => r != rail && (s.rail r).st == 0

/-- Moves the buffered flits of a rail to another, in order, under that rail's numbers (19 R410). -/
def moveFlits (a b : Nat) (s : State) : State :=
  let fs := (s.rail a).buf
  let s := s.modRail b fun r => fs.foldl (fun r f => { r with buf := r.buf ++ [(r.next, f.2)], next := r.next + 1 }) r
  s.modRail a fun r => { r with buf := [] }

/-- RAIL_RETRAIN (19 R409): the rail's streams move to another active rail, and its lanes are tested. -/
def execRailRetrain (rail : Nat) (s : State) : Out :=
  let s := match s.otherRails rail with | b :: _ => moveFlits rail b s | [] => s
  .next (s.modRail rail fun r => { r with st := 1 })

end Sys2Proof.Machine
end

