-- ==== Sys2Proof/Machine/Package.lean ====
section
/-! DEFINITION. Place tables, failures of units and links, migration and gang scheduling (19 R404 to R406, R409, R415 to
R420; 22 R472). -/
namespace Sys2Proof.Machine

/-! ### Place tables (19 R404, R405) -/

/-- The tables of a die. -/
inductive PlaceTable where
  | core | slice | laneGroup | bank
  deriving DecidableEq, Repr

/-- The place-table entry at a package register's offset: die, table and logical unit (22 R472); lane groups are numbered
16 × core + group and banks 64 × core + bank. -/
def placeAt (off : Nat) : Option (Nat × PlaceTable × Nat) :=
  let die := (off - 0x100000) / 0x20000
  let o := (off - 0x100000) % 0x20000
  let w3 := isW3 die
  let cores := if w3 then 96 else 128
  if off < 0x120000 ∨ 0x220000 ≤ off ∨ off % 8 ≠ 0 then none
  else if o < 0x400 then (if o / 8 < cores then some (die, .core, o / 8) else none)
  else if o < 0x1000 then (if (o - 0x400) / 8 < 192 then some (die, .slice, (o - 0x400) / 8) else none)
  else if o < 0x8000 then
    let k := (o - 0x1000) / 8
    if k / 16 < cores ∧ k % 16 < (if w3 then 10 else 6) then some (die, .laneGroup, k) else none
  else
    let k := (o - 0x8000) / 8
    if k / 64 < cores ∧ k % 64 < (if w3 then 48 else 32) then some (die, .bank, k) else none

/-- The package register of a place-table entry. -/
def placeOff (die : Nat) (t : PlaceTable) (k : Nat) : Nat :=
  0x100000 + 0x20000 * die + 8 * k +
    (match t with | .core => 0 | .slice => 0x400 | .laneGroup => 0x1000 | .bank => 0x8000)

/-- Groups that hold what a logical unit serves: those resident on the core of a core or lane group, and those whose allocation
holds a bank. -/
def State.heldBy (s : State) (die : Nat) (t : PlaceTable) (k : Nat) : List Group :=
  let on := fun (c : Nat) => s.groups.filter fun g => g.st == .resident && g.core == 128 * die + c
  match t with
  | .core => on k
  | .laneGroup => on (k / 16)
  | .bank => (on (k / 64)).filter fun g => decide (g.bank ≤ k % 64) && decide (k % 64 < g.bank + g.nbanks)
  | .slice => []

/-- Whether a logical unit is quiesced (19 R405). -/
def State.quiesced (s : State) (die : Nat) (t : PlaceTable) (k : Nat) : Bool :=
  match t with
  | .slice => s.dropped.contains (die * 256 + k)
  | t => (s.heldBy die t k).isEmpty

/-- The units of a table on a die whose entries could name the same physical units. -/
def placeMates (die : Nat) (t : PlaceTable) (k : Nat) : List Nat :=
  let w3 := isW3 die
  match t with
  | .core => List.range (if w3 then 96 else 128)
  | .slice => List.range 192
  | .laneGroup => (List.range (if w3 then 10 else 6)).map fun g => k / 16 * 16 + g
  | .bank => (List.range (if w3 then 48 else 32)).map fun b => k / 64 * 64 + b

/-- PLACE_TABLE_WRITE (19 R404, R405): a write to an entry of a unit that is not quiesced, with a reserved bit, or naming a
physical unit that another entry names, is ignored and counted. -/
def execPlaceTableWrite (off : Nat) (v : DWord) (s : State) : Out :=
  match placeAt off with
  | none => .next (s.ignored 0)
  | some (die, t, k) =>
    let taken := (placeMates die t k).any fun j => j != k && field (s.preg (placeOff die t j)) 0 12 == field v 0 12
    if field v 12 3 ≠ 0 ∨ v.toNat / 2 ^ 16 ≠ 0 ∨ taken ∨ !s.quiesced die t k then .next (s.ignored 0)
    else
      let s := s.setPreg off v
      .next (if t = .slice then { s with dropped := sdel s.dropped (die * 256 + k) } else s)

/-- L2DROP (22 R472; 19 R405): the directory is asked to write back and drop a slice's lines. -/
def execL2drop (v : DWord) (s : State) : Out :=
  let die := field v 0 4
  let k := field v 4 8
  if v.toNat / 2 ^ 12 ≠ 0 ∨ die < 1 ∨ 8 < die ∨ 192 ≤ k then .next (s.ignored 0)
  else .next (({ s with l2drops := s.l2drops ++ [(die, k, s.preg 0x4C38)] } : State).due (.l2dropDone die k))

/-- L2DROP_DONE (19 R405; 22 R492): the slice is quiesced, then the completion word is written. -/
def execL2dropDone (die slice : Nat) (s : State) : Out :=
  match s.l2drops.find? fun (d, k, _) => d == die && k == slice with
  | none => .next s
  | some (d, k, cw) =>
    let s := { s with l2drops := s.l2drops.erase (d, k, cw), dropped := sadd s.dropped (die * 256 + slice) }
    .next (s.completionWord 0 cw)

/-! ### Failures (19 R406, R409; 20 R446) -/

/-- Groups of a failed unit are killed, with a kill notice for each (19 R406). -/
def killAll (gs : List Group) (s : State) : State :=
  gs.foldl (fun s g => endWhy g 5 (killGroup g.gid (killNotice g s))) s

/-- A gang save that a failure cuts short tears the context, with the die in the mask (19 R420). -/
def tearOn (die : Nat) (gs : List Group) (s : State) : State :=
  let cnt := field (s.preg 0x4600) 40 8
  let entry := (s.gang.tick + cnt - 1) % (max 1 cnt)
  if gs.any fun g => g.why == .gang then
    ({ s with gang := { s.gang with missed := s.gang.missed ++ [(die, entry)] } } : State).due (.ctxTorn entry)
  else s

/-- A group of resident groups on a failed unit. -/
def failGroups (die : Nat) (gs : List Group) (s : State) : State := tearOn die gs (killAll gs s)

/-- Granules of device memory that hold something in an L2 slice that fails, and that a free choice names as dirty only there
(19 R406; log entry 10). -/
def State.dirtyIn (s : State) (slice : Nat → Bool) : List Nat :=
  let gs := (s.mem.map fun (k, _) => k / 64).eraseDups
  gs.filter fun g => decide (g < 2 ^ 46) && slice (l2Slice g) && (Config.freeWord (s.free + g)).getLsbD 0
where
  /-- The logical L2 slice of a line number (09 R223). -/
  l2Slice (n : Nat) : Nat := ((n % 2 ^ 16) ^^^ (n / 2 ^ 16 % 2 ^ 16) ^^^ (n / 2 ^ 32 % 2 ^ 14)) % 192

/-- The lines that were dirty only in L2 slices that fail are poisoned, and each is reported (19 R406; 20 R446). -/
def loseLines (slice : Nat → Bool) (s : State) : State :=
  let ls := s.dirtyIn slice
  ls.foldl (fun s g => reportLine (64 * g) s) { s with poison := ls.foldl sadd s.poison, free := s.free + 1 }

/-- A link without a rail in service: its die is a failed unit, whole (19 R409). A compute die's groups and L2 lines are lost, and a
memory die's slices, of which each stamped one is reported once, at its first line (20 R446; log entry 43). -/
def dieLost (die : Nat) (s : State) : State :=
  -- with those that a migration is bringing there (19 R420)
  let gs := s.groups.filter fun g => match g.st, g.why with
    | .resident, _ => dieOf g.core == die
    | .saved, .migrate _ c => dieOf c == die
    | _, _ => false
  let s := failGroups die gs { s with lost := sadd s.lost die }
  if die ≤ 8 then loseLines (fun _ => true) s
  else
    (s.pregs.filter fun (k, v) => 0x10000 ≤ k && k < 0x15000 && field v 7 1 == 1 && memDieOf (sliceBase k) == some (die - 9)).foldl
      (fun s (k, _) => reportLine (sliceBase k) s) s

/-- UNIT_FAILURE (19 R406, R409): BAD is set in the entry of the logical unit that the physical unit served; what it held is lost.
`unit` of a link is not read: it fails with its die. -/
def execUnitFailure (u : Unit4) (die unit : Nat) (s : State) : Out :=
  let bad := fun (t : PlaceTable) (s : State) =>
    let off := placeOff die t unit
    if (placeAt off).isSome then s.setPreg off (s.preg off ||| 0x8000#64) else s
  match u with
  | .core => .next (failGroups die (s.heldBy die .core unit) (bad .core s))
  | .laneGroup => .next (failGroups die (s.heldBy die .laneGroup unit) (bad .laneGroup s))
  | .bank => .next (failGroups die (s.heldBy die .bank unit) (bad .bank s))
  | .slice => .next (loseLines (· == unit) (bad .slice s))
  | .link => .next (dieLost die s)

/-- RAIL_RETRAIN_END (19 R409): the rail is back, failing lanes replaced by spares, how many being free, or it is out of service; a link without a rail in service is lost. -/
def execRailRetrainEnd (rail : Nat) (ok : Bool) (s : State) : Out :=
  if (s.rail rail).st ≠ 1 then .next s
  else
    let (v, s) := s.fresh
    let s := s.modRail rail fun r =>
      { r with st := if ok then 0 else 2, replays := [], spares := if ok then r.spares - v.toNat % (r.spares + 1) else r.spares }
    let dead := (List.range 16).all fun i => (s.rail (rail / 16 * 16 + i)).st == 2
    .next (if dead ∧ 1 ≤ rail / 16 ∧ rail / 16 ≤ 14 then dieLost (rail / 16) s else s)

/-! ### Migration (19 R415 to R417) -/

/-- A descriptor's fields. -/
structure MDesc where
  dom : Nat
  core : Nat
  lin : Nat
  launch : Word
  /-- the target exists and the reserved bytes are 0 -/
  ok : Bool
  deriving DecidableEq, Repr

/-- The descriptor in 32 bytes (19 R415). -/
def mdesc (b : List Byte) : MDesc :=
  let die := bytesAt b 1 1
  let cl := bytesAt b 2 1
  let co := bytesAt b 3 1
  ⟨bytesAt b 0 1, 128 * die + 8 * cl + co, bytesAt b 4 4, BitVec.ofNat 32 (bytesAt b 8 4),
    decide (1 ≤ die) && decide (die ≤ 8) && decide (cl < if isW3 die then 12 else 16) && decide (co < 8) && bytesAt b 24 8 == 0⟩

/-- The halves of a core that a domain may use, in order. -/
def State.halvesOf (s : State) (c d : Nat) : List Nat :=
  (if s.isSplit c then [0, 1] else [0]).filter fun h => s.corePart c h == some (s.partOf d) && (s.dprOf c h d).isSome

/-- Whether the engine of a core and the domain's share there could hold a group's lease (19 R416). -/
def State.leaseCould (s : State) (g : Group) (core half : Nat) : Bool :=
  match g.lease with
  | none => true
  | some l => decide (l.tiles ≤ tileCount core) && decide (l.tiles ≤ s.mxShare { g with core, half })

/-- Room for a moving group on one core, its own room apart (19 R416). -/
def State.moveRoom (s : State) (g : Group) (c : Nat) : Option Room :=
  let t := { s with groups := s.groups.filter fun x => x.gid != g.gid }
  (s.halvesOf c g.dom).findSome? fun h =>
    if s.leaseCould g c h then t.roomOn g.dom g.need false (c, h) else none

/-- The members of a group's troupe, or the group alone. -/
def State.troupeOf (s : State) (g : Group) : List Group :=
  match g.troupe with
  | none => [g]
  | some t => s.groups.filter fun x => x.launch == g.launch && x.troupe == some t

/-- Cores for the other members of a troupe within a cluster: each group's core, or none where one does not fit. -/
def fitMembers (cluster : Nat) : List Group → State → Option (List (Nat × Nat))
  | [], _ => some []
  | g :: r, s =>
    let cs := (List.range 8).map fun i => 8 * cluster + i
    match leastBy (fun x : Room => s.domWaves g.dom x.core) (cs.filterMap (s.moveRoom g)) with
    | none => none
    | some x =>
      (fitMembers cluster r (s.modGroup g.gid fun g => { g with core := x.core, half := x.half, bank := x.bank })).map fun t =>
        (g.gid, x.core) :: t

/-- MIGRATE (19 R415, R416): the request is checked; a group that fits is stopped, with its troupe, to be restored on the target. -/
def execMigrate (addr : DWord) (s : State) : Out :=
  match s.devRead 0 addr 32 32 with
  | .error _ => .next (s.configError 0x4C00)
  | .ok bs =>
    let x := mdesc bs
    match s.groups.find? fun g => x.dom != 0 && g.dom == x.dom && g.lin == x.lin && g.gate.isNone && s.launchWord g == x.launch && !g.allEnded with
    | none => .next (migrateDone addr 3 s)
    | some g =>
      let ms := s.troupeOf g
      if g.st ≠ .resident ∨ ms.any (fun m => m.why != .none || m.st != .resident) then .next (migrateDone addr 4 s)
      else
        let others := ms.filter fun m => m.gid != g.gid
        let plan :=
          if !x.ok || s.coreAbsent x.core then none
          else match s.moveRoom g x.core with
            | none => none
            | some r => fitMembers (clusterOf x.core) others (s.modGroup g.gid fun g => { g with core := r.core, half := r.half, bank := r.bank })
        match plan with
        | none => .next (migrateDone addr 2 s)
        | some ps =>
          let s := askStop (.migrate addr x.core) g.gid s
          .next (ps.foldl (fun s (i, c) => askStop (.migrate noDesc c) i s) s)

/-! ### Gang scheduling (19 R418, R419) -/

/-- Fields of GANGCTL. -/
def gangOn (v : DWord) : Bool := field v 48 1 == 1
def gangCount (v : DWord) : Nat := field v 40 8
def gangDead (v : DWord) : Nat := field v 20 20
def gangPeriod (v : DWord) : Nat := field v 0 20

/-- GANGCTL_WRITE (19 R418). -/
def execGangctlWrite (v : DWord) (s : State) : Out :=
  if gangPeriod v < 100 ∨ gangDead v < 10 ∨ 1000 < gangDead v ∨ gangPeriod v ≤ gangDead v ∨ gangCount v = 0 ∨ 64 < gangCount v ∨
      v.toNat / 2 ^ 49 ≠ 0 then .next (s.ignored 0)
  else
    let s := s.setPreg 0x4600 v
    .next (if gangOn v then { s with gang := { tick := 0, since := s.now, missed := [] } } else s)

/-- Entry n: domain and dies, where VALID. -/
def State.gangEntry (s : State) (n : Nat) : Option (Nat × Nat) :=
  let v := s.preg (0x4800 + 8 * n)
  if field v 7 1 = 1 then some (field v 0 7, field v 8 15) else none

/-- The groups of a gang context on a die, resident there. -/
def State.gangOnDie (s : State) (d die : Nat) : List Group :=
  s.groups.filter fun g => g.st == .resident && g.dom == d && dieOf g.core == die && g.gate.isNone

/-- The compute dies of a DIES mask. -/
def gangDies (mask : Nat) : List Nat := ((List.range 8).map (· + 1)).filter fun k => mask / 2 ^ k % 2 == 1

/-- The entry whose slice runs, and the one that went out at the last tick. -/
def State.gangNow (s : State) : Nat := s.gang.tick % gangCount (s.preg 0x4600)
def State.gangOut (s : State) : Nat := (s.gang.tick - 1) % gangCount (s.preg 0x4600)

/-- GANG_TICK (19 R418, R419): the outgoing context's groups are stopped on every die of its mask; the incoming context's come back
by RESTORE when their die's save has completed. -/
def execGangTick (s : State) : Out :=
  if !gangOn (s.preg 0x4600) then .next s
  else
    let s := { s with gang := { s.gang with tick := s.gang.tick + 1 } }
    match s.gangEntry s.gangOut with
    | none => .next s
    | some (d, mask) =>
      .next ((gangDies mask).foldl (fun s die => (s.gangOnDie d die).foldl (fun s g => askStop .gang g.gid s) s) s)

/-- Whether a die still holds groups of an entry that are to be saved. -/
def State.gangUnsaved (s : State) (n die : Nat) : Bool :=
  match s.gangEntry n with
  | some (d, _) => (s.gangOnDie d die).any fun g => g.why == .gang
  | none => false

/-- GANG_DEADLINE (19 R419): a die that has not saved the outgoing context has one tick of grace; a save still missing when the
grace has run out tears its context. -/
def execGangDeadline (die : Nat) (s : State) : Out :=
  let old := s.gang.missed.filter fun (k, n) => k == die && n != s.gangOut
  let torn := old.filter fun (_, n) => s.gangUnsaved n die
  let keep := s.gang.missed.filter fun (k, n) => !(k == die && (n != s.gangOut && !s.gangUnsaved n die))
  let keep := if s.gangUnsaved s.gangOut die ∧ !keep.contains (die, s.gangOut) then keep ++ [(die, s.gangOut)] else keep
  .next (torn.foldl (fun s (_, n) => s.due (.ctxTorn n)) { s with gang := { s.gang with missed := keep } })

/-- CTX_TORN (19 R419): every group of the context is killed, saved or not, and its owner gets one record. -/
def execCtxTorn (entry : Nat) (s : State) : Out :=
  match s.gangEntry entry with
  | none => .next s
  | some (d, mask) =>
    let dies := (s.gang.missed.filter fun (_, n) => n == entry).map (·.1)
    let gs := s.groups.filter fun g => g.dom == d && (gangDies mask).contains (dieOf g.core) && g.gate.isNone
    let s := gs.foldl (fun s g => endWhy g 5 (killGroup g.gid s)) s
    let addr : DWord := BitVec.ofNat 64 (dies.foldl (fun a k => a ||| 2 ^ k) 0)
    .next (postReport d (report 17 d addr) { s with gang := { s.gang with missed := s.gang.missed.filter fun (_, n) => n != entry } })

/-- Whether a saved gang group may come back: its entry's slice runs, and its die has completed its own save (19 R419). -/
def State.gangIn (s : State) (g : Group) : Bool :=
  !gangOn (s.preg 0x4600) ||
  match s.gangEntry s.gangNow with
  | some (d, mask) => d == g.dom && (gangDies mask).contains (dieOf g.core) &&
      (s.groups.all fun x => !(x.st == .resident && x.why == .gang && dieOf x.core == dieOf g.core))
  | none => false

end Sys2Proof.Machine
end

