-- ==== Sys2Proof/Machine/Domains.lean ====
section
/-! DEFINITION. Domains, partitions and the slice table: configuration writes, resizes and mode changes, pause, resume and
reset, and guest counters (20 R421 to R434, R446 to R448; 22 R474 to R478). -/
namespace Sys2Proof.Machine

/-! ### Slice table (20 R424) -/

/-- The package register of a slice-table entry. -/
def sliceOff (far : Bool) (k : Nat) : Nat := if far then 0x11000 + 8 * k else 0x10000 + 8 * k

/-- SLICE_TABLE_WRITE (20 R424; 22 R480): the slice is zeroed before its new stamp takes effect. -/
def execSliceTableWrite (far : Bool) (k : Nat) (v : DWord) (s : State) : Out :=
  let off := sliceOff far k
  if (if far then 2048 else 384) ≤ k ∨ v.toNat / 2 ^ 8 ≠ 0 ∨ 64 < field v 0 7 then .next (s.configError off)
  else
    let old := s.preg off
    let go := fun (s : State) => ({ s with restamps := s.restamps ++ [(off, v, s.preg 0x4C28)] } : State).due (.sliceZeroDone far k)
    .next (if field old 7 1 = 1 then frozenWrite (field old 0 7) go s else go s)

/-- SLICE_ZERO_DONE (20 R424; 22 R492): bytes, tags and poison of the slice are zero, the new stamp stands, and the completion
word is written. -/
def execSliceZeroDone (far : Bool) (k : Nat) (s : State) : Out :=
  let off := sliceOff far k
  match s.restamps.find? fun r => r.1 == off with
  | none => .next s
  | some (o, v, cw) =>
    let base := if far then 2 ^ 40 + k * 2 ^ 30 else k * 2 ^ 30
    let s := (({ s with restamps := s.restamps.erase (o, v, cw) } : State).zeroRange base (2 ^ 30)).setPreg off v
    .next (s.completionWord 0 cw)

/-! ### Domains and partitions (20 R424; 22 R474) -/

/-- The unread records of a domain's rings, written and waiting (22 R477). -/
def State.unread (s : State) (d : Nat) : Nat :=
  let n := fun (r : Ring) => ((s.dreg d (r.base + 8)).toNat + 2 ^ 64 - (s.dreg d (r.base + 16)).toNat) % 2 ^ 64
  let x := s.dom d
  n trapRing + n eventRing + n traceRing + n winchRing + x.trapPend.length + x.evPend.length + x.wlPend.length

/-- The registers of a domain's block at its creation and at its reset (22 R474); DOMEV is 0 at creation only. -/
def resetRegs (created : Bool) (d : Nat) (s : State) : State :=
  let s := [0x1B0, 0x148, 0x168, 0x1C0, 0x1E0].foldl (fun s o => s.setDreg d o 0) s
  let s := [0x110, 0x130, 0x150, 0x170].foldl (fun s o => s.setDreg d (o + 16) (s.dreg d (o + 8))) (s.setDreg d 0x1C8 0x3F)
  if created then s.setDreg d 0x1D8 0 else s

/-- DOMCFG_WRITE (20 R424): GEN is read-only. A domain that becomes VALID is created. -/
def execDomcfgWrite (dom : Nat) (v : DWord) (s : State) : Out :=
  let off := 0x4000 + 8 * dom
  let bad := decide (64 < dom) || field v 48 16 != 0 || field v 23 9 != 0 || decide (23 < field v 0 5) ||
    (field v 5 1 == 1 && field (s.preg (0x4400 + 8 * field v 0 5)) 10 1 == 0)
  if bad then .next (s.configError off)
  else
    let go := fun (s : State) =>
      let t := s.setPreg off (setField v 32 16 (s.gen dom))
      if field (s.preg off) 5 1 = 0 ∧ field v 5 1 = 1 ∧ dom ≠ 0 then
        resetRegs true dom (t.modDom dom fun x =>
          { Dom.reset with
            ptroot := x.ptroot, budgets := x.budgets, stopUs := x.stopUs, dispProgram := x.dispProgram,
            dispMemory := x.dispMemory, dispDebug := x.dispDebug, hostPresent := x.hostPresent, lastVer := x.lastVer })
      else t
    .next (frozenWrite dom go s)

/-- PARTCFG_WRITE (20 R424). -/
def execPartcfgWrite (p : Nat) (v : DWord) (s : State) : Out :=
  let off := 0x4400 + 8 * p
  if 23 < p ∨ v.toNat / 2 ^ 11 ≠ 0 ∨ field v 0 10 < 1 ∨ 1000 < field v 0 10 then .next (s.configError off)
  else .next (s.setPreg off v)

/-! ### DPR entries (20 R425 to R427; 09 R233) -/

/-- Whether ranges [a, a + n) and [b, b + m) meet. -/
def overlap (a n b m : Nat) : Bool := decide (0 < n) && decide (0 < m) && decide (a < b + m) && decide (b < a + n)

/-- Other valid entries of a core. -/
def State.otherDprs (s : State) (c e : Nat) : List Nat := (List.range 8).filter fun k => k != e && field (s.dpra c k) 7 1 == 1

/-- Whether every field of a DPRA value lies in its range on a core, as its shape is (20 R425, R426). -/
def State.dpraRange (s : State) (c : Nat) (v : DWord) : Bool :=
  let w3 := isW3 (dieOf c)
  let split := (s.coreSt c).split
  decide (v.toNat / 2 ^ 55 = 0) && decide (field v 0 7 ≤ 64) && decide (field v 9 5 + field v 14 6 ≤ s.coreSlots c) &&
  decide (field v 20 6 ≤ if w3 then 32 else 12) && decide (field v 26 6 ≤ if w3 then 32 else 24) &&
  decide (field v 32 5 + field v 37 6 ≤ 4 * split) && decide (field v 43 12 / 2 ^ ((if w3 then 12 else 8) - split) = 0) &&
  (field v 8 1 == 0 || s.isSplit c)

/-- Whether a value may be written to DPRA of an entry: its ranges, and, for a valid entry, its owner and what it shares the core with
(20 R425, R426). -/
def State.dpraOk (s : State) (c e : Nat) (v : DWord) : Bool :=
  let w3 := isW3 (dieOf c)
  let half := field v 8 1
  let os := s.otherDprs c e
  let same := os.filter fun k => field (s.dpra c k) 8 1 == half
  let d := field v 0 7
  s.dpraRange c v &&
  (field v 7 1 == 0 ||
    (decide (s.corePart c half = some (s.partOf d)) &&
     (same.all fun k => !overlap (field v 9 5) (field v 14 6) (field (s.dpra c k) 9 5) (field (s.dpra c k) 14 6)) &&
     (os.all fun k => !overlap (field v 32 5) (field v 37 6) (field (s.dpra c k) 32 5) (field (s.dpra c k) 37 6)) &&
     decide (os.foldl (fun t k => t + field (s.dpra c k) 20 6) (field v 20 6) ≤ if w3 then 32 else 12) &&
     decide (os.foldl (fun t k => t + field (s.dpra c k) 26 6) (field v 26 6) ≤ if w3 then 32 else 24) &&
     (same.all fun k => field (s.dpra c k) 0 7 != d)))

/-- Whether a value may be written to DPRB of an entry. -/
def dprbOk (c : Nat) (v : DWord) : Bool :=
  let w3 := isW3 (dieOf c)
  decide (v.toNat / 2 ^ 42 = 0) && (w3 || decide (field v 0 16 / 2 ^ 12 = 0)) && decide (field v 16 5 ≤ if w3 then 16 else 8) &&
  decide (1 ≤ field v 21 13) && decide (field v 21 13 ≤ 4096)

/-- Whether a value may be written to the L2 port regulator of an entry (09 R233). -/
def State.l2Ok (s : State) (c e : Nat) (v : DWord) : Bool :=
  let r := l2Rate v
  decide (v.toNat / 2 ^ 40 = 0) && decide (r.least ≤ r.rate) && decide (r.rate ≤ r.depth) && decide (r.rate ≤ 256) &&
  decide ((s.otherDprs c e).foldl (fun t k => t + (l2Rate (s.l2reg c k)).least) r.least ≤ 256)

/-- The moment of the drain deadline of a change on a core or half: DRAIN of the partition that loses it, in units of 10 µs (20 R424, R431). -/
def State.drainDue (s : State) (c h : Nat) : Nat :=
  s.now + match s.corePart c h with
    | some p => 10000 * field (s.preg (0x4400 + 8 * p)) 0 10
    | none => 0

/-- The resident groups that a resize or mode change of a core displaces: for a deferred DPR write, those whose banks fall out of the
entry, and all of the domain's where it goes, or where slots or registers would not suffice for the others (log entry 45). -/
def State.displaced (s : State) (c : Nat) (r : Reshape) : List Group :=
  let here := s.groups.filter fun g => g.st == .resident && g.core == c
  match r.dpr with
  | none => here.filter fun g => !(r.kind == 0 && s.isSplit c) || g.half == 0
  | some (e, _, v) =>
    let old := s.dpra c e
    let mine := here.filter fun g => g.dom == field old 0 7 && (!s.isSplit c || g.half == field old 8 1)
    let out := fun (g : Group) => g.nbanks != 0 && (decide (g.bank < field v 32 5) || decide (field v 32 5 + field v 37 6 < g.bank + g.nbanks))
    let rest := mine.filter fun g => !out g
    let (vr, sr) := regsHeld rest
    if field v 7 1 = 0 ∨ field v 0 7 ≠ field old 0 7 ∨ field v 8 1 ≠ field old 8 1 ∨
        field v 14 6 < slotsHeld (rest.filter (!·.borrowed)) ∨ 128 * field v 20 6 < vr ∨ 64 * field v 26 6 < sr then mine
    else mine.filter out

/-- Whether a new DPRA takes away what resident groups of the entry's domain use (20 R427). -/
def State.takesAway (s : State) (c e : Nat) (v : DWord) : Bool :=
  field (s.dpra c e) 7 1 == 1 && !(s.displaced c ⟨3, noDesc, 0, 0, some (e, 0, v), false, 0⟩).isEmpty

/-- DPR_WRITE (20 R426, R427; 09 R233; 22 R480): word 0 is DPRA, 1 DPRB, 2 the L2 port regulator. -/
def execDprWrite (core e word : Nat) (v : DWord) (s : State) : Out :=
  let off := 0x20000 + 256 * core + 32 * e + 8 * word
  let ok := decide (core < 1152) && decide (e < 8) &&
    (if word = 0 then s.dpraOk core e v else if word = 1 then dprbOk core v else word == 2 && s.l2Ok core e v)
  if !ok then .next (s.configError off)
  else
    let old := s.dpra core e
    let go := fun (s : State) =>
      if word = 0 ∧ s.takesAway core e v then
        if (s.coreSt core).reshape.isSome then s.configError off
        else s.modCore core fun k => { k with reshape := some ⟨3, noDesc, 0, 0, some (e, word, v), false, s.drainDue core (if s.isSplit core then field (s.dpra core e) 8 1 else 0)⟩ }
      else s.setPreg off v
    .next (if field old 7 1 = 1 then frozenWrite (field old 0 7) go s else go s)

/-! ### Reshapes (20 R430 to R432) -/

/-- A reshape descriptor's fields. -/
structure RDesc where
  kind : Nat
  core : Nat
  part0 : Nat
  part1 : Nat
  /-- the core exists and the reserved bytes are 0 -/
  ok : Bool
  deriving DecidableEq, Repr

/-- The descriptor in 32 bytes (20 R430). -/
def rdesc (b : List Byte) : RDesc :=
  let die := bytesAt b 2 1
  let cl := bytesAt b 3 1
  let co := bytesAt b 4 1
  ⟨bytesAt b 0 1, 128 * die + 8 * cl + co, bytesAt b 5 1, bytesAt b 6 1,
    bytesAt b 1 1 == 0 && bytesAt b 7 1 == 0 && bytesAt b 12 4 == 0 && bytesAt b 24 8 == 0 &&
    decide (1 ≤ die) && decide (die ≤ 8) && decide (cl < if isW3 die then 12 else 16) && decide (co < 8)⟩

/-- Whether a partition may be named: none, or a VALID one. -/
def State.partOk (s : State) (p : Nat) : Bool := p == 31 || (decide (p ≤ 23) && field (s.preg (0x4400 + 8 * p)) 10 1 == 1)

/-- Whether a descriptor of a kind is good (20 R430). -/
def State.rdescOk (s : State) (kind : Nat) (x : RDesc) : Bool :=
  x.ok && x.kind == kind && decide (kind ≤ 2) && s.partOk x.part0 &&
  (if kind = 1 then s.partOk x.part1 && !s.isSplit x.core else x.part1 == 0 && (kind != 2 || s.isSplit x.core))

/-- Stops the displaced groups, each with its troupe; gate contexts end with reason 5 (20 R431, R432, R449). -/
def moveOut (c : Nat) (r : Reshape) (s : State) : State :=
  (s.displaced c r).foldl (fun s g =>
    if g.gate.isSome then stopGate g s
    else (s.troupeOf g).foldl (fun s m => askStop .reshape m.gid s) s) s

/-- A reshape of a core that holds a valid DPR entry of a locked domain moves that domain's interface to ERROR (22 R480). -/
def reshapeFrozen (c : Nat) (s : State) : State :=
  (List.range 8).foldl (fun s e =>
    let d := field (s.dpra c e) 0 7
    if field (s.dpra c e) 7 1 = 1 ∧ s.frozen d then toError d s else s) s

/-- A request to reshape a core (20 R430 to R432). A mode change stops every group at once; an assignment drains first. -/
def reshape (kind : Nat) (addr : DWord) (s : State) : State :=
  match s.devRead 0 addr 32 32 with
  | .error _ => s.configError 0x4C08
  | .ok bs =>
    let x := rdesc bs
    let moving := s.groups.any fun g => match g.why with | .migrate _ t => t == x.core || g.core == x.core | _ => false
    if !s.rdescOk kind x then reportDone 8 addr 3 s
    else if (s.coreSt x.core).reshape.isSome || moving then reportDone 8 addr 2 s
    else
      let r : Reshape := ⟨kind, addr, x.part0, x.part1, none, kind != 0, s.drainDue x.core 0⟩
      let s := reshapeFrozen x.core (s.modCore x.core fun k => { k with reshape := some r })
      if kind = 0 then s else moveOut x.core r s

/-- RESHAPE_ASSIGN, RESHAPE_SPLIT, RESHAPE_JOIN (20 R430 to R432). -/
def execReshapeAssign (addr : DWord) (s : State) : Out := .next (reshape 0 addr s)
def execReshapeSplit (addr : DWord) (s : State) : Out := .next (reshape 1 addr s)
def execReshapeJoin (addr : DWord) (s : State) : Out := .next (reshape 2 addr s)

/-- DRAIN_DEADLINE (20 R431): the groups that are still resident on departing resources are moved. -/
def execDrainDeadline (core : Nat) (s : State) : Out :=
  match (s.coreSt core).reshape with
  | some r =>
    if r.moved then .next s
    else .next (moveOut core r (s.modCore core fun k => { k with reshape := some { r with moved := true } }))
  | none => .next s

/-- CORECFG after a reshape (20 R424, R430). -/
def reshaped (r : Reshape) (v : DWord) : DWord :=
  if r.kind = 0 then
    if field v 11 1 = 1 then setField v 1 5 r.part0
    else if r.part0 = 31 then 0 else setField (setField v 1 5 r.part0) 0 1 1
  else if r.kind = 1 then setField (setField (setField (setField v 0 1 1) 1 5 r.part0) 6 5 r.part1) 11 1 1
  else if r.part0 = 31 then 0 else setField (setField (setField 0 0 1 1) 1 5 r.part0) 11 1 0

/-- Whether some core of a domain's partition could hold a group if it were empty: with its DPR entry, or by the shape alone. -/
def State.couldHold (s : State) (shape : Bool) (g : Group) : Bool :=
  let n := g.need
  (s.placesOf (s.partOf g.dom)).any fun p =>
    if shape then decide (n.slots ≤ s.coreSlots p.1) && (decide (n.banks ≤ 16) || isW3 (dieOf p.1)) else s.fitsEmpty g.dom n p.1 p.2

/-- The saved groups that a change has left without any core that could hold them (20 R431, R432). -/
def strand (shape : Bool) (core : Nat) (s : State) : State :=
  let gs := s.groups.filter fun g => g.st == .saved && g.core == core && g.why == .none && !s.couldHold shape g
  if shape then
    gs.foldl (fun s g => postReport g.dom { report 18 g.dom 0 with group := g.lin, launch := s.launchWord g } s) s
  else gs.foldl (fun s g => killGroup g.gid (killNotice g s)) s

/-- A change takes effect when the last displaced group has left (20 R427, R431, R432). -/
def finishReshape (core : Nat) (s : State) : State :=
  match (s.coreSt core).reshape with
  | none => s
  | some r =>
    if !(s.displaced core r).isEmpty then s
    else
      let s := s.modCore core fun k => { k with reshape := none }
      match r.dpr with
      | some (e, w, v) => strand false core (s.setPreg (0x20000 + 256 * core + 32 * e + 8 * w) v)
      | none =>
        let s := s.setPreg (8 * core) (reshaped r (s.corecfg core))
        let s := if r.kind = 0 then s
          else (List.range 8).foldl (fun s e => s.setPreg (0x20000 + 256 * core + 32 * e) (setField (s.dpra core e) 7 1 0)) s
        strand (r.kind != 0) core (reportDone 8 r.desc 1 s)

/-- The changes that can take effect now. -/
def finishReshapes (s : State) : State := s.cores.foldl (fun s (c, k) => if k.reshape.isSome then finishReshape c s else s) s

/-! ### Pause, resume, reset (20 R433, R434; 22 R476, R477) -/

/-- DOMSTOP's completion word for a domain whose pause is complete. -/
def finishPauses (s : State) : State :=
  s.doms.foldl (fun s (d, x) =>
    if x.stopCw.isEmpty || (x.paused && s.groups.any fun g => g.dom == d && g.st == .resident) then s
    else x.stopCw.foldl (fun s cw => s.completionWord 0 cw) (s.modDom d fun x => { x with stopCw := [] })) s

/-- DOMAIN_PAUSE (20 R433, R441). -/
def execDomainPause (dom : Nat) (s : State) : Out :=
  if dom = 0 ∨ !s.domValid dom then .next (s.ignored 0)
  else
    let cw := s.preg 0x4C18
    let s := s.modDom dom fun x => { x with paused := true, stopCw := x.stopCw ++ [cw] }
    .next ((s.groups.filter fun g => g.dom == dom && g.st == .resident).foldl (fun s g =>
      if g.gate.isSome then stopGate g s else askStop .pause g.gid s) s)

/-- Signals the interrupts that a pause has withheld: one for each INTSTAT bit that is set and not masked (22 R476). -/
def signalHeld (d : Nat) (s : State) : State :=
  let on := (List.range 6).filter fun k => (s.dreg d 0x1C0).getLsbD k && !(s.dreg d 0x1C8).getLsbD k
  s.modDom d fun x => { x with msix := x.msix ++ on }

/-- DOMAIN_RESUME (20 R433; 22 R476). -/
def execDomainResume (dom : Nat) (s : State) : Out :=
  if dom = 0 ∨ !s.domValid dom then .next (s.ignored 0)
  else
    let latched := (s.dom dom).latched
    let was := (s.dom dom).paused
    let s := s.modDom dom fun x => { x with paused := false, latched := [] }
    let s := { s with groups := s.groups.map fun g => if g.dom = dom ∧ g.why = .pause ∧ g.st = .saved then { g with why := .none } else g }
    let s := if was then signalHeld dom s else s
    let s := latched.foldl (fun s q => ring dom q s) s
    let s := (List.range 32).foldl (fun s q => wakeQueue dom q s) s
    .next (s.completionWord 0 (s.preg 0x4C18))

/-- A queue of a reset domain: its unadmitted entries are discarded (06 R184). The CP reads WRIDX from the descriptor then, and so passes
entries whose doorbell was never rung (DESIGN CHOICE, log entry 45). -/
def resetQueue (d q : Nat) (s : State) : State :=
  match s.readQueue d q with
  | .error _ => s.modQueue d q fun y => { y with enabled := false, rdidx := y.wridx, state := 0, waiting := false, head := none }
  | .ok x =>
    let s := match s.devWrite d (cpPtr (s.queueAddr d q) 24) (leBytes 8 x.wridx) 8 with | .ok s => s | .error _ => s
    let s := match s.devWrite d (cpPtr (s.queueAddr d q) 11) [0] 1 with | .ok s => s | .error _ => s
    s.modQueue d q fun y => { y with enabled := false, wridx := x.wridx, rdidx := x.wridx, state := 0, waiting := false, head := none }

/-- The groups of a reset domain: lanes killed, saved images discarded, leases, handles and watchpoints gone (20 R434). -/
def resetGroups (d : Nat) (s : State) : State :=
  let gs := s.groups.filter fun g => g.dom == d
  let s := gs.foldl (fun s g => if g.gate.isSome then stopGate g s else killGroup g.gid (endWhy g 5 s)) s
  let gone := (gs.filter fun g => g.st == .saved).map (·.gid)
  let s := gs.foldl (fun s g => if g.st = .saved then removeGroup g s else dropLease g s) s
  { s with cmds := s.cmds.filter fun c => !gone.contains c.gid }

/-- DOMAIN_RESET (20 R434; 22 R474, R476, R477; 06 R184; 21 R459): a replica request in progress is discarded. Its memory slices keep
their stamps and contents. -/
def resetDomain (d : Nat) (s : State) : State :=
  let lost := s.unread d
  let s := (List.range 32).foldl (fun s q => resetQueue d q s) s
  let before := s.launches
  let s := writeKilled before (resetGroups d s)
  let s := { s with launches := s.launches.filter (fun l => l.dom != d), early := s.early.filter fun x => x.1 != d }
  let s := (s.modules.filter fun m => m.dom == d && m.unloading).foldl (fun s m => dropModule m.dom m.handle s) s
  let s := evictAll (fun k => k.dom == d) 3 s
  let s := s.setPreg (0x4000 + 8 * d) (setField (s.domcfg d) 32 16 (s.gen d + 1))
  let s := resetRegs false d s
  let changed := (s.dom d).ifstate ≠ .unlocked
  let s := s.modDom d fun x =>
    { x with paused := false, ifstate := .unlocked, digest := none, discarded := lost, trapPend := [], evPend := [], wlPend := [],
             trDropped := 0, dbgQueue := [], watch := List.replicate 32 ⟨0, 0⟩, latched := [], reads := [], readOut := [], tlb := [],
             tlbPend := [], tables := x.tables.map (Option.map fun y => { y with req := none }) }
  let s := s.modDom 0 fun x => { x with hyp := x.hyp.filter fun (_, t) => t != d }
  if changed then setInt d 5 s else s

/-- DOMAIN_RESET through DOMSTOP (20 R433, R434). -/
def execDomainReset (dom : Nat) (s : State) : Out :=
  if dom = 0 ∨ !s.domValid dom then .next (s.ignored 0)
  else .next ((resetDomain dom s).completionWord 0 (s.preg 0x4C18))

/-! ### Guest counters (20 R447, R448) -/

/-- The count that a read of the counter window returns: those of issued bundles, translation events, ejections and
RANGE_LOCKED traps are kept; the others count what only an implementation's timing decides (log entry 10). -/
def State.guestCount (s : State) (d k : Nat) : DWord :=
  if k = 0 ∨ k = 13 ∨ k = 14 ∨ k = 15 then BitVec.ofNat 64 ((s.dom d).guest.getD k 0) else Config.freeWord s.free

/-- COUNTER_READ (20 R447): with EVTRAP set, a read of an event that is not allowed is passed to domain 0. -/
def execCounterRead (dom k : Nat) (s : State) : Out :=
  let give := fun (v : DWord) (s : State) => s.modDom dom fun x => { x with readOut := x.readOut ++ [(k, v)] }
  if 16 ≤ k then .next (give 0 s)
  else if field (s.dreg dom 0x1D8) k 1 = 1 then .next (give (s.guestCount dom k) { s with free := s.free + 1 })
  else if field (s.domcfg dom) 6 1 = 0 then .next (give 0 s)
  else .next (s.modDom dom fun x => { x with reads := x.reads ++ [k] })

/-- COUNTER_READ_TIMEOUT (20 R447): domain 0 has supplied no value within 1 ms. -/
def execCounterReadTimeout (dom k : Nat) (s : State) : Out :=
  if (s.dom dom).reads.contains k then
    .next (s.modDom dom fun x => { x with reads := x.reads.erase k, readOut := x.readOut ++ [(k, 0)], timeouts := x.timeouts + 1 })
  else .next s

/-! ### Memory errors (20 R446) -/

/-- UNCORRECTABLE_MEMORY_ERROR (20 R446): the granule is poisoned; its owner gets a report, and domain 0 a copy with the physical
address. -/
def execUncorrectableMemoryError (addr : Nat) (s : State) : Out :=
  .next (reportLine addr (s.addPoison addr))

end Sys2Proof.Machine
end

