-- ==== Sys2Proof/Machine/Rv.lean ====
section
/-! DEFINITION. The control core of an engine as a processor (12 R291, R292). The spec names its instruction set, RV64IMC, and the CSRs;
what the instructions do is taken from the RISC-V unprivileged specification (PRESUMED, log entry 44). -/
namespace Sys2Proof.Machine

/-! ### Operations -/

/-- Register-to-register operations of RV64IM. -/
inductive RvAlu where
  | add | sub | sll | slt | sltu | xor | srl | sra | or | and | mul | mulh | mulhsu | mulhu | div | divu | rem | remu
  deriving DecidableEq, Repr

/-- A decoded instruction; `w` marks the 32-bit forms. -/
inductive RvOp where
  | lui (rd : Nat) (imm : DWord)
  | auipc (rd : Nat) (imm : DWord)
  | jal (rd : Nat) (off : DWord)
  | jalr (rd rs1 : Nat) (off : DWord)
  | branch (cond : Nat) (rs1 rs2 : Nat) (off : DWord)
  | load (kind : Nat) (rd rs1 : Nat) (off : DWord)
  | store (kind : Nat) (rs1 rs2 : Nat) (off : DWord)
  | alui (f : RvAlu) (w : Bool) (rd rs1 : Nat) (imm : DWord)
  | alu (f : RvAlu) (w : Bool) (rd rs1 rs2 : Nat)
  | fence
  | csr (fn : Nat) (rd src num : Nat)
  deriving DecidableEq, Repr

/-- n bits of a word from bit lo on. -/
def rvBits (w : Nat) (lo n : Nat) : Nat := w / 2 ^ lo % 2 ^ n

/-- A number of n bits, read with its sign, as 64 bits. -/
def rvSign (n x : Nat) : DWord := (BitVec.ofNat n x).signExtend 64

/-! ### 32-bit encodings -/

/-- The operation of OP and OP-32 by funct7 and funct3. -/
def rvAlu (w : Bool) (f7 f3 : Nat) : Option RvAlu :=
  match f7, f3 with
  | 0, 0 => some .add
  | 0, 1 => some .sll
  | 0, 2 => if w then none else some .slt
  | 0, 3 => if w then none else some .sltu
  | 0, 4 => if w then none else some .xor
  | 0, 5 => some .srl
  | 0, 6 => if w then none else some .or
  | 0, 7 => if w then none else some .and
  | 32, 0 => some .sub
  | 32, 5 => some .sra
  | 1, 0 => some .mul
  | 1, 1 => if w then none else some .mulh
  | 1, 2 => if w then none else some .mulhsu
  | 1, 3 => if w then none else some .mulhu
  | 1, 4 => some .div
  | 1, 5 => some .divu
  | 1, 6 => some .rem
  | 1, 7 => some .remu
  | _, _ => none

/-- The operation of OP-IMM and OP-IMM-32. -/
def rvAluImm (w : Bool) (i : Nat) (rd rs1 : Nat) : Option RvOp :=
  let f3 := rvBits i 12 3
  let imm := rvSign 12 (rvBits i 20 12)
  let sh := BitVec.ofNat 64 (if w then rvBits i 20 5 else rvBits i 20 6)
  let top := if w then rvBits i 25 7 else rvBits i 26 6 * 2
  match f3 with
  | 0 => some (.alui .add w rd rs1 imm)
  | 1 => if top = 0 then some (.alui .sll w rd rs1 sh) else none
  | 5 => if top = 0 then some (.alui .srl w rd rs1 sh) else if top = 32 then some (.alui .sra w rd rs1 sh) else none
  | _ =>
    if w then none
    else
      match f3 with
      | 2 => some (.alui .slt w rd rs1 imm)
      | 3 => some (.alui .sltu w rd rs1 imm)
      | 4 => some (.alui .xor w rd rs1 imm)
      | 6 => some (.alui .or w rd rs1 imm)
      | _ => some (.alui .and w rd rs1 imm)

/-- A 32-bit instruction; none where it is illegal, `ecall` and `ebreak` among them. -/
def rvDecode (i : Nat) : Option RvOp :=
  let rd := rvBits i 7 5
  let rs1 := rvBits i 15 5
  let rs2 := rvBits i 20 5
  let f3 := rvBits i 12 3
  match rvBits i 0 7 with
  | 0x37 => some (.lui rd (rvSign 32 (rvBits i 12 20 * 2 ^ 12)))
  | 0x17 => some (.auipc rd (rvSign 32 (rvBits i 12 20 * 2 ^ 12)))
  | 0x6F => some (.jal rd (rvSign 21 (rvBits i 31 1 * 2 ^ 20 + rvBits i 12 8 * 2 ^ 12 + rvBits i 20 1 * 2 ^ 11 + rvBits i 21 10 * 2)))
  | 0x67 => if f3 = 0 then some (.jalr rd rs1 (rvSign 12 (rvBits i 20 12))) else none
  | 0x63 =>
    if f3 = 2 ∨ f3 = 3 then none
    else some (.branch f3 rs1 rs2 (rvSign 13 (rvBits i 31 1 * 2 ^ 12 + rvBits i 7 1 * 2 ^ 11 + rvBits i 25 6 * 2 ^ 5 + rvBits i 8 4 * 2)))
  | 0x03 => if f3 = 7 then none else some (.load f3 rd rs1 (rvSign 12 (rvBits i 20 12)))
  | 0x23 => if 3 < f3 then none else some (.store f3 rs1 rs2 (rvSign 12 (rvBits i 25 7 * 2 ^ 5 + rd)))
  | 0x13 => rvAluImm false i rd rs1
  | 0x1B => rvAluImm true i rd rs1
  | 0x33 => (rvAlu false (rvBits i 25 7) f3).map fun f => .alu f false rd rs1 rs2
  | 0x3B => (rvAlu true (rvBits i 25 7) f3).map fun f => .alu f true rd rs1 rs2
  | 0x0F => if f3 = 0 then some .fence else none
  | 0x73 => if f3 = 0 ∨ f3 = 4 then none else some (.csr f3 rd rs1 (rvBits i 20 12))
  | _ => none

/-! ### 16-bit encodings -/

/-- A compressed register. -/
def rvShort (i lo : Nat) : Nat := 8 + rvBits i lo 3

/-- A compressed instruction of quadrant 0. -/
def rvQuad0 (i : Nat) : Option RvOp :=
  let a := rvShort i 7
  let d := rvShort i 2
  let wo := BitVec.ofNat 64 (rvBits i 5 1 * 2 ^ 6 + rvBits i 10 3 * 2 ^ 3 + rvBits i 6 1 * 2 ^ 2)
  let do_ := BitVec.ofNat 64 (rvBits i 5 2 * 2 ^ 6 + rvBits i 10 3 * 2 ^ 3)
  match rvBits i 13 3 with
  | 0 =>
    let n := rvBits i 7 4 * 2 ^ 6 + rvBits i 11 2 * 2 ^ 4 + rvBits i 5 1 * 2 ^ 3 + rvBits i 6 1 * 2 ^ 2
    if n = 0 then none else some (.alui .add false d 2 (BitVec.ofNat 64 n))
  | 2 => some (.load 2 d a wo)
  | 3 => some (.load 3 d a do_)
  | 6 => some (.store 2 a d wo)
  | 7 => some (.store 3 a d do_)
  | _ => none

/-- A compressed instruction of quadrant 1. -/
def rvQuad1 (i : Nat) : Option RvOp :=
  let rd := rvBits i 7 5
  let a := rvShort i 7
  let b := rvShort i 2
  let imm := rvSign 6 (rvBits i 12 1 * 2 ^ 5 + rvBits i 2 5)
  let sh := BitVec.ofNat 64 (rvBits i 12 1 * 2 ^ 5 + rvBits i 2 5)
  let jump := rvSign 12 (rvBits i 12 1 * 2 ^ 11 + rvBits i 8 1 * 2 ^ 10 + rvBits i 9 2 * 2 ^ 8 + rvBits i 6 1 * 2 ^ 7 + rvBits i 7 1 * 2 ^ 6 +
    rvBits i 2 1 * 2 ^ 5 + rvBits i 11 1 * 2 ^ 4 + rvBits i 3 3 * 2)
  let br := rvSign 9 (rvBits i 12 1 * 2 ^ 8 + rvBits i 5 2 * 2 ^ 6 + rvBits i 2 1 * 2 ^ 5 + rvBits i 10 2 * 2 ^ 3 + rvBits i 3 2 * 2)
  match rvBits i 13 3 with
  | 0 => some (.alui .add false rd rd imm)
  | 1 => if rd = 0 then none else some (.alui .add true rd rd imm)
  | 2 => some (.alui .add false rd 0 imm)
  | 3 =>
    if rd = 2 then
      let n := rvSign 10 (rvBits i 12 1 * 2 ^ 9 + rvBits i 3 2 * 2 ^ 7 + rvBits i 5 1 * 2 ^ 6 + rvBits i 2 1 * 2 ^ 5 + rvBits i 6 1 * 2 ^ 4)
      if n = 0 then none else some (.alui .add false 2 2 n)
    else if imm = 0 then none
    else some (.lui rd (imm <<< 12))
  | 4 =>
    match rvBits i 10 2 with
    | 0 => some (.alui .srl false a a sh)
    | 1 => some (.alui .sra false a a sh)
    | 2 => some (.alui .and false a a imm)
    | _ =>
      match rvBits i 12 1, rvBits i 5 2 with
      | 0, 0 => some (.alu .sub false a a b)
      | 0, 1 => some (.alu .xor false a a b)
      | 0, 2 => some (.alu .or false a a b)
      | 0, _ => some (.alu .and false a a b)
      | _, 0 => some (.alu .sub true a a b)
      | _, 1 => some (.alu .add true a a b)
      | _, _ => none
  | 5 => some (.jal 0 jump)
  | 6 => some (.branch 0 a 0 br)
  | _ => some (.branch 1 a 0 br)

/-- A compressed instruction of quadrant 2. -/
def rvQuad2 (i : Nat) : Option RvOp :=
  let rd := rvBits i 7 5
  let rs := rvBits i 2 5
  let sh := BitVec.ofNat 64 (rvBits i 12 1 * 2 ^ 5 + rs)
  match rvBits i 13 3 with
  | 0 => some (.alui .sll false rd rd sh)
  | 2 => if rd = 0 then none else some (.load 2 rd 2 (BitVec.ofNat 64 (rvBits i 2 2 * 2 ^ 6 + rvBits i 12 1 * 2 ^ 5 + rvBits i 4 3 * 2 ^ 2)))
  | 3 => if rd = 0 then none else some (.load 3 rd 2 (BitVec.ofNat 64 (rvBits i 2 3 * 2 ^ 6 + rvBits i 12 1 * 2 ^ 5 + rvBits i 5 2 * 2 ^ 3)))
  | 4 =>
    if rvBits i 12 1 = 0 then
      if rs = 0 then (if rd = 0 then none else some (.jalr 0 rd 0)) else some (.alu .add false rd 0 rs)
    else if rs = 0 then (if rd = 0 then none else some (.jalr 1 rd 0))
    else some (.alu .add false rd rd rs)
  | 6 => some (.store 2 2 rs (BitVec.ofNat 64 (rvBits i 7 2 * 2 ^ 6 + rvBits i 9 4 * 2 ^ 2)))
  | 7 => some (.store 3 2 rs (BitVec.ofNat 64 (rvBits i 7 3 * 2 ^ 6 + rvBits i 10 3 * 2 ^ 3)))
  | _ => none

/-! ### Memories and registers (12 R291) -/

/-- Register r; x0 reads 0. -/
def Rv.reg (v : Rv) (r : Nat) : DWord := if r = 0 then 0 else mget 0 v.x r

/-- Writes register r; a write of x0 is discarded. -/
def Rv.setReg (v : Rv) (r : Nat) (b : DWord) : Rv := if r = 0 then v else { v with x := mset 0 v.x r b }

/-- A byte of the two memories: code RAM past the image holds 0 (log entry 46). -/
def rvByte (im : FwImage) (v : Rv) (a : Nat) : Byte := if a < 65536 then im.code.getD a 0 else mget 0 v.ram (a - 65536)

/-- n bytes of the two memories. -/
def rvRead (im : FwImage) (v : Rv) (a n : Nat) : Nat := (List.range n).foldr (fun k x => (rvByte im v (a + k)).toNat + 256 * x) 0

/-- Writes the low n bytes of a number to the data RAM. -/
def Rv.write (v : Rv) (a n : Nat) (x : Nat) : Rv :=
  { v with ram := (List.range n).foldl (fun m k => mset 0 m (a - 65536 + k) (BitVec.ofNat 8 (x / 256 ^ k))) v.ram }

/-- Whether an aligned access of n bytes lies in a memory that allows it. -/
def rvAccess (wr : Bool) (a n : Nat) : Bool := a % n == 0 && decide (a + n ≤ 81920) && (!wr || decide (65536 ≤ a))

/-! ### Arithmetic -/

/-- A 64-bit operation. -/
def rvOp64 (f : RvAlu) (a b : DWord) : DWord :=
  let sh := b.toNat % 64
  match f with
  | .add => a + b
  | .sub => a - b
  | .sll => a <<< sh
  | .slt => if a.toInt < b.toInt then 1 else 0
  | .sltu => if a.toNat < b.toNat then 1 else 0
  | .xor => a ^^^ b
  | .srl => a >>> sh
  | .sra => a.sshiftRight sh
  | .or => a ||| b
  | .and => a &&& b
  | .mul => a * b
  | .mulh => BitVec.ofInt 64 (a.toInt * b.toInt / 2 ^ 64)
  | .mulhsu => BitVec.ofInt 64 (a.toInt * (b.toNat : Int) / 2 ^ 64)
  | .mulhu => BitVec.ofNat 64 (a.toNat * b.toNat / 2 ^ 64)
  | .div => if b = 0 then BitVec.ofInt 64 (-1) else BitVec.ofInt 64 (Int.tdiv a.toInt b.toInt)
  | .divu => if b = 0 then BitVec.ofInt 64 (-1) else BitVec.ofNat 64 (a.toNat / b.toNat)
  | .rem => if b = 0 then a else BitVec.ofInt 64 (Int.tmod a.toInt b.toInt)
  | .remu => if b = 0 then a else BitVec.ofNat 64 (a.toNat % b.toNat)

/-- A 32-bit operation, with its result read with its sign. -/
def rvOp32 (f : RvAlu) (a b : DWord) : DWord :=
  let sx := fun (d : DWord) => (d.extractLsb' 0 32).signExtend 64
  let zx := fun (d : DWord) => (d.extractLsb' 0 32).zeroExtend 64
  let sh := BitVec.ofNat 64 (b.toNat % 32)
  match f with
  | .sll => sx (rvOp64 .sll a sh)
  | .srl => sx (rvOp64 .srl (zx a) sh)
  | .sra => sx (rvOp64 .sra (sx a) sh)
  | .divu => sx (rvOp64 .divu (zx a) (zx b))
  | .remu => sx (rvOp64 .remu (zx a) (zx b))
  | f => sx (rvOp64 f (sx a) (sx b))

/-- Whether a branch is taken. -/
def rvTaken (c : Nat) (a b : DWord) : Bool :=
  match c with
  | 0 => a == b
  | 1 => a != b
  | 4 => decide (a.toInt < b.toInt)
  | 5 => decide (b.toInt ≤ a.toInt)
  | 6 => decide (a.toNat < b.toNat)
  | _ => decide (b.toNat ≤ a.toNat)

/-! ### One instruction -/

/-- The instruction at the program counter with its length; none where the fetch leaves the code RAM or the instruction is illegal. -/
def rvFetch (im : FwImage) (v : Rv) : Option (RvOp × Nat) :=
  let p := v.pc.toNat
  if p % 2 ≠ 0 ∨ 65536 < p + 2 then none
  else
    let h := rvRead im v p 2
    match h % 4 with
    | 0 => (rvQuad0 h).map fun o => (o, 2)
    | 1 => (rvQuad1 h).map fun o => (o, 2)
    | 2 => (rvQuad2 h).map fun o => (o, 2)
    | _ => if 65536 < p + 4 then none else (rvDecode (rvRead im v p 4)).map fun o => (o, 4)

/-- What an instruction comes to: the next state, an access to a CSR (its number, destination, and the value to write by function, for
the engine to perform, with the length), or a firmware exception (12 R291). -/
inductive RvEnd where
  | next (v : Rv)
  | csr (num rd fn : Nat) (src : Option DWord) (len : Nat)
  | bad
  deriving DecidableEq, Repr

/-- The value of a load: kinds 0 to 3 are read with their sign. -/
def rvLoaded (kind x : Nat) : DWord := if kind < 4 then rvSign (8 * 2 ^ kind) x else BitVec.ofNat 64 x

/-- Executes an instruction of a length. -/
def rvExec (im : FwImage) (v : Rv) (o : RvOp) (len : Nat) : RvEnd :=
  let next := v.pc + BitVec.ofNat 64 len
  let at_ := fun (pc : DWord) (v : Rv) => RvEnd.next { v with pc }
  match o with
  | .lui rd imm => at_ next (v.setReg rd imm)
  | .auipc rd imm => at_ next (v.setReg rd (v.pc + imm))
  | .jal rd off => at_ (v.pc + off) (v.setReg rd next)
  | .jalr rd rs1 off => at_ ((v.reg rs1 + off) &&& ~~~1#64) (v.setReg rd next)
  | .branch c rs1 rs2 off => at_ (if rvTaken c (v.reg rs1) (v.reg rs2) then v.pc + off else next) v
  | .load k rd rs1 off =>
    let a := (v.reg rs1 + off).toNat
    let n := 2 ^ (k % 4)
    if rvAccess false a n then at_ next (v.setReg rd (rvLoaded k (rvRead im v a n))) else .bad
  | .store k rs1 rs2 off =>
    let a := (v.reg rs1 + off).toNat
    let n := 2 ^ k
    if rvAccess true a n then at_ next (v.write a n (v.reg rs2).toNat) else .bad
  | .alui f w rd rs1 imm => at_ next (v.setReg rd (if w then rvOp32 f (v.reg rs1) imm else rvOp64 f (v.reg rs1) imm))
  | .alu f w rd rs1 rs2 => at_ next (v.setReg rd (if w then rvOp32 f (v.reg rs1) (v.reg rs2) else rvOp64 f (v.reg rs1) (v.reg rs2)))
  | .fence => at_ next v
  | .csr fn rd src num =>
    let x := if 4 < fn then BitVec.ofNat 64 src else v.reg src
    .csr num rd (fn % 4) (if fn % 4 ≠ 1 ∧ src = 0 then none else some x) len

/-- The instruction at the program counter (12 R291). -/
def rvStep (im : FwImage) (v : Rv) : RvEnd :=
  match rvFetch im v with
  | some (o, len) => rvExec im v o len
  | none => .bad

/-- The value that a CSR instruction writes over an old one. -/
def rvCsrValue (fn : Nat) (old x : DWord) : DWord := if fn = 1 then x else if fn = 2 then old ||| x else old &&& ~~~x

/-- A control core at the entry of its firmware, with the data RAM loaded from the image and the rest of it zero (12 R291). -/
def Rv.boot (im : FwImage) : Rv :=
  { pc := BitVec.ofNat 64 im.entry, x := [], ram := im.data.zipIdx.foldl (fun m (b, i) => mset 0 m i b) [],
    csrs := [0, 0, 0, 0, 0, 0], ready := false, cmd := none }

end Sys2Proof.Machine
end

