-- ==== Sys2Proof/Machine/Firmware.lean ====
section
/-! DEFINITION. The control cores of the copy and collective engines with a module's firmware: their CSRs, the command word, and what a
control core does next (12 R290 to R295; log entries 13, 44 and 46). -/
namespace Sys2Proof.Machine

/-! ### Control cores -/

/-- A control core: a core's copy engine or a cluster's collective engine, for one module of a domain. -/
structure FwKey where
  ce : Bool
  unit : Nat
  dom : Nat
  modH : Nat
  deriving DecidableEq, Repr

/-- The firmware that a module brings for an engine (12 R290). -/
def State.fwImage (s : State) (ce : Bool) (d m : Nat) : Option FwImage :=
  (s.module? d m).bind fun x => if ce then x.fwcopy else x.fwcoll

/-- The control core that runs a command; none where the vendor's default firmware does. -/
def State.fwKey (s : State) (c : Cmd) : Option FwKey :=
  (s.group? c.gid).bind fun g => (s.fwImage c.kind.onCe g.dom g.modH).map fun _ =>
    ⟨c.kind.onCe, if c.kind.onCe then c.core else clusterOf c.core, g.dom, g.modH⟩

/-- Whether the domain's module of a command's group brings firmware for its engine (12 R290). -/
def State.customFw (s : State) (c : Cmd) : Bool := (s.fwKey c).isSome

/-- The control cores of an engine. -/
def State.fwList (s : State) (ce : Bool) (u : Nat) : List (Nat × Nat × Rv) := if ce then (s.coreSt u).fw else (s.cluster u).fw

/-- The state of a control core; none before its first command. -/
def State.rv? (s : State) (k : FwKey) : Option Rv :=
  ((s.fwList k.ce k.unit).find? fun x => x.1 == k.dom && x.2.1 == k.modH).map fun x => x.2.2

/-- The control cores of an engine with that of one module replaced. -/
def putRv (d m : Nat) (v : Rv) (l : List (Nat × Nat × Rv)) : List (Nat × Nat × Rv) :=
  (d, m, v) :: l.filter fun x => !(x.1 == d && x.2.1 == m)

/-- Sets the state of a control core. -/
def setRv (k : FwKey) (v : Rv) (s : State) : State :=
  if k.ce then s.modCore k.unit fun c => { c with fw := putRv k.dom k.modH v c.fw }
  else s.modCluster k.unit fun c => { c with fw := putRv k.dom k.modH v c.fw }

/-- Changes the control core that runs a command. -/
def modRv (c : Cmd) (f : Rv → Rv) (s : State) : State :=
  match s.fwKey c with
  | none => s
  | some k => match s.rv? k with
    | some v => if v.cmd = some c.id then setRv k (f v) s else s
    | none => s

/-- The control core of a command starts again at its entry, with its data RAM reloaded (12 R291). -/
def rebootFw (c : Cmd) (s : State) : State :=
  match s.fwKey c with
  | none => s
  | some k => match s.fwImage k.ce k.dom k.modH with
    | some im => modRv c (fun _ => Rv.boot im) s
    | none => s

/-! ### Commands as the firmware sees them (12 R293) -/

/-- A staging value of a command. -/
def Cmd.st (c : Cmd) (k : Nat) : DWord := c.stg.getD k 0

/-- KIND of a command. -/
def CmdKind.code : CmdKind → Nat
  | .copy => 0
  | .gather => 1
  | .scatter => 2
  | .coll k => k.code
  | .merge => 0

/-- The handle of a command. -/
def State.cmdHandle (s : State) (c : Cmd) : Handle :=
  match s.group? c.gid with
  | some g => g.handle c.handle
  | none => Handle.none

/-- The command word (12 R293). -/
def State.cmdWord (s : State) (c : Cmd) : DWord :=
  BitVec.ofNat 64 (c.kind.code + c.handle % 32 * 2 ^ 8 + (s.cmdHandle c).scope % 8 * 2 ^ 13 + c.dom % 128 * 2 ^ 16 + c.wave % 2048 * 2 ^ 32 +
    c.lane % 32 * 2 ^ 43)

/-- What the read of a CSR gives: a value, a value that the spec leaves open, nothing yet, or a firmware exception. -/
inductive CsrRead where
  | value (x : DWord)
  | free
  | wait
  | none
  deriving DecidableEq, Repr

/-- STGj of a command: the staging registers that its kind does not use are open (12 R293). -/
def State.stgRead (s : State) (ce : Bool) (j : Nat) (c : Option Cmd) : CsrRead :=
  if !ce ∧ 3 < j then .none
  else
    match c with
    | none => .free
    | some c =>
      if j = 5 ∨ j = 6 then .value 0
      else if j = 7 then .value (BitVec.ofNat 64 (cbhWord c.dom c.handle (s.cmdHandle c).gen))
      else if j < c.stg.length then .value (c.st j) else .free

/-- A read of a CSR by a control core (12 R292). CMD and PGSTAT wait until a value is ready; a register that only writes act on reads as
an open value. -/
def State.csrRead (s : State) (k : FwKey) (v : Rv) (num : Nat) : CsrRead :=
  if num < 0x800 then .none
  else if num ≤ 0x804 then (if num = 0x804 ∧ k.ce then .none else .value (v.csrs.getD (num - 0x800) 0))
  else if num ≤ 0x806 then .free
  else if num = 0xCC0 then .wait
  else if 0xCC1 ≤ num ∧ num ≤ 0xCC8 then s.stgRead k.ce (num - 0xCC1) (v.cmd.bind s.cmd?)
  else if num = 0xCC9 then (if v.ready then .value (v.csrs.getD 5 0) else .wait)
  else if num = 0xCCA then .value (BitVec.ofNat 64 k.dom)
  else if num = 0xCCB then .free
  else .none

/-! ### What a control core does next -/

/-- The next act of a control core: an instruction of its own, with whether it takes a free value; a read of CMD into a register; a start
of a transfer or an end of the command, with the core after it; nothing until something is ready; a firmware exception. -/
inductive FwAct where
  | step (v : Rv) (drew : Bool)
  | cmd (rd len : Nat)
  | go (v : Rv)
  | done (word : DWord) (v : Rv)
  | wait
  | bad
  deriving DecidableEq, Repr

/-- A control core past an instruction, with its result. -/
def Rv.past (v : Rv) (len rd : Nat) (x : DWord) : Rv := { v.setReg rd x with pc := v.pc + BitVec.ofNat 64 len }

/-- A read of a CSR, and the write, of an instruction of a length; the CSR is one that holds what is written. -/
def Rv.access (v : Rv) (num rd fn len : Nat) (src : Option DWord) (old : DWord) : Rv :=
  let v := match src with
    | some x => { v with csrs := v.csrs.set (num - 0x800) (rvCsrValue fn old x) }
    | none => v
  v.past len rd old

/-- A write of PGGO or DONE: it acts on the command that runs, waits while its transfer or its reduction is in progress, and is ignored
where the command has ended. -/
def State.fwWrite (s : State) (v : Rv) (drew : Bool) (act : FwAct) (next : Rv) : FwAct :=
  match v.cmd.bind s.cmd? with
  | some c => if c.phase = .busy ∨ c.port.isSome then .wait else if c.phase = .running then act else .step next drew
  | none => .step next drew

/-- Whether CMD may give the next command: the one that it gave last has ended. -/
def State.cmdFree (s : State) (v : Rv) : Bool :=
  match v.cmd.bind s.cmd? with
  | some c => c.phase == .finished
  | none => true

/-- What an access to a CSR comes to (12 R291, R292). -/
def State.fwCsr (s : State) (k : FwKey) (v : Rv) (num rd fn : Nat) (src : Option DWord) (len : Nat) : FwAct :=
  let w := Config.freeWord s.free
  match s.csrRead k v num, src with
  | .none, _ => .bad
  | .wait, none => if num = 0xCC0 ∧ s.cmdFree v then .cmd rd len else .wait
  | .wait, some _ => .bad
  | .value x, none => .step (v.access num rd fn len none x) false
  | .value x, some y => if num ≤ 0x804 then .step (v.access num rd fn len (some y) x) false else .bad
  | .free, none => .step (v.past len rd w) true
  | .free, some y =>
    let next := v.past len rd w
    if num = 0x805 then s.fwWrite v true (.go next) next
    else if num = 0x806 then s.fwWrite v true (.done (rvCsrValue fn w y) next) next
    else .bad

/-- The next act of a control core. -/
def State.fwAct (s : State) (k : FwKey) (v : Rv) : FwAct :=
  match s.fwImage k.ce k.dom k.modH with
  | none => .wait
  | some im =>
    match rvStep im v with
    | .next v => .step v false
    | .csr num rd fn src len => s.fwCsr k v num rd fn src len
    | .bad => .bad

/-- The control core of a command and its next act, where that core has read the command. -/
def State.fwAt (s : State) (c : Cmd) : Option (FwKey × Rv × FwAct) :=
  (s.fwKey c).bind fun k => (s.rv? k).bind fun v => if v.cmd = some c.id then some (k, v, s.fwAct k v) else none

end Sys2Proof.Machine
end

