-- ==== Sys2Proof/Machine/Engines.lean ====
section
/-! DEFINITION. The copy and collective engines as agents: firmware, path transfers, reductions and pushes (12 R284 to R296,
R303 to R305; 21 R468). Log entries 13, 20, 21, 23, 42 and 44 say what a step carries and what is read by inference. -/
namespace Sys2Proof.Machine

/-! ### Commands and their engines -/

/-- The agent of a command's accesses (12 R281). -/
def State.cmdWho (s : State) (c : Cmd) : Who :=
  ⟨c.dom, (match s.group? c.gid with | some g => g.core | none => c.core), c.gid, c.wave, c.lane, true, false, false⟩

/-- The queue of the engine that a command stands in. -/
def State.engineQueue (s : State) (c : Cmd) : List Nat :=
  if c.kind.onCe then (s.coreSt c.core).ceQueue else (s.cluster (clusterOf c.core)).keQueue

/-- The commands before a command in its engine's queue. -/
def beforeIn (i : Nat) : List Nat → List Nat
  | [] => []
  | x :: r => if x = i then [] else x :: beforeIn i r

/-- Whether two locked ranges collide: they share a byte and one of them is a destination (10 R252, R254). -/
def Lock.collides (a b : Lock) : Bool :=
  a.dom == b.dom && !(a.src && b.src) && decide (0 < a.len) && decide (0 < b.len) &&
  (decide ((a.base + 2 ^ 56 - b.base) % 2 ^ 56 < b.len) || decide ((b.base + 2 ^ 56 - a.base) % 2 ^ 56 < a.len))

/-- Whether a command may start: the commands before it have reached the firmware (on a copy engine they are done), and no
command of its core that issued before it and has not pushed collides with it (10 R252; 12 R293). -/
def State.mayStart (s : State) (c : Cmd) : Bool :=
  (beforeIn c.id (s.engineQueue c)).all (fun i =>
    match s.cmd? i with
    | some e => if c.kind.onCe then e.phase == .finished else e.phase != .queued
    | none => true) &&
  s.cmds.all fun e => !(e.core == c.core && decide (e.id < c.id) && e.locks.any fun a => c.locks.any a.collides)

/-- Bytes of one element or unit that COUNT counts (12 R285). -/
def Cmd.unit (c : Cmd) : Nat :=
  match c.kind with
  | .copy => 1
  | .gather | .scatter => 2 ^ field (c.st 2) 32 2
  | .coll _ => ktySize ((KType.ofCode (field (c.st 2) 32 4)).getD .f32)
  | .merge => if field (c.st 0) 32 1 = 1 then 2 else 4

/-- What COUNT gives of a command that ends now: the units whose destination writes were performed (12 R285, R288). -/
def Cmd.performed (c : Cmd) : Nat := c.count / c.unit

/-- Ends a command with a code; its push follows (12 R288). -/
def finish (i code count : Nat) (addr : DWord) (s : State) : State :=
  (s.modCmd i fun c => { c with phase := .finished, code, count := count % 2 ^ 32, addr, port := none }).due (.enginePush i)

/-- Ends a command with a code after the units that it has performed. -/
def finishAt (i code : Nat) (addr : DWord) (s : State) : State :=
  finish i code (match s.cmd? i with | some c => c.performed | none => 0) addr s

/-- Ends a command with FAULT (12 R288). -/
def finishFault (i : Nat) (f : FaultInfo) (s : State) : State :=
  let s := match s.cmd? i with | some c => noteForeign c.dom f s | none => s
  finishAt i 1 f.addr (s.modCmd i fun c => { c with fault := f.code, check := f.check, facc := f.acc, fentry := f.entry })

/-! ### Accesses of a command -/

/-- Reads of an engine access that a peer does not answer end as poisoned (22 R488). -/
def State.engineCheck (s : State) (w : Who) (ps : List Part) : Except FaultInfo (List Place) :=
  match s.checkParts w ps with
  | .error f => .error f
  | .ok qs =>
    match qs.find? fun q => q.piece.part.rd && s.unanswered q with
    | some q => .error ⟨16, w.lane, 10, 4, ptrWith q.piece.part.ptr q.piece.va, 0, none⟩
    | none => .ok qs

/-- Writes the bytes of an engine access; bytes that a peer does not acknowledge are reported (22 R488). -/
def engineWrite (d : Nat) (ps : List Place) (bs : List Byte) (s : State) : State :=
  match ps.find? fun x => x.piece.part.wr && s.unanswered x with
  | some x => s.due (.peerWriteTimeout d (ptrWith x.piece.part.ptr x.piece.va))
  | none => s.writePlaces ps bs

/-- A pointer moved by an offset modulo 2^56. -/
def ptrPlus (p : DWord) (n : Nat) : DWord := ptrWith p (ptrAddr p + n)

/-! ### Units (12 R281, R286, R288) -/

/-- How a unit ends an operation: a failed check, or an index outside the window. -/
inductive UnitEnd where
  | fault (f : FaultInfo)
  | index (i : Nat)
  deriving DecidableEq, Repr

/-- A unit by number: its checked places and what it does to them, or how it ends the operation. -/
abbrev OneUnit := Nat → State → Except UnitEnd (List Place × (State → State))

/-- How far the units of an operation have come: all done, at the port, or ended. -/
inductive UnitsEnd where
  | done
  | waits
  | stopped (e : UnitEnd)
  deriving DecidableEq, Repr

/-- Counts bytes whose destination writes were performed, and the flags of the arithmetic behind them. -/
def countUnit (i n : Nat) (fl : Byte) (s : State) : State :=
  s.modCmd i fun c => { c with count := c.count + n, flags := c.flags ||| fl }

/-- Performs up to n units from the command's next one on. The lines of a unit that the unit before it has not touched come to the port of
the issuing core (12 R281); where one waits for a token the command waits, and goes on with that unit. -/
def runUnits (i : Nat) (u : OneUnit) : Nat → State → State × UnitsEnd
  | 0, s => (s, .done)
  | n + 1, s =>
    match s.cmd? i with
    | none => (s, .done)
    | some c =>
      match u c.units s with
      | .error e => (s, .stopped e)
      | .ok (ps, act) =>
        let ls := linesOf ps
        let step := fun (s : State) => (act s).modCmd i fun c => { c with units := c.units + 1, lines := ls, port := none }
        if c.port.isSome then runUnits i u n (step s)
        else
          match moveLines c.core c.dom (ls.filter fun x => !c.lines.contains x).length s with
          | (none, s) => runUnits i u n (step s)
          | (some last, s) => (s.modCmd i fun c => { c with port := some last }, .waits)

/-- Performs the units that an operation of m units has left. -/
def runRest (i m : Nat) (u : OneUnit) (s : State) : State × UnitsEnd :=
  runUnits i u (m - match s.cmd? i with | some c => c.units | none => m) s

/-- No unit of the next transfer or reduction of a command has been performed. -/
def freshUnits (c : Cmd) : Cmd := { c with units := 0, lines := [], port := none }

/-- What follows the units of an operation: `done` where all are performed; a failed check ends the command with FAULT and an index with
INDEX (12 R288). -/
def afterUnits (i : Nat) (done : State → State) (r : State × UnitsEnd) : State :=
  match r with
  | (s, .done) => done (s.modCmd i freshUnits)
  | (s, .waits) => s
  | (s, .stopped (.fault f)) => finishFault i f s
  | (s, .stopped (.index k)) => finishAt i 2 (BitVec.ofNat 64 k) s

/-- Whether the lines that a command waits for have left the port of its issuing core. -/
def State.portFree (s : State) (c : Cmd) : Bool :=
  match c.port with
  | none => true
  | some last => decide (last ≤ (s.bucket c.core c.dom).gone)

/-- A unit of n bytes from src to dst: every byte is read before one is written. -/
def moveUnit (i : Nat) (w : Who) (src dst : DWord) (n al : Nat) (s : State) : Except UnitEnd (List Place × (State → State)) :=
  match s.engineCheck w [Part.read src n al, Part.write dst n al] with
  | .error f => .error (.fault f)
  | .ok ps => .ok (ps, fun s =>
      countUnit i n 0 (engineWrite w.dom (ps.filter fun p => p.piece.part.wr) (s.readPlaces (ps.filter fun p => p.piece.part.rd)) s))

/-- Units of a transfer of n bytes: 64 bytes each, from the lowest offset on (12 R286; log entry 21). -/
def copyUnits (n : Nat) : Nat := (n + 63) / 64

/-- Offset and length of unit k, counted from the end where the order is descending. -/
def copyUnitAt (n : Nat) (down : Bool) (k : Nat) : Nat × Nat :=
  let o := 64 * (if down then copyUnits n - 1 - k else k)
  (o, min 64 (n - o))

/-- Bytes of the first k units. -/
def copyBytes (n : Nat) (down : Bool) (k : Nat) : Nat := if down then n - 64 * (copyUnits n - k) else min (64 * k) n

/-- Whether a copy goes down: its destination begins above its source and inside it (12 R286). -/
def copyDown (src dst : DWord) (n : Nat) : Bool := ptrAddr src < ptrAddr dst && ptrAddr dst < ptrAddr src + n

/-- A unit of a copy. -/
def copyUnit (i : Nat) (w : Who) (src dst : DWord) (n : Nat) : OneUnit := fun k s =>
  let (o, m) := copyUnitAt n (copyDown src dst n) k
  moveUnit i w (ptrPlus src o) (ptrPlus dst o) m 1 s

/-- A unit of a gather (`gat`) or scatter: element k. -/
def elemUnit (i : Nat) (w : Who) (gat : Bool) (z nwin : Nat) (win arr idx : DWord) : OneUnit := fun k s =>
  match s.engineCheck w [Part.read (ptrPlus idx (4 * k)) 4 4] with
  | .error f => .error (.fault f)
  | .ok ps =>
    let x := leNat (s.readPlaces ps)
    if nwin ≤ x then .error (.index x)
    else
      let e := ptrPlus win (x * 2 ^ z)
      let a := ptrPlus arr (k * 2 ^ z)
      (moveUnit i w (if gat then e else a) (if gat then a else e) (2 ^ z) (2 ^ z) s).map fun (qs, act) => (ps ++ qs, act)

/-! ### Collectives -/

/-- Fields of STG2 of a collective (12 R293). -/
def Cmd.ktype (c : Cmd) : KType := (KType.ofCode (field (c.st 2) 32 4)).getD .f32
def Cmd.kop (c : Cmd) : KOp := (KOp.ofCode (field (c.st 2) 36 2)).getD .sum
def Cmd.kexact (c : Cmd) : Bool := field (c.st 2) 38 1 == 1
def Cmd.kcount (c : Cmd) : Nat := field (c.st 2) 0 32

/-- The kind of a collective command. -/
def Cmd.kkind (c : Cmd) : KKind := match c.kind with | .coll k => k | _ => .allred

/-- Whether the elements are floating. -/
def ktyFloat : KType → Bool
  | .f32 | .bf16 | .f16 => true
  | _ => false

/-- The format of floating elements. -/
def ktyFmt : KType → Fmt
  | .bf16 => fmtBF16
  | .f16 => fmtF16
  | _ => fmtF32

/-- Whether two buffers share a byte. -/
def overlaps (a n b m : Nat) : Bool :=
  decide (0 < n) && decide (0 < m) && (decide ((a + 2 ^ 56 - b) % 2 ^ 56 < m) || decide ((b + 2 ^ 56 - a) % 2 ^ 56 < n))

/-- The limits that the hardware checks before the firmware reads CMD (12 R286, R293; 13 R314 to R316). -/
def State.cmdBad (s : State) (c : Cmd) : Bool :=
  c.bad ||
  match c.kind with
  | .copy => c.st 2 == 0 || decide (2 ^ 32 < (c.st 2).toNat)
  | .gather | .scatter =>
    c.st 5 == 0 || decide (2 ^ 32 < (c.st 5).toNat) || c.st 4 == 0 || decide (2 ^ 24 < (c.st 4).toNat)
  | .coll k =>
    match s.comm (s.cmdWho c) (c.st 3) with
    | none => true
    | some m =>
      let (ns, nr, rd) := collCounts k c.kcount m
      let z := ktySize c.ktype
      c.kcount == 0 || m.p == 0 || decide (2 ^ 20 < m.p) || decide (m.p ≤ m.rank) || m.bound == 0 || decide (10 ^ 6 < m.bound) ||
      decide (m.p ≤ m.root) || m.resv != 0 || (ktyFloat c.ktype && c.kexact && c.kop != .sum) ||
      (rd && overlaps (ptrAddr (c.st 0)) (ns * z) (ptrAddr (c.st 1)) (nr * z) && !(k == .allred && ptrAddr (c.st 0) == ptrAddr (c.st 1)))
  | .merge => false

/-- The communicator of a command: as the hardware read it when it checked the command, or as it reads now. -/
def State.cmdComm (s : State) (c : Cmd) : Option Comm :=
  match c.comm with
  | some m => some m
  | none => s.comm (s.cmdWho c) (c.st 3)

/-- A command reaches the firmware. -/
def startCmd (c : Cmd) (s : State) : State :=
  let m := match c.kind with | .coll _ => s.cmdComm c | _ => none
  s.modCmd c.id fun c => { c with phase := .running, comm := m }

/-- A command for a module's own firmware: CMD gives it to the control core where that core reads CMD; a core that has run nothing yet
starts at its entry (12 R291, R292). -/
def deliverCmd (c : Cmd) (k : FwKey) (s : State) : State :=
  match s.rv? k, s.fwImage k.ce k.dom k.modH with
  | none, some im => setRv k (Rv.boot im) s
  | some v, _ =>
    match s.fwAct k v with
    | .cmd rd len => setRv k { v.past len rd (s.cmdWord c) with cmd := some c.id, ready := false } (startCmd c s)
    | _ => s
  | none, none => s

/-- FW_CMD_READ (12 R293, R296): a command that breaks the limits completes with BAD_CMD; any other reaches the firmware. A
collective needs its domain's image in the engine. -/
def execFwCmdRead (cmd : Nat) (s : State) : Out :=
  match s.cmd? cmd with
  | none => .next s
  | some c =>
    if c.phase ≠ .queued ∨ c.kind = .merge ∨ !s.mayStart c then .next s
    else if s.cmdBad c then .next (finish cmd 5 0 0 s)
    else
      let im := (s.cluster (clusterOf c.core)).keImages
      let start := fun (s : State) => match s.fwKey c with | none => startCmd c s | some k => deliverCmd c k s
      if c.kind.onCe ∨ im.contains c.dom then .next (start s)
      else if im.length < 4 then .next (start (s.modCluster (clusterOf c.core) fun k => { k with keImages := k.keImages ++ [c.dom] }))
      else .next s

/-- Whether a command of a domain is with the firmware of a cluster's collective engine. -/
def State.keRuns (s : State) (cl d : Nat) : Bool :=
  s.cmds.any fun c => c.dom == d && !c.kind.onCe && c.kind != .merge && clusterOf c.core == cl && (c.phase == .running || c.phase == .busy)

/-- FIRMWARE_IMAGE_REPLACE (12 R296): the image of a domain with no command in progress gives way to that of a waiting command's domain; the
control cores of the domain that goes start anew with its next command. -/
def execFirmwareImageReplace (cmd victim : Nat) (s : State) : Out :=
  match s.cmd? cmd with
  | none => .next s
  | some c =>
    let cl := clusterOf c.core
    .next (s.modCluster cl fun k =>
      if k.keImages.contains c.dom || !k.keImages.contains victim || decide (k.keImages.length < 4) || s.keRuns cl victim then k
      else { k with keImages := (k.keImages.filter (· != victim)) ++ [c.dom], fw := k.fw.filter fun x => x.1 != victim })

/-- A transfer starts with the path registers as they stand. -/
def startTransfer (i : Nat) (csrs : List DWord) (s : State) : State :=
  s.modCmd i fun c => { freshUnits c with phase := .busy, csrs := csrs ++ [0] }

/-- FW_PGGO (12 R292, R294): the firmware, which stands at a write of PGGO with these path registers, starts a transfer. -/
def execFwPggo (cmd : Nat) (src dst len mode rank : DWord) (s : State) : Out :=
  match s.cmd? cmd with
  | none => .next s
  | some c =>
    match s.fwAt c with
    | some (k, v, .go v') =>
      if v.csrs.take 5 = [src, dst, len, mode, rank] then
        .next (startTransfer cmd [src, dst, len, mode, rank] (setRv k { v' with ready := false } { s with free := s.free + 1 }))
      else .next s
    | _ => .next s

/-- Whether the locks cover n bytes from an address on: each byte lies in some of them (12 R294). -/
def coveredBy (ls : List Lock) : Nat → Nat → Nat → Bool
  | _, _, 0 => true
  | 0, _, _ + 1 => false
  | k + 1, a, n + 1 =>
    let m := ls.foldl (fun m x => max m (x.len - (a + 2 ^ 56 - x.base % 2 ^ 56) % 2 ^ 56)) 0
    if m = 0 then false else if n + 1 ≤ m then true else coveredBy ls k ((a + m) % 2 ^ 56) (n + 1 - m)

/-- Whether every byte of a range lies in a locked range of the command (12 R294). -/
def Cmd.covered (c : Cmd) (p : DWord) (n : Nat) : Bool := coveredBy c.locks c.locks.length (ptrAddr p) n

/-- Ends a transfer with PGSTAT and the bytes performed; the firmware goes on. -/
def pgDone (c : Cmd) (stat n : Nat) (s : State) : State :=
  let x : DWord := BitVec.ofNat 64 (stat + n % 2 ^ 32 * 2 ^ 32)
  modRv c (fun v => { v with csrs := v.csrs.set 5 x, ready := true })
    (s.modCmd c.id fun c => { freshUnits c with phase := .running, csrs := c.csrs.set 5 x })

/-- A transfer that touches anything else: PGSTAT 2, and the command ends with FIRMWARE (12 R294). -/
def pgOutside (c : Cmd) (s : State) : State := finishAt c.id 3 0 (pgDone c 2 0 s)

/-- What follows the units of a transfer of n bytes: a failed check returns PGSTAT 1 and ends the command with FAULT (12 R294). -/
def afterPath (c : Cmd) (n : Nat) (down : Bool) (r : State × UnitsEnd) : State :=
  let so := fun (s : State) => copyBytes n down (match s.cmd? c.id with | some c => c.units | none => 0)
  match r with
  | (s, .done) => pgDone c 0 n s
  | (s, .waits) => s
  | (s, .stopped (.fault f)) => finishFault c.id f (pgDone c 1 (so s) s)
  | (s, .stopped (.index _)) => s

/-- Entry r of a communicator's table. -/
def State.commEntry (s : State) (w : Who) (m : Comm) (r : Nat) : Option DWord :=
  match s.checkParts w [Part.read (ptrPlus m.table (8 * r)) 8 8] with
  | .ok ps => some (BitVec.ofNat 64 (leNat (s.readPlaces ps)))
  | .error _ => none

/-- Bytes of the receive buffer of a collective. -/
def recvBytes (k : KKind) (n : Nat) (m : Comm) (z : Nat) : Nat := (collCounts k n m).2.1 * z

/-- The byte that a rank has contributed at an offset. -/
def contribByte (r off : Nat) : List (Nat × Nat × List Byte) → Option Byte
  | [] => none
  | (q, o, bs) :: t => if q = r ∧ o ≤ off ∧ off < o + bs.length then bs[off - o]? else contribByte r off t

/-- Whether a command is a collective of a domain with the receive buffer at an address that still lacks a rank's contribution at an
offset. -/
def Cmd.lacks (c : Cmd) (d a rank off : Nat) : Bool :=
  c.dom == d && (match c.kind with | .coll _ => true | _ => false) && ptrAddr (c.st 1) == a && c.phase != .finished && !c.worked &&
    (contribByte rank off c.contribs).isNone

/-- Delivers a contribution to the earliest operation of the domain with the receive buffer at p that lacks it; one that no issued operation
lacks waits for the next (12 R294, R305). What goes to another package leaves over Bridle. -/
def deliverContrib (d : Nat) (p : DWord) (rank off : Nat) (bs : List Byte) (s : State) : State :=
  match s.cmds.find? fun e => e.lacks d (ptrAddr p) rank off with
  | some e => s.modCmd e.id fun e => { e with contribs := e.contribs ++ [(rank, off, bs)] }
  | none => if regionOf (ptrAddr p) = .peer then s else { s with early := s.early ++ [(d, ptrAddr p, rank, off, bs)] }

/-- A unit that moves bytes between memory and the data RAM of the command's control core (DIR 1 and 2; 12 R292). -/
def ramUnit (c : Cmd) (w : Who) (load : Bool) (src dst : DWord) (n : Nat) : OneUnit := fun k s =>
  let (o, m) := copyUnitAt n false k
  if load then
    match s.engineCheck w [Part.read (ptrPlus src o) m 1] with
    | .error f => .error (.fault f)
    | .ok ps => .ok (ps, fun s =>
        let bs := s.readPlaces ps
        modRv c (fun v => { v with ram := (bs.zipIdx).foldl (fun r (b, j) => mset 0 r (dst.toNat + o + j) b) v.ram }) s)
  else
    match s.engineCheck w [Part.write (ptrPlus dst o) m 1] with
    | .error f => .error (.fault f)
    | .ok ps => .ok (ps, fun s =>
        let ram := match s.fwAt c with | some (_, v, _) => v.ram | none => []
        countUnit c.id m 0 (engineWrite w.dom ps ((List.range m).map fun j => mget 0 ram (src.toNat + o + j)) s))

/-- A unit of a contribution (DIR 3; 12 R294). -/
def contribUnit (c : Cmd) (w : Who) (src e : DWord) (off n rank : Nat) : OneUnit := fun k s =>
  let (o, m) := copyUnitAt n false k
  match s.engineCheck w [Part.read (ptrPlus src o) m 1] with
  | .error f => .error (.fault f)
  | .ok ps => .ok (ps, fun s => deliverContrib c.dom e rank (off + o) (s.readPlaces ps) s)

/-- The receive buffer named in the communicator's table that holds n bytes at an address, with the offset there. -/
def State.recvAt (s : State) (c : Cmd) (w : Who) (dst : DWord) (n : Nat) : Option (DWord × Nat) :=
  match c.kind, s.cmdComm c with
  | .coll k, some m =>
    let z := recvBytes k c.kcount m (ktySize c.ktype)
    (List.range m.p).findSome? fun r => (s.commEntry w m r).bind fun e =>
      let off := (ptrAddr dst + 2 ^ 56 - ptrAddr e) % 2 ^ 56
      if off + n ≤ z then some (e, off) else none
  | _, _ => none

/-- The units of a transfer that the firmware has started, with the length and whether they go down; none where it touches anything else than
it may (12 R294). -/
def State.pathUnits (s : State) (c : Cmd) : Option (OneUnit × Nat × Bool) :=
  let w := s.cmdWho c
  let src := c.csrs.getD 0 0
  let dst := c.csrs.getD 1 0
  let n := (c.csrs.getD 2 0).toNat
  if n = 0 ∨ 2 ^ 32 < n then none
  else
    match (c.csrs.getD 3 0).toNat with
    | 0 => if c.covered src n && c.covered dst n then some (copyUnit c.id w src dst n, n, copyDown src dst n) else none
    | 1 => if c.covered src n && decide (dst.toNat + n ≤ 16384) then some (ramUnit c w true src dst n, n, false) else none
    | 2 => if decide (src.toNat + n ≤ 16384) && c.covered dst n then some (ramUnit c w false src dst n, n, false) else none
    | 3 =>
      match c.covered src n, s.recvAt c w dst n with
      | true, some (e, off) => some (contribUnit c w src e off n (c.csrs.getD 4 0).toNat, n, false)
      | _, _ => none
    | _ => none

/-- A transfer that the firmware has started (12 R294). -/
def pathTransfer (c : Cmd) (s : State) : State :=
  match s.pathUnits c with
  | none => pgOutside c s
  | some (u, n, down) => afterPath c n down (runRest c.id (copyUnits n) u s)

/-- The contribution that the default firmware sends from this rank to rank r: the offset in the send buffer, the offset in
r's receive buffer and the bytes (12 R305); none where this rank sends nothing. -/
def defaultPart (k : KKind) (n z : Nat) (m : Comm) (r : Nat) : Option (Nat × Nat × Nat) :=
  match k with
  | .allred => some (0, 0, n * z)
  | .redscat => some (r * n * z, 0, n * z)
  | .allgath => some (0, m.rank * n * z, n * z)
  | .bcast => if m.rank = m.root then some (0, 0, n * z) else none

/-- Units of a contribution of the default firmware to each rank. -/
def sendUnits (c : Cmd) (k : KKind) (m : Comm) : Nat :=
  match defaultPart k c.kcount (ktySize c.ktype) m 0 with
  | some (_, _, n) => copyUnits n
  | none => 0

/-- A unit of the default firmware's contributions: its contribution goes to every rank of the table, in ascending order. -/
def sendUnit (c : Cmd) (w : Who) (m : Comm) (k : KKind) : OneUnit := fun i s =>
  let u := sendUnits c k m
  let r := i / u
  match defaultPart k c.kcount (ktySize c.ktype) m r with
  | none => .ok ([], id)
  | some (so, ro, n) =>
    let (o, b) := copyUnitAt n false (i % u)
    match s.checkParts w [Part.read (ptrPlus m.table (8 * r)) 8 8], s.engineCheck w [Part.read (ptrPlus (c.st 0) (so + o)) b 1] with
    | .ok ps, .ok qs => .ok (qs, fun s => deliverContrib c.dom (BitVec.ofNat 64 (leNat (s.readPlaces ps))) m.rank (ro + o) (s.readPlaces qs) s)
    | .error f, _ => .error (.fault f)
    | _, .error f => .error (.fault f)

/-- The units of a copy, gather or scatter by the vendor's default firmware, and their number (12 R286). -/
def State.ceUnits (s : State) (c : Cmd) : OneUnit × Nat :=
  let w := s.cmdWho c
  match c.kind with
  | .copy => (copyUnit c.id w (c.st 1) (c.st 0) (c.st 2).toNat, copyUnits (c.st 2).toNat)
  | .gather => (elemUnit c.id w true (field (c.st 2) 32 2) (c.st 5).toNat (c.st 1) (c.st 0) (c.st 3), (c.st 4).toNat)
  | _ => (elemUnit c.id w false (field (c.st 2) 32 2) (c.st 5).toNat (c.st 0) (c.st 1) (c.st 3), (c.st 4).toNat)

/-- The transfers of the vendor's default firmware: the copy, gather or scatter of 12 R286, or the contributions of a collective. -/
def defaultTransfers (c : Cmd) (s : State) : State :=
  let w := s.cmdWho c
  match c.kind with
  | .coll k =>
    match s.cmdComm c with
    | none => s
    | some m =>
      afterUnits c.id (fun s => s.modCmd c.id fun c => { c with sent := true })
        (runRest c.id (m.p * sendUnits c k m) (sendUnit c w m k) s)
  | .merge => s
  | _ => afterUnits c.id (fun s => s.modCmd c.id fun c => { c with worked := true }) (runRest c.id (s.ceUnits c).2 (s.ceUnits c).1 s)

/-- PATH_TRANSFER_DONE (12 R288, R294): the transfer that the firmware started, or all transfers of the default firmware; where a line waits
at the port, as far as that line. -/
def execPathTransferDone (cmd : Nat) (s : State) : Out :=
  match s.cmd? cmd with
  | none => .next s
  | some c =>
    if !s.portFree c then .next s
    else if c.phase = .busy then .next (pathTransfer c s)
    else if c.phase = .running ∧ !s.customFw c ∧ !c.sent ∧ !c.worked then .next (defaultTransfers c s)
    else .next s

/-- The completion code that a write of DONE gives: the codes between 0 and 0x80 are not the firmware's, and the command ends with FIRMWARE
(DESIGN CHOICE, log entry 46). -/
def doneCode (code : BitVec 8) : Nat := if code.toNat = 0 ∨ 128 ≤ code.toNat then code.toNat else 3

/-- FW_DONE (12 R295): the firmware, which stands at a write of DONE of this word, ends the command; the default firmware does so with OK
after its work. -/
def execFwDone (cmd : Nat) (code : BitVec 8) (count : BitVec 32) (s : State) : Out :=
  match s.cmd? cmd with
  | none => .next s
  | some c =>
    if s.customFw c then
      match s.fwAt c with
      | some (k, _, .done x v') =>
        if x.extractLsb' 0 8 = code ∧ x.extractLsb' 32 32 = count then
          .next (finish cmd (doneCode code) count.toNat 0 (setRv k v' { s with free := s.free + 1 }))
        else .next s
      | _ => .next s
    else if c.phase = .running ∧ c.worked then .next (finish cmd (doneCode code) count.toNat 0 s) else .next s

/-- FIRMWARE_EXCEPTION (12 R291): the control core stands at an instruction that raises one; the command ends with FIRMWARE, and the core
starts again with its data RAM reloaded. -/
def execFirmwareException (cmd : Nat) (s : State) : Out :=
  match s.cmd? cmd with
  | none => .next s
  | some c =>
    match s.fwAt c with
    | some (_, _, .bad) => if c.phase = .running ∨ c.phase = .busy then .next (finishAt cmd 3 0 (rebootFw c s)) else .next s
    | _ => .next s

/-- FIRMWARE_WATCHDOG (12 R295): no DONE in time; the command ends with FIRMWARE, and the control core starts again. -/
def execFirmwareWatchdog (cmd : Nat) (s : State) : Out :=
  match s.cmd? cmd with
  | none => .next s
  | some c => if c.phase = .running ∨ c.phase = .busy then .next (finishAt cmd 3 0 (rebootFw c s)) else .next s

/-- One instruction of a control core (12 R291, R292): one of its own, or an access to a CSR that acts on its command. -/
def controlStep (k : FwKey) (s : State) : Out :=
  match s.rv? k with
  | none => .next s
  | some v =>
    let i := v.cmd.getD 0
    match s.fwAct k v with
    | .step v drew => .next (setRv k v (if drew then { s with free := s.free + 1 } else s))
    | .go _ => execFwPggo i (v.csrs.getD 0 0) (v.csrs.getD 1 0) (v.csrs.getD 2 0) (v.csrs.getD 3 0) (v.csrs.getD 4 0) s
    | .done x _ => execFwDone i (x.extractLsb' 0 8) (x.extractLsb' 32 32) s
    | .bad =>
      match v.cmd.bind s.cmd?, s.fwImage k.ce k.dom k.modH with
      | some c, im => if c.phase = .running ∨ c.phase = .busy then execFirmwareException i s else .next (im.elim s fun im => setRv k (Rv.boot im) s)
      | none, im => .next (im.elim s fun im => setRv k (Rv.boot im) s)
    | _ => .next s

/-- Whether a control core can go on. -/
def State.controlReady (s : State) (k : FwKey) : Bool :=
  match s.rv? k with
  | none => false
  | some v => match s.fwAct k v with
    | .cmd _ _ => false
    | .wait => false
    | _ => true

/-- The control cores that can go on. -/
def State.readyControls (s : State) : List FwKey :=
  ((s.cores.flatMap fun (u, k) => k.fw.map fun x => (⟨true, u, x.1, x.2.1⟩ : FwKey)) ++
    s.clusters.flatMap fun (u, k) => k.fw.map fun x => (⟨false, u, x.1, x.2.1⟩ : FwKey)).filter s.controlReady

/-! ### Reductions (12 R303 to R305) -/

/-- The value of z bytes that a rank has contributed at an offset. -/
def contribVal (c : Cmd) (r off : Nat) : Nat → Option Nat
  | 0 => some 0
  | z + 1 =>
    match contribByte r off c.contribs, contribVal c r (off + 1) z with
    | some b, some n => some (b.toNat + 256 * n)
    | _, _ => none

/-- The ranks whose contributions element i of the receive buffer needs. -/
def ranksFor (k : KKind) (n : Nat) (m : Comm) (i : Nat) : List Nat :=
  match k with
  | .allred | .redscat => List.range m.p
  | .allgath => [i / n]
  | .bcast => [m.root]

/-- Whether every contribution has arrived. -/
def contribsIn (c : Cmd) (k : KKind) (m : Comm) : Bool :=
  (List.range (collCounts k c.kcount m).2.1).all fun i =>
    (ranksFor k c.kcount m i).all fun r => (contribVal c r (i * ktySize c.ktype) (ktySize c.ktype)).isSome

/-- A contribution as `f32`, exactly. -/
def asF32 (ty : KType) (p : Nat) : Nat :=
  if ty = .f32 then p else (fmtF32.round .rne false false 0 ((ktyFmt ty).read false p)).1

/-- The sum of contributions in canonical mode (12 R303). -/
def canonicalSum (ty : KType) (xs : List Nat) : Nat × Byte :=
  let (r, f) := treeRoot fmtF32 .rne (xs.length.log2 + 1) (xs.map fun x => some (asF32 ty x))
  let r := r.getD 0
  if ty = .f32 then (r, f)
  else let (p, g) := (ktyFmt ty).round .rne false false 0 (fmtF32.read false r); (p, f ||| g)

/-- The sum of contributions in exact mode (12 R304). -/
def exactSum (ty : KType) (xs : List Nat) : Nat × Byte :=
  let f := ktyFmt ty
  let vs := xs.map (f.read false)
  let (v, g) : FV × Byte :=
    if vs.contains .nan then (.nan, 0)
    else match vs with
      | [] => (.num false 0 0 false, 0)
      | x :: r => r.foldl (fun (a, g) y => let (b, h) := a.add .rne y; (b, g ||| h)) (x, 0)
  let (p, h) := f.round .rne false false 0 v
  (p, g ||| h)

/-- One element of a reduction: the pattern and the flags. -/
def reduceElem (ty : KType) (op : KOp) (exact : Bool) (xs : List Nat) : Nat × Byte :=
  let w := 8 * ktySize ty
  let fold := fun (f : Nat → Nat → Nat) => match xs with | [] => 0 | x :: r => r.foldl f x
  if ktyFloat ty then
    match op with
    | .sum => if exact then exactSum ty xs else canonicalSum ty xs
    | .min => (fold ((ktyFmt ty).minmax false false), 0)
    | .max => (fold ((ktyFmt ty).minmax false true), 0)
  else
    let sg := fun (n : Nat) => sRd w (BitVec.ofNat 96 n)
    match op with
    | .sum => (xs.foldl (fun a x => (a + x) % 2 ^ w) 0, 0)
    | .min => (fold fun a b => if sg b < sg a then b else a, 0)
    | .max => (fold fun a b => if sg a < sg b then b else a, 0)

/-- Element i of the receive buffer. -/
def collElem (c : Cmd) (k : KKind) (m : Comm) (i : Nat) : Nat × Byte :=
  let z := ktySize c.ktype
  let xs := (ranksFor k c.kcount m i).filterMap fun r => contribVal c r (i * z) z
  match k with
  | .allred | .redscat => reduceElem c.ktype c.kop c.kexact xs
  | _ => (xs.headD 0, 0)

/-- A unit that writes element k of a buffer from a number and flags (12 R305). -/
def writeUnit (i : Nat) (w : Who) (p : DWord) (z : Nat) (v : Nat × Byte) (s : State) : Except UnitEnd (List Place × (State → State)) :=
  match s.engineCheck w [Part.write p z 1] with
  | .error f => .error (.fault f)
  | .ok ps => .ok (ps, fun s => countUnit i z v.2 (engineWrite w.dom ps (leBytes z v.1) s))

/-- A unit of a collective's reduction: an element of the receive buffer. -/
def collUnit (c : Cmd) (w : Who) (k : KKind) (m : Comm) : OneUnit := fun i s =>
  writeUnit c.id w (ptrPlus (c.st 1) (i * ktySize c.ktype)) (ktySize c.ktype) (collElem c k m i) s

/-- The elements of a merge, in ascending order: the primary's gradient gets the sum of the replicas' (21 R468). -/
def mergeElem (f : Fmt) : List Nat → Nat × Byte
  | [] => (0, 0)
  | x :: r => r.foldl (fun (a, fl) y => let (p, g) := treeNode f .rne a y; (p, fl ||| g)) (x, 0)

/-- The format of a merge's elements. -/
def Cmd.mergeFmt (c : Cmd) : Fmt := if field (c.st 0) 32 1 = 1 then fmtBF16 else fmtF32

/-- The places of element k of each replica, in order. -/
def readEach (w : Who) (z k : Nat) (s : State) : List DWord → Except FaultInfo (List (List Place))
  | [] => .ok []
  | p :: r =>
    match s.engineCheck w [Part.read (ptrPlus p (k * z)) z 1] with
    | .error f => .error f
    | .ok ps => (readEach w z k s r).map fun xs => ps :: xs

/-- A unit of a merge: element k of the primary's gradient (21 R468). -/
def mergeUnit (c : Cmd) (w : Who) (z : Nat) (rs : List DWord) : OneUnit := fun k s =>
  match readEach w z k s rs with
  | .error f => .error (.fault f)
  | .ok xs =>
    (writeUnit c.id w (ptrPlus (rs.headD 0) (k * z)) z (mergeElem c.mergeFmt (xs.map fun ps => leNat (s.readPlaces ps))) s).map
      fun (ps, act) => (xs.flatten ++ ps, act)

/-- KE_REDUCE (12 R303 to R305; 21 R468): the reduction path combines the contributions, all arrived, and writes the receive
buffer; the merge path merges replicas. Where a line waits at the port, as far as that line. -/
def execKeReduce (cmd : Nat) (s : State) : Out :=
  match s.cmd? cmd with
  | none => .next s
  | some c =>
    let w := s.cmdWho c
    match c.kind with
    | .coll k =>
      match s.cmdComm c with
      | none => .next s
      | some m =>
        if c.phase ≠ .running ∨ c.worked ∨ !contribsIn c k m ∨ !s.portFree c ∨ (!s.customFw c ∧ !c.sent) then .next s
        else
          .next (afterUnits cmd (fun s => s.modCmd cmd fun c => { c with worked := true, contribs := [] })
            (runRest cmd (collCounts k c.kcount m).2.1 (collUnit c w k m) s))
    | .merge =>
      if c.phase ≠ .queued ∨ !s.mayStart c ∨ !s.portFree c then .next s
      else if c.bad then .next (finish cmd 5 0 0 s)
      else
        .next (afterUnits cmd (finishAt cmd 0 0) (runRest cmd (field (c.st 0) 0 32) (mergeUnit c w (c.mergeFmt.width / 8) (c.stg.drop 1)) s))
    | _ => .next s

/-- KE_CONTRIBUTION (12 R294, R305): a contribution of another participant arrives at an operation that has not pushed its results. -/
def execKeContribution (cmd rank off : Nat) (bytes : List Byte) (s : State) : Out :=
  .next (s.modCmd cmd fun c =>
    match c.kind with
    | .coll _ => if c.phase ≠ .finished ∧ !c.worked then { c with contribs := c.contribs ++ [(rank, off, bytes)] } else c
    | _ => c)

/-- KE_BOUND_EXPIRY (12 R295): the command ends with PEER where some rank's contribution has not arrived by BOUND; COUNT gives what it has
written before (R305). -/
def execKeBoundExpiry (cmd : Nat) (s : State) : Out :=
  match s.cmd? cmd with
  | none => .next s
  | some c =>
    match c.kind, s.cmdComm c with
    | .coll k, some m => if c.phase ≠ .finished ∧ !c.worked ∧ !contribsIn c k m then .next (finishAt cmd 4 0 s) else .next s
    | _, _ => .next s

end Sys2Proof.Machine
end

