-- ==== Sys2Proof/Machine/FloatOps.lean ====
section
/-! DEFINITION. Floating-point instructions (04 R121 to R129). -/
namespace Sys2Proof.Machine

/-- A rounded operation on each element of a type with one operand (04 R121, R122). -/
def fop1 (s : State) (rm : Rm) (ty : Ty) (a : Opnd) (f : FV → FV × Byte) : Out :=
  lane1 s ty ty a fun c x acc =>
    mapElems ty (fun k acc =>
      let fm := fmtOf ty
      acc.round fm rm false c.g.ftz (f (fm.read c.g.ftz (elemOf (elemsOf ty).2 k x)))) acc

/-- A rounded operation on each element of a type with two operands. -/
def fop2 (s : State) (rm : Rm) (ty : Ty) (a b : Opnd) (f : FV → FV → FV × Byte) : Out :=
  lane2 s ty ty ty a b fun c x y acc =>
    mapElems ty (fun k acc =>
      let fm := fmtOf ty
      let e := (elemsOf ty).2
      acc.round fm rm false c.g.ftz (f (fm.read c.g.ftz (elemOf e k x)) (fm.read c.g.ftz (elemOf e k y)))) acc

/-- `fadd` (04 R122). -/
def execFadd (rm : Rm) (ty : Ty) (a b : Opnd) (s : State) : Out := fop2 s rm ty a b (FV.add rm)

/-- `fsub` (04 R122): a + (−b). -/
def execFsub (rm : Rm) (ty : Ty) (a b : Opnd) (s : State) : Out := fop2 s rm ty a b fun x y => x.add rm y.neg

/-- `fmul` (04 R122). -/
def execFmul (rm : Rm) (ty : Ty) (a b : Opnd) (s : State) : Out := fop2 s rm ty a b FV.mul

/-- `fdiv` (04 R122). -/
def execFdiv (rm : Rm) (ty : Ty) (a b : Opnd) (s : State) : Out := fop2 s rm ty a b FV.div

/-- `fma` (04 R122). -/
def execFma (rm : Rm) (ty : Ty) (a b c : Opnd) (s : State) : Out :=
  lane3 s ty ty ty ty a b c fun cx x y z acc =>
    mapElems ty (fun k acc =>
      let fm := fmtOf ty
      let e := (elemsOf ty).2
      let rd := fun b => fm.read cx.g.ftz (elemOf e k b)
      acc.round fm rm false cx.g.ftz (FV.fma rm (rd x) (rd y) (rd z))) acc

/-- `fsqrt` (04 R122). -/
def execFsqrt (rm : Rm) (ty : Ty) (a : Opnd) (s : State) : Out := fop1 s rm ty a FV.sqrt

/-- `fmin` and `fmax` on each element (04 R123). -/
def minmaxElems (ftz wantMax : Bool) (ty : Ty) (x y : Bits) : Bits :=
  let (n, e) := elemsOf ty
  BitVec.ofNat 96 (joinElems e ((List.range n).map fun k => (fmtOf ty).minmax ftz wantMax (elemOf e k x) (elemOf e k y)))

/-- `fmin` (04 R123). -/
def execFmin (ty : Ty) (a b : Opnd) (s : State) : Out :=
  lane2 s ty ty ty a b fun c x y acc => (minmaxElems c.g.ftz false ty x y, acc)

/-- `fmax` (04 R123). -/
def execFmax (ty : Ty) (a b : Opnd) (s : State) : Out :=
  lane2 s ty ty ty a b fun c x y acc => (minmaxElems c.g.ftz true ty x y, acc)

/-- A bit operation on each element's sign and magnitude (04 R124). -/
def signElems (ty : Ty) (f : Bool → Bool → Bool) (x y : Bits) : Bits :=
  let (n, e) := elemsOf ty
  let fm := fmtOf ty
  BitVec.ofNat 96 (joinElems e ((List.range n).map fun k =>
    fm.signed (f (fm.sign (elemOf e k x)) (fm.sign (elemOf e k y))) (elemOf e k x % 2 ^ (e - 1))))

/-- `fneg` (04 R124). -/
def execFneg (ty : Ty) (a : Opnd) (s : State) : Out := lane1 s ty ty a fun _ x acc => (signElems ty (fun p _ => !p) x x, acc)

/-- `fabs` (04 R124). -/
def execFabs (ty : Ty) (a : Opnd) (s : State) : Out := lane1 s ty ty a fun _ x acc => (signElems ty (fun _ _ => false) x x, acc)

/-- `fcopysign` (04 R124): a with the sign bit of b. -/
def execFcopysign (ty : Ty) (a b : Opnd) (s : State) : Out :=
  lane2 s ty ty ty a b fun _ x y acc => (signElems ty (fun _ q => q) x y, acc)

/-- `fcmp` (04 R125). -/
def execFcmp (c : FCond) (ty : Ty) (a b : Opnd) (s : State) : Out :=
  lane2 s .i1 ty ty a b fun cx x y acc =>
    let fm := fmtOf ty
    (if fcondHolds c ((fm.read cx.g.ftz (elemOf ty.width 0 x)).cmp (fm.read cx.g.ftz (elemOf ty.width 0 y))) then 1 else 0, acc)

/-- `fclass` (04 R126). -/
def execFclass (ty : Ty) (a : Opnd) (s : State) : Out :=
  lane1 s .i32 ty a fun _ x acc => (ofU 32 ((fmtOf ty).classify (elemOf ty.width 0 x)), acc)

/-- `frint` (04 R127): the rounded integer is exact in the type. -/
def execFrint (rm : Rm) (ty : Ty) (a : Opnd) (s : State) : Out :=
  lane1 s ty ty a fun c x acc =>
    mapElems ty (fun k acc =>
      let fm := fmtOf ty
      let (u, acc) := acc.draw rm
      let (v, fl) := (fm.read c.g.ftz (elemOf (elemsOf ty).2 k x)).rint rm u
      ((fm.round .rne false false 0 v).1, acc.flag fl)) acc

/-- `fdot2` and `fdot4` of two packed values and an `f32` (04 R128). -/
def dotOp (rm : Rm) (ty : Ty) (ftz : Bool) (x y z : Bits) (acc : Acc) : Bits × Acc :=
  let (n, e) := elemsOf ty
  let fm := fmtOf ty
  let ps := (List.range n).map fun k => (fm.read ftz (elemOf e k x), fm.read ftz (elemOf e k y))
  let (p, acc) := acc.round fmtF32 rm false ftz (FV.dot rm ps (fmtF32.read ftz (uRd 32 z)))
  (ofU 32 p, acc)

/-- `fdot2` (04 R128). -/
def execFdot2 (rm : Rm) (ty : Ty) (a b c : Opnd) (s : State) : Out :=
  lane3 s .f32 ty ty .f32 a b c fun cx x y z acc => dotOp rm ty cx.g.ftz x y z acc

/-- `fdot4` (04 R128). -/
def execFdot4 (rm : Rm) (ty : Ty) (a b c : Opnd) (s : State) : Out :=
  lane3 s .f32 ty ty .f32 a b c fun cx x y z acc => dotOp rm ty cx.g.ftz x y z acc

/-- `frcp` (04 R129). -/
def execFrcp (rm : Rm) (ty : Ty) (a : Opnd) (s : State) : Out := fop1 s rm ty a FV.rcp
/-- `frsqrt` (04 R129). -/
def execFrsqrt (rm : Rm) (ty : Ty) (a : Opnd) (s : State) : Out := fop1 s rm ty a FV.rsqrt
/-- `fexp2` (04 R129). -/
def execFexp2 (rm : Rm) (ty : Ty) (a : Opnd) (s : State) : Out := fop1 s rm ty a FV.exp2
/-- `flog2` (04 R129). -/
def execFlog2 (rm : Rm) (ty : Ty) (a : Opnd) (s : State) : Out := fop1 s rm ty a FV.log2
/-- `fsin` (04 R129). -/
def execFsin (rm : Rm) (ty : Ty) (a : Opnd) (s : State) : Out := fop1 s rm ty a FV.sinPi
/-- `fcos` (04 R129). -/
def execFcos (rm : Rm) (ty : Ty) (a : Opnd) (s : State) : Out := fop1 s rm ty a FV.cosPi
/-- `ftanh` (04 R129). -/
def execFtanh (rm : Rm) (ty : Ty) (a : Opnd) (s : State) : Out := fop1 s rm ty a FV.tanh

end Sys2Proof.Machine
end

