-- ==== Sys2Proof/Machine/Winch.lean ====
section
/-! DEFINITION. The Winch: load counters, replica tables, requests, the default policy, and the placement instructions (21),
with the push of an engine command (12 R284, R289), which also ends a merge. -/
namespace Sys2Proof.Machine

/-! ### Tables -/

/-- Table t of a domain. -/
def State.table (s : State) (d t : Nat) : Option Table := ((s.dom d).tables.getD t none)

/-- Changes a valid table. -/
def State.modTable (d t : Nat) (f : Table → Table) (s : State) : State :=
  s.modDom d fun x => { x with tables := modNth (fun o => o.map f) x.tables t }

/-- A Winch log record with fields at 0. -/
def wlog (kind table version : Nat) : WLog := ⟨kind, table, 0, 0, 0, 0, version, 0, 0, 0⟩

/-- Whether the Winch may publish and close windows: no record waits and the log has room (21 R460). -/
def State.logRoom (s : State) (d : Nat) : Bool :=
  (s.dom d).wlPend.isEmpty && (s.ringPut d winchRing (List.replicate 32 0)).isSome

/-- The entry of expert e in a bank: the slots of REP0 to REP7. -/
def entryOf (bank : List (List (Option Nat))) (e : Nat) : List (Option Nat) := bank.getD e []

/-- Replica indices that are PRESENT, ascending, with their slots. -/
def presentIn (row : List (Option Nat)) : List (Nat × Nat) :=
  row.zipIdx.filterMap fun (o, n) => o.map fun x => (n, x)

/-- Slots that a bank names. -/
def slotsIn (bank : List (List (Option Nat))) : List Nat := bank.flatMap fun r => r.filterMap id

/-- The lookup of 21 R454. -/
def lookupIn (bank : List (List (Option Nat))) (v e h : Nat) : DWord :=
  let l := presentIn (entryOf bank e)
  match l[h % 2 ^ 32 * l.length / 2 ^ 32]? with
  | some (n, slot) => BitVec.ofNat 64 (slot % 2 ^ 16 + n * 2 ^ 16 + v % 2 ^ 32 * 2 ^ 32)
  | none => 0

/-- Retires PREV (21 R458): its slots outside CUR become free, but for those that a merge still locks after a forced
retirement. -/
def retirePrev (d t : Nat) (forced : Bool) (s : State) : State :=
  match s.table d t with
  | none => s
  | some x =>
    match x.prev with
    | none => s
    | some v =>
      let freed := (slotsIn x.bankPrev).filter fun p => !(slotsIn x.bankCur).contains p
      let held := if forced then
          s.cmds.flatMap fun c => if c.kind = .merge ∧ c.dom = d ∧ c.table = t ∧ c.version = v ∧ !c.bad then c.slots.filter freed.contains else []
        else []
      let s := s.modTable d t fun x => { x with prev := none, bankPrev := [], refPrev := 0, locked := x.locked ++ held }
      winchLog d { wlog (if forced then 4 else 3) t v with refs := if forced then x.refPrev else 0, slot := freed.headD 0 } s

/-- Retires PREV where its count has reached 0. -/
def settle (d t : Nat) (s : State) : State :=
  match s.table d t with
  | some x => if x.prev.isSome ∧ x.refPrev = 0 then retirePrev d t false s else s
  | none => s

/-- Releases a reference of version v: 0 released, 1 retired or never issued, 2 underflow, which is logged (21 R458, R467). -/
def release (d t v : Nat) (s : State) : Nat × State :=
  match s.table d t with
  | none => (1, s)
  | some x =>
    if x.cur = v then
      if x.refCur = 0 then (2, winchLog d (wlog 7 t v) s)
      else (0, s.modTable d t fun x => { x with refCur := x.refCur - 1 })
    else if x.prev = some v then
      if x.refPrev = 0 then (2, winchLog d (wlog 7 t v) s)
      else (0, settle d t (s.modTable d t fun x => { x with refPrev := x.refPrev - 1 }))
    else (1, s)

/-! ### Placement instructions (21 R463 to R468) -/

/-- The checks of every lane come first: ENGINE_ERROR at the lowest failing lane, ADDR 1 for a table and 2 for an expert
(21 R464). -/
def placeCheck (s : State) (d : Nat) (tab : Nat) (exp : Option Nat) : Option Nat :=
  match if tab < 4 then s.table d tab else none with
  | none => some 1
  | some x => match exp with
    | some e => if x.nexp ≤ e then some 2 else none
    | none => none

/-- A placement instruction: `opnds` gives table, expert and the lane's other operands; `act` gives a lane's result and the
state after it. -/
def placeInstr {A : Type} (s : State) (rt : Option Ty) (opnds : Ctx → Nat → Option (Nat × Option Nat × A))
    (act : Nat → Nat → Nat → A → State → DWord × State) : Out :=
  withRun s fun c =>
    let as := c.ordinary.filterMap fun l => (opnds c l).map fun a => (l, a)
    if as.length ≠ c.ordinary.length then illegal c s
    else
      match as.findSome? fun (l, t, e, _) => (placeCheck s c.g.dom t e).map fun k => (l, k) with
      | some (l, k) => raise c (FaultInfo.plain 15 l (BitVec.ofNat 64 k)) s
      | none =>
        let (rs, s) := as.foldl (fun (rs, s) (l, t, e, a) =>
          let (r, s) := act c.g.dom t (e.getD 0) a s
          (rs ++ [(l, r)], s)) (([] : List (Nat × DWord)), s)
        .next (commit c (c.lanes.map fun l => c.give l (rt.map fun t => ⟨t, ofU 64 ((rs.lookup l).getD 0).toNat⟩)) s)

/-- Three `i32` operands. -/
def threeI32 (s : State) (a b d : Opnd) (c : Ctx) (l : Nat) : Option (Nat × Option Nat × Nat) :=
  match evalOps s c l [(.i32, a), (.i32, b), (.i32, d)] with
  | some [x, y, z] => some (x.toNat, some y.toNat, z.toNat)
  | _ => none

/-- The live counter of expert e of a table (21 R450, R465). -/
def State.counterKey (s : State) (d t e : Nat) : Nat :=
  field (s.preg (0x4A00 + 8 * d)) 0 16 + (match s.table d t with | some x => x.cbase | none => 0) + e

/-- `ecount` (21 R465): saturating. -/
def execEcount (tab exp n : Opnd) (s : State) : Out :=
  placeInstr s none (threeI32 s tab exp n) fun d t e n s =>
    let k := s.counterKey d t e
    (0, { s with winch := mset 0 s.winch k (BitVec.ofNat 32 (min (2 ^ 32 - 1) ((mget 0 s.winch k).toNat + n))) })

/-- `xrtlook` (21 R466). -/
def execXrtlook (tab exp hash : Opnd) (s : State) : Out :=
  placeInstr s (some .i64) (threeI32 s tab exp hash) fun d t e h s =>
    match s.table d t with
    | some x => (lookupIn x.bankCur x.cur e h, s.modTable d t fun x => { x with refCur := x.refCur + 1 })
    | none => (0, s)

/-- `xrtver.cur` (21 R467). -/
def execXrtverCur (tab : Opnd) (s : State) : Out :=
  placeInstr s (some .i64) (fun c l => (evalOp s c l .i32 tab).map fun t => (t.toNat, none, ())) fun d t _ _ s =>
    match s.table d t with
    | some x => (BitVec.ofNat 64 (x.cur + (x.prev.getD 0xFFFFFFFF) * 2 ^ 32), s)
    | none => (0, s)

/-- `xrtver.chk` (21 R467). -/
def execXrtverChk (tab exp hash dst : Opnd) (s : State) : Out :=
  placeInstr s (some .i64)
    (fun c l => match threeI32 s tab exp hash c l, evalOp s c l .i64 dst with
      | some (t, e, h), some d => some (t, e, h, d.extractLsb' 0 64)
      | _, _ => none)
    fun d t e (h, dst) s =>
      match s.table d t with
      | none => (0, s)
      | some x =>
        let v := dst.toNat / 2 ^ 32
        if v = x.cur then (dst, s)
        else
          let r := lookupIn x.bankCur x.cur e h
          let s := s.modTable d t fun x => { x with refCur := x.refCur + 1 }
          if x.prev = some v then (r, (release d t v s).2) else (r, s)

/-- `xrtver.done` (21 R467). -/
def execXrtverDone (tab dst : Opnd) (s : State) : Out :=
  placeInstr s (some .i64)
    (fun c l => match evalOp s c l .i32 tab, evalOp s c l .i64 dst with
      | some t, some d => some (t.toNat, none, d.toNat)
      | _, _ => none)
    fun d t _ dst s => let (r, s) := release d t (dst / 2 ^ 32 % 2 ^ 32) s; (BitVec.ofNat 64 r, s)

/-- The merge command of a lane from the table as it stands (21 R468). -/
def mergeReq (s : State) (d : Nat) (bf16 : Bool) (h : Word) (t e : Nat) (dst : DWord) (n : Nat) : CmdReq :=
  let bad : CmdReq := { h, kind := .merge, stg := [], slot := none, ranges := [], table := t, version := 0, slots := [], bad := true }
  match s.table d t with
  | none => bad
  | some x =>
    let v := dst.toNat / 2 ^ 32
    let bytes := n * (if bf16 then 2 else 4)
    let row := if v = x.cur then some (entryOf x.bankCur e) else if x.prev = some v then some (entryOf x.bankPrev e) else none
    match row with
    | none => bad
    | some row =>
      if n = 0 ∨ x.gslotb < bytes then bad
      else
        let slots := (presentIn row).map (·.2)
        { h, kind := .merge,
          stg := BitVec.ofNat 64 (n % 2 ^ 32 + bf16.toNat * 2 ^ 32) :: slots.map fun p => ptrPlus x.grad (p * x.gslotb),
          slot := none, ranges := slots.mapIdx fun i _ => (i + 1, bytes, i != 0), table := t, version := v, slots, bad := false }

/-- The references that the merges of the lanes that have issued take (21 R468). -/
def takeRefs (d : Nat) (before after : List Cmd) (s : State) : State :=
  (after.drop before.length).foldl (fun s c =>
    if c.bad then s
    else s.modTable d c.table fun x =>
      if x.cur = c.version then { x with refCur := x.refCur + 1 }
      else if x.prev = some c.version then { x with refPrev := x.refPrev + 1 } else x) s

/-- `rmerge` (21 R468): the checks of R464 over every lane come before those of the handles. -/
def execRmerge (bf16 : Bool) (h : BitVec 24) (tab exp dst count : Opnd) (s : State) : Out :=
  let opnds := fun (s : State) (c : Ctx) (l : Nat) =>
    match handleOp c l h, evalOps s c l [(.i32, tab), (.i32, exp), (.i64, dst), (.i32, count)] with
    | some h, some [t, e, d, n] => some (h, t.toNat, e.toNat, d.extractLsb' 0 64, n.toNat)
    | _, _ => none
  withRun s fun c =>
    let bad := c.ordinary.findSome? fun l =>
      if inMask c.w.issued l then none
      else (opnds s c l).bind fun (_, t, e, _) => (placeCheck s c.g.dom t (some e)).map fun k => (l, k)
    match bad with
    | some (l, k) => raise c (FaultInfo.plain 15 l (BitVec.ofNat 64 k)) s
    | none =>
      match cmdInstr s fun s c l => (opnds s c l).map fun (h, t, e, d, n) => mergeReq s c.g.dom bf16 h t e d n with
      | .next s' => .next (takeRefs c.g.dom s.cmds s'.cmds s')
      | o => o

/-! ### The push (12 R284, R287, R289) -/

/-- Frees the slots that a forced retirement left to a merge (21 R458, R468), and releases its reference. -/
def endMerge (c : Cmd) (s : State) : State :=
  if c.kind ≠ .merge ∨ c.bad then s
  else
    match s.table c.dom c.table with
    | none => s
    | some x =>
      if x.cur = c.version ∨ x.prev = some c.version then
        let zero := (x.cur = c.version ∧ x.refCur = 0) ∨ (x.prev = some c.version ∧ x.refPrev = 0)
        if zero then s else (release c.dom c.table c.version s).2
      else s.modTable c.dom c.table fun x => { x with locked := c.slots.foldl (fun l p => l.erase p) x.locked }

/-- What the engine records with a push. -/
def Cmd.info (c : Cmd) : PushInfo :=
  ⟨c.count, c.flags, c.addr, c.fault, c.check, c.facc, c.wave, c.lane, c.func, c.index, c.fentry⟩

/-- ENGINE_PUSH (12 R284): once every earlier claim of the handle has pushed, the locks fall (10 R256), CODES records the push,
the status word is written and PUSH rises. -/
def execEnginePush (cmd : Nat) (s : State) : Out :=
  match s.cmd? cmd with
  | none => .next s
  | some c =>
    match s.group? c.gid with
    | none => .next s
    | some g =>
      let h := g.handle c.handle
      if c.phase ≠ .finished ∨ h.push ≠ c.claim then .next s
      else
        let drop := fun (k : CoreSt) => { k with rlt := k.rlt.filter (fun r => r.cmd != cmd), ceQueue := k.ceQueue.filter (· != cmd) }
        let s := (s.modCore c.core drop).modCore g.core drop
        let s := s.modCluster (clusterOf c.core) fun k => { k with keQueue := k.keQueue.filter (· != cmd) }
        let slot := c.claim.toNat % h.ring
        let code := BitVec.ofNat 9 (c.code % 256)
        let s := s.modHandle g.gid c.handle fun h => { h with codes := h.codes.set slot code, infos := h.infos.set slot c.info }
        let s := match s.group? g.gid with
          | some g => writeStatus g (g.handle c.handle) slot code s
          | none => s
        let s := s.modHandle g.gid c.handle fun h => { h with push := h.push + 1 }
        let s := endMerge c { s with cmds := s.cmds.filter (·.id != cmd) }
        .next (match s.cmds.find? fun e => e.gid == g.gid && e.handle == c.handle && e.claim == c.claim + 1 && e.phase == .finished with
          | some e => s.due (.enginePush e.id)
          | none => s)

/-! ### Installing tables (21 R452, R453) -/

/-- The descriptor's fields. -/
structure TableDesc where
  nexp : Nat
  maxrep : Nat
  flags : Nat
  cbase : Nat
  pool : DWord
  slotb : Nat
  nslot : Nat
  grad : DWord
  gslotb : Nat
  drainT : Nat
  snap : DWord
  init : DWord
  copyT : Nat
  resv : Nat
  deriving DecidableEq, Repr

/-- The descriptor of 64 bytes. -/
def tableDesc (b : List Byte) : TableDesc :=
  let f := fun o n => leNat ((b.drop o).take n)
  { nexp := f 0 4, maxrep := f 4 1, flags := f 5 1, cbase := f 6 2, pool := BitVec.ofNat 64 (f 8 8), slotb := f 16 4, nslot := f 20 4,
    grad := BitVec.ofNat 64 (f 24 8), gslotb := f 32 4, drainT := f 36 4, snap := BitVec.ofNat 64 (f 40 8),
    init := BitVec.ofNat 64 (f 48 8), copyT := f 56 4, resv := f 60 4 }

/-- Whether a size of slots obeys its limits. -/
def slotSizeOk (n : Nat) : Bool := n % 64 == 0 && 64 ≤ n && n ≤ 2 ^ 30

/-- Whether the descriptor obeys its table; `count` is WCNT.COUNT. -/
def TableDesc.ok (x : TableDesc) (count : Nat) : Bool :=
  1 ≤ x.nexp && x.nexp ≤ 4096 && x.cbase + x.nexp ≤ count && 1 ≤ x.maxrep && x.maxrep ≤ 8 && x.flags ≤ 1 &&
  field x.pool 0 6 == 0 && slotSizeOk x.slotb && x.nexp ≤ x.nslot && x.nslot ≤ 4096 && field x.grad 0 6 == 0 && slotSizeOk x.gslotb &&
  10 ≤ x.drainT && x.drainT ≤ 100000 && field x.snap 0 3 == 0 && 100 ≤ x.copyT && x.copyT ≤ 1000000 && x.resv == 0

/-- The INIT array. -/
def initSlots : Nat → List Byte → List Nat
  | 0, _ => []
  | n + 1, b => leNat (b.take 2) :: initSlots n (b.drop 2)

/-- Whether numbers are below a limit and distinct. -/
def distinctBelow (lim : Nat) : List Nat → Bool
  | [] => true
  | x :: r => decide (x < lim) && !r.contains x && distinctBelow lim r

/-- The table that an install makes. -/
def TableDesc.make (x : TableDesc) (cur : Nat) (init : List Nat) (now : Nat) : Table :=
  { nexp := x.nexp, maxrep := x.maxrep, auto := x.flags % 2 == 1, cbase := x.cbase, pool := x.pool, slotb := x.slotb, nslot := x.nslot,
    grad := x.grad, gslotb := x.gslotb, drainT := x.drainT, snap := x.snap, copyT := x.copyT, cur, prev := none,
    bankCur := init.map fun p => some p :: List.replicate 7 none, bankPrev := [], refCur := 0, refPrev := 0, req := none, window := 0,
    snaps := List.replicate x.nexp 0, below := List.replicate x.nexp 0, locked := [], acted := false,
    since := now, closeAt := now + 64000, drainBy := 0 }

/-- TABLE_INSTALL (21 R452, R453): a write of WTABSET with CLEAR 0. -/
def execTableInstall (dom : Nat) (v : DWord) (s : State) : Out :=
  let t := field v 0 2
  let refuse := fun (fault : Nat) (addr : DWord) => winchLog dom { wlog 6 t 0 with reason := 1, fault, addr } s
  if field v 3 3 ≠ 0 ∨ field v 56 8 ≠ 0 then .next (refuse 0 0)
  else
    match s.devRead dom (BitVec.ofNat 64 (field v 6 50 * 64)) 64 64 with
    | .error f => .next (refuse f.code f.addr)
    | .ok bs =>
      let x := tableDesc bs
      if !x.ok (field (s.preg (0x4A00 + 8 * dom)) 16 17) then .next (refuse 0 0)
      else
        match s.devRead dom x.init (2 * x.nexp) 1 with
        | .error f => .next (refuse f.code f.addr)
        | .ok is =>
          let init := initSlots x.nexp is
          if !distinctBelow x.nslot init then .next (refuse 0 0)
          else
            let last := (s.dom dom).lastVer.getD t 0
            let cur := if last = 2 ^ 32 - 1 then 1 else last + 1
            let s := s.modDom dom fun d =>
              { d with tables := d.tables.set t (some (x.make cur init s.now)), lastVer := d.lastVer.set t cur }
            .next (winchLog dom { wlog 1 t cur with reason := if last = 2 ^ 32 - 1 then 6 else 0 } s)

/-- TABLE_CLEAR (21 R452): a write of WTABSET with CLEAR 1; the address is ignored. -/
def execTableClear (dom : Nat) (v : DWord) (s : State) : Out :=
  let t := field v 0 2
  if field v 3 3 ≠ 0 ∨ field v 56 8 ≠ 0 then .next (winchLog dom { wlog 6 t 0 with reason := 1 } s)
  else .next (s.modDom dom fun d => { d with tables := d.tables.set t none })

/-! ### Requests (21 R455 to R459) -/

/-- The refusal reason of a request, or none (21 R455, R461). -/
def refusal (fw : Bool) (v : DWord) : Option Table → Option Nat
  | none => some 1
  | some x =>
    let op := field v 0 2
    let e := field v 4 12
    let rep := field v 16 3
    let slot := field v 20 12
    let row := entryOf x.bankCur e
    if x.nexp ≤ e ∨ field v 32 32 ≠ 0 ∨ field v 19 1 ≠ 0 ∨ 1 < op ∨ (fw ∧ !x.auto) then some 1
    else if op = 0 ∧ (x.nslot ≤ slot ∨ (slotsIn x.bankCur).contains slot ∨ (slotsIn x.bankPrev).contains slot ∨ x.locked.contains slot ∨
        (match x.req with | some r => r.op == 0 && r.slot == slot | none => false) = true) then some 2
    else if op = 0 ∧ x.maxrep ≤ (presentIn row).length then some 3
    else if op = 1 ∧ (rep = 0 ∨ (row.getD rep none).isNone) then some 4
    else if x.req.isSome ∨ x.prev.isSome then some 5
    else if x.cur = 2 ^ 32 - 1 then some 6
    else none

/-- The lowest replica index that is not PRESENT. -/
def freeRep (row : List (Option Nat)) : Nat := ((row.zipIdx.find? fun (o, _) => o.isNone).map (·.2)).getD 0

/-- A request through WREQ, or through the policy's port, which passes one request for each table and window (21 R455, R461). -/
def request (d : Nat) (fw : Bool) (v : DWord) (s : State) : State :=
  let t := field v 2 2
  if fw ∧ (s.table d t).any (·.acted) then s
  else
  let s := if fw then s.modTable d t fun x => { x with acted := true } else s
  match refusal fw v (s.table d t), s.table d t with
  | some r, x =>
    winchLog d { wlog 6 t (match x with | some x => x.cur | none => 0) with reason := r, expert := field v 4 12, slot := field v 20 12 } s
  | none, some x =>
    let op := field v 0 2
    let e := field v 4 12
    let row := entryOf x.bankCur e
    s.modTable d t fun x =>
      { x with req := some ⟨op, e, if op = 0 then freeRep row else field v 16 3,
          if op = 0 then field v 20 12 else (row.getD (field v 16 3) none).getD 0, 0, op == 1, 0, 0, s.now + 1000 * x.copyT⟩ }
  | none, none => s

/-- REPLICATE (21 R455, R456). -/
def execReplicate (dom : Nat) (fw : Bool) (v : DWord) (s : State) : Out := .next (request dom fw v s)

/-- RETIRE (21 R455, R456). -/
def execRetire (dom : Nat) (fw : Bool) (v : DWord) (s : State) : Out := .next (request dom fw v s)

/-- The Winch's accesses act under the domain (21 R456). -/
def winchWho (d : Nat) : Who := Who.device d

/-- Zeroes n bytes from p on in units of 64. -/
def zeroUnits (w : Who) (p : DWord) : Nat → Nat → State → State × Option FaultInfo
  | 0, _, s => (s, none)
  | n + 1, o, s =>
    match s.engineCheck w [Part.write (ptrPlus p o) 64 64] with
    | .error f => (s, some f)
    | .ok ps => zeroUnits w p n (o + 64) (engineWrite w.dom ps (List.replicate 64 0) s)

/-- Copies n units of 64 bytes from offset o on, the first first, until a check fails. -/
def weightUnits (w : Who) (src dst : DWord) : Nat → Nat → State → State × Option FaultInfo
  | 0, _, s => (s, none)
  | n + 1, o, s =>
    match s.engineCheck w [Part.read (ptrPlus src o) 64 64, Part.write (ptrPlus dst o) 64 64] with
    | .error f => (s, some f)
    | .ok ps =>
      weightUnits w src dst n (o + 64)
        (engineWrite w.dom (ps.filter fun p => p.piece.part.wr) (s.readPlaces (ps.filter fun p => p.piece.part.rd)) s)

/-- The copy of a replication (21 R456): the primary's weights, then zeros to the target's gradient. -/
def winchCopy (d : Nat) (x : Table) (r : WReq) (s : State) : State × Option FaultInfo :=
  let p := ((entryOf x.bankCur r.expert).headD none).getD 0
  match weightUnits (winchWho d) (ptrPlus x.pool (p * x.slotb)) (ptrPlus x.pool (r.slot * x.slotb)) (x.slotb / 64) 0 s with
  | (s, some f) => (s, some f)
  | (s, none) => zeroUnits (winchWho d) (ptrPlus x.grad (r.slot * x.gslotb)) (x.gslotb / 64) 0 s

/-- The bank of the next version (21 R457 step 1). -/
def nextBank (x : Table) (r : WReq) : List (List (Option Nat)) :=
  modNth (fun row => row.set r.rep (if r.op = 0 then some r.slot else none)) x.bankCur r.expert

/-- The publication itself (21 R457). -/
def publishNow (d t : Nat) (x : Table) (r : WReq) (s : State) : State :=
  let s := s.modTable d t fun x =>
    { x with prev := some x.cur, cur := x.cur + 1, bankPrev := x.bankCur, bankCur := nextBank x r, refPrev := x.refCur, refCur := 0,
             req := none, drainBy := s.now + 1000 * x.drainT }
  let s := s.modDom d fun y => { y with lastVer := y.lastVer.set t (x.cur + 1) }
  settle d t (winchLog d { wlog 2 t (x.cur + 1) with expert := r.expert, slot := r.slot } s)

/-- PUBLISH (21 R456, R457, R460): the copy of the request in progress ends; the version is published when the log has room. A
copy whose byte fails a check is rolled back. -/
def execPublish (dom tab : Nat) (s : State) : Out :=
  match s.table dom tab with
  | none => .next s
  | some x =>
    match x.req with
    | none => .next s
    | some r =>
      if r.fault ≠ 0 then .next s
      else
        let (s, f) := if r.copied then (s, none) else winchCopy dom x r s
        match f with
        | some f =>
          .next ((s.modTable dom tab fun x => { x with req := some { r with fault := f.code, addr := f.addr } }).due (.rollback dom tab))
        | none =>
          if s.logRoom dom then .next (publishNow dom tab x r s)
          else .next (s.modTable dom tab fun x => { x with req := some { r with copied := true } })

/-- ROLLBACK (21 R459): the copy has failed, a link or die on its path is lost, or COPYT has passed. -/
def execRollback (dom tab : Nat) (s : State) : Out :=
  match s.table dom tab with
  | none => .next s
  | some x =>
    match x.req with
    | none => .next s
    | some r =>
      .next (winchLog dom { wlog 5 tab x.cur with reason := 7, fault := r.fault, addr := r.addr, expert := r.expert, slot := r.slot }
        (s.modTable dom tab fun x => { x with req := none }))

/-- FORCED_RETIRE (21 R458): DRAINT has expired with PREV's count above 0. -/
def execForcedRetire (dom tab : Nat) (s : State) : Out :=
  match s.table dom tab with
  | some x => .next (if x.prev.isSome ∧ x.refPrev ≠ 0 then retirePrev dom tab true s else s)
  | none => .next s

/-! ### Windows and the default policy (21 R451, R462) -/

/-- Writes of a window close: every write that passes is made, and the failure of the lowest address is kept. -/
def snapWrites (d : Nat) : List (DWord × List Byte) → Option FaultInfo → State → State × Option FaultInfo
  | [], f, s => (s, f)
  | (p, b) :: r, f, s =>
    match s.devWrite d p b b.length with
    | .ok s => snapWrites d r f s
    | .error g =>
      snapWrites d r (match f with
        | some f => some (if ptrAddr g.addr < ptrAddr f.addr then g else f)
        | none => some g) s

/-- The memory die of a pool slot's first weight byte; 6 where it has none. -/
def State.slotDie (s : State) (d : Nat) (x : Table) (p : Nat) : Nat :=
  match s.translate d (ptrAddr (ptrPlus x.pool (p * x.slotb))) with
  | .leaf e => if e.host then 6 else (memDieOf (e.pa + (ptrAddr (ptrPlus x.pool (p * x.slotb)) - e.va))).getD 6
  | _ => 6

/-- The slot that the default policy takes: the lowest free slot on the least used die that holds one (21 R462). -/
def policySlot (d : Nat) (x : Table) (s : State) : Option Nat :=
  let cur := slotsIn x.bankCur
  let free := (List.range x.nslot).filter fun p => !cur.contains p && !(slotsIn x.bankPrev).contains p && !x.locked.contains p
  let use := fun k => (cur.filter fun p => s.slotDie d x p == k).length
  let dies := (List.range 7).filter fun k => free.any fun p => s.slotDie d x p == k
  match dies with
  | [] => none
  | k :: r =>
    let best := r.foldl (fun b j => if use j < use b then j else b) k
    free.find? fun p => s.slotDie d x p == best

/-- The expert with the highest count above twice the mean that has room for a replica. -/
def hotExpert (x : Table) (cs : List Nat) : Option Nat :=
  let hot := cs.zipIdx.filter fun (c, e) => decide (2 * cs.sum < c * x.nexp) && decide ((presentIn (entryOf x.bankCur e)).length < x.maxrep)
  match hot with
  | [] => none
  | y :: r => some (r.foldl (fun b z => if b.1 < z.1 then z else b) y).2

/-- The request of the default policy for a table at a window close (21 R462). -/
def policyRequest (d t : Nat) (x : Table) (cs : List Nat) (s : State) : Option DWord :=
  if x.req.isSome ∨ x.prev.isSome then none
  else
    match hotExpert x cs with
    | some e => (policySlot d x s).map fun p => BitVec.ofNat 64 (t * 4 + e * 16 + p * 2 ^ 20)
    | none =>
      ((x.below.zipIdx.find? fun (n, e) => decide (16 ≤ n) && ((presentIn (entryOf x.bankCur e)).drop 1).length != 0).map (·.2)).map fun e =>
        let rep := ((presentIn (entryOf x.bankCur e)).map (·.1)).foldl max 0
        BitVec.ofNat 64 (1 + t * 4 + e * 16 + rep * 2 ^ 16)

/-- WINDOW_CLOSE (21 R451, R460, R462): the close may come late, and the next is due at the first grid point after it; the snapshot, the window number, the counters, then the policy. -/
def execWindowClose (dom tab : Nat) (s : State) : Out :=
  match s.table dom tab with
  | none => .next s
  | some x =>
    if !s.logRoom dom then .next s
    else
      let base := s.counterKey dom tab 0
      let cs := (List.range x.nexp).map fun e => (mget 0 s.winch (base + e)).toNat
      let w := x.window + 1
      let jobs := (cs.zipIdx.map fun (c, e) => (ptrPlus x.snap (4 * e), leBytes 4 c)) ++
        [(ptrPlus x.snap ((4 * x.nexp + 7) / 8 * 8), leBytes 8 w)]
      let (s, f) := snapWrites dom jobs none s
      let s := match f with
        | some f => winchLog dom { wlog 8 tab x.cur with reason := 8, fault := f.code, addr := f.addr } s
        | none => s
      let s := { s with winch := outside base (base + x.nexp) s.winch }
      let below := (cs.zip x.below).map fun (c, n) => if 2 * c * x.nexp < cs.sum then n + 1 else 0
      let s := s.modTable dom tab fun x =>
        { x with window := w, snaps := cs, below, acted := false, closeAt := x.since + ((s.now - x.since) / 64000 + 1) * 64000 }
      if x.auto then
        match policyRequest dom tab { x with below } cs s with
        | some v => .next (request dom true v s)
        | none => .next s
      else .next s

/-- WCNT_WRITE (21 R450): domain 0 writes a domain's counter range. -/
def execWcntWrite (dom : Nat) (v : DWord) (s : State) : Out :=
  let off := 0x4A00 + 8 * dom
  let old := s.preg off
  let base := field v 0 16
  let n := field v 16 17
  let clash := (List.range 65).any fun d =>
    d != dom && (let q := s.preg (0x4A00 + 8 * d)
      decide (0 < n) && decide (0 < field q 16 17) && decide (base < field q 0 16 + field q 16 17) && decide (field q 0 16 < base + n))
  let shrinks := (s.dom dom).tables.any (·.isSome) && (base != field old 0 16 || decide (n < field old 16 17))
  if 64 < dom ∨ field v 33 31 ≠ 0 ∨ 65536 < base + n ∨ clash ∨ shrinks then .next (s.configError off)
  else .next (frozenWrite dom (fun s => s.setPreg off v) s)

end Sys2Proof.Machine
end

