-- ==== Sys2Proof/Machine/HostPort.lean ====
section
/-! DEFINITION. Host ports, register blocks, trust, power and boot (22 R470 to R492; 10 R257). -/
namespace Sys2Proof.Machine

/-! ### Host and peer accesses (10 R257; 22 R481, R487) -/

/-- Whether a domain has a host presence: a function of a PCIe port, or a bound logical device; in the recovery state only the physical
function is presented (20 R445; 22 R470, R484). -/
def State.present (s : State) (d : Nat) : Bool :=
  if d = 0 then true else !s.host.recovery && (s.host.ports.contains 0 || (s.dom d).hostPresent)

/-- HOST_WRITE (10 R257; 20 R445): a write through a domain's window arrives; there is none without a host presence, and a host access to
an interface in ERROR is not performed. -/
def execHostWrite (dom : Nat) (addr : BitVec 56) (bytes : List Byte) (s : State) : Out :=
  if s.inError dom || !s.present dom then .next s
  else
    match s.devWrite dom (BitVec.ofNat 64 addr.toNat) bytes 1 with
    | .ok s => .next s
    | .error _ => .next s

/-- PEER_ACCESS (22 R487): EN and the kind of access are checked before the offset is translated. -/
def execPeerAccess (dom : Nat) (off : BitVec 36) (write : Bool) (bytes : List Byte) (s : State) : Out :=
  if !exportOk (s.expctl dom) (!write) write then .next s
  else
    let p : DWord := BitVec.ofNat 64 (((s.expbase dom).toNat + off.toNat) % 2 ^ 56)
    if write then
      match s.devWrite dom p bytes 1 with
      | .ok s => .next s
      | .error _ => .next s
    else
      match s.devRead dom p bytes.length 1 with
      | .ok bs => .next (s.modDom dom fun x => { x with tdispOut := x.tdispOut ++ [⟨0x200, bs⟩] })
      | .error _ => .next s

/-! ### Grants and interrupts (22 R475, R478) -/

/-- GRANT_WRITE (22 R478): by the tenant's own block. -/
def execGrantWrite (dom : Nat) (v : DWord) (s : State) : Out :=
  .next (s.setDreg dom 0x1B0 (v &&& 15))

/-- INTSTAT_WRITE (22 R471): bits written with 1 are cleared. -/
def execIntstatWrite (dom : Nat) (v : DWord) (s : State) : Out := .next (s.setDreg dom 0x1C0 (s.dreg dom 0x1C0 &&& ~~~v))

/-! ### The interface state machine (22 R479 to R483, R491) -/

/-- Codes of TDISP messages and responses (22 R479; log entry 11). -/
def answer (d kind : Nat) (bs : List Byte) (s : State) : State :=
  s.modDom d fun x => { x with tdispOut := x.tdispOut ++ [⟨kind, bs⟩] }

/-- The TDISP error response. -/
def tdispError (d : Nat) (s : State) : State := answer d 0x7F (Config.standardAnswer 0x7F []) s

/-- A change of the interface state (22 R479). -/
def setIf (d : Nat) (i : IfState) (s : State) : State := setInt d 5 (s.modDom d fun x => { x with ifstate := i })

/-- The bytes of a domain's frozen set that the device holds, in ascending register order (22 R480): DOMCFG, WCNT, slice entries, DPR
entries, and the bases. -/
def State.frozenBytes (s : State) (d : Nat) : List Byte :=
  let word := fun (v : DWord) => leBytes 8 v.toNat
  let slices := (s.pregs.filter fun (k, v) => 0x10000 ≤ k && k < 0x15000 && field v 7 1 == 1 && field v 0 7 == d).flatMap fun (_, v) => word v
  let entries := (s.pregs.filter fun (k, v) => 0x20000 ≤ k && k < 0x68000 && k % 32 == 0 && field v 7 1 == 1 && field v 0 7 == d).flatMap
    fun (k, v) => word v ++ word (s.preg (k + 8)) ++ word (s.preg (k + 16))
  word (s.domcfg d) ++ word (s.preg (0x4A00 + 8 * d)) ++ slices ++ entries ++
    [0x108, 0x110, 0x130, 0x150, 0x170, 0x1D0, 0x1D8].flatMap fun o => word (s.dreg d o)

/-- LOCK_INTERFACE_REQUEST (22 R479). -/
def execLockInterfaceRequest (dom : Nat) (s : State) : Out :=
  if (s.dom dom).ifstate = .unlocked then
    .next (answer dom 0x03 (Config.standardAnswer 0x03 [])
      (setIf dom .locked (s.modDom dom fun x => { x with digest := some (Config.sm3 (s.frozenBytes dom)) })))
  else .next (tdispError dom s)

/-- START_INTERFACE_REQUEST (22 R479). -/
def execStartInterfaceRequest (dom : Nat) (s : State) : Out :=
  if (s.dom dom).ifstate = .locked then .next (answer dom 0x06 (Config.standardAnswer 0x06 []) (setIf dom .run s))
  else .next (tdispError dom s)

/-- The cores of a partition. -/
def State.partCores (s : State) (p : Nat) : Nat := ((s.placesOf p).map (·.1)).eraseDups.length

/-- The device-specific information of the interface report (22 R482). -/
def State.reportInfo (s : State) (d : Nat) : List Byte :=
  leBytes 1 d ++ leBytes 1 (s.partOf d) ++ leBytes 2 (s.gen d) ++ leBytes 4 (s.partCores (s.partOf d)) ++
  leBytes 32 ((s.dom d).digest.getD 0).toNat ++ leBytes 4 (s.host.flash.getD s.host.active (false, 0)).2.toNat ++ List.replicate 20 0

/-- GET_DEVICE_INTERFACE_REPORT (22 R479, R482). -/
def execGetDeviceInterfaceReport (dom : Nat) (s : State) : Out :=
  if s.frozen dom then .next (answer dom 0x04 (Config.standardAnswer 0x04 [] ++ s.reportInfo dom) s)
  else .next (tdispError dom s)

/-- GET_TDISP_VERSION (22 R479). -/
def execGetTdispVersion (dom : Nat) (s : State) : Out := .next (answer dom 0x01 (Config.standardAnswer 0x01 []) s)

/-- GET_TDISP_CAPABILITIES (22 R479). -/
def execGetTdispCapabilities (dom : Nat) (s : State) : Out := .next (answer dom 0x02 (Config.standardAnswer 0x02 []) s)

/-- The code of an interface state in `sysread.ifstate` and DSTAT (04 R137; 22 R471). -/
def ifCode : IfState → Nat
  | .unlocked => 0 | .locked => 1 | .run => 2 | .error => 3

/-- GET_DEVICE_INTERFACE_STATE (22 R479): the state in force. -/
def execGetDeviceInterfaceState (dom : Nat) (s : State) : Out :=
  .next (answer dom 0x05 [BitVec.ofNat 8 (ifCode (s.dom dom).ifstate)] s)

/-- Zeroes every slice stamped for a domain (22 R479; 20 R424). -/
def zeroSlices (d : Nat) (s : State) : State :=
  (s.pregs.filter fun (k, v) => 0x10000 ≤ k && k < 0x15000 && field v 7 1 == 1 && field v 0 7 == d).foldl
    (fun s (k, _) => s.zeroRange (sliceBase k) (2 ^ 30)) s

/-- STOP_INTERFACE_REQUEST (22 R479): reset, then the slices are zeroed. -/
def execStopInterfaceRequest (dom : Nat) (s : State) : Out :=
  .next (answer dom 0x07 (Config.standardAnswer 0x07 []) (zeroSlices dom (resetDomain dom s)))

/-- FROZEN_SET_WRITE (22 R479, R480): a write to a BAR, the memory enable or the MSI-X table location of a locked function is not
performed, and moves the interface to ERROR. -/
def execFrozenSetWrite (dom : Nat) (s : State) : Out := .next (frozenWrite dom id s)

/-- SPDM_SESSION_END (22 R479). -/
def execSpdmSessionEnd (dom : Nat) (s : State) : Out :=
  .next (frozenWrite dom id (s.modDom dom fun x => { x with session := false }))

/-- SPDM_REQUEST (22 R483): the responder answers as SPDM gives; FINISH opens the session, and measurement 7 is the frozen-set
digest, or zeros while unlocked (log entry 11). -/
def execSpdmRequest (dom : Nat) (bytes : List Byte) (s : State) : Out :=
  let code := (bytes.getD 1 0).toNat
  let s := if code = 0xE5 then s.modDom dom fun x => { x with session := true } else s
  let seven := if code = 0xE0 ∧ bytes.getD 3 0 = 7 then leBytes 32 ((s.dom dom).digest.getD 0).toNat else []
  .next (answer dom 0x100 (Config.standardAnswer (0x100 + code) bytes ++ seven) s)

/-! ### Power, boot and firmware (22 R484, R489, R490) -/

/-- PWRLIM_WRITE (22 R472, R489): at most 3,400 W, and never above the limit in force. -/
def execPwrlimWrite (v : DWord) (s : State) : Out :=
  if v.toNat / 2 ^ 12 ≠ 0 ∨ 3400 < v.toNat ∨ (s.preg 0x4C20).toNat < v.toNat then .next (s.ignored 0) else .next (s.setPreg 0x4C20 v)

/-- POWER_CLAMP (22 R489): one step of 100 MHz, down to 1.2 GHz. -/
def execPowerClamp (s : State) : Out := .next { s with power := { s.power with clock := max 12 (s.power.clock - 1) } }

/-- THERMAL_THROTTLE (22 R489): the clock of a die at 105 °C is lowered. -/
def execThermalThrottle (die : Nat) (s : State) : Out := .next { s with power := { s.power with throttled := sadd s.power.throttled die } }

/-- Whether a flash bank holds an image that the boot ROM runs (22 R484). -/
def HostSt.good (h : HostSt) (b : Nat) : Bool := match h.flash[b]? with | some (ok, v) => ok && decide (h.rpb.toNat ≤ v.toNat) | none => false

/-- Boot: the bank to run, or recovery; only the boot ROM advances the stored security version. -/
def boot (h : HostSt) : HostSt :=
  let b := if h.good h.nextActive then some h.nextActive else if h.good (1 - h.nextActive) then some (1 - h.nextActive) else none
  match b with
  | some b => { h with ports := [3, 3], lds := [], active := b, nextActive := b, recovery := false, rpb := (h.flash.getD b (false, 0)).2 }
  | none => { h with ports := [3, 3], lds := [], recovery := true }

/-- A package reset: the machine right after reset, with the flash, the memories outside the package, the peers; the
time starts again (04 R137);
every domain's GEN has risen by 1 (22 R477, R489, R490; 20 R424). -/
def resetPackage (s : State) : State :=
  let s0 := { State.reset with
    mem := s.mem.filter (fun c => decide (2 ^ 60 ≤ c.1) && decide (c.1 < 2 ^ 61) || decide (2 ^ 64 ≤ c.1)),
    agenda := s.agenda, free := s.free, steps := s.steps, booted := s.steps, host := boot s.host, peers := s.peers }
  (List.range 65).foldl (fun t d => t.setPreg (0x4000 + 8 * d) (setField (pregReset (0x4000 + 8 * d)) 32 16 (s.gen d + 1))) s0

/-- PACKAGE_RESET (22 R490). -/
def execPackageReset (s : State) : Out := .next (resetPackage s)

/-- THERMAL_RESET (22 R489): a die at 115 °C. -/
def execThermalReset (_die : Nat) (s : State) : Out := .next (resetPackage s)

/-- FIRMWARE_UPDATE (22 R490): written to the inactive bank, checked, and made active at the next package reset. -/
def execFirmwareUpdate (ok : Bool) (version : BitVec 32) (s : State) : Out :=
  let b := 1 - s.host.active
  let h := { s.host with flash := s.host.flash.set b (ok, version) }
  .next { s with host := { h with nextActive := if h.good b then b else h.nextActive } }

/-- HOST_PORT_TRAIN (22 R470): a port trains once per package reset; a failure is reported to domain 0. -/
def execHostPortTrain (port personality : Nat) (s : State) : Out :=
  if s.host.ports.getD port 0 ≠ 3 then .next s
  else
    let p := min personality 2
    let s := { s with host := { s.host with ports := s.host.ports.set port p } }
    .next (if p = 2 then { s with cfgErrors := s.cfgErrors ++ [0x1000000 + port] } else s)

/-- LOGICAL_DEVICE_BIND (20 R445): one of 16 logical devices of a CXL port is bound to one tenant domain, or to none. -/
def execLogicalDeviceBind (port ld : Nat) (dom : Option Nat) (s : State) : Out :=
  let key := port * 16 + ld
  let free := match dom with | some d => decide (1 ≤ d) && decide (d ≤ 64) && s.host.lds.all (fun (k, e) => k == key || e != d) | none => true
  if s.host.ports.getD port 0 ≠ 1 ∨ 16 ≤ ld ∨ !free then .next s
  else
    let s := match s.host.lds.lookup key with | some d => s.modDom d fun x => { x with hostPresent := false } | none => s
    match dom with
    | some d => .next (({ s with host := { s.host with lds := mput s.host.lds key d } } : State).modDom d fun x => { x with hostPresent := true })
    | none => .next { s with host := { s.host with lds := mdel s.host.lds key } }

/-- HOST_FUNCTION_RESET (20 R434): a function-level reset, or a reset of a logical device. -/
def execHostFunctionReset (dom : Nat) (s : State) : Out := if dom = 0 ∨ 64 < dom then .next s else .next (resetDomain dom s)

/-! ### Register blocks (22 R471 to R473) -/

/-- The ring whose base register stands at an offset, with the range of LOGN. -/
def baseRing (off : Nat) : Option Ring :=
  if off = 0x110 then some trapRing else if off = 0x130 then some eventRing else if off = 0x150 then some traceRing
  else if off = 0x170 then some winchRing else none

/-- A write of the resume register (17 R382). -/
def resumeWrite (by0 : Bool) (d : Nat) (v : DWord) (s : State) : Out :=
  let seq : Word := v.extractLsb' 0 32
  if field v 36 28 ≠ 0 ∨ 3 < field v 32 4 then .next (s.ignored d)
  else if field v 32 4 = 0 then execResume d seq s
  else if field v 32 4 = 1 then execKillLane d seq s
  else if field v 32 4 = 2 then execKillWave d seq s
  else if d = 0 ∧ by0 then execForward seq s
  else .next (s.ignored d)

/-- A write of WREQ (21 R455): the operation selects replication or retirement. -/
def wreqWrite (d : Nat) (v : DWord) (s : State) : Out :=
  if field v 0 2 = 1 then execRetire d false v s else execReplicate d false v s

/-- The bits that a register of the block holds (16 R372; 17 R394; 22 R475); the others read as 0 (log entry 38). -/
def blockBits (off : Nat) : DWord :=
  if off = 0x148 then 1 else if off = 0x168 then 0xFFE else if off = 0x1C8 then 0x3F else BitVec.allOnes 64

/-- A write to a register of a domain's block (22 R471, R473). `by0` is a write through domain 0's view. -/
def blockWrite (by0 : Bool) (d off : Nat) (v : DWord) (s : State) : Out :=
  let put := fun (s : State) => s.setDreg d off (v &&& blockBits off)
  if s.inError d ∧ !by0 then .next s
  else if off < 0x100 then execDoorbell d (off / 8) s
  else if off = 0x108 ∨ off = 0x1D0 ∨ off = 0x1D8 then (if by0 then .next (frozenWrite d put s) else .next (s.ignored d))
  else if off = 0x110 ∨ off = 0x130 ∨ off = 0x150 ∨ off = 0x170 then
    match baseRing off with
    | some r =>
      if !by0 ∨ field v 0 5 < 4 ∨ r.hi < field v 0 5 then .next (s.ignored d) else .next (frozenWrite d put s)
    | none => .next s
  else if off = 0x120 ∨ off = 0x140 ∨ off = 0x160 ∨ off = 0x180 then
    let s := put s
    .next (if off = 0x140 then flushEvents d (s.dom d).evPend.length s
      else if off = 0x120 ∧ (s.dom d).trapPend ≠ [] then s.due (.trapRecordWrite d)
      else if off = 0x180 ∧ (s.dom d).wlPend ≠ [] then s.due (.winchLogWrite d) else s)
  else if off = 0x128 then resumeWrite by0 d v s
  else if off = 0x148 ∨ off = 0x168 ∨ off = 0x198 ∨ off = 0x1A0 ∨ off = 0x1C8 then .next (put s)
  else if off = 0x188 then (if field v 2 1 = 1 then execTableClear d v s else execTableInstall d v s)
  else if off = 0x190 then wreqWrite d v s
  else if off = 0x1A8 then execTlbInvalidate d v s
  else if off = 0x1B0 then (if by0 ∧ d ≠ 0 then .next (s.ignored d) else execGrantWrite d v s)
  else if off = 0x1C0 then execIntstatWrite d v s
  else if off = 0x1E0 then
    (if !by0 ∧ field (s.dreg d 0x1B0) 2 1 = 0 then .next (s.ignored d) else .next (put s))
  else if off = 0x1E8 then execWdctlWrite by0 d v s
  else if 0x2000 ≤ off ∧ off < 0x2400 then .next (put s)
  else if by0 ∧ 0x1000 ≤ off ∧ off < 0x1080 ∧ (s.dom d).reads.contains ((off - 0x1000) / 8) then
    -- domain 0 supplies the value of a read passed to it (20 R447)
    .next (s.modDom d fun x => { x with reads := x.reads.erase ((off - 0x1000) / 8), readOut := x.readOut ++ [((off - 0x1000) / 8, v)] })
  else .next s

/-- Whether an offset is a link port's regulator (22 R472): the port and the virtual channel. -/
def linkReg (off : Nat) : Option (Nat × Nat) :=
  let port := (off - 0x300000) / 0x800
  let vc := (off - 0x300000) % 0x800 / 8
  if off < 0x300000 ∨ 65 < vc then none
  else if (1 ≤ port ∧ port ≤ 14) ∨ (17 ≤ port ∧ port ≤ 30) ∨ (32 ≤ port ∧ port ≤ 49) then some (port, vc) else none

/-- A write of a link port regulator (19 R413): VC 65's is fixed at boot. -/
def linkWrite (port vc off : Nat) (v : DWord) (s : State) : State :=
  let r := linkRate v
  let sum := (List.range 65).foldl (fun t k => if k = vc then t else t + (linkRate (s.preg (0x300000 + 0x800 * port + 8 * k))).least) r.least
  if vc = 65 then s
  else if v.toNat / 2 ^ 50 ≠ 0 ∨ r.rate < r.least ∨ r.depth < r.rate ∨ 4096 < r.rate ∨ 4096 < sum then s.configError off
  else s.setPreg off v

/-- A write of DOMSTOP (20 R433). -/
def domstopWrite (v : DWord) (s : State) : Out :=
  if v.toNat / 2 ^ 9 ≠ 0 ∨ field v 7 2 = 3 then .next (s.ignored 0)
  else if field v 7 2 = 0 then execDomainPause (field v 0 7) s
  else if field v 7 2 = 1 then execDomainResume (field v 0 7) s
  else execDomainReset (field v 0 7) s

/-- A write of RESHAPE (20 R430): the KIND of the descriptor names the step; a KIND out of range is found there. -/
def reshapeWrite (addr : DWord) (s : State) : Out :=
  match s.devRead 0 addr 32 32 with
  | .ok bs => if bytesAt bs 0 1 = 1 then execReshapeSplit addr s else if bytesAt bs 0 1 = 2 then execReshapeJoin addr s else execReshapeAssign addr s
  | .error _ => execReshapeAssign addr s

/-- A write to a package register (22 R472), by domain 0. -/
def packageWrite (off : Nat) (v : DWord) (s : State) : Out :=
  if off % 8 ≠ 0 then .next (s.ignored 0)
  else if 0x4000 ≤ off ∧ off ≤ 0x4200 then execDomcfgWrite ((off - 0x4000) / 8) v s
  else if 0x4400 ≤ off ∧ off < 0x44C0 then execPartcfgWrite ((off - 0x4400) / 8) v s
  else if off = 0x4600 then execGangctlWrite v s
  else if 0x4800 ≤ off ∧ off < 0x4A00 then
    (if v.toNat / 2 ^ 23 ≠ 0 ∨ 64 < field v 0 7 then .next (s.ignored 0) else .next (s.setPreg off v))
  else if 0x4A00 ≤ off ∧ off ≤ 0x4C00 - 8 then execWcntWrite ((off - 0x4A00) / 8) v s
  else if off = 0x4C00 then execMigrate v s
  else if off = 0x4C08 then reshapeWrite v s
  else if off = 0x4C10 then domstopWrite v s
  else if off = 0x4C18 ∨ off = 0x4C28 ∨ off = 0x4C38 then .next (s.setPreg off v)
  else if off = 0x4C20 then execPwrlimWrite v s
  else if off = 0x4C30 then execL2drop v s
  else if 0x10000 ≤ off ∧ off < 0x10C00 then execSliceTableWrite false ((off - 0x10000) / 8) v s
  else if 0x11000 ≤ off ∧ off < 0x15000 then execSliceTableWrite true ((off - 0x11000) / 8) v s
  else if 0x20000 ≤ off ∧ off < 0x68000 ∧ off % 32 < 24 then
    execDprWrite ((off - 0x20000) / 256) ((off - 0x20000) % 256 / 32) (off % 32 / 8) v s
  else if 0x120000 ≤ off ∧ off < 0x220000 then execPlaceTableWrite off v s
  else if 0x400000 ≤ off ∧ off < 0x400000 + 16 * 65 then
    (if off % 16 = 0 then (if v.toNat / 8 ≠ 0 then .next (s.ignored 0) else .next (s.setPreg off v))
     else if field v 0 36 ≠ 0 then .next (s.ignored 0) else .next (s.setPreg off v))
  else
    match linkReg off with
    | some (port, vc) => .next (linkWrite port vc off v s)
    | none => .next (s.ignored 0)

/-- REGISTER_WRITE (22 R471, R472): an aligned write to a domain's block, from a host where the domain has a presence, or, by domain 0, to a package register. -/
def execRegisterWrite (by0 : Bool) (blk : Option Nat) (off : Nat) (v : DWord) (s : State) : Out :=
  match blk with
  | some d => if 64 < d ∨ off % 8 ≠ 0 ∨ (!by0 ∧ !s.present d) then .next s else blockWrite by0 d off v s
  | none => if by0 then packageWrite off v s else .next s

/-- DSTAT (22 R471). -/
def State.dstat (s : State) (d : Nat) : DWord :=
  BitVec.ofNat 64 (s.gen d + ifCode (s.dom d).ifstate * 2 ^ 16 + (s.dom d).paused.toNat * 2 ^ 18 + (s.dom d).discarded % 2 ^ 32 * 2 ^ 32)

/-- What a read of a register of a domain's block returns; registers that are only written, and offsets not listed, read 0.
The PBA shows the vectors that are withheld (log entry 38). -/
def State.blockRead (s : State) (d off : Nat) : DWord :=
  if off = 0x100 then s.dstat d
  else if off = 0x1E8 then (s.readWdctl d).1
  else if off < 0x100 ∨ off = 0x128 ∨ off = 0x188 ∨ off = 0x190 ∨ off = 0x1A8 then 0
  else if off = 0x110 ∨ off = 0x130 ∨ off = 0x150 ∨ off = 0x170 then s.dreg d off
  else if off = 0x2800 then (if s.withheld d then s.dreg d 0x1C0 &&& ~~~s.dreg d 0x1C8 else 0)
  else if off < 0x1F0 ∨ (0x2000 ≤ off ∧ off < 0x2400) then s.dreg d off
  else 0

end Sys2Proof.Machine
end

