-- ==== Sys2Proof/Machine/Integer.lean ====
section
/-! DEFINITION. Integer, pointer and move instructions (04 R110 to R120). -/
namespace Sys2Proof.Machine

/-- An integer operation on each element of a type, from the unsigned readings, modulo the element width. -/
def intElems (ty : Ty) (f : Nat → Bits → Bits → Bits) (x y : Bits) : Bits :=
  let (n, ew) := elemsOf ty
  BitVec.ofNat 96 (joinElems ew ((List.range n).map fun k => (f ew (BitVec.ofNat 96 (elemOf ew k x)) (BitVec.ofNat 96 (elemOf ew k y))).toNat))

/-- A lane-local integer operation with two operands of the result's type and no flags. -/
def int2 (s : State) (ty : Ty) (a b : Opnd) (f : Nat → Bits → Bits → Bits) : Out :=
  lane2 s ty ty ty a b fun _ x y acc => (intElems ty f x y, acc)

/-- A lane-local integer operation with one operand and no flags. -/
def int1 (s : State) (ty : Ty) (a : Opnd) (f : Nat → Bits → Bits) : Out :=
  lane1 s ty ty a fun _ x acc => (f ty.width x, acc)

/-! ### The operations of one element of width w -/

/-- Quotient and remainder (04 R113). -/
def udivOp (w : Nat) (x y : Bits) : Bits := if uRd w y = 0 then ofU w (2 ^ w - 1) else ofU w (uRd w x / uRd w y)
def uremOp (w : Nat) (x y : Bits) : Bits := if uRd w y = 0 then ofU w (uRd w x) else ofU w (uRd w x % uRd w y)
def sdivOp (w : Nat) (x y : Bits) : Bits := if uRd w y = 0 then ofU w (2 ^ w - 1) else ofI w ((sRd w x).tdiv (sRd w y))
def sremOp (w : Nat) (x y : Bits) : Bits :=
  if uRd w y = 0 then ofU w (uRd w x) else ofI w (sRd w x - sRd w y * (sRd w x).tdiv (sRd w y))

/-- Shifts and rotations by a count modulo w (04 R114). -/
def shlOp (w : Nat) (x y : Bits) : Bits := ofU w (uRd w x * 2 ^ (uRd w y % w))
def lshrOp (w : Nat) (x y : Bits) : Bits := ofU w (uRd w x / 2 ^ (uRd w y % w))
def ashrOp (w : Nat) (x y : Bits) : Bits := ofI w (sRd w x / (2 ^ (uRd w y % w) : Nat))
def rotlBy (w : Nat) (x : Bits) (k : Nat) : Bits := ofU w (uRd w x * 2 ^ k + uRd w x / 2 ^ (w - k))
def rotlOp (w : Nat) (x y : Bits) : Bits := rotlBy w x (uRd w y % w)
def rotrOp (w : Nat) (x y : Bits) : Bits := rotlBy w x ((w - uRd w y % w) % w)

/-- Counts of bits (04 R115): the 1 bits of the low n bits. -/
def popcount : Nat → Nat → Nat
  | 0, _ => 0
  | n + 1, x => x % 2 + popcount n (x / 2)

/-- The low n bits in reverse order. -/
def bitrev : Nat → Nat → Nat
  | 0, _ => 0
  | n + 1, x => x % 2 * 2 ^ n + bitrev n (x / 2)

/-- The number of 0 bits below the lowest 1 bit, n for 0. -/
def ctzBits : Nat → Nat → Nat
  | 0, _ => 0
  | n + 1, x => if x % 2 = 1 then 0 else 1 + ctzBits n (x / 2)

def clzOp (w : Nat) (x : Bits) : Bits := ofU w (if uRd w x = 0 then w else w - 1 - (uRd w x).log2)

/-- The low n bytes in reverse order. -/
def byterev : Nat → Nat → Nat
  | 0, _ => 0
  | n + 1, x => x % 256 * 2 ^ (8 * n) + byterev n (x / 256)

/-- Position and length of a bit field, clamped (04 R116). -/
def fieldPos (w : Nat) (p : Bits) : Nat := min (uRd 32 p) w
def fieldLen (w p : Nat) (l : Bits) : Nat := min (uRd 32 l) (w - p)

def bfextOp (sgn : Bool) (w : Nat) (x p l : Bits) : Bits :=
  let p := fieldPos w p
  let l := fieldLen w p l
  let f := uRd w x / 2 ^ p % 2 ^ l
  if l = 0 then 0
  else if sgn ∧ 2 ^ (l - 1) ≤ f then ofI w ((f : Int) - (2 ^ l : Nat))
  else ofU w f

def bfinsOp (w : Nat) (x y p l : Bits) : Bits :=
  let p := fieldPos w p
  let l := fieldLen w p l
  let f := uRd w x / 2 ^ p % 2 ^ l
  ofU w (uRd w x - f * 2 ^ p + uRd w y % 2 ^ l * 2 ^ p)

/-- A condition of `icmp` (03 R78, 04 R117). -/
def icondHolds (c : ICond) (w : Nat) (x y : Bits) : Bool :=
  match c with
  | .eq => uRd w x == uRd w y
  | .ne => uRd w x != uRd w y
  | .ult => uRd w x < uRd w y
  | .ule => uRd w x ≤ uRd w y
  | .ugt => uRd w x > uRd w y
  | .uge => uRd w x ≥ uRd w y
  | .slt => sRd w x < sRd w y
  | .sle => sRd w x ≤ sRd w y
  | .sgt => sRd w x > sRd w y
  | .sge => sRd w x ≥ sRd w y

/-- A truth value. -/
def ofB (b : Bool) : Bits := if b then 1 else 0

/-- Saturating addition and subtraction of elements (04 R112). -/
def satElems (sgn sub : Bool) (ty : Ty) (x y : Bits) (acc : Acc) : Bits × Acc :=
  mapElems ty (fun k acc =>
    let ew := (elemsOf ty).2
    let a := rRd sgn ew (BitVec.ofNat 96 (elemOf ew k x))
    let b := rRd sgn ew (BitVec.ofNat 96 (elemOf ew k y))
    let (r, c) := saturate sgn ew (if sub then a - b else a + b)
    ((ofI ew r).toNat, if c then acc.flag fSV else acc)) acc

/-! ### Integer instructions -/

/-- `add` (04 R110). -/
def execAdd (ty : Ty) (a b : Opnd) (s : State) : Out :=
  int2 s ty a b (fun w x y => ofU w (uRd w x + uRd w y))

/-- `sub` (04 R110). -/
def execSub (ty : Ty) (a b : Opnd) (s : State) : Out :=
  int2 s ty a b (fun w x y => ofI w ((uRd w x : Int) - uRd w y))

/-- `mul` (04 R110). -/
def execMul (ty : Ty) (a b : Opnd) (s : State) : Out :=
  int2 s ty a b (fun w x y => ofU w (uRd w x * uRd w y))

/-- `smin` (04 R110). -/
def execSmin (ty : Ty) (a b : Opnd) (s : State) : Out :=
  int2 s ty a b (fun w x y => if sRd w y < sRd w x then ofU w (uRd w y) else ofU w (uRd w x))

/-- `smax` (04 R110). -/
def execSmax (ty : Ty) (a b : Opnd) (s : State) : Out :=
  int2 s ty a b (fun w x y => if sRd w x < sRd w y then ofU w (uRd w y) else ofU w (uRd w x))

/-- `umin` (04 R110). -/
def execUmin (ty : Ty) (a b : Opnd) (s : State) : Out :=
  int2 s ty a b (fun w x y => ofU w (min (uRd w x) (uRd w y)))

/-- `umax` (04 R110). -/
def execUmax (ty : Ty) (a b : Opnd) (s : State) : Out :=
  int2 s ty a b (fun w x y => ofU w (max (uRd w x) (uRd w y)))

/-- `and` (04 R110). -/
def execAnd (ty : Ty) (a b : Opnd) (s : State) : Out :=
  int2 s ty a b (fun w x y => ofU w (uRd w x &&& uRd w y))

/-- `or` (04 R110). -/
def execOr (ty : Ty) (a b : Opnd) (s : State) : Out :=
  int2 s ty a b (fun w x y => ofU w (uRd w x ||| uRd w y))

/-- `xor` (04 R110). -/
def execXor (ty : Ty) (a b : Opnd) (s : State) : Out :=
  int2 s ty a b (fun w x y => ofU w (uRd w x ^^^ uRd w y))

/-- `sdiv` (04 R113). -/
def execSdiv (ty : Ty) (a b : Opnd) (s : State) : Out :=
  int2 s ty a b sdivOp

/-- `udiv` (04 R113). -/
def execUdiv (ty : Ty) (a b : Opnd) (s : State) : Out :=
  int2 s ty a b udivOp

/-- `srem` (04 R113). -/
def execSrem (ty : Ty) (a b : Opnd) (s : State) : Out :=
  int2 s ty a b sremOp

/-- `urem` (04 R113). -/
def execUrem (ty : Ty) (a b : Opnd) (s : State) : Out :=
  int2 s ty a b uremOp

/-- `shl` (04 R114). -/
def execShl (ty : Ty) (a b : Opnd) (s : State) : Out :=
  int2 s ty a b shlOp

/-- `lshr` (04 R114). -/
def execLshr (ty : Ty) (a b : Opnd) (s : State) : Out :=
  int2 s ty a b lshrOp

/-- `ashr` (04 R114). -/
def execAshr (ty : Ty) (a b : Opnd) (s : State) : Out :=
  int2 s ty a b ashrOp

/-- `rotl` (04 R114). -/
def execRotl (ty : Ty) (a b : Opnd) (s : State) : Out :=
  int2 s ty a b rotlOp

/-- `rotr` (04 R114). -/
def execRotr (ty : Ty) (a b : Opnd) (s : State) : Out :=
  int2 s ty a b rotrOp

/-- `neg` (04 R110). -/
def execNeg (ty : Ty) (a : Opnd) (s : State) : Out :=
  int1 s ty a (fun w x => ofI w (-(uRd w x : Int)))

/-- `abs` (04 R110): the most negative value stays itself. -/
def execAbs (ty : Ty) (a : Opnd) (s : State) : Out :=
  int1 s ty a (fun w x => ofI w (sRd w x).natAbs)

/-- `not` (04 R110). -/
def execNot (ty : Ty) (a : Opnd) (s : State) : Out :=
  int1 s ty a (fun w x => ofU w (2 ^ w - 1 - uRd w x))

/-- `popc` (04 R115). -/
def execPopc (ty : Ty) (a : Opnd) (s : State) : Out :=
  int1 s ty a (fun w x => ofU w (popcount w (uRd w x)))

/-- `clz` (04 R115). -/
def execClz (ty : Ty) (a : Opnd) (s : State) : Out :=
  int1 s ty a clzOp

/-- `ctz` (04 R115). -/
def execCtz (ty : Ty) (a : Opnd) (s : State) : Out :=
  int1 s ty a (fun w x => ofU w (ctzBits w (uRd w x)))

/-- `brev` (04 R115). -/
def execBrev (ty : Ty) (a : Opnd) (s : State) : Out :=
  int1 s ty a (fun w x => ofU w (bitrev w (uRd w x)))

/-- `bswap` (04 R115). -/
def execBswap (ty : Ty) (a : Opnd) (s : State) : Out :=
  int1 s ty a (fun w x => ofU w (byterev (w / 8) (uRd w x)))

/-- `mulhi` (04 R111). -/
def execMulhi (sgn : Bool) (ty : Ty) (a b : Opnd) (s : State) : Out :=
  int2 s ty a b (fun w x y => ofI w (rRd sgn w x * rRd sgn w y / (2 ^ w : Nat)))

/-- `mad` (04 R111): c and the result have the integer type of twice the width. -/
def execMad (sgn : Bool) (ty : Ty) (a b c : Opnd) (s : State) : Out :=
  lane3 s ty.double ty ty ty.double a b c fun _ x y z acc =>
    (ofI (2 * ty.width) (rRd sgn ty.width x * rRd sgn ty.width y + uRd (2 * ty.width) z), acc)

/-- `addsat` (04 R112). -/
def execAddsat (sgn : Bool) (ty : Ty) (a b : Opnd) (s : State) : Out :=
  lane2 s ty ty ty a b fun _ x y acc => satElems sgn false ty x y acc

/-- `subsat` (04 R112). -/
def execSubsat (sgn : Bool) (ty : Ty) (a b : Opnd) (s : State) : Out :=
  lane2 s ty ty ty a b fun _ x y acc => satElems sgn true ty x y acc

/-- `bfext` (04 R116). -/
def execBfext (sgn : Bool) (ty : Ty) (x pos len : Opnd) (s : State) : Out :=
  lane3 s ty ty .i32 .i32 x pos len fun _ x p l acc => (bfextOp sgn ty.width x p l, acc)

/-- `bfins` (04 R116). -/
def execBfins (ty : Ty) (x y pos len : Opnd) (s : State) : Out :=
  lane4 s ty ty ty .i32 .i32 x y pos len fun _ x y p l acc => (bfinsOp ty.width x y p l, acc)

/-- `icmp` (04 R117). -/
def execIcmp (c : ICond) (ty : Ty) (a b : Opnd) (s : State) : Out :=
  lane2 s .i1 ty ty a b fun _ x y acc => (ofB (icondHolds c ty.width x y), acc)

/-- `select` (04 R118). -/
def execSelect (ty : Ty) (c a b : Opnd) (s : State) : Out :=
  lane3 s ty .i1 ty ty c a b fun _ c x y acc => (if c = 1 then x else y, acc)

/-- `mov` (04 R118). -/
def execMov (ty : Ty) (a : Opnd) (s : State) : Out := lane1 s ty ty a fun _ x acc => (x, acc)

/-- An operation on a value reference of `i1` or an integer type (04 R119); none where the pair of types is unlawful. -/
def widthOp (s : State) (ty : Ty) (v : BitVec 24) (ok : Ty → Bool) (f : Ty → Bits → Bits) : Out :=
  laneMap s fun c l acc =>
    (valOf c l v.toNat).bind fun x =>
      if (x.ty == .i1 || x.ty.isI) && ok x.ty then some (some ⟨ty, f x.ty x.bits⟩, acc) else none

/-- `zext` (04 R119). -/
def execZext (ty : Ty) (v : BitVec 24) (s : State) : Out :=
  widthOp s ty v (fun t => t.width < ty.width) fun t x => ofU ty.width (uRd t.width x)

/-- `sext` (04 R119). -/
def execSext (ty : Ty) (v : BitVec 24) (s : State) : Out :=
  widthOp s ty v (fun t => t.width < ty.width) fun t x => ofI ty.width (sRd t.width x)

/-- `trunc` (04 R119). -/
def execTrunc (ty : Ty) (v : BitVec 24) (s : State) : Out :=
  widthOp s ty v (fun t => ty.width < t.width) fun _ x => ofU ty.width x.toNat

/-! ### Pointers (04 R120, 01 R29) -/

/-- A pointer with its address replaced. -/
def withAddr (p : Bits) (a : Int) : Bits := ofU 64 (p.toNat % 2 ^ 64 / 2 ^ 56 * 2 ^ 56 + (a % (2 ^ 56 : Nat)).toNat)

/-- The offset operand of `ptradd`: a value of type `i64` or `i32`, read signed; an immediate or a literal as an `i64`
(log entry 15). -/
def offsetOp (s : State) (c : Ctx) (l : Nat) (o : Opnd) : Option Int :=
  match o with
  | .val n => (valOf c l n.toNat).bind fun v =>
      if v.ty = .i64 then some (sRd 64 v.bits) else if v.ty = .i32 then some (sRd 32 v.bits) else none
  | .lit32 w => some (sRd 32 (ofU 32 w.toNat))
  | .sym _ => none
  | o => (evalOp s c l .i64 o).map (sRd 64)

/-- `ptradd` (04 R120). -/
def execPtradd (p off : Opnd) (s : State) : Out :=
  laneMap s fun c l acc =>
    match evalOp s c l .ptr p, offsetOp s c l off with
    | some x, some d => some (some ⟨.ptr, withAddr x ((uRd 56 x : Int) + d)⟩, acc)
    | _, _ => none

/-- `ptrdiff` (04 R120). -/
def execPtrdiff (a b : Opnd) (s : State) : Out :=
  lane2 s .i64 .ptr .ptr a b fun _ x y acc => (ofI 64 (sRd 56 (ofI 56 ((uRd 56 x : Int) - uRd 56 y))), acc)

/-- `ptrtag` (04 R120). -/
def execPtrtag (p : Opnd) (s : State) : Out := lane1 s .i8 .ptr p fun _ x acc => (ofU 8 (bitsAt x 56 4), acc)

/-- `ptrsettag` (04 R120). -/
def execPtrsettag (p t : Opnd) (s : State) : Out :=
  lane2 s .ptr .ptr .i8 p t fun _ x y acc => (ofU 64 (bitsAt x 60 4 * 2 ^ 60 + y.toNat % 16 * 2 ^ 56 + uRd 56 x), acc)

/-- `ptrtoint` (04 R120). -/
def execPtrtoint (p : Opnd) (s : State) : Out := lane1 s .i64 .ptr p fun _ x acc => (x, acc)

/-- `inttoptr` (04 R120). -/
def execInttoptr (x : Opnd) (s : State) : Out := lane1 s .ptr .i64 x fun _ x acc => (x, acc)

end Sys2Proof.Machine
end

