-- ==== Sys2Proof/Machine/Images.lean ====
section
/-! DEFINITION. Pre-translated images in a code object: reading the `pretrans` section and the checks of 16 R375, with the
schedule rules of 15 R347, R349 and R351, the forms and guarantees of 16 R359 and R360 and the safe-point rule of 16 R361 (log
entry 31). The same checks hold of every translation (Regions). -/
namespace Sys2Proof.Machine

/-- An image as its descriptor and its map-back table give it; LINE fields count from the image's first bundle (16 R374). -/
structure Image where
  key : XlateKey
  body : XlateBody
  deriving DecidableEq, Repr

/-- n bytes of a byte string from an offset on, as a number. -/
def numAt (bs : List Byte) (o n : Nat) : Nat := leNat ((bs.drop o).take n)

/-! ### Reading (16 R369, R370, R374) -/

/-- One location record with the bytes left. -/
def readLoc (bs : List Byte) : Option (LocRec × List Byte) :=
  let w := numAt bs 0 8
  let loc := w / 2 ^ 32 % 16
  let rest := bs.drop 8
  if bs.length < 8 ∨ w / 2 ^ 52 ≠ 0 ∨ w / 2 ^ 30 % 4 ≠ 0 ∨ 7 < loc ∨ (loc = 7 ∧ rest.length < 8) then none
  else
    (Ty.ofCode (w / 2 ^ 24 % 64)).map fun t =>
      (⟨w % 2 ^ 24, t, loc, w / 2 ^ 36 % 2 ^ 16, if loc = 7 then BitVec.ofNat 96 (numAt rest 0 8) else 0⟩,
       if loc = 7 then rest.drop 8 else rest)

/-- n location records. -/
def readLocs : Nat → List Byte → Option (List LocRec × List Byte)
  | 0, bs => some ([], bs)
  | n + 1, bs =>
    match readLoc bs with
    | none => none
    | some (x, r) => (readLocs n r).map fun (xs, r) => (x :: xs, r)

/-- One map-back entry of a table of a form, with the bytes left. -/
def readEntry (form : Nat) (bs : List Byte) : Option (MapEntry × List Byte) :=
  let k := numAt bs 5 1
  let loop := k / 16 % 2 == 1
  if bs.length < 32 ∨ numAt bs 0 4 / 2 ^ 19 ≠ 0 ∨ 14 < numAt bs 4 1 ∨ k / 64 ≠ 0 ∨ numAt bs 0x19 1 ≠ form ∨
      numAt bs 0x1A 6 ≠ 0 ∨ 3 < numAt bs 0x18 1 ∨ (loop = false ∧ numAt bs 0x18 1 ≠ 0) ∨
      (loop = false ∧ k / 4 % 2 = 0 ∧ numAt bs 0x10 4 ≠ 0) then none
  else
    (readLocs (numAt bs 6 2) (bs.drop 32)).map fun (ls, r) =>
      (⟨numAt bs 0 4, numAt bs 4 1, BitVec.ofNat 8 k, numAt bs 8 4, numAt bs 0xC 4, numAt bs 0x10 4, numAt bs 0x14 4, numAt bs 0x18 1, ls⟩, r)

/-- n map-back entries. -/
def readEntries (form : Nat) : Nat → List Byte → Option (List MapEntry)
  | 0, _ => some []
  | n + 1, bs =>
    match readEntry form bs with
    | none => none
    | some (e, r) => (readEntries form n r).map (e :: ·)

/-- n lines of 64 bytes. -/
def readLines : Nat → List Byte → List (BitVec 512)
  | 0, _ => []
  | n + 1, bs => BitVec.ofNat 512 (numAt bs 0 64) :: readLines n (bs.drop 64)

/-- One image of a section from its descriptor; none where a field breaks R374. -/
def readImage (sec : List Byte) (k : Nat) : Option Image :=
  let d := (sec.drop (32 + 64 * k)).take 64
  let cfg := numAt d 9 1
  let form := cfg / 8 % 4
  let n := numAt d 0x10 4
  let off := numAt d 0x18 8
  let moff := numAt d 0x20 8
  let gen := numAt d 8 1
  let vw := numAt d 0xA 1
  let sw := numAt d 0xB 1
  let mw := numAt d 0xC 1
  if (gen ≠ 2 ∧ gen ≠ 3) ∨ cfg / 32 ≠ 0 ∨ 2 < form ∨ vw < 16 ∨ 128 < vw ∨ sw < 16 ∨ 64 < sw ∨ mw < 1 ∨ 8 < mw ∨
      numAt d 0xD 3 ≠ 0 ∨ n < 1 ∨ 2 ^ 19 < n ∨ 512 < numAt d 0x14 4 ∨ off % 64 ≠ 0 ∨ sec.length < off + 64 * n ∨
      sec.length < moff ∨ numAt d 0x2C 20 ≠ 0 then none
  else
    (readEntries form (numAt d 0x28 4) (sec.drop moff)).map fun es =>
      ⟨{ dom := 0, modH := 0, func := numAt d 0 4, entry := numAt d 4 4, gen, half := cfg % 2 == 1, w16 := cfg / 2 % 2 == 1,
         ftz := cfg / 4 % 2 == 1, form, vwin := vw, swin := sw, mwin := mw },
       ⟨readLines n (sec.drop off), es, numAt d 0x14 4, false, true⟩⟩

/-! ### The bundle graph (16 R361) -/

/-- Bits of a line. -/
def lineBits (l : BitVec 512) (lo n : Nat) : Nat := l.toNat / 2 ^ lo % 2 ^ n

/-- The B slot of a line. -/
def lineB (l : BitVec 512) : Word := BitVec.ofNat 32 (lineBits l 400 32)

/-- The line n bundles away, or none before the first line. -/
def lineAway (a : Nat) (n : Int) : Option Nat := if (a : Int) + n < 0 then none else some ((a : Int) + n).toNat

/-- Word i of a switch table that starts at line t. -/
def imageWord (ls : List (BitVec 512)) (t i : Nat) : Nat := lineBits (ls.getD (t + i / 16) 0) (32 * (i % 16)) 32

/-- The targets of a native `switch` at line a, or none where its table is unlawful or not in the image (15 R339). -/
def switchLines (ls : List (BitVec 512)) (a : Nat) (w : Word) : Option (List Nat) :=
  match lineAway a (signedField w 17 15) with
  | none => none
  | some t =>
    let n := imageWord ls t 0
    let d := imageWord ls t 1
    if n < 1 ∨ 4096 < n ∨ ls.length < t + (n + 2 + 15) / 16 ∨ d / 2 ^ 22 % 2 ^ 9 ≠ 0 then none
    else
      let os := (List.range n).map fun i => imageWord ls t (i + 2)
      if os.any fun o => o / 2 ^ 22 != 0 then none
      else (os ++ if d / 2 ^ 31 = 1 then [d] else []).mapM fun o => lineAway a (signedField (BitVec.ofNat 32 o) 0 22)

/-- The loop that a bundle opens: II and SC (15 R349). -/
def loopAt (w : Word) : Option (Nat × Nat) :=
  match decodeNativeB w with
  | some (.nloop _ ii sc) => some (ii.toNat, sc.toNat)
  | _ => none

/-- The line after the stage map of a loop that line a opens. -/
def loopExit (a ii : Nat) : Nat := a + 1 + ii + (ii + 7) / 8

/-- The modulo loops among lines: header line, II and SC. -/
def imageLoops (ls : List (BitVec 512)) (reach : List Nat) : List (Nat × Nat × Nat) :=
  reach.filterMap fun a => (loopAt (lineB (ls.getD a 0))).map fun (ii, sc) => (a, ii, sc)

/-- The line that the native `call` of a B slot at line a names, where it lies in the translation. -/
def callLine (ls : List (BitVec 512)) (a : Nat) (w : Word) : Option Nat :=
  (lineAway a (signedField w 10 22)).filter fun t => decide (t < ls.length)

/-- The lines that may follow line a outside loop bodies; a loop leads to the line after its stage map, a `call` to its target, where
that lies in the translation, and to the next line. None where a target of a branch is not in the translation (16 R375). -/
def lineSuccs (ls : List (BitVec 512)) (a : Nat) : Option (List Nat) :=
  let w := lineB (ls.getD a 0)
  let op := w.toNat % 1024
  let out :=
    match op with
    | 0x001 => (lineAway a (signedField w 10 22)).map ([·])
    | 0x002 => (lineAway a (signedField w 13 19)).map ([·, a + 1])
    | 0x003 => switchLines ls a w
    | 0x004 | 0x005 | 0x007 | 0x38B | 0x38C => some []
    | 0x006 => some ((callLine ls a w).toList ++ [a + 1])
    | _ => match loopAt w with
      | some (ii, _) => some [loopExit a ii]
      | none => some [a + 1]
  out.bind fun l => if l.all (decide <| · < ls.length) then some l else none

/-- The lines reached from a list, or none where control leaves the image unlawfully. -/
def reachLines (ls : List (BitVec 512)) : Nat → List Nat → List Nat → Option (List Nat)
  | 0, _, seen => some seen
  | n + 1, front, seen =>
    let new := dedupNat (front.filter fun b => !seen.contains b)
    if new.isEmpty then some seen
    else (new.mapM (lineSuccs ls)).bind fun l => reachLines ls n l.flatten (seen ++ new)

/-- The bundles of loop bodies. -/
def bodyLines (loops : List (Nat × Nat × Nat)) : List Nat := loops.flatMap fun (a, ii, _) => (List.range ii).map (a + 1 + ·)

/-- Whether a line is a safe point. -/
def lineSafe (ls : List (BitVec 512)) (a : Nat) : Bool := lineBits (ls.getD a 0) 0 1 == 1

/-- Bundles that a line counts on a path (16 R361). -/
def lineCount (ls : List (BitVec 512)) (a : Nat) : Nat :=
  match loopAt (lineB (ls.getD a 0)) with
  | some (ii, sc) => 1 + (sc - 1) * ii
  | none => 1

/-- The lines that a path through the translation reaches from line a: a `call` of another translation is an exit (16 R358). -/
def pathSuccs (ls : List (BitVec 512)) (a : Nat) : List Nat :=
  let w := lineB (ls.getD a 0)
  if w.toNat % 1024 = 0x006 ∧ callLine ls a w = none then [] else (lineSuccs ls a).getD []

/-- The most bundles from each line of a list to the next safe point or exit, within n bundles: past that the count has run
over. -/
def safeRun (ls : List (BitVec 512)) (reach : List Nat) : Nat → List (Nat × Nat)
  | 0 => reach.map fun a => (a, 0)
  | n + 1 =>
    let prev := safeRun ls reach n
    reach.map fun a =>
      let nexts := (pathSuccs ls a).filter fun b => !lineSafe ls b
      (a, lineCount ls a + (nexts.map fun b => (prev.lookup b).getD 0).foldl max 0)

/-- The safe-point rule (16 R361). -/
def safeOk (ls : List (BitVec 512)) (reach : List Nat) (loops : List (Nat × Nat × Nat)) : Bool :=
  lineSafe ls 0 && loops.all (fun (a, ii, _) => lineSafe ls (loopExit a ii)) && (safeRun ls reach 2049).all fun (_, n) => n ≤ 2048

/-! ### What the slots of a bundle do -/

/-- The opcode of a slot's operation, 0 for a native-only one. -/
def NSlot.opcode (q : NSlot) : Nat := match q.op.toRaw with | some r => r.op | none => 0

/-- Registers that a slot writes at a fixed latency. -/
def NSlot.timed (q : NSlot) : List Nat := q.writes.filter fun k => !q.late.contains k

/-- Exposed latency of a slot (15 R345), or that of a gondola (16 R359). -/
def NSlot.latency (w3 gond : Bool) (q : NSlot) : Nat :=
  let o := q.opcode
  let pick := fun (a b : Nat) => if w3 then a else b
  if q.code ≤ 2 then (if gond then 1 else if o = 0x042 ∨ o = 0x043 then pick 3 4 else 1)
  else if q.code ≤ 6 then
    if gond then 2
    else if o = 0 then (match q.op with | .nvtos _ => pick 6 8 | _ => pick 2 3)
    else if o = 0x042 ∨ o = 0x043 ∨ o = 0x065 then pick 4 5
    else if o < 0x0C0 then pick 2 3
    else if o = 0x0C3 ∨ o = 0x0C5 then pick 16 20
    else if o = 0x0CE ∨ o = 0x0CF then pick 5 6
    else if o < 0x180 then pick 4 5
    else if o = 0x18A ∨ o = 0x18B ∨ o = 0x18C then pick 10 14
    else pick 6 8
  else if q.code ≤ 8 then (if gond then 12 else pick 12 16)
  else pick 4 6

/-- Whether a slot's operation can fault (15 R347). -/
def NSlot.canFault (q : NSlot) : Bool :=
  12 ≤ q.code || ((q.code == 9 || q.code == 10) && q.opcode != 0x20C && q.opcode != 0x218)

/-- Whether a V operation may set or clear a flag, or draws a random number (02 R64; 04 R111 to R135; 07 R191 to R209). -/
def vEffect : Instr → Bool
  | .flagclr _ | .addsat _ _ _ _ | .subsat _ _ _ _ | .fadd _ _ _ _ | .fsub _ _ _ _ | .fmul _ _ _ _ | .fdiv _ _ _ _ | .fma _ _ _ _ _
  | .fsqrt _ _ _ | .frint _ _ _ | .fdot2 _ _ _ _ _ | .fdot4 _ _ _ _ _ | .cvt _ _ _ _ _ | .rand _ | .randseed _ => true
  | .wred op _ _ _ | .wscan op _ _ _ _ => op == .fadd
  | _ => false

/-- Whether a slot has an effect beyond registers, landing bits and loop counters (15 R347); a fence counts as a barrier. -/
def NSlot.effect (q : NSlot) : Bool :=
  let o := q.opcode
  12 ≤ q.code || q.code == 7 || q.code == 8 ||
  ((q.code == 9 || q.code == 10) && o != 0x200 && o != 0x202 && o != 0x210 && o != 0x218 &&
    (match q.op with | .nfill _ _ _ => false | _ => true)) ||
  (3 ≤ q.code && q.code ≤ 6 && vEffect q.op)

/-- Passes of V slot k of a line (15 R330). -/
def passesOf (l : BitVec 512) (k : Nat) : Nat :=
  let g := groupsOf (lineBits l (5 + 2 * k) 2)
  let t := lineBits l (80 + 44 * k + 10) 5
  if g = 0 then 1 else (if t = 5 ∨ t = 16 then 8 else 4) / g

/-- Cycles from a bundle's issue to the next (15 R330). -/
def advance (l : BitVec 512) : Nat := max 1 ((List.range 4).foldl (fun m k => max m (passesOf l k)) 1) + lineBits l 13 3

/-! ### The schedule (15 R347) -/

/-- The successors of a line with those inside loop bodies. -/
def flowSuccs (ls : List (BitVec 512)) (loops : List (Nat × Nat × Nat)) (a : Nat) : List Nat :=
  match loops.find? fun (h, ii, _) => h < a && a ≤ h + ii with
  | some (h, ii, _) => if a = h + ii then [h + 1, loopExit h ii] else [a + 1]
  | none =>
    match loops.find? fun (h, _, _) => h == a with
    | some (h, ii, _) => [h + 1, loopExit h ii]
    | none => let w := lineB (ls.getD a 0); if w.toNat % 1024 = 0x006 then (callLine ls a w).toList else (lineSuccs ls a).getD []

/-- Whether some line reached within the time a limit gives meets a condition at its time; `n` bounds the path. -/
def hazard (succ : Nat → List Nat) (adv : Nat → Nat) (limit : Nat) (p : Nat → Bool) : Nat → List (Nat × Nat) → Bool
  | 0, _ => false
  | n + 1, front =>
    let here := front.filter fun (_, t) => t < limit
    here.any (fun (a, _) => p a) ||
    hazard succ adv limit p n ((here.flatMap fun (a, t) => (succ a).map fun b => (b, t + adv a)).eraseDups)

/-- The slots of the bundles of a translation by line. -/
abbrev Slots := List (Nat × Bundle)

/-- The bundle of a line. -/
def Slots.at (bs : Slots) (a : Nat) : List NSlot := match bs.lookup a with | some b => b.slots | none => []

/-- Parts 1 and 5 of R347 over every path. -/
def timingOk (k : XlateKey) (ls : List (BitVec 512)) (loops : List (Nat × Nat × Nat)) (bs : Slots) : Bool :=
  let w3 := k.gen == 3
  let succ := flowSuccs ls loops
  let adv := fun a => advance (ls.getD a 0)
  let touches := fun (ws : List Nat) (c : Nat) =>
    ((bs.at c).any fun r => r.names.any ws.contains) || (branchReads (lineB (ls.getD c 0))).any ws.contains
  bs.all fun (a, b) => b.slots.all fun q =>
    let p := if 3 ≤ q.code ∧ q.code ≤ 6 then passesOf (ls.getD a 0) (q.code - 3) - 1 else 0
    let limit := q.latency w3 (k.form == 2) + p
    let ws := q.timed
    let from0 := (succ a).map fun c => (c, adv a)
    (ws.isEmpty || !hazard succ adv limit (touches ws) limit from0) &&
    (!(q.code == 7 || q.code == 8) ||
      let gap := if w3 then 4 else 8
      !hazard succ adv gap (fun c => (bs.at c).any fun r => r.code == q.code) gap from0)

/-- The portable index of a slot of a line: that of its map-back entry, or an open one (log entry 36). -/
def bodyIndex (m : XlateBody) (k : XlateKey) (a code : Nat) : Nat :=
  match m.entries.find? fun e => e.line == a && e.slot == code with
  | some e => e.index
  | none => Config.slotIndex k.func k.entry a (m.lines.getD a 0) code

/-- The portable indexes of the slots of a line that issue in portable order: those that can fault, those with an effect, and a B slot
that has a map-back entry (15 R347 part 2). -/
def orderedAt (k : XlateKey) (m : XlateBody) (bs : Slots) (a : Nat) : List Nat :=
  (((bs.at a).filter fun q => q.canFault || q.effect).map fun q => bodyIndex m k a q.code) ++
  ((m.entries.filter fun e => e.line == a && e.slot == 11).map (·.index))

/-- The lines from line a on that a run passes without a branch, within n lines. -/
def straight (ls : List (BitVec 512)) : Nat → Nat → List Nat
  | 0, _ => []
  | n + 1, a =>
    a :: (match lineSuccs ls a with
      | some [b] => if b = a + 1 ∧ (lineB (ls.getD a 0)).toNat % 1024 ≠ 0x006 then straight ls n b else []
      | _ => [])

/-- Part 2 of R347, along straight lines and among the slots of one block: the lines of other paths hold other blocks. A read can
fault and a fence has an effect, so that part 3 follows: no read issues ahead of an access or a fence that precedes it. -/
def orderOk (k : XlateKey) (f : Func) (m : XlateBody) (reach : List Nat) (bs : Slots) : Bool :=
  let blk := fun (i : Nat) => (f.points[i]?).map (·.blk)
  reach.all fun a => (straight m.lines m.lines.length a).all fun c =>
    a == c || (orderedAt k m bs a).all fun i => (orderedAt k m bs c).all fun j => blk i != blk j || decide (i ≤ j)

/-! ### Modulo bodies (15 R349, R351) -/

/-- The stage of a slot of body bundle i of a loop. -/
def stageIn (ls : List (BitVec 512)) (h ii i code : Nat) : Nat :=
  let entry := lineBits (ls.getD (h + 1 + ii + i / 8) 0) (64 * (i % 8)) 64
  let k := if code ≤ 10 then code - 1 else if code = 12 then 10 else if code = 13 then 11 else 12
  entry / 2 ^ (4 * k) % 16

/-- The rules of a modulo body: stages, the effect stage, no safe point and no B slot. -/
def bodyOk (ls : List (BitVec 512)) (bs : Slots) (l : Nat × Nat × Nat) : Bool :=
  let (h, ii, sc) := l
  let all := (List.range ii).flatMap fun i => (bs.at (h + 1 + i)).map fun q => (q, stageIn ls h ii i q.code)
  let eff := all.filter fun (q, _) => q.effect
  let e := match eff with | (_, s) :: _ => s | [] => 15
  all.all (fun (_, s) => s < sc) && eff.all (fun (_, s) => s == e) && all.all (fun (q, s) => !q.canFault || s ≤ e) &&
  (List.range ii).all fun i =>
    !lineSafe ls (h + 1 + i) && lineB (ls.getD (h + 1 + i) 0) == 0 &&
    lineBits (ls.getD (h + 1 + ii + i / 8) 0) (64 * (i % 8) + 52) 12 == 0

/-! ### Bundles, forms and entries (15 R356; 16 R359, R370, R375) -/

/-- Fields of the gondola form (16 R359). -/
def gondolaOk (l : BitVec 512) (b : Bundle) : Bool :=
  lineBits l 5 2 ≤ 1 && lineBits l 7 6 == 0 && lineBits l 3 2 == 0 && lineBits l 124 132 == 0 && lineBits l 284 28 == 0 &&
  lineBits l 356 44 == 0 && lineBits l 432 56 == 0 && (lineBits l 488 24 == 0 || lineBits l 488 10 == 0x300) &&
  b.slots.all fun q => !((q.code == 9) && q.late.isEmpty && (q.opcode == 0x200 || q.opcode == 0x202))

/-- Whether a location suits its value and the recorded need (16 R370; 15 R331). -/
def locOk (k : XlateKey) (x : LocRec) : Bool :=
  let n := x.ty.width
  match x.loc with
  | 0 => n ≤ 32 && x.wher < k.vwin
  | 1 => 32 < n && n ≤ 64 && x.wher % 2 == 0 && x.wher + 1 < k.vwin
  | 2 => 64 < n && x.wher + 2 < k.vwin
  | 3 => n ≤ 64 && x.wher < k.swin
  | 4 => 64 < n && x.wher + 1 < k.swin
  | 5 => x.ty == .i1 && x.wher < k.mwin
  | 6 => x.wher + (n + 31) / 32 ≤ 33280
  | _ => n ≤ 64 && x.bits.toNat < 2 ^ n

/-- Values live before instruction i of a draft. -/
def Draft.liveAt (d : Draft) (traps : Marks) (ins : List (List Nat)) (i : Nat) (after : Bool) : List Nat :=
  match d.ins[i]? with
  | none => []
  | some q =>
    let out := dedupNat ((d.succs traps q.blk).1.flatMap fun s => ins.getD s [])
    let body := d.body q.blk
    let ls := liveBack traps body out
    let k := ((body.map (·.2)).idxOf? i).getD 0
    if after then (ls.getD (k + 1) []).filter fun v => some v != q.res else ls.getD k []

/-- Entries rise by line and then by slot (16 R369). -/
def entriesRise : List MapEntry → Bool
  | a :: b :: r => (a.line < b.line || (a.line == b.line && a.slot < b.slot)) && entriesRise (b :: r)
  | _ => true

/-- Whether an entry names a portable point of the function and lists exactly the values live there (03 R72; 16 R370, R375). Of a trap
point only its `ntrap` and safe points have entries, and an `ntrap` stands at no other point (16 R360, R363); an exit states its exit
point. An entry with LOOP lists the values live at its point or at the loop header, since it may stand for either (log entry 31). -/
def entryOk2 (k : XlateKey) (ls : List (BitVec 512)) (f : Func) (live : Nat → Bool → List Nat) (ty : Nat → Option Ty) (e : MapEntry) : Bool :=
  let op := (lineB (ls.getD e.line 0)).toNat % 1024
  let call := e.slot == 11 && op == 0x006
  let ntrap := e.slot == 11 && op == 0x38C
  let at0 := if e.kind.getLsbD 2 ∨ e.kind.getLsbD 4 then e.aux else e.index
  let vs := dedupNat (live at0 call ++ if e.kind.getLsbD 4 then live e.index false else [])
  match f.points[e.index]?, f.points[at0]? with
  | some p, some _ =>
    e.func == f.sym && e.line < ls.length && (e.slot == 0 || p.trap == ntrap) && (!(e.slot == 11 && op == 0x38B) || e.kind.getLsbD 2) &&
    (match p.dline with | some w => e.dline == w.toNat | none => e.dline == 0) &&
    e.locs.all (locOk k) && (e.locs.map (·.value)).Nodup && e.locs.length == vs.length &&
    e.locs.all fun x => vs.contains x.value && ty x.value == some x.ty
  | _, _ => false

/-- The B slots that need an entry: those that can fault, calls and exits (15 R347; 16 R360, R375). -/
def needsEntryB (w : Word) : Bool :=
  let op := w.toNat % 1024
  op == 0x003 || op == 0x006 || op == 0x007 || op == 0x38B || op == 0x38C

/-- The blocks that the entries of a translation name; an exit that stands at its exit point names none. -/
def bodyBlocks (m : XlateBody) (f : Func) : List Nat :=
  dedupNat (m.entries.filterMap fun e => if e.kind.getLsbD 2 ∧ e.index = e.aux then none else (f.points[e.index]?).map (·.blk))

/-- The block of an instruction. -/
def Func.blkOf (f : Func) (i : Nat) : Option Nat := (f.points[i]?).map (·.blk)

/-- Where the region leaves a block for good: the exit point of an exit that stands in the block before it. -/
def regionEnd (f : Func) (m : XlateBody) (b : Nat) : Option Nat :=
  leastBy id (m.entries.filterMap fun e =>
    if e.kind.getLsbD 2 ∧ e.index ≤ e.aux ∧ f.blkOf e.index = some b ∧ f.blkOf e.aux = some b then some e.aux else none)

/-- The instructions that a translation covers: of each block that its entries name, those from the first named on to an exit within
the block. -/
def regionSize (f : Func) (m : XlateBody) : Nat :=
  (bodyBlocks m f).foldl (fun n b =>
    let lo := (leastBy id (m.entries.filterMap fun e => if f.blkOf e.index = some b then some e.index else none)).getD 0
    let hi := (f.points.zipIdx.filter fun (p, i) => p.blk == b && decide (lo ≤ i) &&
      (match regionEnd f m b with | some t => decide (i < t) | none => true)).length
    n + hi) 0

/-- A region holds at most 4,096 instructions and 256 blocks (16 R358). -/
def sizeOk (f : Func) (m : XlateBody) : Bool := decide ((bodyBlocks m f).length ≤ 256) && decide (regionSize f m ≤ 4096)

/-- Every block of the region that holds a trap point has an `ntrap` at the first one, unless the region is left before it (16 R360). -/
def trapsOk (f : Func) (m : XlateBody) : Bool :=
  (bodyBlocks m f).all fun b =>
    match f.points.zipIdx.find? fun (p, _) => p.blk == b && p.trap with
    | none => true
    | some (_, i) => m.entries.any fun e =>
        e.slot == 11 && (e.index == i ||
          (e.kind.getLsbD 2 && decide (e.aux ≤ i) && (match f.points[e.aux]? with | some p => p.blk == b | none => false)))

/-- The values of a `gatecall` in the K slot of a line. -/
def bodyGateArgs (f : Func) (m : XlateBody) (a : Nat) : Nat :=
  match m.entries.find? fun e => e.line == a && e.slot == 14 with
  | some e => f.gateArgs e.index
  | none => 8

/-- A spill lies in the wave's area (16 R362). -/
def spillIn (q : NSlot) : Bool :=
  match q.op with
  | .nspill _ _ si | .nfill _ _ si => decide (si.toNat < 33280)
  | _ => true

/-- In the step form, every instruction that an entry names has bundles of its own, the first of which is a safe point (16 R359). -/
def stepOk (m : XlateBody) : Bool :=
  m.entries.all fun e => m.entries.any fun h => h.slot == 0 && h.index == e.index && decide (h.line ≤ e.line) &&
    m.entries.all fun y => !(decide (h.line ≤ y.line) && decide (y.line ≤ e.line)) || y.index == h.index

/-- The lines of a translation that hold bundles: those that control reaches, and loop bodies. -/
def bundleLines (ls : List (BitVec 512)) : List Nat :=
  match reachLines ls ls.length [0] [] with
  | some r => r ++ bodyLines (imageLoops ls r)
  | none => []

/-- What every translation of a function meets, from its first bundle on (15 R347, R349, R351, R356; 16 R358 to R361, R369, R370).
`live` gives the values live before, or after, an instruction, and `ty` their types. -/
def regionOk (k : XlateKey) (f : Func) (live : Nat → Bool → List Nat) (ty : Nat → Option Ty) (m : XlateBody) : Bool :=
  let ls := m.lines
  let es := m.entries
  match reachLines ls ls.length [0] [] with
  | none => false
  | some reach =>
    let loops := imageLoops ls reach
    let lines := reach ++ bodyLines loops
    let inBody := bodyLines loops
    let has := fun a c => es.any fun e => e.line == a && e.slot == c
    lines.all (· < ls.length) && entriesRise es && es.all (entryOk2 k ls f live ty) && sizeOk f m && trapsOk f m &&
    !(k.gen == 2 && 64 < k.vwin) && !(k.form == 2 && 32 < k.vwin) && safeOk ls reach loops && (!(k.form == 1) || stepOk m) &&
    (es.any fun e => e.line == 0 && e.slot == 0 && e.index == k.entry) &&
    (match lines.mapM fun a => (readBundle (bodyGateArgs f m a) (k.gen == 3) k.half (ls.getD a 0)).map fun b => (a, b) with
     | none => false
     | some bs =>
       bs.all (fun (a, b) =>
         b.inWindow k && branchOk (inBody.contains a) b.b && (!(k.form == 2) || gondolaOk (ls.getD a 0) b) && b.slots.all spillIn &&
         (!b.safe || has a 0) && b.slots.all (fun q => !q.canFault || has a q.code) && (!needsEntryB b.b || has a 11)) &&
       loops.all (bodyOk ls bs) && (k.form == 1 || timingOk k ls loops bs) && orderOk k f m reach bs)

/-- The values live before, or after, an instruction of a draft with the trap points of its function. -/
def Draft.liveOf (d : Draft) (f : Func) : Nat → Bool → List Nat :=
  let traps := f.points.map (·.trap)
  d.liveAt traps (d.liveIn traps (d.blocks.length + 1))

/-- Whether a body is a lawful translation of a function of a module for a key. A function that is one trap point has no live values
(03 R83). -/
def bodyLawful (fs : List Func) (ds : List Draft) (k : XlateKey) (m : XlateBody) : Bool :=
  match fs.find? (·.sym == k.func) with
  | none => false
  | some f =>
    if f.whole then regionOk k f (fun _ _ => []) (fun _ => none) m
    else match ds.find? (·.fn.sym == k.func) with
      | some d => regionOk k f (d.liveOf f) (fun v => (d.vals[v]?).bind (·.ty)) m
      | none => false

/-- Whether a portable index is the first instruction of a function or of one of its blocks (16 R358, R375). -/
def Func.starts (f : Func) (i : Nat) : Bool := i == 0 || (!f.whole && f.blocks.any (·.first == i))

/-- The checks of an image (16 R375). -/
def imageOk (fs : List Func) (ds : List Draft) (m : Image) : Bool :=
  (match fs.find? (·.sym == m.key.func) with | some f => f.starts m.key.entry | none => false) && bodyLawful fs ds m.key m.body

/-- FUNC, ENTRY, GEN and CFG of an image. -/
def Image.tag (m : Image) : List Nat :=
  [m.key.func, m.key.entry, m.key.gen, m.key.half.toNat, m.key.w16.toNat, m.key.ftz.toNat, m.key.form]

/-- The images of a `pretrans` section, or none where one fails (16 R374, R375). -/
def readImages (fs : List Func) (sec : List Byte) : Option (List Image) :=
  let n := numAt sec 4 4
  if sec.length < 32 ∨ numAt sec 0 4 ≠ 0x4E525458 ∨ numAt sec 8 24 ≠ 0 ∨ sec.length < 32 + 64 * n then none
  else
    match (List.range n).mapM (readImage sec) with
    | none => none
    | some ms =>
      let ds := fs.filterMap (draftOf fs)
      if (ms.map Image.tag).Nodup ∧ ms.all (imageOk fs ds) then some ms else none

end Sys2Proof.Machine
end

