-- ==== Sys2Proof/Machine/Loader.lean ====
section
/-! DEFINITION. Evami code objects: reading a file, the loader's checks in the order of its status table (03 R85 to R93; 12 R290;
16 R375; 20 R435), placing a module and unloading it (01 R33; 03 R75; 06 R184; log entry 8). -/
namespace Sys2Proof.Machine

/-! ### The file (03 R89 to R92) -/

/-- A section table entry (03 R90). -/
structure Sec where
  name : Nat
  kind : Nat
  off : Nat
  size : Nat
  align : Nat
  flags : Nat
  deriving DecidableEq, Repr

/-- A symbol entry (03 R91). -/
structure Sym where
  name : Nat
  kind : Nat
  binding : Nat
  sec : Nat
  value : Nat
  size : Nat
  reserved : Nat
  deriving DecidableEq, Repr

/-- A code object: its header fields (03 R89), its section table and its symbol table. -/
structure Eco where
  file : List Byte
  magic : Nat
  major : Nat
  flags : Nat
  nsec : Nat
  secOff : Nat
  nsym : Nat
  reserved : Nat
  symOff : Nat
  strOff : Nat
  strSize : Nat
  name : Nat
  fileSize : Nat
  secs : List Sec
  syms : List Sym
  deriving DecidableEq, Repr

/-- Section table entry k (03 R90). -/
def readSec (f : List Byte) (o : Nat) : Sec :=
  ⟨numAt f o 4, numAt f (o + 4) 4, numAt f (o + 8) 8, numAt f (o + 16) 8, numAt f (o + 24) 4, numAt f (o + 28) 4⟩

/-- Symbol entry (03 R91). -/
def readSym (f : List Byte) (o : Nat) : Sym :=
  ⟨numAt f o 4, numAt f (o + 4) 1, numAt f (o + 5) 1, numAt f (o + 6) 2, numAt f (o + 8) 8, numAt f (o + 16) 8, numAt f (o + 24) 8⟩

/-- A file as a code object (03 R89); a table that the file does not hold is read as far as the file goes. -/
def readEco (f : List Byte) : Eco :=
  let nsec := numAt f 0xC 4
  let nsym := numAt f 0x18 4
  { file := f, magic := numAt f 0 4, major := numAt f 4 2, flags := numAt f 8 4, nsec, secOff := numAt f 0x10 8, nsym,
    reserved := numAt f 0x1C 4, symOff := numAt f 0x20 8, strOff := numAt f 0x28 8, strSize := numAt f 0x30 4, name := numAt f 0x34 4,
    fileSize := numAt f 0x38 8,
    secs := (List.range (min nsec (f.length / 32))).map fun k => readSec f (numAt f 0x10 8 + 32 * k),
    syms := (List.range (min nsym (f.length / 32))).map fun k => readSym f (numAt f 0x20 8 + 32 * k) }

/-- Whether a section is zero-filled. -/
def Sec.zero (x : Sec) : Bool := x.flags / 2 % 2 == 1

/-- The bytes of a section. -/
def Eco.bytesOf (e : Eco) (x : Sec) : List Byte := if x.zero then List.replicate x.size 0 else (e.file.drop x.off).take x.size

/-- The bytes up to the first zero byte, or none where no zero byte stands. -/
def zeroEnded : List Byte → Option (List Byte)
  | [] => none
  | b :: r => if b = 0 then some [] else (zeroEnded r).map (b :: ·)

/-- A string by its offset in the string table; none where it does not lie in the table. -/
def Eco.str (e : Eco) (o : Nat) : Option (List Byte) :=
  if e.strSize ≤ o then none else zeroEnded (((e.file.drop e.strOff).take e.strSize).drop o)

/-- The first section of a kind. -/
def Eco.first (e : Eco) (kind : Nat) : Option Sec := e.secs.find? (·.kind == kind)

/-- The bytes of the first section of a kind; none of them where the module has none. -/
def Eco.content (e : Eco) (kind : Nat) : List Byte := match e.first kind with | some x => e.bytesOf x | none => []

/-! ### Function descriptors (03 R92) -/

/-- A function descriptor with its block table: the fields that the loader checks, and the function that they make. -/
structure FDesc where
  hdr : DWord
  toff : Nat
  nwords : Nat
  ninstr : Nat
  nvals : Nat
  nparams : Nat
  result : Nat
  nblocks : Nat
  boff : Nat
  fmt : Nat
  reserved : Nat
  /-- first instruction, argument count and third field of each block -/
  rows : List (Nat × Nat × Nat)
  types : List Nat
  pad : Nat
  inside : Bool
  deriving DecidableEq, Repr

/-- The descriptor at an offset of `funcs`. -/
def readFDesc (fs : List Byte) (o : Nat) : FDesc :=
  let n := numAt fs (o + 0x1C) 4
  let b := numAt fs (o + 0x20) 4
  let rows := (List.range (min n (fs.length / 8))).map fun k => (numAt fs (b + 8 * k) 4, numAt fs (b + 8 * k + 4) 2, numAt fs (b + 8 * k + 6) 2)
  let nargs := (rows.map fun r => r.2.1).sum
  let t := b + 8 * n
  { hdr := BitVec.ofNat 64 (numAt fs o 8), toff := numAt fs (o + 8) 4, nwords := numAt fs (o + 0xC) 4, ninstr := numAt fs (o + 0x10) 4,
    nvals := numAt fs (o + 0x14) 4, nparams := numAt fs (o + 0x18) 2, result := numAt fs (o + 0x1A) 2, nblocks := n, boff := b,
    fmt := numAt fs (o + 0x24) 4, reserved := numAt fs (o + 0x28) 24, rows,
    types := ((fs.drop t).take nargs).map (·.toNat),
    pad := numAt fs (t + nargs) ((nargs + 7) / 8 * 8 - nargs),
    inside := decide (o + 64 ≤ fs.length) && decide (b + 8 * n + (nargs + 7) / 8 * 8 ≤ fs.length) }

/-- Whether numbers rise strictly. -/
def rising : List Nat → Bool
  | a :: b :: r => a < b && rising (b :: r)
  | _ => true

/-- Whether a descriptor keeps R92, with the sizes of `text` and `const`. -/
def FDesc.ok (x : FDesc) (kernel : Bool) (ntext nconst : Nat) : Bool :=
  x.inside && x.toff % 4 == 0 && x.toff + 4 * x.nwords ≤ ntext && 1 ≤ x.nblocks && x.nblocks ≤ 2 ^ 24 && x.reserved == 0 &&
  rising (x.rows.map (·.1)) && x.rows.all (fun r => r.1 < x.ninstr && r.2.2 == 0) && (x.rows.map (·.1)).headD 1 == 0 &&
  x.types.all (fun t => (Ty.ofCode t).isSome) && x.pad == 0 && x.nparams == (x.rows.map fun r => r.2.1).headD 0 &&
  (x.result == 0 || (!kernel && (Ty.ofCode x.result).isSome)) && (kernel || x.hdr == 0) &&
  (x.fmt == 0xFFFFFFFF || x.fmt + 64 ≤ nconst)

/-- The blocks of rows with their argument types. -/
def makeBlocks : List (Nat × Nat × Nat) → List Nat → List Block
  | [], _ => []
  | (i, n, _) :: r, ts => ⟨i, (ts.take n).filterMap Ty.ofCode, 0⟩ :: makeBlocks r (ts.drop n)

/-- Whether a symbol names a kernel or a function. -/
def Sym.code (y : Sym) : Bool := y.kind == 1 || y.kind == 2

/-- The kernels and functions of a code object, with their symbol index (03 R91). -/
def Eco.codeSyms (e : Eco) : List (Nat × Sym) := (e.syms.zipIdx.map fun (y, i) => (i, y)).filter fun (_, y) => y.code

/-- A function as its descriptor gives it, before the translator has looked at it. -/
def makeFunc (e : Eco) (tbase fbase i : Nat) (y : Sym) : Func :=
  let x := readFDesc (e.content 2) y.value
  { sym := i, kernel := y.kind == 1, global := y.binding == 1, hdr := x.hdr, text := tbase + x.toff,
    words := wordsOf (((e.content 1).drop x.toff).take (4 * x.nwords)), ninstr := x.ninstr, nvals := x.nvals,
    result := Ty.ofCode x.result, blocks := makeBlocks x.rows x.types,
    fmts := if x.fmt = 0xFFFFFFFF then [] else wordsOf (((e.content 4).drop x.fmt).take 64),
    desc := BitVec.ofNat 64 (fbase + y.value), points := [], whole := false }

/-! ### The checks, by status (03 R93) -/

/-- Whether two file ranges share a byte. -/
def shareBytes (a n b m : Nat) : Bool := n != 0 && m != 0 && a < b + m && b < a + n

/-- Whether no section of a list overlaps another. -/
def apart : List Sec → Bool
  | [] => true
  | x :: r => r.all (fun y => !shareBytes x.off x.size y.off y.size) && apart r

/-- BAD_BOUNDS. -/
def Eco.badBounds (e : Eco) : Bool :=
  let n := e.file.length
  n < 64 || n < e.secOff + 32 * e.nsec || n < e.symOff + 32 * e.nsym || n < e.strOff + e.strSize || (e.str e.name).isNone ||
  e.secs.any (fun x => (!x.zero && n < x.off + x.size) || (e.str x.name).isNone) || e.syms.any (fun y => (e.str y.name).isNone) ||
  !apart (e.secs.filter fun x => !x.zero)

/-- Whether a firmware section is lawful (12 R290). -/
def fwOk (engine : Nat) (bs : List Byte) : Bool :=
  let code := numAt bs 8 4
  let data := numAt bs 0xC 4
  let entry := numAt bs 0x10 4
  32 ≤ bs.length && numAt bs 0 4 == 0x57464C4F && numAt bs 4 2 == 1 && numAt bs 6 2 == engine && code % 2 == 0 && 2 ≤ code &&
  code ≤ 65536 && data ≤ 16384 && entry % 2 == 0 && entry < code && numAt bs 0x14 12 == 0 && bs.length == 32 + code + data

/-- The image that a lawful firmware section holds (12 R290). -/
def fwRead (bs : List Byte) : FwImage :=
  let code := numAt bs 8 4
  { code := (bs.drop 32).take code, data := bs.drop (32 + code), entry := numAt bs 0x10 4 }

/-- A gate offer (20 R435): INDEX, ARGC and symbol index; none where a reserved field is not 0 or a value is out of range. -/
def readOffer (bs : List Byte) : Option (Nat × Nat × Nat) :=
  if numAt bs 3 1 ≠ 0 ∨ numAt bs 8 8 ≠ 0 ∨ 63 < numAt bs 0 2 ∨ 8 < numAt bs 2 1 then none
  else some (numAt bs 0 2, numAt bs 2 1, numAt bs 4 4)

/-- The offers of a `gate` section. -/
def readOffers (bs : List Byte) : Option (List (Nat × Nat × Nat)) :=
  if bs.length % 16 ≠ 0 then none else (List.range (bs.length / 16)).mapM fun k => readOffer (bs.drop (16 * k))

/-- Whether an offer names a function of the form that R435 requires. -/
def Eco.offerOk (e : Eco) (o : Nat × Nat × Nat) : Bool :=
  match e.syms[o.2.2]? with
  | some y =>
    let x := readFDesc (e.content 2) y.value
    y.kind == 2 && x.result == Ty.i64.code && x.nparams == o.2.1 + 2 &&
    x.types.take x.nparams == List.replicate o.2.1 Ty.i64.code ++ [Ty.ptr.code, Ty.i32.code]
  | none => false

/-- BAD_SECTION. -/
def Eco.badSection (e : Eco) : Bool :=
  e.nsec < 1 || 64 < e.nsec || 2 ^ 20 < e.nsym || e.secOff % 8 != 0 || e.symOff % 8 != 0 || 2 ≤ e.flags || e.reserved != 0 ||
  e.fileSize != e.file.length ||
  e.secs.any (fun x => x.kind < 1 || 9 < x.kind || 16 < x.align || 4 ≤ x.flags) ||
  [1, 2, 5, 6, 7, 8, 9].any (fun k => 1 < (e.secs.filter (·.kind == k)).length) ||
  e.secs.any (fun x => (x.kind == 5 && !fwOk 1 (e.bytesOf x)) || (x.kind == 6 && !fwOk 2 (e.bytesOf x))) ||
  (match readOffers (e.content 7) with
   | some os => !(decide (os.map (·.1)).Nodup) || !os.all e.offerOk
   | none => true)

/-- Whether a byte may begin a symbol name (01 R16). -/
def nameStart (b : Byte) : Bool :=
  let c := b.toNat
  (0x41 ≤ c && c ≤ 0x5A) || (0x61 ≤ c && c ≤ 0x7A) || c == 0x5F || c == 0x2E

/-- Whether a byte string is a symbol name (01 R16). -/
def nameOk : List Byte → Bool
  | [] => false
  | b :: r => nameStart b && r.all (fun c => nameStart c || (0x30 ≤ c.toNat && c.toNat ≤ 0x39)) && r.length ≤ 254

/-- BAD_SYMBOL. R93 gives no status to a symbol name that breaks 01 R16: it is refused here; and a data or gate symbol of size 0 may
have the size of its section as its value (the model's choices, log entry 22). -/
def Eco.badSymbol (e : Eco) : Bool :=
  let names := e.syms.filterMap fun y => e.str y.name
  !decide names.Nodup || !names.all nameOk ||
  e.syms.any (fun y => y.kind < 1 || 4 < y.kind || 1 < y.binding || y.reserved != 0 ||
    (match e.secs[y.sec]? with
     | none => true
     | some x => x.size < y.value + y.size || (y.code && (x.kind != 2 || y.value % 8 != 0 || x.size ≤ y.value)))) ||
  !decide (e.codeSyms.map fun (_, y) => y.value).Nodup

/-- BAD_FUNC. -/
def Eco.badFunc (e : Eco) : Bool :=
  !e.codeSyms.all fun (_, y) => (readFDesc (e.content 2) y.value).ok (y.kind == 1) (e.content 1).length (e.content 4).length

/-- HDR_FIELD (03 R85). -/
def Eco.badHeader (e : Eco) : Bool :=
  e.codeSyms.any fun (_, y) =>
    let h := (readFDesc (e.content 2) y.value).hdr
    y.kind == 1 && (field h 37 27 != 0 || 8 < field h 1 4 || 8 < field h 14 4 || 32 < field h 18 6)

/-! ### Placing (01 R33; 03 R75, R90; log entry 8) -/

/-- The load address of each section from an address on; sections of kinds 5, 6, 8 and 9 take no room. -/
def placeSecs : List Sec → Nat → List Nat
  | [], _ => []
  | x :: r, a =>
    if x.kind ≤ 4 ∨ x.kind = 7 then
      let b := (a + 2 ^ x.align - 1) / 2 ^ x.align * 2 ^ x.align
      b :: placeSecs r (b + x.size)
    else 0 :: placeSecs r a

/-- Writes bytes at virtual addresses of a domain, granule by granule, wherever an address is mapped to device memory. -/
def loadBytes (d : Nat) : Nat → List Byte → Nat → State → State
  | 0, _, _, s => s
  | fuel + 1, bs, va, s =>
    if bs.isEmpty then s
    else
      let n := min bs.length (64 - va % 64)
      let s := match s.translate d va with
        | .leaf e =>
          let pa := e.pa + (va - e.va)
          if e.host then s.setBytes (bs.take n) (hostKey pa) else if s.stampOf pa = some d then s.setBytes (bs.take n) pa else s
        | _ => s
      loadBytes d fuel (bs.drop n) (va + n) s

/-- The load address of the first section of a kind. -/
def firstAt (e : Eco) (at0 : List Nat) (kind : Nat) : Nat :=
  match (e.secs.zip at0).find? fun (x, _) => x.kind == kind with | some (_, a) => a | none => 0

/-- The kernels and functions of a code object as the translator finds them. -/
def Eco.funcs (e : Eco) (at0 : List Nat) : List Func :=
  translateFuncs (e.codeSyms.map fun (i, y) => makeFunc e (firstAt e at0 1) (firstAt e at0 2) i y)

/-- The images of a code object, or none where one fails. -/
def Eco.images (e : Eco) (fs : List Func) : Option (List Image) :=
  match e.first 9 with
  | some x => readImages fs (e.bytesOf x)
  | none => some []

/-- The load status of a code object (03 R93). -/
def Eco.status (e : Eco) (fs : List Func) : Nat :=
  if e.magic ≠ 0x494D5645 ∨ e.major ≠ 1 then 1
  else if e.badBounds then 2
  else if e.badSection then 3
  else if e.badSymbol then 4
  else if e.badFunc then 5
  else if e.badHeader then 6
  else if (e.images fs).isNone then 7
  else 0

/-- The module that a lawful code object makes. -/
def Eco.module (e : Eco) (dom handle base : Nat) (at0 : List Nat) (fs : List Func) : Module :=
  { dom, handle, base, textLo := firstAt e at0 1, textHi := firstAt e at0 1 + (e.content 1).length, funcs := fs,
    syms := e.syms.map fun y => BitVec.ofNat 64 (at0.getD y.sec 0 + y.value),
    gates := (readOffers (e.content 7)).getD [], fwcopy := (e.first 5).map fun x => fwRead (e.bytesOf x),
    fwcoll := (e.first 6).map fun x => fwRead (e.bytesOf x),
    images := ((e.images fs).getD []).map fun m => ({ m.key with dom, modH := handle }, m.body), unloading := false }

/-- MODULE_LOAD (03 R93): the loader answers with a status, and loads the whole module or none of it. A handle that a module of the
domain has already loads nothing. -/
def execModuleLoad (dom handle : Nat) (base : BitVec 56) (file : List Byte) (s : State) : Out :=
  let e := readEco file
  let at0 := placeSecs e.secs base.toNat
  let fs := e.funcs at0
  let st := e.status fs
  let reply := fun (s : State) => s.modDom dom fun x => { x with tdispOut := x.tdispOut ++ [⟨0x300, [BitVec.ofNat 8 st]⟩] }
  if (s.module? dom handle).isSome then .next s
  else if st ≠ 0 then .next (reply s)
  else
    let put := (e.secs.zip at0).filter fun (x, _) => decide (x.kind ≤ 4 ∨ x.kind = 7)
    let s := put.foldl (fun s (x, a) => loadBytes dom (x.size + 1) (e.bytesOf x) a s) s
    .next (reply { s with modules := s.modules ++ [e.module dom handle base.toNat at0 fs] })

/-- MODULE_UNLOAD (06 R184): at once where no admitted launch names the module, and after the last of them otherwise. -/
def execModuleUnload (dom handle : Nat) (s : State) : Out :=
  if s.launches.any fun l => l.dom == dom && l.modH == handle && !l.marker then
    .next { s with modules := s.modules.map fun (m : Module) => if m.dom = dom ∧ m.handle = handle then { m with unloading := true } else m }
  else .next (dropModule dom handle s)

end Sys2Proof.Machine
end

