-- ==== Sys2Proof/Machine/Regions.lean ====
section
/-! DEFINITION. Installing a translation of a region (16 R358, R360, R366 to R368, R372, R376; 17 R398). The step carries what the
Assayer made (log entry 12); a body that breaks a rule of a translation is not installed, so that what runs is lawful. -/
namespace Sys2Proof.Machine

/-- The portable indexes of a function that the safe points and exits of a translation name (16 R358). -/
def Xlate.pointsOf (x : Xlate) (k : XlateKey) : List Nat :=
  if x.key.dom = k.dom ∧ x.key.modH = k.modH ∧ x.key.func = k.func then
    x.entries.flatMap fun e =>
      if e.slot = 0 then (if e.kind.getLsbD 4 then [e.index, e.aux] else [e.index]) else if e.kind.getLsbD 2 then [e.aux] else []
  else []

/-- Whether the entry of a key may be a region entry: the first instruction of the function or of a block, or a point named by a safe
point or an exit of another translation (16 R358). -/
def State.entryLawful (s : State) (f : Func) (k : XlateKey) : Bool :=
  f.starts k.entry || s.clusters.any fun c => c.2.xlates.any fun x => (x.pointsOf k).contains k.entry

/-- A region of the Assayer's ends before every block that an image of the function enters, for the same W16, FTZ and form (18 R400). -/
def endsAtImages (m : Module) (f : Func) (k : XlateKey) (body : XlateBody) : Bool :=
  (bodyBlocks body f).all fun b =>
    f.blkOf k.entry == some b ||
    m.images.all fun (q, _) => !(q.func == k.func && q.w16 == k.w16 && q.ftz == k.ftz && q.form == k.form && f.blkOf q.entry == some b)

/-- Whether a body is a lawful translation for a key: its entry and its bundles, entries and schedule are as 15 and 16 say; it covers
some instruction, and no more than what was asked for. -/
def State.regionLawful (s : State) (m : Module) (k : XlateKey) (len : Nat) (body : XlateBody) : Bool :=
  match m.func? k.func with
  | some f =>
    s.entryLawful f k && decide (0 < regionSize f body) && decide (regionSize f body ≤ len) && endsAtImages m f k body &&
      bodyLawful m.funcs (m.funcs.filterMap (draftOf m.funcs)) k body
  | none => false

/-- Whether every bundle of an image fits a core of the generation and shape of a key (15 R329; 18 R401). -/
def imageFits (m : Module) (k : XlateKey) (body : XlateBody) : Bool :=
  match m.func? k.func with
  | some f => (bundleLines body.lines).all fun a => (readBundle (bodyGateArgs f body a) (k.gen == 3) k.half (body.lines.getD a 0)).isSome
  | none => false

/-- What the Assayer makes for a key: the image that matches it, where there is one, else what the step carries; with the key of an image
of another generation or core shape, which keeps what it was made for (16 R368, R376). None for a body that is no image of the module. -/
def chosenBody (m : Module) (key : XlateKey) (body : XlateBody) : Option (XlateKey × XlateBody) :=
  match m.images.find? fun (q, _) => imageServes true q key with
  | some (_, b) => some (key, b)
  | none =>
    if body.fromImage then
      (m.images.find? fun (q, b) => decide (b = body) && imageServes false q key).map fun (q, b) => ({ key with gen := q.gen, half := q.half }, b)
    else some (key, body)

/-- The request for a key is answered. -/
def dropRequest (key : XlateKey) (k : ClusterSt) : ClusterSt := { k with xqueue := k.xqueue.filter fun r => r.key != key }

/-- Installs a body at a place of the bundle area, reports it and answers the request (16 R368, R372, R376). -/
def install (cluster : Nat) (key xk : XlateKey) (body : XlateBody) (b : Nat) (s : State) : State :=
  let (xid, s) := s.newId
  let x : Xlate := ⟨xid, xk, b, body.lines, body.entries.map (rebase b), false, s.now, body.fromImage, body.spills, if xk = key then [] else [key]⟩
  let s := s.modCluster cluster fun k =>
    let k := dropRequest key k
    { k with xlates := k.xlates ++ [x],
             xfail := k.xfail.filter fun f => f.1 != key.dom || f.2.1 != key.modH || f.2.2.1 != key.func || f.2.2.2.1 != key.entry }
  let s := xlateEvent key.dom (if body.fromImage then 3 else key.form) true (xlateItems 0 0 cluster x s.now) s
  if body.pressure then xlateEvent key.dom 8 true (xlateItems 2 0 cluster x s.now) s else s

/-- TRANSLATE_REGION (16 R366 to R368, R372, R376; 17 R398; 18 R400, R401): the Assayer serves the first request, or a key that none waits
for. It installs the image that matches, or what the step carries, where that is lawful; a region whose text cannot be read is recorded
as failed; an image that does not fit the core is refused and counted. Without room, a translation gives way first. -/
def execTranslateRegion (cluster : Nat) (key : XlateKey) (body : XlateBody) (s : State) : Out :=
  let k := s.cluster cluster
  match s.module? key.dom key.modH with
  | none => .next (s.modCluster cluster (dropRequest key))
  | some m =>
    match chosenBody m key body with
    | none => .next s
    | some (xk, body) =>
      if !k.mayServe key then .next s
      else if (k.xlates.any fun x => !x.retiring && decide (x.key = key)) || (body.fromImage && (k.xlateFor key).isSome) then
        .next (s.modCluster cluster (dropRequest key))
      else if decide (xk ≠ key) && !imageFits m key body then .next (s.modCluster cluster fun k => { k with tooWide := k.tooWide + 1 })
      else if k.xlates.any fun x => !x.retiring && decide (x.key = xk) then
        .next (s.modCluster cluster fun k =>
          { dropRequest key k with xlates := k.xlates.map fun x => if x.key = xk then { x with runs := x.runs ++ [key] } else x })
      else
        match s.textFault key body.entries with
        | some (code, a) =>
          .next (s.modCluster cluster fun k =>
            { dropRequest key k with xfail := k.xfail ++ [(key.dom, key.modH, key.func, key.entry, code, a)] })
        | none =>
          if !body.fromImage && !s.regionLawful m key (k.coverOf key) body then .next s
          else match findGap body.lines.length k.xlates with
          | none =>
            match k.victim key.dom with
            | some v => .next (evict cluster v.xid 0 s)
            | none => .next s
          | some b => .next (install cluster key xk body b s)

end Sys2Proof.Machine
end

