-- ==== Sys2Proof/Machine/Dispatch.lean ====
section
/-! DEFINITION. One arm per instruction: each is one call of its meaning. -/
namespace Sys2Proof.Machine

def exec (i : Instr) (s : State) : Host.Outcome State Fault Refusal :=
  match i with
  | .br t => Sys2Proof.Machine.execBr t s
  | .brc c t f => Sys2Proof.Machine.execBrc c t f s
  | .switch ty idx dflt ts => Sys2Proof.Machine.execSwitch ty idx dflt ts s
  | .ret => Sys2Proof.Machine.execRet s
  | .retValue ty v => Sys2Proof.Machine.execRetValue ty v s
  | .exit => Sys2Proof.Machine.execExit s
  | .call ty f args => Sys2Proof.Machine.execCall ty f args s
  | .trap => Sys2Proof.Machine.execTrap s
  | .trapCode code => Sys2Proof.Machine.execTrapCode code s
  | .flagrd => Sys2Proof.Machine.execFlagrd s
  | .flagclr m => Sys2Proof.Machine.execFlagclr m s
  | .add ty a b => Sys2Proof.Machine.execAdd ty a b s
  | .sub ty a b => Sys2Proof.Machine.execSub ty a b s
  | .mul ty a b => Sys2Proof.Machine.execMul ty a b s
  | .mulhi sgn ty a b => Sys2Proof.Machine.execMulhi sgn ty a b s
  | .sdiv ty a b => Sys2Proof.Machine.execSdiv ty a b s
  | .udiv ty a b => Sys2Proof.Machine.execUdiv ty a b s
  | .srem ty a b => Sys2Proof.Machine.execSrem ty a b s
  | .urem ty a b => Sys2Proof.Machine.execUrem ty a b s
  | .neg ty a => Sys2Proof.Machine.execNeg ty a s
  | .abs ty a => Sys2Proof.Machine.execAbs ty a s
  | .smin ty a b => Sys2Proof.Machine.execSmin ty a b s
  | .smax ty a b => Sys2Proof.Machine.execSmax ty a b s
  | .umin ty a b => Sys2Proof.Machine.execUmin ty a b s
  | .umax ty a b => Sys2Proof.Machine.execUmax ty a b s
  | .addsat sgn ty a b => Sys2Proof.Machine.execAddsat sgn ty a b s
  | .subsat sgn ty a b => Sys2Proof.Machine.execSubsat sgn ty a b s
  | .and ty a b => Sys2Proof.Machine.execAnd ty a b s
  | .or ty a b => Sys2Proof.Machine.execOr ty a b s
  | .xor ty a b => Sys2Proof.Machine.execXor ty a b s
  | .not ty a => Sys2Proof.Machine.execNot ty a s
  | .shl ty a b => Sys2Proof.Machine.execShl ty a b s
  | .lshr ty a b => Sys2Proof.Machine.execLshr ty a b s
  | .ashr ty a b => Sys2Proof.Machine.execAshr ty a b s
  | .rotl ty a b => Sys2Proof.Machine.execRotl ty a b s
  | .rotr ty a b => Sys2Proof.Machine.execRotr ty a b s
  | .popc ty a => Sys2Proof.Machine.execPopc ty a s
  | .clz ty a => Sys2Proof.Machine.execClz ty a s
  | .ctz ty a => Sys2Proof.Machine.execCtz ty a s
  | .brev ty a => Sys2Proof.Machine.execBrev ty a s
  | .bswap ty a => Sys2Proof.Machine.execBswap ty a s
  | .bfext sgn ty x pos len => Sys2Proof.Machine.execBfext sgn ty x pos len s
  | .bfins ty x y pos len => Sys2Proof.Machine.execBfins ty x y pos len s
  | .icmp c ty a b => Sys2Proof.Machine.execIcmp c ty a b s
  | .select ty c a b => Sys2Proof.Machine.execSelect ty c a b s
  | .zext ty v => Sys2Proof.Machine.execZext ty v s
  | .sext ty v => Sys2Proof.Machine.execSext ty v s
  | .trunc ty v => Sys2Proof.Machine.execTrunc ty v s
  | .mad sgn ty a b c => Sys2Proof.Machine.execMad sgn ty a b c s
  | .ptradd p off => Sys2Proof.Machine.execPtradd p off s
  | .ptrdiff a b => Sys2Proof.Machine.execPtrdiff a b s
  | .ptrtag p => Sys2Proof.Machine.execPtrtag p s
  | .ptrsettag p t => Sys2Proof.Machine.execPtrsettag p t s
  | .ptrtoint p => Sys2Proof.Machine.execPtrtoint p s
  | .inttoptr x => Sys2Proof.Machine.execInttoptr x s
  | .mov ty a => Sys2Proof.Machine.execMov ty a s
  | .fadd rm ty a b => Sys2Proof.Machine.execFadd rm ty a b s
  | .fsub rm ty a b => Sys2Proof.Machine.execFsub rm ty a b s
  | .fmul rm ty a b => Sys2Proof.Machine.execFmul rm ty a b s
  | .fdiv rm ty a b => Sys2Proof.Machine.execFdiv rm ty a b s
  | .fma rm ty a b c => Sys2Proof.Machine.execFma rm ty a b c s
  | .fsqrt rm ty a => Sys2Proof.Machine.execFsqrt rm ty a s
  | .fmin ty a b => Sys2Proof.Machine.execFmin ty a b s
  | .fmax ty a b => Sys2Proof.Machine.execFmax ty a b s
  | .fneg ty a => Sys2Proof.Machine.execFneg ty a s
  | .fabs ty a => Sys2Proof.Machine.execFabs ty a s
  | .fcopysign ty a b => Sys2Proof.Machine.execFcopysign ty a b s
  | .fcmp c ty a b => Sys2Proof.Machine.execFcmp c ty a b s
  | .fclass ty a => Sys2Proof.Machine.execFclass ty a s
  | .frint rm ty a => Sys2Proof.Machine.execFrint rm ty a s
  | .fdot2 rm ty a b c => Sys2Proof.Machine.execFdot2 rm ty a b c s
  | .fdot4 rm ty a b c => Sys2Proof.Machine.execFdot4 rm ty a b c s
  | .frcp rm ty a => Sys2Proof.Machine.execFrcp rm ty a s
  | .frsqrt rm ty a => Sys2Proof.Machine.execFrsqrt rm ty a s
  | .fexp2 rm ty a => Sys2Proof.Machine.execFexp2 rm ty a s
  | .flog2 rm ty a => Sys2Proof.Machine.execFlog2 rm ty a s
  | .fsin rm ty a => Sys2Proof.Machine.execFsin rm ty a s
  | .fcos rm ty a => Sys2Proof.Machine.execFcos rm ty a s
  | .ftanh rm ty a => Sys2Proof.Machine.execFtanh rm ty a s
  | .cvt rm sat sgn ty v => Sys2Proof.Machine.execCvt rm sat sgn ty v s
  | .bitcast ty v => Sys2Proof.Machine.execBitcast ty v s
  | .pack ty es => Sys2Proof.Machine.execPack ty es s
  | .unpack k ty x => Sys2Proof.Machine.execUnpack k ty x s
  | .insert k ty x e => Sys2Proof.Machine.execInsert k ty x e s
  | .bsquant rm ty elem scale src => Sys2Proof.Machine.execBsquant rm ty elem scale src s
  | .bsdequant rm ty dst elem scale => Sys2Proof.Machine.execBsdequant rm ty dst elem scale s
  | .sysread k => Sys2Proof.Machine.execSysread k s
  | .laneid => Sys2Proof.Machine.execLaneid s
  | .waveid => Sys2Proof.Machine.execWaveid s
  | .groupid => Sys2Proof.Machine.execGroupid s
  | .gridid k => Sys2Proof.Machine.execGridid k s
  | .activemask => Sys2Proof.Machine.execActivemask s
  | .quadswap dir ty x => Sys2Proof.Machine.execQuadswap dir ty x s
  | .quadbcast ty x k => Sys2Proof.Machine.execQuadbcast ty x k s
  | .shfl m clamp ty x idx => Sys2Proof.Machine.execShfl m clamp ty x idx s
  | .ballot c => Sys2Proof.Machine.execBallot c s
  | .vote op c => Sys2Proof.Machine.execVote op c s
  | .matchLanes ty x => Sys2Proof.Machine.execMatchLanes ty x s
  | .wred op rm ty x => Sys2Proof.Machine.execWred op rm ty x s
  | .wscan op rm excl ty x => Sys2Proof.Machine.execWscan op rm excl ty x s
  | .elect => Sys2Proof.Machine.execElect s
  | .wbar => Sys2Proof.Machine.execWbar s
  | .gbar => Sys2Proof.Machine.execGbar s
  | .rand ty => Sys2Proof.Machine.execRand ty s
  | .randseed seed => Sys2Proof.Machine.execRandseed seed s
  | .bcast ty x => Sys2Proof.Machine.execBcast ty x s
  | .ld nt sc o ty p => Sys2Proof.Machine.execLd nt sc o ty p s
  | .st nt sc o ty p v => Sys2Proof.Machine.execSt nt sc o ty p v s
  | .ldlay sc ty l p i0 i1 i2 => Sys2Proof.Machine.execLdlay sc ty l p i0 i1 i2 s
  | .stlay sc ty l p i0 i1 i2 v => Sys2Proof.Machine.execStlay sc ty l p i0 i1 i2 v s
  | .laymake base perm size st0 st1 st2 => Sys2Proof.Machine.execLaymake base perm size st0 st1 st2 s
  | .atom op sc o ty p v => Sys2Proof.Machine.execAtom op sc o ty p v s
  | .xchg sc o ty p v => Sys2Proof.Machine.execXchg sc o ty p v s
  | .cas sc o ty p e v => Sys2Proof.Machine.execCas sc o ty p e v s
  | .fatom op sc o ty p v => Sys2Proof.Machine.execFatom op sc o ty p v s
  | .fence sc o => Sys2Proof.Machine.execFence sc o s
  | .tagld p => Sys2Proof.Machine.execTagld p s
  | .tagst p t => Sys2Proof.Machine.execTagst p t s
  | .watchset sel addr ctl => Sys2Proof.Machine.execWatchset sel addr ctl s
  | .watchclr sel => Sys2Proof.Machine.execWatchclr sel s
  | .prefetch sc p => Sys2Proof.Machine.execPrefetch sc p s
  | .cbinit logn sc slot data slotb stat => Sys2Proof.Machine.execCbinit logn sc slot data slotb stat s
  | .cbwait room h n => Sys2Proof.Machine.execCbwait room h n s
  | .cbadv h n => Sys2Proof.Machine.execCbadv h n s
  | .cbstat k h => Sys2Proof.Machine.execCbstat k h s
  | .acopy sel h dst src len => Sys2Proof.Machine.execAcopy sel h dst src len s
  | .agather z slot h dst win nwin idx cnt => Sys2Proof.Machine.execAgather z slot h dst win nwin idx cnt s
  | .ascatter z slot h win src nwin idx cnt => Sys2Proof.Machine.execAscatter z slot h win src nwin idx cnt s
  | .kstart k ty op exact h send recv count comm => Sys2Proof.Machine.execKstart k ty op exact h send recv count comm s
  | .mxlease n => Sys2Proof.Machine.execMxlease n s
  | .mxrel => Sys2Proof.Machine.execMxrel s
  | .mxldb n128 b bs kb => Sys2Proof.Machine.execMxldb n128 b bs kb s
  | .mxzero sh t => Sys2Proof.Machine.execMxzero sh t s
  | .mxst sh clr t d stride => Sys2Proof.Machine.execMxst sh clr t d stride s
  | .mxmma sh t a as kb => Sys2Proof.Machine.execMxmma sh t a as kb s
  | .mxsmma sh t a md kb => Sys2Proof.Machine.execMxsmma sh t a md kb s
  | .mxtma sh t a kb => Sys2Proof.Machine.execMxtma sh t a kb s
  | .mxfmt idx => Sys2Proof.Machine.execMxfmt idx s
  | .spawn q desc => Sys2Proof.Machine.execSpawn q desc s
  | .ccwait sc ctr v => Sys2Proof.Machine.execCcwait sc ctr v s
  | .ccadd sc ctr inc => Sys2Proof.Machine.execCcadd sc ctr inc s
  | .gatecall dir gate buf blen args => Sys2Proof.Machine.execGatecall dir gate buf blen args s
  | .gateret v => Sys2Proof.Machine.execGateret v s
  | .xprefetch f idx len => Sys2Proof.Machine.execXprefetch f idx len s
  | .ecount tab exp n => Sys2Proof.Machine.execEcount tab exp n s
  | .xrtlook tab exp hash => Sys2Proof.Machine.execXrtlook tab exp hash s
  | .xrtverCur tab => Sys2Proof.Machine.execXrtverCur tab s
  | .xrtverChk tab exp hash dst => Sys2Proof.Machine.execXrtverChk tab exp hash dst s
  | .xrtverDone tab dst => Sys2Proof.Machine.execXrtverDone tab dst s
  | .rmerge bf16 h tab exp dst count => Sys2Proof.Machine.execRmerge bf16 h tab exp dst count s
  | .nmov v => Sys2Proof.Machine.execNmov v s
  | .nmovs f => Sys2Proof.Machine.execNmovs f s
  | .nvtos v => Sys2Proof.Machine.execNvtos v s
  | .nlit k clr d imm a b => Sys2Proof.Machine.execNlit k clr d imm a b s
  | .nspill k reg si => Sys2Proof.Machine.execNspill k reg si s
  | .nfill k reg si => Sys2Proof.Machine.execNfill k reg si s
  | .nstg f => Sys2Proof.Machine.execNstg f s
  | .nstgv v => Sys2Proof.Machine.execNstgv v s
  | .nlcset n x w b a => Sys2Proof.Machine.execNlcset n x w b a s
  | .nloop lc ii sc => Sys2Proof.Machine.execNloop lc ii sc s
  | .nland kinds => Sys2Proof.Machine.execNland kinds s
  | .nxit => Sys2Proof.Machine.execNxit s
  | .ntrap => Sys2Proof.Machine.execNtrap s
  | .nmask v => Sys2Proof.Machine.execNmask v s
  | .nmaskv v => Sys2Proof.Machine.execNmaskv v s
  | .agingPromotion gid wave => Sys2Proof.Machine.execAgingPromotion gid wave s
  | .gondolaTake cluster gondola => Sys2Proof.Machine.execGondolaTake cluster gondola s
  | .rejoin gid wave lane => Sys2Proof.Machine.execRejoin gid wave lane s
  | .rejoinTimeout gid wave set => Sys2Proof.Machine.execRejoinTimeout gid wave set s
  | .heldRunRelease gid wave => Sys2Proof.Machine.execHeldRunRelease gid wave s
  | .landing gid wave => Sys2Proof.Machine.execLanding gid wave s
  | .doorbell dom q => Sys2Proof.Machine.execDoorbell dom q s
  | .admission dom q => Sys2Proof.Machine.execAdmission dom q s
  | .budgetWindowRefill => Sys2Proof.Machine.execBudgetWindowRefill s
  | .counterPoll => Sys2Proof.Machine.execCounterPoll s
  | .placeGroup launch => Sys2Proof.Machine.execPlaceGroup launch s
  | .placeTroupe launch => Sys2Proof.Machine.execPlaceTroupe launch s
  | .groupEnd gid => Sys2Proof.Machine.execGroupEnd gid s
  | .launchComplete launch => Sys2Proof.Machine.execLaunchComplete launch s
  | .stopRequest dom gids cls => Sys2Proof.Machine.execStopRequest dom gids cls s
  | .waveStop gid wave => Sys2Proof.Machine.execWaveStop gid wave s
  | .stopDeadline gid => Sys2Proof.Machine.execStopDeadline gid s
  | .saveComplete gid => Sys2Proof.Machine.execSaveComplete gid s
  | .restore gid core half crcOk => Sys2Proof.Machine.execRestore gid core half crcOk s
  | .l2RefillTick core => Sys2Proof.Machine.execL2RefillTick core s
  | .l2PortGrant core dom => Sys2Proof.Machine.execL2PortGrant core dom s
  | .loanRevoke core dom => Sys2Proof.Machine.execLoanRevoke core dom s
  | .peerReadTimeout gid wave lane => Sys2Proof.Machine.execPeerReadTimeout gid wave lane s
  | .peerWriteTimeout dom addr => Sys2Proof.Machine.execPeerWriteTimeout dom addr s
  | .enginePush cmd => Sys2Proof.Machine.execEnginePush cmd s
  | .fwCmdRead cmd => Sys2Proof.Machine.execFwCmdRead cmd s
  | .pathTransferDone cmd => Sys2Proof.Machine.execPathTransferDone cmd s
  | .fwDone cmd code count => Sys2Proof.Machine.execFwDone cmd code count s
  | .firmwareWatchdog cmd => Sys2Proof.Machine.execFirmwareWatchdog cmd s
  | .keBoundExpiry cmd => Sys2Proof.Machine.execKeBoundExpiry cmd s
  | .firmwareImageReplace cmd victim => Sys2Proof.Machine.execFirmwareImageReplace cmd victim s
  | .keContribution cmd rank off bytes => Sys2Proof.Machine.execKeContribution cmd rank off bytes s
  | .keReduce cmd => Sys2Proof.Machine.execKeReduce cmd s
  | .mxTurnPass core => Sys2Proof.Machine.execMxTurnPass core s
  | .tcLineFill cluster addr => Sys2Proof.Machine.execTcLineFill cluster addr s
  | .tcLineError cluster addr => Sys2Proof.Machine.execTcLineError cluster addr s
  | .translateRegion cluster key body => Sys2Proof.Machine.execTranslateRegion cluster key body s
  | .imageReplace gid wave => Sys2Proof.Machine.execImageReplace gid wave s
  | .eviction cluster xid cause => Sys2Proof.Machine.execEviction cluster xid cause s
  | .translationFree cluster xid => Sys2Proof.Machine.execTranslationFree cluster xid s
  | .trapRecordWrite dom => Sys2Proof.Machine.execTrapRecordWrite dom s
  | .hypTimeout seq => Sys2Proof.Machine.execHypTimeout seq s
  | .pageWalkDone dom va => Sys2Proof.Machine.execPageWalkDone dom va s
  | .tlbInvalidateDone dom => Sys2Proof.Machine.execTlbInvalidateDone dom s
  | .l2dropDone die slice => Sys2Proof.Machine.execL2dropDone die slice s
  | .nakReplay rail seq => Sys2Proof.Machine.execNakReplay rail seq s
  | .replayThreshold rail => Sys2Proof.Machine.execReplayThreshold rail s
  | .railRetrain rail => Sys2Proof.Machine.execRailRetrain rail s
  | .railRetrainEnd rail ok => Sys2Proof.Machine.execRailRetrainEnd rail ok s
  | .linkRefillTick port => Sys2Proof.Machine.execLinkRefillTick port s
  | .gangTick => Sys2Proof.Machine.execGangTick s
  | .gangDeadline die => Sys2Proof.Machine.execGangDeadline die s
  | .ctxTorn entry => Sys2Proof.Machine.execCtxTorn entry s
  | .sliceZeroDone far k => Sys2Proof.Machine.execSliceZeroDone far k s
  | .reshapeAssign addr => Sys2Proof.Machine.execReshapeAssign addr s
  | .reshapeSplit addr => Sys2Proof.Machine.execReshapeSplit addr s
  | .reshapeJoin addr => Sys2Proof.Machine.execReshapeJoin addr s
  | .drainDeadline core => Sys2Proof.Machine.execDrainDeadline core s
  | .gateTlimit gid => Sys2Proof.Machine.execGateTlimit gid s
  | .counterReadTimeout dom k => Sys2Proof.Machine.execCounterReadTimeout dom k s
  | .windowClose dom tab => Sys2Proof.Machine.execWindowClose dom tab s
  | .replicate dom fw v => Sys2Proof.Machine.execReplicate dom fw v s
  | .retire dom fw v => Sys2Proof.Machine.execRetire dom fw v s
  | .publish dom tab => Sys2Proof.Machine.execPublish dom tab s
  | .rollback dom tab => Sys2Proof.Machine.execRollback dom tab s
  | .forcedRetire dom tab => Sys2Proof.Machine.execForcedRetire dom tab s
  | .winchLogWrite dom => Sys2Proof.Machine.execWinchLogWrite dom s
  | .thermalReset die => Sys2Proof.Machine.execThermalReset die s
  | .launchOverrun launch measured => Sys2Proof.Machine.execLaunchOverrun launch measured s
  | .sramSplitChange core steps => Sys2Proof.Machine.execSramSplitChange core steps s
  | .hostWrite dom addr bytes => Sys2Proof.Machine.execHostWrite dom addr bytes s
  | .peerAccess dom off write bytes => Sys2Proof.Machine.execPeerAccess dom off write bytes s
  | .fwPggo cmd src dst len mode rank => Sys2Proof.Machine.execFwPggo cmd src dst len mode rank s
  | .firmwareException cmd => Sys2Proof.Machine.execFirmwareException cmd s
  | .moduleLoad dom handle base file => Sys2Proof.Machine.execModuleLoad dom handle base file s
  | .moduleUnload dom handle => Sys2Proof.Machine.execModuleUnload dom handle s
  | .resume dom seq => Sys2Proof.Machine.execResume dom seq s
  | .killLane dom seq => Sys2Proof.Machine.execKillLane dom seq s
  | .killWave dom seq => Sys2Proof.Machine.execKillWave dom seq s
  | .forward seq => Sys2Proof.Machine.execForward seq s
  | .tlbInvalidate dom cw => Sys2Proof.Machine.execTlbInvalidate dom cw s
  | .wdctlWrite by0 dom v => Sys2Proof.Machine.execWdctlWrite by0 dom v s
  | .placeTableWrite off v => Sys2Proof.Machine.execPlaceTableWrite off v s
  | .l2drop v => Sys2Proof.Machine.execL2drop v s
  | .unitFailure u die unit => Sys2Proof.Machine.execUnitFailure u die unit s
  | .flitReceive rail flit => Sys2Proof.Machine.execFlitReceive rail flit s
  | .migrate addr => Sys2Proof.Machine.execMigrate addr s
  | .gangctlWrite v => Sys2Proof.Machine.execGangctlWrite v s
  | .sliceTableWrite far k v => Sys2Proof.Machine.execSliceTableWrite far k v s
  | .domcfgWrite dom v => Sys2Proof.Machine.execDomcfgWrite dom v s
  | .partcfgWrite p v => Sys2Proof.Machine.execPartcfgWrite p v s
  | .dprWrite core e word v => Sys2Proof.Machine.execDprWrite core e word v s
  | .domainPause dom => Sys2Proof.Machine.execDomainPause dom s
  | .domainResume dom => Sys2Proof.Machine.execDomainResume dom s
  | .domainReset dom => Sys2Proof.Machine.execDomainReset dom s
  | .counterRead dom k => Sys2Proof.Machine.execCounterRead dom k s
  | .wcntWrite dom v => Sys2Proof.Machine.execWcntWrite dom v s
  | .tableInstall dom v => Sys2Proof.Machine.execTableInstall dom v s
  | .tableClear dom v => Sys2Proof.Machine.execTableClear dom v s
  | .hostPortTrain port personality => Sys2Proof.Machine.execHostPortTrain port personality s
  | .grantWrite dom v => Sys2Proof.Machine.execGrantWrite dom v s
  | .intstatWrite dom v => Sys2Proof.Machine.execIntstatWrite dom v s
  | .lockInterfaceRequest dom => Sys2Proof.Machine.execLockInterfaceRequest dom s
  | .startInterfaceRequest dom => Sys2Proof.Machine.execStartInterfaceRequest dom s
  | .getDeviceInterfaceReport dom => Sys2Proof.Machine.execGetDeviceInterfaceReport dom s
  | .getTdispVersion dom => Sys2Proof.Machine.execGetTdispVersion dom s
  | .getTdispCapabilities dom => Sys2Proof.Machine.execGetTdispCapabilities dom s
  | .getDeviceInterfaceState dom => Sys2Proof.Machine.execGetDeviceInterfaceState dom s
  | .stopInterfaceRequest dom => Sys2Proof.Machine.execStopInterfaceRequest dom s
  | .frozenSetWrite dom => Sys2Proof.Machine.execFrozenSetWrite dom s
  | .spdmSessionEnd dom => Sys2Proof.Machine.execSpdmSessionEnd dom s
  | .spdmRequest dom bytes => Sys2Proof.Machine.execSpdmRequest dom bytes s
  | .pwrlimWrite v => Sys2Proof.Machine.execPwrlimWrite v s
  | .powerClamp => Sys2Proof.Machine.execPowerClamp s
  | .thermalThrottle die => Sys2Proof.Machine.execThermalThrottle die s
  | .packageReset => Sys2Proof.Machine.execPackageReset s
  | .firmwareUpdate ok version => Sys2Proof.Machine.execFirmwareUpdate ok version s
  | .registerWrite by0 blk off v => Sys2Proof.Machine.execRegisterWrite by0 blk off v s
  | .hostFunctionReset dom => Sys2Proof.Machine.execHostFunctionReset dom s
  | .logicalDeviceBind port ld dom => Sys2Proof.Machine.execLogicalDeviceBind port ld dom s
  | .uncorrectableMemoryError addr => Sys2Proof.Machine.execUncorrectableMemoryError addr s

end Sys2Proof.Machine
end

