-- ==== Sys2Proof/Machine/Sched.lean ====
section
/-! DEFINITION. What a step does: the events that the device can bring about by itself, the waves and ejected lanes that can
issue, the choice among them, and the issue of one instruction of a run (05 R143 to R157; 06 R178 to R183; 17 R392 to R394).
Where the spec gives no order, the choice is a free value (log entries 3, 7 and 9). -/
namespace Sys2Proof.Machine

/-! ### Events that are ready -/

/-- The domains that the device keeps something for. -/
def State.domList (s : State) : List Nat := s.doms.map (·.1)

/-- A launch descriptor at the head of a queue, read already, that waits, with BARRIER set, for the earlier entries (06 R171). -/
def State.atBarrier (s : State) (d q : Nat) (y : Queue) : Bool :=
  match y.head with
  | some (n, _, bs) => n == y.rdidx && (ldesc bs).barrier && !s.earlierDone d q n
  | none => false

/-- Whether the entry at the head of a queue can be admitted or rejected now (06 R169 to R174). -/
def State.admitReady (s : State) (d q : Nat) : Bool :=
  let y := s.queue d q
  y.enabled && y.state != 2 && y.rdidx != y.wridx && !(s.dom d).paused && s.domValid d && !s.inError d && !y.waiting && !s.atBarrier d q y

/-- Events of a domain: records and logs to write, admission, the guest's reads, windows and replica requests, and domain 0's time
for an HYP record (06 R169; 17 R379, R381; 20 R447; 21 R451, R456 to R460). -/
def State.domEvents (s : State) (d : Nat) : List Instr :=
  let x := s.dom d
  (if s.recordReady d || (!x.trapPend.isEmpty && !x.cfgEpisode && s.ringBroken d trapRing) then [.trapRecordWrite d] else []) ++
  (if s.winchReady d then [.winchLogWrite d] else []) ++
  ((List.range 32).filterMap fun q => if s.admitReady d q then some (.admission d q) else none) ++
  x.reads.map (fun k => .counterReadTimeout d k) ++
  (if x.tlbPend.isEmpty then [] else [.tlbInvalidateDone d]) ++
  (x.hyp.filterMap fun r => if x.trapPend.any fun p => p.seq == r.1.seq then none else some (.hypTimeout r.1.seq)) ++
  (x.tables.zipIdx.flatMap fun (o, k) =>
    match o with
    | none => []
    | some t =>
      (if s.logRoom d && decide (t.closeAt ≤ s.now) then [.windowClose d k] else []) ++
      (match t.req with
        | some r => (if r.fault ≠ 0 ∨ (!r.copied ∧ r.limit ≤ s.now) ∨ !s.lost.isEmpty then [.rollback d k] else []) ++
            (if r.fault = 0 ∧ (!r.copied ∨ s.logRoom d) then [.publish d k] else [])
        | none => []) ++
      (if t.prev.isSome ∧ t.refPrev ≠ 0 ∧ t.drainBy ≤ s.now then [.forcedRetire d k] else []))

/-- Events of a cluster: gondolas that take lanes, and retired translations that no wave runs in (05 R151; 16 R367). -/
def State.clusterEvents (s : State) (c : Nat) (k : ClusterSt) : List Instr :=
  (if k.queued = 0 then [] else (List.range 4).filterMap fun n => if k.onGondola n < 4 then some (.gondolaTake c n) else none) ++
  (k.xlates.filterMap fun x => if x.retiring && !s.inXlate c x then some (.translationFree c x.xid) else none)

/-- Events of a core: refills of its L2 port while requests wait, the matrix turn, and a resize's drain deadline (09 R234; 12 R299;
20 R431). -/
def State.coreEvents (s : State) (c : Nat) (k : CoreSt) : List Instr :=
  (if k.buckets.any fun b => b.2.waiting != 0 then [.l2RefillTick c] else []) ++
  (if s.mxPasses c then [.mxTurnPass c] else []) ++
  (match k.reshape with | some r => if r.moved || s.now < r.due then [] else [.drainDeadline c] | none => [])

/-- Events of one wave: promotion, timeouts of its rejoin sets and of peers, holds that are met, and its stop (05 R146, R155;
13 R308; 17 R387; 22 R488). -/
def State.waveEvents (s : State) (g : Group) (i : Nat) (w : Wave) : List Instr :=
  if w.stopped then []
  else
    (if w.promotes g then [.agingPromotion g.gid i] else []) ++
    (w.ejSets.filterMap fun e => if e.timerOn && !e.timedOut && e.away != 0 && s.rejoinDue g e then some (.rejoinTimeout g.gid i e.id) else none) ++
    (if s.holdReady g i w then [.heldRunRelease g.gid i] else []) ++
    (w.holds.filterMap fun h => match h.cond with
      | .peer ((l, _) :: _) => if h.released then none else some (.peerReadTimeout g.gid i l)
      | _ => none) ++
    (if w.stopAsked && w.atSafe then [.waveStop g.gid i] else [])

/-- Events of one group: its waves', its end, its save, the deadline of its stop, and the limit of a gate call (13 R317; 17 R387,
R388; 20 R440). -/
def State.groupEvents (s : State) (g : Group) : List Instr :=
  (if g.st = .resident then g.waves.zipIdx.flatMap fun (w, i) => s.waveEvents g i w else []) ++
  (if g.st ≠ .ended ∧ g.allEnded ∧ s.quiet g.gid then [.groupEnd g.gid] else []) ++
  (if g.st = .resident ∧ g.why ≠ .none then
    (if g.allStopped then [.saveComplete g.gid]
     else if g.why ≠ .gang ∧ g.stopBy ≤ s.now ∧ g.waves.any (fun w => !w.stopped && !w.atSafe) then [.stopDeadline g.gid] else [])
   else []) ++
  (match g.gate with
    | some x => if x.limit ≤ s.now ∧ !(g.st = .ended ∧ g.waves ≠ []) then [.gateTlimit g.gid] else []
    | none => [])

/-- The bound of a collective, and the firmware's time limit (12 R295). -/
def State.lateEvents (s : State) (c : Cmd) (started : Bool) : List Instr :=
  (if started then [.firmwareWatchdog c.id] else []) ++
  (match c.kind, s.cmdComm c with
    | .coll k, some m => if c.worked ∨ contribsIn c k m then [] else [.keBoundExpiry c.id]
    | _, _ => [])

/-- How a command that may start comes to the firmware (12 R293, R296). -/
def State.startEvents (s : State) (c : Cmd) : List Instr :=
  let cl := clusterOf c.core
  let im := (s.cluster cl).keImages
  let reads : Bool := match s.fwKey c with
    | none => true
    | some k => match s.rv? k with
      | none => true
      | some v => match s.fwAct k v with | .cmd _ _ => true | _ => false
  if s.cmdBad c then [.fwCmdRead c.id]
  else if c.kind.onCe || im.contains c.dom || decide (im.length < 4) then (if reads then [.fwCmdRead c.id] else []) ++ s.lateEvents c false
  else ((im.filter fun v => !s.keRuns cl v).map fun v => .firmwareImageReplace c.id v) ++ s.lateEvents c false

/-- Events of one command: its start, the firmware's work, the reduction, the end and the push (12 R284, R293 to R296). -/
def State.cmdEvents (s : State) (c : Cmd) : List Instr :=
  match c.phase with
  | .finished => (match s.group? c.gid with
    | some g => if (g.handle c.handle).push = c.claim then [.enginePush c.id] else []
    | none => [])
  | .queued =>
    if !s.mayStart c then []
    else if c.kind = .merge then (if s.portFree c then [.keReduce c.id] else [])
    else s.startEvents c
  | .busy => (if s.portFree c then [.pathTransferDone c.id] else []) ++ s.lateEvents c true
  | .running =>
    (if s.customFw c then []
      else if c.worked then [.fwDone c.id 0 (BitVec.ofNat 32 c.performed)]
      else if c.sent || !s.portFree c then []
      else [.pathTransferDone c.id]) ++
    (match c.kind, s.cmdComm c with
      | .coll k, some m =>
        if !c.worked ∧ contribsIn c k m ∧ s.portFree c ∧ (s.customFw c ∨ c.sent) then [.keReduce c.id] else []
      | _, _ => []) ++ s.lateEvents c true

/-! ### Placement (06 R178 to R181; 19 R415 to R419) -/

/-- A group as it stands in the room found for it. -/
def Group.inRoom (r : Room) (g : Group) : Group :=
  { g with st := .resident, core := r.core, half := r.half, bank := r.bank, borrowed := r.borrowed,
           waves := g.waves.map fun w => { w with vwin := r.vwin, swin := r.swin } }

/-- Places of a partition where a saved group's lease fits. -/
def State.savedPlaces (s : State) (g : Group) : List (Nat × Nat) :=
  (s.placesOf (s.partOf g.dom)).filter fun p => s.leaseFits g p.1 p.2

/-- Whether the saved members of a troupe fit on one cluster together. -/
def fitSaved (cl : Nat) : List Group → State → Bool
  | [], _ => true
  | g :: r, s =>
    match s.findRoom g.dom g.cls g.gid g.need ((s.savedPlaces g).filter fun p => clusterOf p.1 == cl) with
    | none => false
    | some x => fitSaved cl r (s.modGroup g.gid (Group.inRoom x))

/-- Places for a saved group: any of its partition, and for a member of a troupe those of the cluster that holds the troupe
(06 R179). -/
def State.homePlaces (s : State) (g : Group) : List (Nat × Nat) :=
  match (s.troupeOf g).find? fun m => g.troupe.isSome && m.st == .resident with
  | some m => (s.savedPlaces g).filter fun p => clusterOf p.1 == clusterOf m.core
  | none => s.savedPlaces g

/-- Places where a saved group may come back now: for a troupe of which no member is resident, on a cluster that could take all. -/
def State.restorePlaces (s : State) (g : Group) : List (Nat × Nat) :=
  let ms := s.troupeOf g
  if g.troupe.isNone || ms.any (fun m => m.st == .resident) then s.homePlaces g
  else (s.homePlaces g).filter fun p => fitSaved (clusterOf p.1) (ms.filter fun m => m.st == .saved) s

/-- How a saved group may come back now, or ask for room (17 R387, R391; 19 R416, R419). -/
def State.restoreEvents (s : State) (g : Group) : List Instr :=
  if g.st ≠ .saved ∨ (s.dom g.dom).paused ∨ s.inError g.dom ∨ g.allEnded then []
  else
    match g.why with
    | .none =>
      (match s.findRoom g.dom g.cls g.gid g.need (s.restorePlaces g) with
        | some r => [.restore g.gid r.core r.half true]
        | none =>
          match s.preemptPlan g.dom g.cls g.need (s.homePlaces g) with
          | some (v :: vs) => if s.newPlan g.gid (v :: vs) then [.restore g.gid v.core v.half true] else []
          | _ => [])
    | .migrate _ c => (s.halvesOf c g.dom).filterMap fun h =>
        if s.leaseFits g c h && (s.restoreRoom g c h).isSome then some (.restore g.gid c h true) else none
    | .gang => if s.gangIn g && s.leaseFits g g.core g.half && (s.restoreRoom g g.core g.half).isSome then [.restore g.gid g.core g.half true] else []
    | _ => []

/-- How a launch may place its next groups now. -/
def State.placeEvents (s : State) (l : Launch) : List Instr :=
  if !s.placing l then []
  else
    match (s.module? l.dom l.modH).bind (·.func? l.kernel) with
    | none => []
    | some f =>
      let ps := s.placesOf (s.partOf l.dom)
      let n := needOf f.hdr
      let asks := match s.preemptPlan l.dom l.placeClass n ps with | some vs => s.newPlan l.id vs | none => false
      if field f.hdr 14 4 = 0 then (if (s.findRoom l.dom l.placeClass l.id n ps).isSome || asks then [.placeGroup l.id] else [])
      else
        let t := min (field f.hdr 14 4) (l.total - l.next)
        let fits := (clustersOf ps).any fun k => (putTroupe l f l.next t (ps.filter fun p => clusterOf p.1 == k) t s).isSome
        if fits || asks then [.placeTroupe l.id] else []

/-- Placements and restores that are possible, with domain and class. -/
def State.placements (s : State) : List (Nat × Nat × Instr) :=
  (s.groups.flatMap fun g => (s.restoreEvents g).map fun i => (g.dom, g.cls, i)) ++
  (s.launches.flatMap fun l => (s.placeEvents l).map fun i => (l.dom, l.placeClass, i))

/-- Within one domain the highest class is placed first (06 R175, R181). -/
def firstClass (ps : List (Nat × Nat × Instr)) : List Instr :=
  (ps.filter fun p => ps.all fun q => q.1 != p.1 || decide (p.2.1 ≤ q.2.1)).map fun p => p.2.2

/-- Events of the command processor and the package (06 R174 to R177; 19 R413, R418, R419). -/
def State.packageEvents (s : State) : List Instr :=
  let v := s.preg 0x4600
  (s.launches.filterMap fun l =>
    if l.ready && decide (l.total ≤ l.ended) && !s.inError l.dom then some (.launchComplete l.id) else none) ++
  (s.launches.filterMap fun l => if l.charged < l.excess then some (.launchOverrun l.id l.measured) else none) ++
  (if s.launches.any fun l => !l.ready && l.waits.any (fun (p, v, m) => !m && p != 0 && s.waitMet l.dom p v) then [.counterPoll] else []) ++
  (if s.doms.any fun d => d.2.queues.any (·.waiting) || d.2.budgets.any fun b => b.left != b.total || b.owed != 0
    then [.budgetWindowRefill] else []) ++
  ((s.vcs.filter fun x => x.2.bucket.waiting != 0 || (14 < x.1 / 66 && !x.2.held.isEmpty)).map fun x => .linkRefillTick (x.1 / 66)) ++
  (if gangOn v then
    (if s.gang.since + (s.gang.tick + 1) * (gangPeriod v * 1000) ≤ s.now then [.gangTick] else []) ++
    ((List.range 8).filterMap fun k =>
      let die := k + 1
      if s.now < s.gang.since + s.gang.tick * (gangPeriod v * 1000) + gangDead v * 1000 then none
      else if (s.gangUnsaved s.gangOut die && !s.gang.missed.contains (die, s.gangOut)) || s.gang.missed.any (fun m => m.1 == die && m.2 != s.gangOut)
      then some (.gangDeadline die) else none)
   else [])

/-- Everything that the device can bring about by itself now. -/
def State.events (s : State) : List Instr :=
  s.domList.flatMap s.domEvents ++ s.clusters.flatMap (fun x => s.clusterEvents x.1 x.2) ++
  s.cores.flatMap (fun x => s.coreEvents x.1 x.2) ++ s.groups.flatMap s.groupEvents ++ s.cmds.flatMap s.cmdEvents ++
  firstClass s.placements ++ s.packageEvents

/-! ### Waves that are ready (06 R182, R183) -/

/-- The lanes that a wave issues next, with the wave as its choice leaves it; none where it cannot issue. A trap, a stop, a freeze and
the fault of an ejected lane leave running only the lanes in the native form, up to their next safe point (05 R157; 15 R353; 17 R387,
R393). A promotion that is due comes before the next issue (05 R146). -/
def State.waveReady (g : Group) (w : Wave) : Option (Wave × Word) :=
  if w.stopped then none
  else if w.trap.isSome || w.stopAsked || w.frozen || w.gfault.isSome then (if w.nativeLeft = 0 then none else some (w, w.nativeLeft))
  else if w.promotes g then none
  else w.choose g

/-- A wave that can issue: its group, number, state after the choice, and the lanes that issue. -/
abbrev Ready := Group × Nat × Wave × Word

/-- The waves of the machine that can issue. -/
def State.readyWaves (s : State) : List Ready :=
  s.groups.flatMap fun g =>
    if g.st = .resident then g.waves.zipIdx.filterMap fun (w, i) => (State.waveReady g w).map fun w => (g, i, w) else []

/-- Whether an ejected lane of a wave may issue on its gondola; while the wave has a trap, a stop, a freeze or a fault to raise, only up
to its safe point (05 R151, R157, R158; 17 R393). -/
def Wave.laneReady (w : Wave) (l : Nat) : Bool :=
  match w.lanes[l]? with
  | some x => x.alive && x.ejected && x.park == .none && !w.stopped &&
      ((w.gond.lookup l).isSome || (w.trap.isNone && !w.stopAsked && !w.frozen && w.gfault.isNone))
  | none => false

/-- Ejected lanes on gondolas that can issue: group, wave, lane. -/
def State.readyLanes (s : State) : List (Nat × Nat × Nat) :=
  s.clusters.flatMap fun (_, k) => k.ejq.filterMap fun e =>
    match e.gondola, s.group? e.gid, s.wave? e.gid e.wave with
    | some _, some g, some w => if g.st = .resident ∧ w.laneReady e.lane then some (e.gid, e.wave, e.lane) else none
    | _, _, _ => none

/-- Where a group issues. -/
def Group.spot (g : Group) : Nat × Nat := (g.core, g.half)

/-- Issued bundles of the window of a core's half. -/
def CoreSt.issued (k : CoreSt) (h : Nat) : Nat := if h = 0 then k.issues.1 else k.issues.2

/-- The issue weight of a domain on a core's half (20 R425). -/
def State.weight (s : State) (c h d : Nat) : Nat := match s.dprOf c h d with | some e => field (s.dprb c e) 34 8 | none => 0

/-- The bundles of the window with one more for a domain, beside another domain's, each by its weight: whether d comes no later. -/
def State.noLater (s : State) (c h d e : Nat) : Bool :=
  let k := (s.coreSt c).domIssues
  decide ((mget 0 k (2 * d + h) + 1) * s.weight c h e ≤ (mget 0 k (2 * e + h) + 1) * s.weight c h d)

/-- The domains that may issue next on a core's half: of those with a ready wave, the ones that have had the least of the window for
their weights. Each is so given its floor of the window, and the cycles that others leave go round by weight (06 R182; log entry 45). -/
def State.mayIssue (s : State) (c h : Nat) (ds : List Nat) : List Nat := ds.filter fun d => ds.all fun e => s.noLater c h d e

/-- The key of a wave in the issue counts. -/
def waveKey (g : Group) (i : Nat) : Nat := g.gid * 32 + i

/-- The first ready wave after the one that issued last, in rotation. -/
def rotate (last : Nat) (ws : List Ready) : Option Ready :=
  match leastBy (fun x : Ready => waveKey x.1 x.2.1) (ws.filter fun x => decide (last < waveKey x.1 x.2.1)) with
  | some x => some x
  | none => leastBy (fun x : Ready => waveKey x.1 x.2.1) ws

/-- The wave of one domain that issues: one of a lower class that is owed its sixteenth, or the next of the highest class (06 R183;
log entry 45). -/
def State.domainWave (s : State) (c h d : Nat) (ws : List Ready) : Option Ready :=
  let k := s.coreSt c
  let cls := fun (x : Ready) => x.1.cls
  let had := fun (x : Ready) => mget 0 k.waveIssues (waveKey x.1 x.2.1)
  let top := ws.foldl (fun m x => min m (cls x)) 4
  let n := mget 0 k.domIssues (2 * d + h)
  let lower := ws.filter fun x => decide (top < cls x)
  match leastBy had (lower.filter fun x => decide (16 * had x ≤ n + lower.length)) with
  | some x => some x
  | none => rotate (mget 0 k.lastWave ((d * 4 + top) * 2 + h)) (ws.filter fun x => cls x == top)

/-- The waves among which the next issue is taken. -/
def State.issuers (s : State) : List Ready :=
  let ws := s.readyWaves
  ((ws.map fun x => x.1.spot).eraseDups).flatMap fun p =>
    let here := ws.filter fun x => x.1.spot == p
    (s.mayIssue p.1 p.2 ((here.map fun x => x.1.dom).eraseDups)).filterMap fun d =>
      s.domainWave p.1 p.2 d (here.filter fun x => x.1.dom == d)

/-! ### Counting an issue -/

/-- Counts an issued bundle for its core, domain and wave; a window of 1,024 starts the counts again (06 R182). -/
def countIssue (s : State) (g : Group) (i : Nat) (k : CoreSt) : CoreSt :=
  let h := g.half
  let n := k.issued h + 1
  let done := decide (1024 ≤ n)
  let n := if done then 0 else n
  let mine := fun (key : Nat) => match s.group? (key / 32) with | some x => x.half == h | none => true
  let k := { k with lastWave := mset 0 k.lastWave ((g.dom * 4 + g.cls) * 2 + h) (waveKey g i) }
  let k := if h = 0 then { k with issues := (n, k.issues.2) } else { k with issues := (k.issues.1, n) }
  if done then
    { k with domIssues := k.domIssues.filter fun x => x.1 % 2 != h, waveIssues := k.waveIssues.filter fun x => !mine x.1 }
  else
    { k with domIssues := bump (2 * g.dom + h) k.domIssues, waveIssues := bump (waveKey g i) k.waveIssues }

/-- What an issue of a wave counts, and the start of its launch (06 R172, R182; 20 R447). -/
def beginIssue (g : Group) (i : Nat) (s : State) : State :=
  let s := s.modCore g.core (countIssue s g i)
  let s := s.modDom g.dom fun d => { d with guest := modNth (· + 1) d.guest 0 }
  if g.gate.isSome then s else launchStarts g.launch s

/-! ### Issuing a portable instruction -/

/-- Whether a run may enter a translation at its point: an ordinary run of the kernel body that holds all eligible lanes of its wave,
of no gate context, with no lane ejected and nothing to stop for; an ejected lane, on a context of its own (log entry 12). Step 9 of
R214, waived after a watch fault, is waived for the portable instruction alone (09 R232). -/
def Wave.mayEnter (g : Group) (w : Wave) (gond : Bool) (ls : List Nat) : Bool :=
  g.gate.isNone && (w.waive &&& maskOf ls) == 0 && !w.stopAsked && !w.frozen && w.trap.isNone && w.gfault.isNone &&
  (ls.all fun l => match w.lanes[l]? with | some x => x.frames.length == 1 | none => true) &&
  (if gond then ls.all fun l => (w.gond.lookup l).isNone
   else w.native.isNone && w.ejSets.isEmpty && w.lanes.zipIdx.all fun (x, i) => !x.eligible || ls.contains i)

/-- The key under which a run enters a translation: of the gondola form for an ejected lane, with a gondola's registers; of the step form
while STEP is set and for the replay of an iteration that was cut off; else of the normal form (15 R352; 16 R358, R359; 17 R392). -/
def State.runKey (s : State) (g : Group) (w : Wave) (gond : Bool) (m : Word) (pt : Nat × Nat) : XlateKey :=
  if gond then { s.xkey g w 2 pt.1 pt.2 with vwin := 32, swin := 64, mwin := 8 }
  else s.xkey g w (if field w.dbg 0 1 = 1 ∨ (w.replay &&& m) ≠ 0 then 1 else 0) pt.1 pt.2

/-- Step 9 is no longer waived for lanes whose instruction has completed (09 R232). -/
def clearWaive (gid wi : Nat) (m : Word) (s : State) : State :=
  s.modWave gid wi fun w =>
    let held := maskOf ((lanesOf m).filter fun l => match w.lanes[l]? with | some x => x.park == .held | none => false)
    { w with waive := w.waive &&& ~~~(m &&& ~~~held) }

/-- STEP (17 R392): the run that the lowest lane now belongs to raises the trap at its next point. -/
def stepTrap (gid wi : Nat) (m : Word) (s : State) : State :=
  match s.wave? gid wi with
  | none => s
  | some w =>
    let free := (activeLanes w m).filter fun l => match w.lanes[l]? with | some x => !x.helper && x.park == .none && !x.ejected | none => false
    if field w.dbg 0 1 = 0 ∨ w.trap.isSome then s
    else
      match free with
      | [] => s
      | l :: _ =>
        let key := fun (j : Nat) => (w.lanes[j]?).map Lane.key
        let t := { s with issue := some ⟨gid, wi, maskOf ((activeLanes w m).filter fun j => key j == key l), false, 0, none, none⟩ }
        match t.ctx? with
        | some c => takeTrap c (FaultInfo.plain 10 l 0) t
        | none => s

/-- STEP after a bundle of the step form: the instruction has completed where the run has left the native form, is not held, and is not to
begin again (17 R392). -/
def stepDone (gid wi : Nat) (m : Word) (t : State) : State :=
  match t.wave? gid wi with
  | none => t
  | some w =>
    if (activeLanes w m).any (fun l => w.isNative l || (match w.lanes[l]? with | some x => x.park == .held | none => false)) ∨
        (w.replay &&& m) ≠ 0 then t
    else stepTrap gid wi m t

/-- What follows an instruction of a run: the issue ends, its waiver with it, and STEP traps where the instruction completed. -/
def endIssue (gid wi : Nat) (m : Word) (gond : Bool) (t : State) : State :=
  let trapped := t.issue.isNone
  let t := { t with issue := none }
  if trapped then t
  else
    let held := match t.wave? gid wi with
      | some w => (activeLanes w m).any fun l => match w.lanes[l]? with | some x => x.park == .held | none => false
      | none => true
    let t := clearWaive gid wi m t
    if held || gond then t else stepTrap gid wi m t

/-- The state in which the instruction of a run is executed: the run issues, and every other eligible lane of the wave is one
bundle older (05 R146). -/
def atIssue (gid wi : Nat) (m : Word) (gond : Bool) (res : Nat) (s : State) : State :=
  let s := if gond then s else s.modWave gid wi (Wave.issues m)
  { s with issue := some ⟨gid, wi, m, gond, res, none, none⟩ }

/-- Takes a trap of a run that issues nothing. -/
def trapRun (gid wi : Nat) (m : Word) (gond : Bool) (f : Ctx → State → Out) (s : State) : Out :=
  let s := { s with issue := some ⟨gid, wi, m, gond, 0, none, none⟩ }
  match s.ctx? with
  | some c => match f c s with
    | .next t => .next { t with issue := none }
    | o => o
  | none => .next { s with issue := none }

/-- The fault that a run takes where the text of its point could not be read (17 R398). -/
def textFaultOf (code : Nat) (a : DWord) (c : Ctx) (s : State) : Out :=
  raise c ⟨code, c.lanes.headD 0, if code = 3 then 4 else if code = 4 then 5 else 10, 6, a, 0, none⟩ s

/-- A run that finds no translation at a point where one may begin asks for it (16 R358, R368). -/
def missAt (g : Group) (w : Wave) (gond : Bool) (m : Word) (pt : Nat × Nat) (s : State) : State :=
  let key := s.runKey g w gond m pt
  match s.func? g pt.1 with
  | some f => if w.mayEnter g gond (activeLanes w m) && s.entryLawful f key then s.modCluster (clusterOf g.core) (askXlate key g.cls) else s
  | none => s

/-- Issues one portable instruction for the lanes of a mask, which stand at one point; `run` is the meaning of instructions. A miss asks
for a translation, and the portable form stands for it until then (log entry 12). -/
def issuePoint (run : Instr → State → Out) (gid wi : Nat) (m : Word) (gond : Bool) (s : State) : Out :=
  match s.group? gid, s.wave? gid wi with
  | some g, some w =>
    match ((activeLanes w m).head?).bind (w.lanes[·]?) with
    | none => .next s
    | some x =>
      let pt := x.point
      let k := s.cluster (clusterOf g.core)
      match k.failedAt g pt.1 pt.2, k.xlateFor (s.runKey g w gond m pt) with
      | some (code, a), _ => trapRun gid wi m gond (textFaultOf code a) s
      | none, some y =>
        if !w.mayEnter g gond (activeLanes w m) then portable g pt s
        else if gond then onGondola g wi ((activeLanes w m).headD 0) (fun s => .next (enterXlate gid wi m y s)) s
        else .next (enterXlate gid wi m y s)
      | none, none => portable g pt (missAt g w gond m pt s)
  | _, _ => .next s
where
  /-- The instruction itself. -/
  portable (g : Group) (pt : Nat × Nat) (s : State) : Out :=
    match s.fetch g pt with
    | none => trapRun gid wi m gond illegal s
    | some (i, p) =>
      match run i (atIssue gid wi m gond (p.res.getD 0) s) with
      | .next t => .next (endIssue gid wi m gond t)
      | o => o

/-- Issues lanes of a wave: a bundle of the native form where the lowest of them stands in it, else the portable instruction of those that
stand in the portable form. -/
def issueWave (run : Instr → State → Out) (g : Group) (wi : Nat) (w : Wave) (m : Word) (s : State) : Out :=
  let low := match (activeLanes w m).head? with | some l => w.isNative l | none => false
  let s := s.modWave g.gid wi fun _ => w
  if low then
    match issueBundle run g.gid wi m false (beginIssue g wi s) with
    | .next t => .next (stepDone g.gid wi m { t with issue := none })
    | o => o
  else issuePoint run g.gid wi (m &&& ~~~w.nativeOf m) false (beginIssue g wi s)

/-- Issues an ejected lane on its gondola. A lane that has left the native form has arrived at its point (05 R154). -/
def issueLane (run : Instr → State → Out) (gid wi l : Nat) (s : State) : Out :=
  match s.group? gid, s.wave? gid wi with
  | some g, some w =>
    if (w.gond.lookup l).isSome then
      match onGondola g wi l (issueBundle run gid wi (maskOf [l]) true) s with
      | .next t =>
        let t := { t with issue := none }
        .next (match t.wave? gid wi with
          | some v => if (v.gond.lookup l).isNone then arrive gid wi l t else t
          | none => t)
      | o => o
    else issuePoint run gid wi (maskOf [l]) true s
  | _, _ => .next s

/-! ### Trace records of a step (17 R394) -/

/-- Lanes of a wave with a property. -/
def Wave.having (p : Nat → Lane → Bool) (w : Wave) : Word := maskOf ((List.range 32).filter fun i => match w.lanes[i]? with | some x => p i x | none => false)

/-- The point of the lowest lane of a mask. -/
def Wave.pointOf (w : Wave) (m : Word) : Nat × Nat :=
  match (lanesOf m).head? with
  | some l => match w.lanes[l]? with | some x => x.point | none => (0, 0)
  | none => (0, 0)

/-- The native point of the lowest lane of a mask: its TC address, at slot code 0; 0 in the portable form. -/
def Wave.nativeAt (w : Wave) (m : Word) : Nat := match (lanesOf m).head? with | some l => if w.isNative l then w.npcOf l else 0 | none => 0

/-- The trace records of what a step did to one wave. -/
def traceWave (g : Group) (i : Nat) (before after : Wave) (s : State) : State :=
  let put := fun (kind : Nat) (w : Wave) (m : Word) (aux : Nat) (s : State) => if m = 0 then s else trace kind g i (w.pointOf m) (w.nativeAt m) m aux s
  let was := fun (l : Nat) => (before.lanes[l]?).getD (freshLane .never false [] ⟨0, 0, 0, 0⟩)
  let split := if after.chosen ≠ 0 ∨ after.trap.isSome then 0
    else
      let m := after.having fun l x => x.alive && (was l).eligible && (was l).key != x.key
      match (lanesOf m).map fun l => (after.lanes[l]?).map Lane.key with
      | [] => 0
      | k :: r => if r.all (· == k) then 0 else m
  let s := put 2 after split 0 s
  let s := put 3 after (after.having fun l x => x.ejected && !(was l).ejected) 0 s
  let s := put 4 after (after.having fun l x => x.alive && !x.ejected && (was l).ejected) 0 s
  let s := put 5 after (after.having fun l x => x.alive && x.park == .none && ((was l).park == .wbar || (was l).park == .gbar)) 0 s
  let s := match before.trap, after.trap with
    | none, some t => trace 6 g i (t.fr.func, t.fr.index) t.fr.native.toNat t.fr.run t.fr.code s
    | some t, none => trace 7 g i (t.fr.func, t.fr.index) 0 t.fr.run 0 s
    | _, _ => s
  if after.stopped && !before.stopped then put 8 after (after.having fun _ x => x.alive) 0 s else s

/-- The trace records of what a step did to one group. -/
def traceGroup (before : Group) (s : State) : State :=
  if s.dreg before.dom 0x168 = 0 then s
  else
    match s.group? before.gid with
    | none => s
    | some g =>
      let s := (before.waves.zip g.waves).zipIdx.foldl (fun s (p, i) => traceWave g i p.1 p.2 s) s
      if before.st = .saved ∧ g.st = .resident then
        g.waves.zipIdx.foldl (fun s (w, i) => trace 9 g i (w.pointOf (w.having fun _ x => x.alive)) 0 (w.having fun _ x => x.alive) 0 s) s
      else s

/-! ### What follows every step -/

/-- The fault that an ejected lane of a wave raised is taken once no lane of the wave is left in the native form (05 R157). -/
def deliverFault (gid wi : Nat) (s : State) : State :=
  match s.wave? gid wi with
  | some w =>
    match w.gfault with
    | some (iss, f) =>
      if w.nativeLeft ≠ 0 ∨ w.trap.isSome ∨ w.stopped then s
      else
        let s := { s.modWave gid wi (fun w => { w with gfault := none }) with issue := some iss }
        let out := match w.lanes[f.lane]? with | some x => x.alive && x.ejected | none => false
        match s.ctx? with
        | some c => { (if out then takeTrap c f s else s) with issue := none }
        | none => { s with issue := none }
    | none => s
  | none => s

/-- Every fault of an ejected lane that can be taken is taken. -/
def deliverFaults (s : State) : State :=
  s.groups.foldl (fun s g => g.waves.zipIdx.foldl (fun s (_, i) => deliverFault g.gid i s) s) s

/-- The trace record of a trap that a step ended with a kill: its record is among those that the step queued (17 R379, R394). -/
def traceKill (r : FaultRec) (s : State) : State :=
  if r.cls ≤ 3 ∧ r.lane.getLsbD 7 ∧ (s.dreg r.dom 0x168).getLsbD 6 then
    let (st, s) := traceStamp r.dom r.native.toNat s
    tracePut r.dom (traceRecord 6 ((lanesOf r.run).headD 0) r.wave r.dom r.group r.func r.index r.run r.code st) s
  else s

/-- The fault records that a step queued for the domains. -/
def State.newRecords (before s : State) : List FaultRec :=
  s.doms.flatMap fun (d, x) => (x.trapPend.filter fun r => (before.dom d).trapSeq < r.seq).map (·.fr)

/-- A domain that the gang schedule has brought back: its withheld interrupts are signalled, and its latched doorbells act (22 R476). -/
def wakeDomain (d : Nat) (s : State) : State :=
  let latched := (s.dom d).latched
  latched.foldl (fun s q => ring d q s) (signalHeld d (s.modDom d fun x => { x with latched := [] }))

/-- What follows a step: faults of ejected lanes, trace records, launches marked KILLED, resizes and pauses that are complete, and domains
that the gang schedule has brought back. -/
def settleStep (before : State) (s : State) : State :=
  let s := before.groups.foldl (fun s g => traceGroup g s) (deliverFaults s)
  let s := (before.newRecords s).foldl (fun s r => traceKill r s) s
  let s := finishPauses (finishReshapes (writeKilled before.launches s))
  before.domList.foldl (fun s d => if before.descheduled d && !s.withheld d then wakeDomain d s else s) s

/-! ### One step -/

/-- What a step may do when nothing is due. -/
inductive Choice where
  | event (i : Instr)
  | wave (g : Group) (i : Nat) (w : Wave) (m : Word)
  | lane (gid wave lane : Nat)
  | control (k : FwKey)
  deriving DecidableEq, Repr

/-- Everything that a step may do when nothing is due. -/
def State.choices (s : State) : List Choice :=
  s.events.map .event ++ (s.issuers.map fun x => .wave x.1 x.2.1 x.2.2.1 x.2.2.2) ++ (s.readyLanes.map fun x => .lane x.1 x.2.1 x.2.2) ++
    s.readyControls.map .control

/-- The choice of a step: the only one, or one that a free value picks (log entries 3 and 7). -/
def State.chooseNext (s : State) : Option Choice × State :=
  match s.choices with
  | [] => (none, s)
  | [c] => (some c, s)
  | c :: r => (some ((c :: r).getD ((Config.freeWord s.free).toNat % (r.length + 1)) c), { s with free := s.free + 1 })

/-- The choice of a run, recorded where it was due (17 R394). -/
def traceChoice (g : Group) (i : Nat) (w : Wave) (s : State) : State :=
  match s.wave? g.gid i with
  | some old => if old.chosen = 0 then trace 1 g i (w.pointOf w.chosen) (w.nativeAt w.chosen) w.chosen 0 s else s
  | none => s

/-- Performs a choice. -/
def perform (c : Choice) (s : State) : Out :=
  match c with
  | .event i => exec i s
  | .wave g i w m => issueWave exec g i w m (traceChoice g i w s)
  | .lane gid wi l => issueLane exec gid wi l s
  | .control k => controlStep k s

/-- Residency that a launch's waves have had in n nanoseconds (06 R174). -/
def accrue (gs : List Group) (n : Nat) (l : Launch) : Launch :=
  { l with used := l.used + n * slotsHeld (gs.filter fun g => g.launch == l.id && g.gate.isNone && g.st == .resident) }

/-- The machine one step later in time. -/
def tick (s : State) : State :=
  let t := { s with steps := s.steps + 1 }
  { t with launches := s.launches.map (accrue s.groups (t.now - s.now)) }

/-- One step: what is due first, in order; else one choice; else only time passes. -/
def stepOnce (s : State) : Out :=
  let s := tick s
  match s.agenda with
  | i :: r => after s (exec i { s with agenda := r })
  | [] =>
    match s.chooseNext with
    | (none, s) => .next s
    | (some c, s) => after s (perform c s)
where
  /-- The outcome with what follows every step. -/
  after (before : State) (o : Out) : Out :=
    match o with
    | .next t => .next (settleStep before t)
    | o => o

/-! ### A machine that runs a given instruction next (log entry 33) -/

/-- The function whose first instruction has the given words, followed by `ret`. -/
def oneFunc (ws : List Word) : Func :=
  let base : Func :=
    { sym := 0, kernel := true, global := true, hdr := 0, text := 0, words := ws, ninstr := 2, nvals := 0, result := none,
      blocks := [⟨0, [], 0⟩], fmts := [], desc := 0, points := [⟨0, 0, none, true, none, [], none⟩], whole := false }
  match decode ws with
  | .ok (_, rest) =>
    let n := ws.length - rest.length
    { base with
      words := ws.take n ++ [0x00000004#32]
      points := [⟨0, 0, if (ws.headD 0).getLsbD 28 then some 0 else none, false, none, [], none⟩, ⟨n, 0, none, false, none, [], none⟩] }
  | .error _ => base

/-- The line of a bundle that holds one native-only operation: in S0 with its long word in S1, or in the B slot (15 R327, R332). -/
def oneLine (ws : List Word) : Option (BitVec 512) :=
  let a := ws.headD 0
  let b := (ws.drop 1).headD 0
  match decodeNativeS a b, decodeNativeB a with
  | some _, _ => some (BitVec.ofNat 512 ((if a.getLsbD 31 then 4 else 0) + a.toNat * 2 ^ 16 + b.toNat * 2 ^ 48))
  | none, some _ => some (BitVec.ofNat 512 (a.toNat * 2 ^ 400))
  | none, none => none

/-- The first core of die 1, where the group of `oneGroup` stands. -/
def firstCore : Nat := 128

/-- A group of one wave of 32 lanes at the start of a kernel, of domain 1; `nat` says whether its lanes stand in the native form. -/
def oneGroup (s : State) (f : Func) (nat : Bool) : Group :=
  let w := freshWave 0 ((List.range 32).map fun i => startLane false 32 0 [⟨f.sym, 0, []⟩] 0 i) 128 64 0
  let ctx : Native := ⟨(List.range 32).map fun i => (i, ⟨0, [], []⟩), ⟨[], [], [], [], []⟩, none, [], []⟩
  { gid := s.nextId, dom := 1, launch := 0, lin := 0, gx := 0, gy := 0, gz := 0, modH := 0, kernel := f.sym, hdr := f.hdr,
    core := firstCore, half := 0, slot := 0, nslots := 1, st := .resident,
    waves := [if nat then { w with native := some ctx } else w], handles := List.replicate 32 Handle.none,
    watch := List.replicate 16 ⟨0, 0⟩, bank := 0, nbanks := 0, lease := none, troupe := none, gate := none, borrowed := false,
    cls := 0, why := .none, stopBy := 0, saves := 0 }

/-- The module that holds one function. -/
def oneModule (f : Func) : Module :=
  { dom := 1, handle := 0, base := 0, textLo := 0, textHi := 0, funcs := [f], syms := [0], gates := [], fwcopy := none,
    fwcoll := none, images := [], unloading := false }

/-- The translation of one line, installed at TC address 0 for the group of `oneGroup`. -/
def oneXlate (l : BitVec 512) : Xlate :=
  ⟨0, ⟨1, 0, 0, 0, 3, false, false, false, 0, 128, 64, 8⟩, 0, [l], [], false, 0, false, 0, []⟩

/-- The state with one group that stands before the instruction of the given words, and nothing else that could act: no agenda, no
other unit's work, no gang schedule. Memory and the registers stay. -/
def fetchState (ws : List Word) (s : State) : State :=
  let f := oneFunc ws
  let nat := if f.points.length = 1 then oneLine ws else none
  let s := { s with agenda := [], issue := none, doms := [], cores := [], cmds := [], launches := [], vcs := [],
                    modules := [oneModule f], groups := [oneGroup s f nat.isSome], nextId := s.nextId + 1, clusters := [] }
  let s := match nat with
    | some l => s.modCluster (clusterOf firstCore) fun k => { k with xlates := [oneXlate l], tc := [0] }
    | none => s
  s.setPreg 0x4600 (setField (s.preg 0x4600) 48 1 0)

end Sys2Proof.Machine
end

