-- ==== Sys2Proof/Machine/Step.lean ====
section
/-! DEFINITION. The step of the machine, and the machine that is about to run a given instruction. -/
namespace Sys2Proof.Machine

/-- One step of the machine: next, fault or refusal. -/
def step (s : State) : Host.Outcome State Fault Refusal := stepOnce s

/-- The state whose very next step runs the instruction with bits w, the words above them being zeros (log entry 33). -/
def State.withFetchWord (s : State) (nbits w : Nat) : State :=
  fetchState ((List.range 8).map fun k => BitVec.ofNat 32 (w % 2 ^ nbits / 2 ^ (32 * k))) s

end Sys2Proof.Machine
end

