-- ==== Sys2Proof/Machine/Consistency.lean ====
section
/-! DEFINITION. The memory consistency model (10 R237 to R253, R257 to R259; 05 R156; 06 R171, R176, R177; 07 R202; 11 R263): executions as
data, and which of them the rules allow. The step of the machine makes one interleaving, which these rules allow (log entry 7);
statements about what other agents may observe speak of these executions. -/
namespace Sys2Proof.Machine

/-! ### Agents and scopes (10 R238, R239) -/

/-- Kinds of agents: a lane; an engine operation, which counts on the core that issued it; the CP and the switch die's engines;
the host; a peer package. -/
inductive AgentKind where
  | lane | engine | cp | host | peer
  deriving DecidableEq, Repr

/-- An agent. `half` is the logical wave of W16 mode, 0 otherwise; `away` marks an ejected lane. -/
structure Agent where
  kind : AgentKind
  die : Nat
  core : Nat
  group : Nat
  wave : Nat
  half : Nat
  away : Bool
  deriving DecidableEq, Repr

/-- Whether an agent stands on a compute die. -/
def Agent.onDie (a : Agent) : Bool := a.kind == .lane || a.kind == .engine

/-- Whether an agent belongs to the package. -/
def Agent.inPackage (a : Agent) : Bool := a.onDie || a.kind == .cp

/-- Whether agent b lies in the scope instance of an event by a (10 R238). -/
def inScope (sc : Scope) (a b : Agent) : Bool :=
  let lanes := a.kind == .lane && b.kind == .lane
  let sameDie := a.onDie && b.onDie && a.die == b.die
  let sameCore := sameDie && a.core == b.core
  let sameGroup := lanes && sameCore && a.group == b.group
  match sc with
  | .wave => sameGroup && a.wave == b.wave && a.half == b.half && !a.away && !b.away
  | .group => sameGroup
  | .core => sameCore
  | .die => sameDie
  | .package => a.inPackage && b.inPackage
  | .system => true

/-! ### Events (10 R237) -/

/-- What an event is. The marks number the instance: the barrier completion, the branch that ejects, the rejoin, the save, the
engine operation, the pair of colliding operations, the launch. -/
inductive EvKind where
  /-- accesses; an RMW is one atomic read and write -/
  | read | write | rmw
  | fence (sc : Bool)
  /-- parking at a barrier, and its completion, at a lane (07 R202) -/
  | park (b : Nat) | pass (b : Nat)
  /-- ejection: a lane of the wave, and the ejected lane (05 R156) -/
  | eject (k : Nat) | ejected (k : Nat)
  /-- rejoin: the ejected lane, and a lane of the run that it joins (05 R156) -/
  | rejoin (k : Nat) | rejoined (k : Nat)
  /-- a context save, and its restore, at a lane (10 R248) -/
  | save (k : Nat) | restore (k : Nat)
  /-- issue of engine operation o (10 R249) -/
  | issue (o : Nat)
  /-- an operation begins: before its reads; `after` names earlier operations of the core that collide (10 R249, R252) -/
  | opStart (o : Nat) (after : List Nat)
  /-- a completion push (10 R250) -/
  | push (o : Nat)
  /-- a completed `cbwait` on a handle, with the satisfying push and the earlier ones (10 R251) -/
  | waited (os : List Nat)
  /-- the engine's write of operation o's status word: at its push and at a delivery (12 R284, R289) -/
  | status (o : Nat)
  /-- a `cbadv`, and a completed `cbwait.room` with the earlier ones of its handle (13 R310, R311) -/
  | advance (n : Nat) | room (ns : List Nat)
  /-- the CP admits launch l, its descriptor and the counters that it waits for read, and a lane of the launch begins; a `spawn` of the
  launch (06 R171, R176; 20 R442) -/
  | admitted (l : Nat) | begin (l : Nat) | spawn (l : Nat)
  /-- the end of a lane of launch l, or a push of its engines, and the CP's release at its completion (06 R177) -/
  | ended (l : Nat) | complete (l : Nat)
  deriving DecidableEq, Repr

/-- An event: the thread whose order it stands in (a lane, an engine operation, the CP, a host port or a peer's channel), the
agent, for a lane's the number of the issue that performed it and the lane, what it is, its scope and whether it releases and acquires, the bytes it touches (or the tag of their granule), what it
reads and writes, whether its bytes are one access, and the nanosecond at which it is performed. -/
structure Ev where
  thread : Nat
  agent : Agent
  issue : Nat
  lane : Nat
  kind : EvKind
  scope : Scope
  rel : Bool
  acq : Bool
  addr : Nat
  len : Nat
  tag : Bool
  rval : List (BitVec 8)
  wval : List (BitVec 8)
  time : Nat
  deriving DecidableEq, Repr

/-- Whether an event reads memory. -/
def Ev.reads (e : Ev) : Bool := e.kind == .read || e.kind == .rmw
/-- Whether an event writes memory. -/
def Ev.writes (e : Ev) : Bool := match e.kind with | .write | .rmw | .status _ => true | _ => false
/-- Whether an event is a fence. -/
def Ev.isFence (e : Ev) : Bool := match e.kind with | .fence _ => true | _ => false
/-- Whether an event is a sequentially consistent fence. -/
def Ev.isSc (e : Ev) : Bool := e.kind == .fence true

/-- Whether an event is the start of an operation, its push, or an access of one (10 R249, R250). -/
def Ev.isStart (e : Ev) : Bool := match e.kind with | .opStart _ _ => true | _ => false
def Ev.isPush (e : Ev) : Bool := match e.kind with | .push _ => true | _ => false
def Ev.ofEngine (e : Ev) : Bool := e.agent.kind == .engine && (e.kind == .read || e.kind == .write || e.kind == .rmw)

/-- The places that an event touches: bytes by address, a granule's tag above them. -/
def Ev.places (e : Ev) : List Nat := if e.tag then [2 ^ 70 + e.addr / 64] else (List.range e.len).map (e.addr + ·)

/-- The scope at which an event is performed. An ejected lane's wave scope is group scope (05 R156), and so is that of pushes and of what
waits for them and for `cbadv` (10 R250, R251; 13 R311). Saves, restores and what the CP and `spawn` do are of system scope, and the issue
of an operation of core scope (10 R248, R249; 06 R171, R176, R177; 20 R442). -/
def Ev.at (e : Ev) : Scope :=
  match e.kind with
  | .save _ | .restore _ | .admitted _ | .spawn _ | .complete _ => .system
  | .issue _ => .core
  | .push _ | .waited _ | .advance _ | .room _ => if e.scope = .wave then .group else e.scope
  | _ => if e.agent.away ∧ e.scope = .wave then .group else e.scope

/-- Marks that release what stands before them, as a fence does (10 R248 to R250; 06 R177; 13 R311; 20 R442). -/
def Ev.relMark (e : Ev) : Bool :=
  match e.kind with
  | .fence _ => e.rel
  | .save _ | .issue _ | .push _ | .advance _ | .spawn _ | .complete _ => true
  | _ => false

/-- Marks that acquire for what stands after them, as a fence does (10 R248, R249, R251; 06 R171, R176; 13 R310). -/
def Ev.acqMark (e : Ev) : Bool :=
  match e.kind with
  | .fence _ => e.acq
  | .restore _ | .opStart _ _ | .waited _ | .room _ | .admitted _ => true
  | _ => false

/-- Mutually scoped events (10 R239). -/
def mutuallyScoped (e f : Ev) : Bool := inScope e.at e.agent f.agent && inScope f.at f.agent e.agent

/-- Whether an event of this kind and ordering releases (10 R241). -/
def releases (k : EvKind) (o : Ord4) : Bool := k == .fence true || (k != .read && (o == .release || o == .acqRel))
/-- Whether an event of this kind and ordering acquires (10 R241). -/
def acquires (k : EvKind) (o : Ord4) : Bool := k == .fence true || (k != .write && (o == .acquire || o == .acqRel))

/-! ### Executions -/

/-- A candidate execution. Events of one thread stand in its order; `rf` gives the write that a read reads a place from (none
for the initial value), `co` each place's writes in coherence order, and `sc` the order of the sequentially consistent fences. -/
structure Execution where
  evs : List Ev
  init : List (Nat × BitVec 8)
  rf : List ((Nat × Nat) × Option Nat)
  co : List (Nat × List Nat)
  sc : List Nat
  deriving DecidableEq, Repr

/-- Event i meets a condition. -/
def Execution.is (x : Execution) (i : Nat) (p : Ev → Bool) : Bool := match x.evs[i]? with | some e => p e | none => false

/-- Events i and j meet a condition. -/
def Execution.both (x : Execution) (i j : Nat) (p : Ev → Ev → Bool) : Bool :=
  match x.evs[i]?, x.evs[j]? with | some e, some f => p e f | _, _ => false

/-- Program order, and the order of arrival of one host port or peer channel (10 R240, R258). -/
def Execution.po (x : Execution) (i j : Nat) : Bool := i < j && x.both i j fun e f => e.thread == f.thread

/-- Event r reads place b. -/
def Execution.readsAt (x : Execution) (b r : Nat) : Bool := x.is r fun e => e.reads && e.places.contains b
/-- Event w writes place b. -/
def Execution.writesAt (x : Execution) (b w : Nat) : Bool := x.is w fun e => e.writes && e.places.contains b

/-- What event r reads place b from. -/
def Execution.src (x : Execution) (r b : Nat) : Option Nat := (x.rf.lookup (r, b)).getD none

/-- The coherence order of a place, the initial value apart. -/
def Execution.order (x : Execution) (b : Nat) : List Nat := (x.co.lookup b).getD []

/-- A write's position in the coherence order of a place; the initial value stands at 0. -/
def Execution.pos (x : Execution) (b : Nat) : Option Nat → Nat
  | none => 0
  | some w => (x.order b).idxOf w + 1

/-- Event r reads from event w. -/
def Execution.readsFrom (x : Execution) (w r : Nat) : Bool := x.is r fun e => e.reads && e.places.any fun b => x.src r b == some w

/-- R reads place b from W, or from an RMW that follows W in the coherence order with only RMWs between (10 R241). -/
def Execution.headed (x : Execution) (b w : Nat) : Nat → Option Nat → Bool
  | 0, _ => false
  | _ + 1, none => false
  | n + 1, some u => u == w || ((x.is u fun e => e.kind == .rmw) && x.headed b w n (x.src u b))

/-- The release side of event a through write w (10 R241): a release, or a fence or another mark that releases, before the write. -/
def Execution.relSide (x : Execution) (a w : Nat) : Bool :=
  (a == w && x.is a fun e => e.writes && e.rel) || (x.po a w && x.is w (·.writes) && x.is a (·.relMark))

/-- The acquire side of event b through read r (10 R241): an acquire, or a fence or another mark that acquires, after the read. -/
def Execution.acqSide (x : Execution) (b r : Nat) : Bool :=
  (b == r && x.is b fun e => e.reads && e.acq) || (x.po r b && x.is r (·.reads) && x.is b (·.acqMark))

/-- Synchronises-with (10 R241). -/
def Execution.sync (x : Execution) (a b : Nat) : Bool :=
  (List.range x.evs.length).any fun w => (List.range x.evs.length).any fun r =>
    x.relSide a w && x.acqSide b r && x.both a b mutuallyScoped && x.both w r mutuallyScoped &&
    x.is r fun e => e.places.any fun p => x.writesAt p w && x.headed p w (x.evs.length + 1) (x.src r p)

/-- The order of sequentially consistent fences. -/
def Execution.scBefore (x : Execution) (i j : Nat) : Bool :=
  x.sc.contains i && x.sc.contains j && x.sc.idxOf i < x.sc.idxOf j

/-- The edges that other mechanisms make between the marks of two events. -/
def joins : EvKind → EvKind → Bool
  | .park b, .pass b' => b == b'
  | .eject k, .ejected k' => k == k'
  | .rejoin k, .rejoined k' => k == k'
  | .save k, .restore k' => k == k'
  | .issue o, .opStart o' _ => o == o'
  | .push o, .opStart _ after => after.contains o
  | .push o, .waited os => os.contains o
  | .advance n, .room ns => ns.contains n
  | .spawn l, .admitted l' => l == l'
  | .admitted l, .begin l' => l == l'
  | .ended l, .complete l' => l == l'
  | _, _ => false

/-- A write from the host or a peer that arrived before one that a system-scope acquire reads, at or before it (10 R258). -/
def Execution.arrived (x : Execution) (w b : Nat) : Bool :=
  (x.is w fun e => (e.agent.kind == .host || e.agent.kind == .peer) && e.writes) &&
  (x.is b fun e => e.agent.kind == .lane && e.scope == .system) &&
  (List.range x.evs.length).any fun r => x.acqSide b r &&
    (List.range x.evs.length).any fun u => x.readsFrom u r && (u == w || x.po w u)

/-- An edge of happens-before (10 R242). -/
def Execution.edge (x : Execution) (a b : Nat) : Bool :=
  x.po a b || x.sync a b || (x.scBefore a b && x.both a b mutuallyScoped) || (x.both a b fun e f => joins e.kind f.kind) || x.arrived a b

/-- Happens-before: the smallest transitive relation that contains the edges (10 R242). -/
inductive HB (x : Execution) : Nat → Nat → Prop
  | edge (a b : Nat) : x.edge a b = true → HB x a b
  | trans (a b c : Nat) : HB x a b → HB x b c → HB x a c

/-- The smallest transitive relation that contains program order and reads-from (10 R245). -/
inductive Feeds (x : Execution) : Nat → Nat → Prop
  | step (a b : Nat) : (x.po a b || x.readsFrom a b) = true → Feeds x a b
  | trans (a b c : Nat) : Feeds x a b → Feeds x b c → Feeds x a c

/-! ### What is allowed -/

/-- The byte that event w writes to place b, or its initial value. -/
def Execution.valueAt (x : Execution) (b : Nat) : Option Nat → BitVec 8
  | none => (x.init.lookup b).getD 0
  | some w => match x.evs[w]? with | some e => e.wval.getD (b - e.places.headD 0) 0 | none => 0

/-- Every read of a place reads from a write of that place, and returns what it wrote. -/
def Execution.ReadsOk (x : Execution) : Prop :=
  ∀ r b, x.readsAt b r = true →
    (∀ w, x.src r b = some w → x.writesAt b w = true) ∧ x.is r (fun e => e.rval.getD (b - e.places.headD 0) 0 == x.valueAt b (x.src r b)) = true

/-- The coherence order of a place lists every write of it once, and nothing else (10 R243). -/
def Execution.OrderOk (x : Execution) : Prop := ∀ b, (x.order b).Nodup ∧ ∀ w, w ∈ x.order b ↔ x.writesAt b w = true

/-- The six parts of 10 R243. -/
structure Execution.Coherent (x : Execution) : Prop where
  ww : ∀ b w1 w2, x.writesAt b w1 = true → x.writesAt b w2 = true → HB x w1 w2 → x.pos b (some w1) < x.pos b (some w2)
  rw : ∀ b r w, x.readsAt b r = true → x.src r b = some w → ¬ HB x r w
  wr : ∀ b w r, x.writesAt b w = true → x.readsAt b r = true → HB x w r → x.pos b (some w) ≤ x.pos b (x.src r b)
  rr : ∀ b r1 r2, x.readsAt b r1 = true → x.readsAt b r2 = true → HB x r1 r2 → x.pos b (x.src r1 b) ≤ x.pos b (x.src r2 b)
  rwAfter : ∀ b r w, x.readsAt b r = true → x.writesAt b w = true → HB x r w → x.pos b (x.src r b) < x.pos b (some w)
  rmw : ∀ b u, x.readsAt b u = true → x.writesAt b u = true → x.pos b (some u) = x.pos b (x.src u b) + 1

/-- An aligned access of 8 bytes or less (10 R244). -/
def Ev.single (e : Ev) : Bool := !e.tag && (e.len == 1 || e.len == 2 || e.len == 4 || e.len == 8) && e.addr % e.len == 0

/-- Whether what a read reads was written by an aligned write of its own address and size; the initial value counts as one
(DEDUCED, log entry 41). -/
def Execution.sameShape (x : Execution) (r : Nat) : Option Nat → Bool
  | none => true
  | some w => x.both r w fun e f => f.addr == e.addr && f.len == e.len && f.single

/-- Single-copy atomicity (10 R244). -/
def Execution.SingleCopy (x : Execution) : Prop :=
  ∀ r e, x.evs[r]? = some e → e.reads = true → e.single = true → (e.places.all fun b => x.sameShape r (x.src r b)) = true →
    ∀ b c, b ∈ e.places → c ∈ e.places → x.src r b = x.src r c

/-- A write is visible to the package's agents 2 µs after it is performed (10 R246, R257). -/
def Execution.Visible (x : Execution) : Prop :=
  ∀ b w r, x.writesAt b w = true → x.readsAt b r = true →
    x.both w r (fun e f => f.agent.inPackage && decide (e.time + 2000 ≤ f.time)) = true → x.pos b (some w) ≤ x.pos b (x.src r b)

/-- A load that happens after a system-scope acquire performed after a host's or a peer's write has arrived reads that write or a
later one (10 R257). -/
def Execution.Arrivals (x : Execution) : Prop :=
  ∀ b w a r, x.writesAt b w = true → x.readsAt b r = true →
    x.both w a (fun e f => (e.agent.kind == .host || e.agent.kind == .peer) && f.acq && f.scope == .system && decide (e.time ≤ f.time)) = true →
    HB x a r → x.pos b (some w) ≤ x.pos b (x.src r b)

/-- The order of sequentially consistent fences is total and consistent with happens-before (10 R247). -/
def Execution.ScOk (x : Execution) : Prop :=
  x.sc.Nodup ∧ (∀ f, f ∈ x.sc ↔ x.is f Ev.isSc = true) ∧ ∀ f g, x.scBefore f g = true → ¬ HB x g f

/-- Event i is a lane's of the same instruction as event j, of a lower lane. -/
def Execution.lower (x : Execution) (i j : Nat) : Bool :=
  x.both i j fun e f => e.agent.kind == .lane && f.agent.kind == .lane && e.issue == f.issue && decide (e.lane < f.lane)

/-- Event i reads and writes place b at once. -/
def Execution.rmwAt (x : Execution) (b i : Nat) : Bool := x.readsAt b i && x.writesAt b i

/-- The lanes of one instruction (11 R263): their writes of one byte stand in ascending lane number, and their atomic accesses of one place
are performed one after another in that order, each reading what the next lower lane that wrote has written. -/
structure Execution.LanesOk (x : Execution) : Prop where
  writes : ∀ b i j, x.writesAt b i = true → x.writesAt b j = true → x.lower i j = true → x.pos b (some i) < x.pos b (some j)
  chain : ∀ b i j, x.rmwAt b i = true → x.readsAt b j = true → x.lower i j = true →
    (∀ k, x.rmwAt b k = true → x.lower i k = true → x.lower k j = false) → x.src j b = some i
  reads : ∀ b i j, x.readsAt b i = true → x.rmwAt b j = true → x.lower i j = true → x.pos b (x.src i b) ≤ x.pos b (x.src j b)

/-- Engine operations (10 R249, R250): every access of an operation is relaxed, and follows the operation's start and precedes its push. -/
def Execution.EnginesOk (x : Execution) : Prop :=
  ∀ i, x.is i Ev.ofEngine = true →
    x.is i (fun e => !e.rel && !e.acq) = true ∧
    (∃ j, x.po j i = true ∧ x.is j Ev.isStart = true) ∧
    ∀ j, x.is j Ev.isPush = true → x.po j i = false

/-- The executions that the rules allow (10 R243 to R247, R249, R250, R257; 11 R263). -/
structure Execution.Allowed (x : Execution) : Prop where
  reads : x.ReadsOk
  order : x.OrderOk
  coherent : x.Coherent
  single : x.SingleCopy
  noLoop : ∀ a, ¬ Feeds x a a
  visible : x.Visible
  arrivals : x.Arrivals
  sc : x.ScOk
  lanes : x.LanesOk
  engines : x.EnginesOk

/-- The bytes that event i reads, as a number. -/
def Execution.got (x : Execution) (i : Nat) : Nat :=
  match x.evs[i]? with | some e => (e.rval.zipIdx.map fun (b, k) => b.toNat * 256 ^ k).sum | none => 0

end Sys2Proof.Machine
end

