-- ==== Sys2Proof/Machine/Image.lean ====
section
/-! DEFINITION. The bytes of a saved group: the portable wave image and the group context image (17 R389, R390). The image stands
in the state as the saved group; these functions give its bytes (log entry 28). -/
namespace Sys2Proof.Machine

/-- The first n bytes of a list, filled with zeros. -/
def fitBytes (n : Nat) (b : List Byte) : List Byte := (b ++ List.replicate (n - b.length) 0).take n

/-- A list of bytes filled with zeros to a multiple of n. -/
def padTo (n : Nat) (b : List Byte) : List Byte := b ++ List.replicate ((n - b.length % n) % n) 0

/-! ### Live values (01 R40) -/

/-- The values of function f that are live before instruction i, or after its call. -/
def State.liveVals (s : State) (g : Group) (f i : Nat) (call : Bool) : List Nat :=
  match s.module? g.dom g.modH with
  | none => []
  | some m =>
    match m.func? f with
    | none => []
    | some fn =>
      match draftOf m.funcs fn with
      | none => []
      | some d =>
        let traps := fn.points.map (·.trap)
        d.liveAt traps (d.liveIn traps (d.blocks.length + 1)) i call

/-- The frames of a lane, outermost first. -/
def Lane.outer (x : Lane) : List Frame := x.frames.reverse

/-- The live values of a lane: frame, value number, value. -/
def liveOf (s : State) (g : Group) (x : Lane) : List (Nat × Nat × TVal) :=
  let n := x.frames.length
  x.outer.zipIdx.flatMap fun (f, k) =>
    let live := s.liveVals g f.func f.idx (k + 1 != n)
    f.vals.filterMap fun (v, t) => if live.contains v then some (k, v, t) else none

/-! ### The portable wave image (17 R390) -/

/-- STATE of a lane record. -/
def laneStCode (x : Lane) : Nat :=
  match x.st with
  | .live => if x.helper then 3 else 0
  | .exited => 1
  | .killed => 2
  | .never => 4

/-- The lanes of a wave that meet a condition. -/
def Wave.laneMask (w : Wave) (p : Lane → Bool) : Word := maskOf ((w.lanes.zipIdx.filter fun (x, _) => p x).map (·.2))

/-- A lane's call chain as bytes. -/
def chainBytes (x : Lane) : List Byte := x.chain.flatMap fun (f, i) => leBytes 4 f ++ leBytes 4 i

/-- A lane record, with the offset of its call chain. -/
def laneRecord (x : Lane) (off : Nat) : List Byte :=
  leBytes 4 x.top.func ++ leBytes 4 x.top.idx ++ leBytes 2 x.chain.length ++ [x.flags, BitVec.ofNat 8 (laneStCode x)] ++
  leBytes 4 off ++ leBytes 4 x.rng.s0.toNat ++ leBytes 4 x.rng.s1.toNat ++ leBytes 4 x.rng.s2.toNat ++ leBytes 4 x.rng.s3.toNat

/-- Lane records and call chains: `off` is where the first chain stands. -/
def laneParts : List Lane → Nat → List Byte × List Byte
  | [], _ => ([], [])
  | x :: r, off =>
    let c := chainBytes x
    let (a, b) := laneParts r (off + c.length)
    (laneRecord x off ++ a, c ++ b)

/-- A value in its size in memory (17 R390). -/
def valueBytes (t : TVal) : List Byte := leBytes (max 1 t.ty.size) (t.bits.toNat % 2 ^ (8 * max 1 t.ty.size))

/-- A value record: number, type and frame, the lanes that hold the value, and their values. -/
def valueRecord (k v : Nat) (ty : Ty) (held : List (Nat × TVal)) : List Byte :=
  leBytes 8 (v + ty.code * 2 ^ 24 + k * 2 ^ 32) ++ leBytes 4 (maskOf (held.map (·.1))).toNat ++ leBytes 4 0 ++
  padTo 8 (held.flatMap fun (_, t) => valueBytes t)

/-- The value records of a wave: one for each frame, value number and type that some lane holds live. -/
def valueRecords (s : State) (g : Group) (w : Wave) : List (List Byte) :=
  let held := w.lanes.zipIdx.flatMap fun (x, l) => if x.alive then (liveOf s g x).map fun (k, v, t) => (l, k, v, t) else []
  let keys := (held.map fun (_, k, v, t) => (k, v, t.ty)).eraseDups
  keys.map fun (k, v, ty) =>
    valueRecord k v ty (held.filterMap fun (l, k', v', t) => if k' = k ∧ v' = v ∧ t.ty = ty then some (l, t) else none)

/-- The portable wave image. -/
def pwiBytes (s : State) (g : Group) (w : Wave) : List Byte :=
  let recs := valueRecords s g w
  let (lanes, chains) := laneParts (w.lanes.take 32) 0x4C0
  let body := lanes ++ chains ++ recs.flatten
  leBytes 4 0x31495750 ++ leBytes 4 (0xC0 + body.length) ++ leBytes 8 g.hdr.toNat ++ leBytes 4 g.modH ++ leBytes 4 w.index ++
  leBytes 4 w.dead.toNat ++ leBytes 4 (w.laneMask fun x => x.st == .exited || x.st == .never).toNat ++ leBytes 4 (w.laneMask (·.helper)).toNat ++
  leBytes 4 (w.laneMask fun x => x.park == .wbar).toNat ++ leBytes 4 (w.laneMask fun x => x.park == .gbar).toNat ++
  leBytes 4 (w.laneMask fun x => x.park == .join).toNat ++ leBytes 4 (w.laneMask fun x => x.park == .held).toNat ++
  leBytes 4 w.issued.toNat ++ leBytes 4 recs.length ++ leBytes 4 0 ++
  fitBytes 128 (w.watch.flatMap fun x => leBytes 8 x.addr.toNat ++ leBytes 8 x.ctl.toNat) ++ body

/-! ### The group context image (17 R389) -/

/-- The fields of a handle slot other than CODES, in the order of 12 R282. -/
def handleFields (h : Handle) : List Nat :=
  [h.valid.toNat, h.gen.toNat, h.data.toNat, h.slotb.toNat, h.logn, h.stat.toNat, h.scope, h.claim.toNat, h.push.toNat, h.adv.toNat]

/-- The handle slots' part: 32 entries of 40 bytes, then 2^LOGN codes for each valid slot. -/
def handlePart (hs : List Handle) : List Byte :=
  (hs.flatMap fun h => fitBytes 40 (Config.imagePart 1 (handleFields h))) ++
  (hs.filter (·.valid)).flatMap fun h => fitBytes (2 * 2 ^ h.logn) (h.codes.flatMap fun c => leBytes 2 c.toNat)

/-- The matrix lease's part. -/
def leasePart (l : Lease) : List Byte :=
  let bank := match l.bank with
    | some b => [b.n, b.k, b.fmt] ++ b.data.map (·.toNat) ++ b.scales.map (·.toNat)
    | none => []
  Config.imagePart 2 ([l.tiles, l.fidx, l.flags.toNat] ++ bank) ++ fitBytes 64 (l.fmts.flatMap fun f => leBytes 4 f.toNat) ++
  (List.range (4096 * l.tiles)).flatMap fun k => leBytes 4 (mget (0 : Word) l.acc k).toNat

/-- The scratchpad's part: n bytes from a key on, then one byte for each granule with the tag in [3:0]. -/
def scratchPart (s : State) (key n : Nat) : List Byte :=
  s.bytes n key ++ (List.range (n / 64)).map fun k => (s.tagAt (key + 64 * k)).setWidth 8

/-- An outstanding command's part: handle slot, claim, and range-lock entries. -/
def cmdPart (c : Cmd) : List Byte :=
  Config.imagePart 3 ([c.handle, c.claim.toNat] ++ c.locks.flatMap fun l => [l.base, l.len, l.src.toNat, l.dom])

/-- Offsets of parts that follow each other, each aligned to 64 bytes, from an offset on. -/
def partOffsets : List (List Byte) → Nat → List Nat
  | [], _ => []
  | b :: r, off => off :: partOffsets r (off + (padTo 64 b).length)

/-- The parts after the header. -/
def imageParts (s : State) (g : Group) : List (List Byte) :=
  [handlePart g.handles, g.watch.flatMap fun x => leBytes 8 x.addr.toNat ++ leBytes 8 x.ctl.toNat] ++ g.waves.map (pwiBytes s g) ++
  [match g.lease with | some l => leasePart l | none => [],
   scratchPart s (savedKey g.gid 0) (g.nbanks * 65536),
   (s.cmds.filter fun c => c.gid == g.gid).flatMap cmdPart]

/-- The context image of a saved group without its CRC. -/
def imageBody (s : State) (g : Group) : List Byte :=
  let parts := imageParts s g
  let size := 256 + (parts.map fun b => (padTo 64 b).length).sum + 8
  let head := leBytes 4 0x43475843 ++ Config.imagePart 0 ([size, g.dom, g.launch, g.lin, g.hdr.toNat, g.modH, g.kernel, g.waves.length] ++
    partOffsets parts 256)
  fitBytes 256 head ++ parts.flatMap (padTo 64)

/-- The context image of a saved group: its parts and the CRC-64 over them. -/
def groupImage (s : State) (g : Group) : List Byte :=
  let b := imageBody s g
  b ++ leBytes 8 (crc64 b).toNat

/-- Whether the CRC at the end of an image is that of the rest (17 R391). -/
def imageCrcOk (b : List Byte) : Bool := crc64 (b.take (b.length - 8)) == BitVec.ofNat 64 (leNat (b.drop (b.length - 8)))

end Sys2Proof.Machine
end

