-- ==== Sys2Proof/Safety.lean ====
section
/-! DEFINITION. What counts as a safe run, and the words in which the statements speak: the canonical form of the state, the run
that issues, its operands, and what an instruction leaves. -/
namespace Sys2Proof.Machine

/-! ### Canonical form -/

/-- Memory in canonical form: addresses strictly rising, and no entry equal to what an unlisted address reads as. -/
def Memory.wf (m : List Host.Cell) : Bool := mwf (fun _ => memDefault) m

/-- Memory and its tags are in canonical form. -/
def State.canonical (s : State) : Bool := Memory.wf s.mem && mwf (fun _ => (0 : BitVec 4)) s.tags

/-! ### Safe runs -/

/-- A step that goes on. -/
def StepSafe (s : State) : Prop := ∃ t, step s = .next t

/-- The state after n steps, each of which goes on. -/
def runSteps : Nat → State → Option State
  | 0, s => some s
  | n + 1, s => match step s with | .next t => runSteps n t | _ => none

/-- A safe run: no step of it stops. -/
def RunSafe (n : Nat) (s : State) : Prop := ∃ t, runSteps n s = some t

/-! ### The run that issues -/

/-- The run that issues in state s, with its group, wave and active lanes. -/
def Runs (s : State) (c : Ctx) : Prop := s.ctx? = some c

/-- In every active lane, operand o has type t and the value x. -/
def Operand (s : State) (c : Ctx) (t : Ty) (o : Opnd) (x : Nat → Bits) : Prop := ∀ l ∈ c.lanes, evalOp s c l t o = some (x l)

/-- The flags and the random-number state of a lane before the instruction. -/
def Ctx.acc (c : Ctx) (l : Nat) : Acc := match c.lane? l with | some x => x.acc | none => ⟨0, ⟨0, 0, 0, 0⟩⟩

/-- What an instruction leaves in each active lane. -/
def Ctx.out (c : Ctx) (f : Nat → LaneOut) : List (Nat × LaneOut) := c.lanes.map fun l => (l, f l)

/-- An instruction completes: each active lane gets the result z of type ty, its flags and random-number state stay, and it passes
on (04 R97). -/
def Gives (s : State) (c : Ctx) (i : Instr) (ty : Ty) (z : Nat → Bits) : Prop :=
  exec i s = .next (commit c (c.out fun l => (some ⟨ty, z l⟩, c.acc l)) s)

/-- An instruction completes: each active lane gets the result and what it accumulates in flags and random numbers. -/
def GivesAcc (s : State) (c : Ctx) (i : Instr) (ty : Ty) (z : Nat → Bits × Acc) : Prop :=
  exec i s = .next (commit c (c.out fun l => (some ⟨ty, (z l).1⟩, (z l).2)) s)

/-- An instruction without a result completes: each active lane keeps its values and passes on with what it accumulates. -/
def Passes (s : State) (c : Ctx) (i : Instr) (a : Nat → Acc) : Prop := exec i s = .next (commit c (c.out fun l => (none, a l)) s)

/-- What lane l reads from lane j of the run: lane j's value, or its own where j is not active (07 R187). -/
def Ctx.take (c : Ctx) (v : Nat → Bits) (j l : Nat) : Bits := if j ∈ c.lanes then v j else v l

/-- Lanes in a logical wave: 16 in W16 mode (05 R166). -/
def Ctx.width (c : Ctx) : Nat := if c.g.w16 then 16 else 32

/-- The first lane of lane l's logical wave. -/
def Ctx.base (c : Ctx) (l : Nat) : Nat := if c.g.w16 then l / 16 * 16 else 0

/-- The run stands in one logical wave: not the runs of both halves, which issue as one instruction (08 R209). -/
def Ctx.oneHalf (c : Ctx) : Bool := !(c.g.w16 && c.lanes.any (· < 16) && c.lanes.any (16 ≤ ·))

/-- A native-only operation completes: the registers of the wave become r, and nothing else changes (15 R343). -/
def LeavesRegs (s : State) (c : Ctx) (i : Instr) (r : NRegs) : Prop :=
  ∃ f : NRegs → NRegs, (∀ n, c.w.native = some n → f n.regs = r) ∧
    exec i s = .next (s.modWave c.iss.gid c.iss.wave fun w => { w with native := w.native.map fun n => { n with regs := f n.regs } })

/-- The ordinary active lanes of lane l's logical wave, ascending (07 R189, R195). -/
def Ctx.peers (c : Ctx) (l : Nat) : List Nat := c.ordinary.filter fun j => c.base j == c.base l

/-- A lane of a wave of a group. -/
def State.lane? (s : State) (gid w l : Nat) : Option Lane := (s.wave? gid w).bind fun x => x.lanes[l]?

/-- The wave of the issuing run in another state. -/
def Ctx.waveIn (c : Ctx) (t : State) : Option Wave := t.wave? c.iss.gid c.iss.wave

/-- Lane l of the issuing run's wave in another state. -/
def Ctx.laneIn (c : Ctx) (t : State) (l : Nat) : Option Lane := t.lane? c.iss.gid c.iss.wave l

/-- The accesses `req` of the active lanes pass the ten checks of 09 R214 in state u at the places q, behind no peer that does not
answer; a helper lane whose access fails has none (11 R264). -/
def Checked (u : State) (c : Ctx) (req : Nat → List Part) (q : Nat → Option (List Place)) : Prop :=
  ∀ l ∈ c.lanes,
    (∃ ps, u.checkParts (c.who l) (req l) = .ok ps ∧ q l = some ps ∧ ∀ p ∈ ps, u.unanswered p = false) ∨
    (c.helper l = true ∧ (∃ f, u.checkParts (c.who l) (req l) = .error f) ∧ q l = none)

/-- The 64-byte lines of the L2 port that the accesses of a run at the places q want. -/
def linesAt (c : Ctx) (q : Nat → Option (List Place)) : Nat := (linesOf (c.lanes.flatMap fun l => (q l).getD [])).length

/-- The state u in which a memory instruction of a run acts that wants n lines: they have left the port while the run was held, or leave
it at once, since the domain has no request waiting there and a token for each of them (09 R234). -/
def Ported (s : State) (c : Ctx) (n : Nat) (u : State) : Prop :=
  (c.released.isSome = true ∧ u = dropHold c s) ∨
  (c.released = none ∧ u = (wantLines c.g.core c.g.dom n (dropHold c s)).2 ∧
    (n = 0 ∨ ((s.bucket c.g.core c.g.dom).waiting = 0 ∧
      n ≤ (s.bucket c.g.core c.g.dom).own + ((s.bucket c.g.core c.g.dom).borrowed.map (·.2)).sum)))

/-- The value of type ty that a lane loads at its places; a helper lane without places gets 0. -/
def loaded (u : State) (ty : Ty) (q : Option (List Place)) : TVal :=
  match q with | some ps => valOfBytes ty (u.readPlaces ps) | none => ⟨ty, 0⟩

/-- The state after the ordinary active lanes, in ascending order, have stored bytes at their places (11 R263). -/
def storesOf (c : Ctx) (q : Nat → Option (List Place)) (bytes : Nat → List Byte) (u : State) : State :=
  c.ordinary.foldl (fun t l => match q l with | some ps => t.writePlaces ps (bytes l) | none => t) u

/-- An operation on each element of a type: numbers of the elements in, results modulo 2^w (04 R99). -/
def perElement (ty : Ty) (f : Nat → Nat → Nat) (x y : Bits) : Bits :=
  let (n, ew) := elemsOf ty
  BitVec.ofNat 96 (joinElems ew ((List.range n).map fun k => f (elemOf ew k x) (elemOf ew k y)))

/-- The outcome of a step whose act has outcome o: what follows every step comes after it. -/
def settled (before : State) : Out → Out
  | .next t => .next (settleStep before t)
  | o => o

/-- A resident group that is asked to stop, for a reason: every wave of it, by the stop deadline of its domain (17 R387, R388). -/
def Group.asked (s : State) (why : StopWhy) (g : Group) : Group :=
  { g with why, stopBy := s.now + 1000 * (s.dom g.dom).stopUs, waves := g.waves.map fun w => { w with stopAsked := true, chosen := 0 } }

/-- The instructions that act once per issuing run, the two halves of a W16 wave in turn (13 R307), but for `rmerge`, which checks
both halves first. -/
def actsPerRun : Instr → Bool
  | .watchset .. | .watchclr .. | .cbinit .. | .cbwait .. | .cbadv .. | .cbstat .. | .acopy .. | .agather .. | .ascatter .. | .kstart ..
  | .mxlease .. | .mxrel | .mxldb .. | .mxzero .. | .mxst .. | .mxmma .. | .mxsmma .. | .mxtma .. | .mxfmt .. | .ccwait .. | .gatecall ..
  | .xprefetch .. => true
  | _ => false

/-- An instruction's opcode, type code, modifier and operands, with a result and no block (03 R68, R80). -/
def EncodedAs (i : Instr) (op : Nat) (ty : Ty) (mod : Nat) (os : List Opnd) : Prop := i.toRaw = some ⟨op, ty.code, mod, true, os, []⟩

/-- The instructions that store nothing to memory: a trap, a hold or an end of lanes stores nothing either. Not among them is
`cbwait`, which writes the status word of a fault that it delivers (12 R289). -/
def storesNothing : Instr → Bool
  | .br .. | .brc .. | .switch .. | .ret | .retValue .. | .exit | .call .. | .trap | .trapCode .. | .flagrd | .flagclr .. | .add .. | .sub ..
  | .mul .. | .mulhi .. | .sdiv .. | .udiv .. | .srem .. | .urem .. | .neg .. | .abs .. | .smin .. | .smax .. | .umin .. | .umax .. | .addsat ..
  | .subsat .. | .and .. | .or .. | .xor .. | .not .. | .shl .. | .lshr .. | .ashr .. | .rotl .. | .rotr .. | .popc .. | .clz .. | .ctz ..
  | .brev .. | .bswap .. | .bfext .. | .bfins .. | .icmp .. | .select .. | .zext .. | .sext .. | .trunc .. | .mad .. | .ptradd .. | .ptrdiff ..
  | .ptrtag .. | .ptrsettag .. | .ptrtoint .. | .inttoptr .. | .mov .. | .fadd .. | .fsub .. | .fmul .. | .fdiv .. | .fma .. | .fsqrt ..
  | .fmin .. | .fmax .. | .fneg .. | .fabs .. | .fcopysign .. | .fcmp .. | .fclass .. | .frint .. | .fdot2 .. | .fdot4 .. | .frcp .. | .frsqrt ..
  | .fexp2 .. | .flog2 .. | .fsin .. | .fcos .. | .ftanh .. | .cvt .. | .bitcast .. | .pack .. | .unpack .. | .insert .. | .sysread .. | .laneid
  | .waveid | .groupid | .gridid .. | .activemask | .quadswap .. | .quadbcast .. | .shfl .. | .ballot .. | .vote .. | .matchLanes .. | .wred ..
  | .wscan .. | .elect | .wbar | .gbar | .rand .. | .randseed .. | .bcast .. | .ld .. | .ldlay .. | .laymake .. | .fence .. | .tagld ..
  | .watchset .. | .watchclr .. | .prefetch .. | .cbinit .. | .cbadv .. | .cbstat .. | .acopy .. | .agather .. | .ascatter ..
  | .kstart .. | .mxlease .. | .mxrel | .mxldb .. | .mxzero .. | .mxmma .. | .mxsmma .. | .mxtma .. | .mxfmt .. | .ccwait .. | .gateret ..
  | .xprefetch .. | .ecount .. | .xrtlook .. | .xrtverCur .. | .xrtverChk .. | .xrtverDone .. | .rmerge .. | .nmov .. | .nmovs .. | .nvtos ..
  | .nlit .. | .nfill .. | .nstg .. | .nstgv .. | .nlcset .. | .nloop .. | .nland .. | .nxit | .ntrap | .nmask .. | .nmaskv .. => true
  | _ => false

/-- The signed reading of an element number of width w (02 R44). -/
def signedAs (w n : Nat) : Int := if 2 ^ (w - 1) ≤ n then (n : Int) - (2 ^ w : Nat) else n

end Sys2Proof.Machine
end

