-- ==== Sys2Proof/Certificates/Slice0/Obligations.lean ====
section
/-! DEFINITION. The statements for the provers. -/
open Sys2Proof Sys2Proof.Machine

/-! ### Integer instructions (04 R110 to R120) -/

/-- 04 R110: the integer instructions compute the result shown, stored modulo 2^w, element by element on `v4i8`, and set no flag. -/
def Obligations.IntegerArithmetic : Prop :=
  ∀ (s : State) (c : Ctx) (ty : Ty) (a b : Opnd) (x y : Nat → Bits) (w : Nat), Runs s c → Operand s c ty a x → Operand s c ty b y →
    w = (elemsOf ty).2 →
    Gives s c (.add ty a b) ty (fun l => perElement ty (fun p q => p + q) (x l) (y l)) ∧
    Gives s c (.sub ty a b) ty (fun l => perElement ty (fun p q => p + (2 ^ w - q)) (x l) (y l)) ∧
    Gives s c (.mul ty a b) ty (fun l => perElement ty (fun p q => p * q) (x l) (y l)) ∧
    Gives s c (.smin ty a b) ty (fun l => perElement ty (fun p q => if signedAs w p ≤ signedAs w q then p else q) (x l) (y l)) ∧
    Gives s c (.smax ty a b) ty (fun l => perElement ty (fun p q => if signedAs w q ≤ signedAs w p then p else q) (x l) (y l)) ∧
    Gives s c (.umin ty a b) ty (fun l => perElement ty (fun p q => min p q) (x l) (y l)) ∧
    Gives s c (.umax ty a b) ty (fun l => perElement ty (fun p q => max p q) (x l) (y l)) ∧
    Gives s c (.and ty a b) ty (fun l => perElement ty (fun p q => p &&& q) (x l) (y l)) ∧
    Gives s c (.or ty a b) ty (fun l => perElement ty (fun p q => p ||| q) (x l) (y l)) ∧
    Gives s c (.xor ty a b) ty (fun l => perElement ty (fun p q => p ^^^ q) (x l) (y l)) ∧
    Gives s c (.neg ty a) ty (fun l => ofU ty.width (2 ^ ty.width - uRd ty.width (x l))) ∧
    Gives s c (.abs ty a) ty (fun l => ofU ty.width (sRd ty.width (x l)).natAbs) ∧
    Gives s c (.not ty a) ty (fun l => ofU ty.width (2 ^ ty.width - 1 - uRd ty.width (x l))) ∧
    (∀ e ∈ [(Instr.add ty a b, 0x040), (.sub ty a b, 0x041), (.smin ty a b, 0x04A), (.smax ty a b, 0x04B), (.umin ty a b, 0x04C),
        (.umax ty a b, 0x04D)], EncodedAs e.1 e.2 ty 0 [a, b] ∧ e.1.wellFormed = ((ty.isI || ty == .v4i8) && a.ok ty && b.ok ty)) ∧
    (EncodedAs (.mul ty a b) 0x042 ty 0 [a, b] ∧ (Instr.mul ty a b).wellFormed = (ty.isI && a.ok ty && b.ok ty)) ∧
    (∀ e ∈ [(Instr.and ty a b, 0x050), (.or ty a b, 0x051), (.xor ty a b, 0x052)],
      EncodedAs e.1 e.2 ty 0 [a, b] ∧ e.1.wellFormed = (ty.isIB && a.ok ty && b.ok ty)) ∧
    (∀ e ∈ [(Instr.neg ty a, 0x048), (.abs ty a, 0x049)], EncodedAs e.1 e.2 ty 0 [a] ∧ e.1.wellFormed = (ty.isI && a.ok ty)) ∧
    EncodedAs (.not ty a) 0x053 ty 0 [a] ∧ (Instr.not ty a).wellFormed = (ty.isIB && a.ok ty)

/-- 04 R113: division and remainder, with their values for a divisor of 0 and for the one quotient that does not fit; they set no flag.
04 R114: shifts and rotations read their count modulo w. -/
def Obligations.DivisionsAndShifts : Prop :=
  (∀ (s : State) (c : Ctx) (ty : Ty) (a b : Opnd) (x y : Nat → Bits) (w : Nat), Runs s c → Operand s c ty a x → Operand s c ty b y →
    w = ty.width →
    (ty.isI = true →
    Gives s c (.udiv ty a b) ty (fun l => if uRd w (y l) = 0 then ofU w (2 ^ w - 1) else ofU w (uRd w (x l) / uRd w (y l))) ∧
    Gives s c (.urem ty a b) ty (fun l =>
      if uRd w (y l) = 0 then ofU w (uRd w (x l)) else ofU w (uRd w (x l) - uRd w (y l) * (uRd w (x l) / uRd w (y l)))) ∧
    Gives s c (.sdiv ty a b) ty (fun l =>
      if uRd w (y l) = 0 then ofU w (2 ^ w - 1)
      else if sRd w (x l) = -2 ^ (w - 1) ∧ sRd w (y l) = -1 then ofU w (uRd w (x l))
      else ofI w ((sRd w (x l)).tdiv (sRd w (y l)))) ∧
    Gives s c (.srem ty a b) ty (fun l =>
      if uRd w (y l) = 0 then ofU w (uRd w (x l))
      else if sRd w (x l) = -2 ^ (w - 1) ∧ sRd w (y l) = -1 then 0
      else ofI w (sRd w (x l) - sRd w (y l) * (sRd w (x l)).tdiv (sRd w (y l))))) ∧
    ∀ e ∈ [(Instr.sdiv ty a b, 0x044), (.udiv ty a b, 0x045), (.srem ty a b, 0x046), (.urem ty a b, 0x047)],
      EncodedAs e.1 e.2 ty 0 [a, b] ∧ e.1.wellFormed = (ty.isI && a.ok ty && b.ok ty)) ∧
  (∀ (s : State) (c : Ctx) (ty : Ty) (a b : Opnd) (x y : Nat → Bits) (w : Nat), Runs s c → Operand s c ty a x →
    Operand s c ty b y → w = ty.width →
    (ty.isI = true →
    Gives s c (.shl ty a b) ty (fun l => ofU w (uRd w (x l) * 2 ^ (uRd w (y l) % w))) ∧
    Gives s c (.lshr ty a b) ty (fun l => ofU w (uRd w (x l) / 2 ^ (uRd w (y l) % w))) ∧
    Gives s c (.ashr ty a b) ty (fun l => ofI w (sRd w (x l) / 2 ^ (uRd w (y l) % w))) ∧
    Gives s c (.rotl ty a b) ty (fun l =>
      ofU w (uRd w (x l) * 2 ^ (uRd w (y l) % w) + uRd w (x l) / 2 ^ (w - uRd w (y l) % w))) ∧
    Gives s c (.rotr ty a b) ty (fun l =>
      ofU w (uRd w (x l) * 2 ^ ((w - uRd w (y l) % w) % w) + uRd w (x l) / 2 ^ (w - (w - uRd w (y l) % w) % w)))) ∧
    ∀ e ∈ [(Instr.shl ty a b, 0x054), (.lshr ty a b, 0x055), (.ashr ty a b, 0x056), (.rotl ty a b, 0x057), (.rotr ty a b, 0x058)],
      EncodedAs e.1 e.2 ty 0 [a, b] ∧ e.1.wellFormed = (ty.isI && a.ok ty && b.ok ty))

/-- 04 R115: the bit-counting instructions, `brev` and `bswap`. 04 R116: a bit field's position and length are clamped, and it is
extracted, read signed with SGN, or inserted. -/
def Obligations.BitCountsAndFields : Prop :=
  (∀ (s : State) (c : Ctx) (ty : Ty) (a : Opnd) (x : Nat → Bits) (w : Nat), Runs s c → Operand s c ty a x → w = ty.width →
    Gives s c (.popc ty a) ty (fun l => ofU w ((List.range w).countP fun i => (x l).getLsbD i)) ∧
    Gives s c (.ctz ty a) ty (fun l => ofU w ((List.range w).takeWhile fun i => !(x l).getLsbD i).length) ∧
    Gives s c (.clz ty a) ty (fun l => ofU w ((List.range w).takeWhile fun i => !(x l).getLsbD (w - 1 - i)).length) ∧
    (∃ z, Gives s c (.brev ty a) ty z ∧ ∀ l ∈ c.lanes, ∀ i, (z l).getLsbD i = (decide (i < w) && (x l).getLsbD (w - 1 - i))) ∧
    (w % 8 = 0 → ∃ z, Gives s c (.bswap ty a) ty z ∧
      ∀ l ∈ c.lanes, (z l).toNat < 2 ^ w ∧ ∀ k < w / 8, bitsAt (z l) (8 * k) 8 = bitsAt (x l) (8 * (w / 8 - 1 - k)) 8) ∧
    (∀ e ∈ [(Instr.popc ty a, 0x059), (.clz ty a, 0x05A), (.ctz ty a, 0x05B), (.brev ty a, 0x05C)],
      EncodedAs e.1 e.2 ty 0 [a] ∧ e.1.wellFormed = ((ty.isI || ty == .msk) && a.ok ty)) ∧
    EncodedAs (.bswap ty a) 0x05D ty 0 [a] ∧ (Instr.bswap ty a).wellFormed = ((ty == .i16 || ty == .i32 || ty == .i64) && a.ok ty)) ∧
  (∀ (s : State) (c : Ctx) (ty : Ty) (a b d e : Opnd) (x y pos len : Nat → Bits) (w : Nat) (p n f : Nat → Nat) (sgn : Bool),
    Runs s c → Operand s c ty a x → Operand s c ty b y → Operand s c .i32 d pos → Operand s c .i32 e len → w = ty.width →
    (∀ l, p l = min (uRd 32 (pos l)) w) → (∀ l, n l = min (uRd 32 (len l)) (w - p l)) →
    (∀ l, f l = uRd w (x l) / 2 ^ p l % 2 ^ n l) →
    Gives s c (.bfext sgn ty a d e) ty (fun l =>
      if n l = 0 then 0 else if sgn ∧ (f l).testBit (n l - 1) then ofI w ((f l : Int) - 2 ^ n l) else ofU w (f l)) ∧
    Gives s c (.bfins ty a b d e) ty (fun l => ofU w (uRd w (x l) - f l * 2 ^ p l + uRd w (y l) % 2 ^ n l * 2 ^ p l)) ∧
    (EncodedAs (.bfext sgn ty a d e) 0x05E ty sgn.toNat [a, d, e] ∧
      (Instr.bfext sgn ty a d e).wellFormed = (ty.isI && a.ok ty && d.ok .i32 && e.ok .i32)) ∧
    EncodedAs (.bfins ty a b d e) 0x05F ty 0 [a, b, d, e] ∧
    (Instr.bfins ty a b d e).wellFormed = (ty.isI && a.ok ty && b.ok ty && d.ok .i32 && e.ok .i32))

/-- 04 R111: the high half of a product, and the widening multiply-add. 04 R112, 02 R45: saturating addition and subtraction clamp each
element to the range of the reading, and clamping sets SV. -/
def Obligations.WideAndSaturatingArithmetic : Prop :=
  (∀ (s : State) (c : Ctx) (ty : Ty) (a b d : Opnd) (x y z : Nat → Bits) (w : Nat) (sgn : Bool), Runs s c → Operand s c ty a x →
    Operand s c ty b y → Operand s c ty.double d z → w = ty.width →
    (ty.isI = true → Gives s c (.mulhi sgn ty a b) ty (fun l => ofI w (rRd sgn w (x l) * rRd sgn w (y l) / 2 ^ w))) ∧
    Gives s c (.mad sgn ty a b d) ty.double (fun l =>
      ofI (2 * w) (rRd sgn w (x l) * rRd sgn w (y l) + uRd (2 * w) (z l))) ∧
    (EncodedAs (.mulhi sgn ty a b) 0x043 ty sgn.toNat [a, b] ∧ (Instr.mulhi sgn ty a b).wellFormed = (ty.isI && a.ok ty && b.ok ty)) ∧
    EncodedAs (.mad sgn ty a b d) 0x065 ty sgn.toNat [a, b, d] ∧
    (Instr.mad sgn ty a b d).wellFormed = (ty.isI && ty != .i64 && a.ok ty && b.ok ty && d.ok ty.double)) ∧
  (∀ (s : State) (c : Ctx) (ty : Ty) (a b : Opnd) (x y : Nat → Bits) (w n : Nat) (sgn sub : Bool) (v : Nat → Nat → Int),
    Runs s c → Operand s c ty a x → Operand s c ty b y → (n, w) = elemsOf ty →
    (∀ l k, v l k =
      (if sgn then signedAs w (elemOf w k (x l)) else elemOf w k (x l)) +
      (if sub then -1 else 1) * (if sgn then signedAs w (elemOf w k (y l)) else elemOf w k (y l))) →
    GivesAcc s c (if sub then .subsat sgn ty a b else .addsat sgn ty a b) ty (fun l =>
      (BitVec.ofNat 96 (joinElems w ((List.range n).map fun k =>
        (max (intMin sgn w) (min (intMax sgn w) (v l k)) % 2 ^ w).toNat)),
       if (List.range n).any fun k => v l k < intMin sgn w || intMax sgn w < v l k then (c.acc l).flag fSV else c.acc l)) ∧
    EncodedAs (if sub then .subsat sgn ty a b else .addsat sgn ty a b) (if sub then 0x04F else 0x04E) ty sgn.toNat [a, b] ∧
    Instr.wellFormed (if sub then .subsat sgn ty a b else .addsat sgn ty a b) = ((ty.isI || ty == .v4i8) && a.ok ty && b.ok ty))

/-- 04 R117, R118, R119: comparison, selection, copying and changes of width. 04 R120: the pointer instructions. The tag is in [59:56],
the address in [55:0]. -/
def Obligations.ComparisonsWidthsAndPointers : Prop :=
  (∀ (s : State) (c : Ctx) (ty : Ty) (a b d : Opnd) (x y z : Nat → Bits) (w : Nat), Runs s c → Operand s c ty a x →
    Operand s c ty b y → Operand s c .i1 d z → w = ty.width →
    Gives s c (.icmp .eq ty a b) .i1 (fun l => ofB (uRd w (x l) == uRd w (y l))) ∧
    Gives s c (.icmp .ne ty a b) .i1 (fun l => ofB (uRd w (x l) != uRd w (y l))) ∧
    Gives s c (.icmp .ult ty a b) .i1 (fun l => ofB (uRd w (x l) < uRd w (y l))) ∧
    Gives s c (.icmp .ule ty a b) .i1 (fun l => ofB (uRd w (x l) ≤ uRd w (y l))) ∧
    Gives s c (.icmp .ugt ty a b) .i1 (fun l => ofB (uRd w (y l) < uRd w (x l))) ∧
    Gives s c (.icmp .uge ty a b) .i1 (fun l => ofB (uRd w (y l) ≤ uRd w (x l))) ∧
    Gives s c (.icmp .slt ty a b) .i1 (fun l => ofB (sRd w (x l) < sRd w (y l))) ∧
    Gives s c (.icmp .sle ty a b) .i1 (fun l => ofB (sRd w (x l) ≤ sRd w (y l))) ∧
    Gives s c (.icmp .sgt ty a b) .i1 (fun l => ofB (sRd w (y l) < sRd w (x l))) ∧
    Gives s c (.icmp .sge ty a b) .i1 (fun l => ofB (sRd w (y l) ≤ sRd w (x l))) ∧
    Gives s c (.select ty d a b) ty (fun l => if z l = 1 then x l else y l) ∧
    Gives s c (.mov ty a) ty x ∧
    ∀ (v : BitVec 24) (t : Ty), (∀ l ∈ c.lanes, valOf c l v.toNat = some ⟨t, x l⟩) → (t = .i1 ∨ t.isI = true) →
      (t.width < w → Gives s c (.zext ty v) ty (fun l => ofU w (uRd t.width (x l)))) ∧
      (t.width < w → Gives s c (.sext ty v) ty (fun l => ofI w (sRd t.width (x l)))) ∧
      (w < t.width → Gives s c (.trunc ty v) ty (fun l => ofU w (x l).toNat))) ∧
  (∀ (s : State) (c : Ctx) (a b d e : Opnd) (p q t x : Nat → Bits), Runs s c → Operand s c .ptr a p → Operand s c .ptr b q →
    Operand s c .i8 d t → Operand s c .i64 e x →
    (∀ (v : BitVec 24) (ty : Ty) (o : Nat → Bits), (ty = .i64 ∨ ty = .i32) → (∀ l ∈ c.lanes, valOf c l v.toNat = some ⟨ty, o l⟩) →
      Gives s c (.ptradd a (.val v)) .ptr (fun l =>
        ofU 64 (bitsAt (p l) 56 8 * 2 ^ 56 + (((uRd 56 (p l) : Int) + sRd ty.width (o l)) % 2 ^ 56).toNat))) ∧
    (∀ (o : Opnd) (k : Int),
      ((∃ n, o = .imm n ∧ k = n.toInt) ∨ (∃ u, o = .lit32 u ∧ k = u.toInt) ∨ ∃ u, o = .lit64 u ∧ k = u.toInt) →
      Gives s c (.ptradd a o) .ptr (fun l =>
        ofU 64 (bitsAt (p l) 56 8 * 2 ^ 56 + (((uRd 56 (p l) : Int) + k) % 2 ^ 56).toNat))) ∧
    Gives s c (.ptrdiff a b) .i64 (fun l => ofI 64 (sRd 56 (ofI 56 ((uRd 56 (p l) : Int) - uRd 56 (q l))))) ∧
    Gives s c (.ptrtag a) .i8 (fun l => ofU 8 (bitsAt (p l) 56 4)) ∧
    Gives s c (.ptrsettag a d) .ptr (fun l => ofU 64 (bitsAt (p l) 60 4 * 2 ^ 60 + bitsAt (t l) 0 4 * 2 ^ 56 + uRd 56 (p l))) ∧
    Gives s c (.ptrtoint a) .i64 p ∧
    Gives s c (.inttoptr e) .ptr x)

/-! ### Floating-point instructions (04 R121 to R136) -/

/-- 04 R121, R122, R127, R128: each element's result is round(x, type, mode) of the exact value x shown; FTZ governs the reads and the
result, and the flags of every element are set. -/
def Obligations.FloatArithmetic : Prop :=
  ∀ (s : State) (c : Ctx) (ty : Ty) (rm : Rm) (a b d e : Opnd) (x y z q : Nat → Bits) (f : Fmt) (rd : Bits → Nat → FV),
    Runs s c → Operand s c ty a x → Operand s c ty b y → Operand s c ty d z → Operand s c .f32 e q → f = fmtOf ty →
    (∀ v k, rd v k = f.read c.g.ftz (elemOf (elemsOf ty).2 k v)) →
    GivesAcc s c (.fadd rm ty a b) ty (fun l =>
      mapElems ty (fun k => Acc.round f rm false c.g.ftz ((rd (x l) k).add rm (rd (y l) k))) (c.acc l)) ∧
    GivesAcc s c (.fsub rm ty a b) ty (fun l =>
      mapElems ty (fun k => Acc.round f rm false c.g.ftz ((rd (x l) k).add rm (rd (y l) k).neg)) (c.acc l)) ∧
    GivesAcc s c (.fmul rm ty a b) ty (fun l =>
      mapElems ty (fun k => Acc.round f rm false c.g.ftz ((rd (x l) k).mul (rd (y l) k))) (c.acc l)) ∧
    GivesAcc s c (.fdiv rm ty a b) ty (fun l =>
      mapElems ty (fun k => Acc.round f rm false c.g.ftz ((rd (x l) k).div (rd (y l) k))) (c.acc l)) ∧
    GivesAcc s c (.fma rm ty a b d) ty (fun l =>
      mapElems ty (fun k => Acc.round f rm false c.g.ftz (FV.fma rm (rd (x l) k) (rd (y l) k) (rd (z l) k))) (c.acc l)) ∧
    GivesAcc s c (.fsqrt rm ty a) ty (fun l =>
      mapElems ty (fun k => Acc.round f rm false c.g.ftz (rd (x l) k).sqrt) (c.acc l)) ∧
    GivesAcc s c (.frint rm ty a) ty (fun l =>
      mapElems ty (fun k acc =>
        let (u, acc) := acc.draw rm
        let (v, fl) := (rd (x l) k).rint rm u
        ((f.round .rne false false 0 v).1, acc.flag fl)) (c.acc l)) ∧
    (∀ i, (i = .fdot2 rm ty a b e ∨ i = .fdot4 rm ty a b e) →
      GivesAcc s c i .f32 (fun l =>
        let ps := (List.range (elemsOf ty).1).map fun k => (rd (x l) k, rd (y l) k)
        let r := Acc.round fmtF32 rm false c.g.ftz (FV.dot rm ps (fmtF32.read c.g.ftz (uRd 32 (q l)))) (c.acc l)
        (ofU 32 r.1, r.2)))

/-- 04 R129: the special functions give round(f(a), type, mode) of the exact value, and draw once per lane under SR. -/
def Obligations.SpecialFunctions : Prop :=
  ∀ (s : State) (c : Ctx) (ty : Ty) (rm : Rm) (a : Opnd) (x : Nat → Bits), Runs s c → Operand s c ty a x → ty.isFT = true →
    ∀ i g, ((i, g) = (.frcp rm ty a, FV.rcp) ∨ (i, g) = (.frsqrt rm ty a, FV.rsqrt) ∨ (i, g) = (.fexp2 rm ty a, FV.exp2) ∨
      (i, g) = (.flog2 rm ty a, FV.log2) ∨ (i, g) = (.fsin rm ty a, FV.sinPi) ∨ (i, g) = (.fcos rm ty a, FV.cosPi) ∨
      (i, g) = (.ftanh rm ty a, FV.tanh)) →
    GivesAcc s c i ty (fun l =>
      let r := Acc.round (fmtOf ty) rm false c.g.ftz (g ((fmtOf ty).read c.g.ftz (uRd ty.width (x l)))) (c.acc l)
      (ofU ty.width r.1, r.2))

/-- 04 R123 to R126: `fmin` and `fmax` (a NaN gives way to the other operand, two give the canonical NaN, −0 lies below +0, and the
result is the chosen operand as read under FTZ), `fneg`, `fabs` and `fcopysign` on the sign bit of each element, `fcmp` and `fclass`. Each
completes with its result, and none sets a flag. -/
def Obligations.FloatBitOperations : Prop :=
  ∀ (s : State) (c : Ctx) (ty : Ty) (a b : Opnd) (x y : Nat → Bits) (w : Nat) (f : Fmt), Runs s c → Operand s c ty a x →
    Operand s c ty b y → (ty.isFP || ty.isF8) = true → w = (elemsOf ty).2 → f = fmtOf ty →
    Gives s c (.fmin ty a b) ty (fun l => perElement ty (fun p q => f.minmax c.g.ftz false p q) (x l) (y l)) ∧
    Gives s c (.fmax ty a b) ty (fun l => perElement ty (fun p q => f.minmax c.g.ftz true p q) (x l) (y l)) ∧
    Gives s c (.fneg ty a) ty (fun l => perElement ty (fun p _ => p ^^^ 2 ^ (w - 1)) (x l) (x l)) ∧
    Gives s c (.fabs ty a) ty (fun l => perElement ty (fun p _ => p % 2 ^ (w - 1)) (x l) (x l)) ∧
    Gives s c (.fcopysign ty a b) ty (fun l =>
      perElement ty (fun p q => p % 2 ^ (w - 1) + q / 2 ^ (w - 1) * 2 ^ (w - 1)) (x l) (y l)) ∧
    (∀ k, Gives s c (.fcmp k ty a b) .i1 (fun l =>
      ofB (fcondHolds k ((f.read c.g.ftz (uRd ty.width (x l))).cmp (f.read c.g.ftz (uRd ty.width (y l))))))) ∧
    Gives s c (.fclass ty a) .i32 (fun l => ofU 32 (2 ^ (match f.read false (uRd ty.width (x l)) with
      | .nan => 8
      | .inf neg => if neg then 0 else 7
      | .num neg m _ _ => if m = 0 then (if neg then 3 else 4) else if m < 2 ^ f.mbits then (if neg then 2 else 5) else if neg then 1 else 6))) ∧
    ∀ (p q : Nat) (P Q : FV), P = f.read c.g.ftz p → Q = f.read c.g.ftz q →
      (∀ big, (P = .nan → Q = .nan → f.minmax c.g.ftz big p q = f.nan.getD 0) ∧ (P = .nan → Q ≠ .nan → f.minmax c.g.ftz big p q = f.asRead c.g.ftz q) ∧
        (P ≠ .nan → Q = .nan → f.minmax c.g.ftz big p q = f.asRead c.g.ftz p)) ∧
      (P ≠ .nan → Q ≠ .nan →
        f.minmax c.g.ftz false p q = (if P.cmp Q = some .gt ∨ P.cmp Q = some .eq ∧ Q.isNeg ∧ ¬P.isNeg then f.asRead c.g.ftz q else f.asRead c.g.ftz p) ∧
        f.minmax c.g.ftz true p q = (if P.cmp Q = some .lt ∨ P.cmp Q = some .eq ∧ P.isNeg ∧ ¬Q.isNeg then f.asRead c.g.ftz q else f.asRead c.g.ftz p))

/-- 04 R98, R123 to R126: `fmin`, `fmax`, `fneg`, `fabs`, `fcopysign`, `fcmp` and `fclass` complete for every value of their operands, with
a result in each active lane and its flags as they were; these are their encodings and the types they take. -/
def Obligations.FloatBitCompletion : Prop :=
  ∀ (s : State) (c : Ctx) (ty : Ty) (a b : Opnd) (x y : Nat → Bits), Runs s c → Operand s c ty a x → Operand s c ty b y →
    (∀ i, (i = .fmin ty a b ∨ i = .fmax ty a b ∨ i = .fneg ty a ∨ i = .fabs ty a ∨ i = .fcopysign ty a b) → ∃ z, Gives s c i ty z) ∧
    (∀ k, ∃ z : Nat → Bool, Gives s c (.fcmp k ty a b) .i1 (fun l => ofB (z l))) ∧
    (∃ k : Nat → Nat, (∀ l, k l < 9) ∧ Gives s c (.fclass ty a) .i32 (fun l => ofU 32 (2 ^ k l))) ∧
    (∀ e ∈ [(Instr.fmin ty a b, 0x0C6), (.fmax ty a b, 0x0C7)],
      EncodedAs e.1 e.2 ty 0 [a, b] ∧ e.1.wellFormed = (ty.isFP && a.ok ty && b.ok ty)) ∧
    (∀ e ∈ [(Instr.fneg ty a, 0x0C8), (.fabs ty a, 0x0C9)],
      EncodedAs e.1 e.2 ty 0 [a] ∧ e.1.wellFormed = ((ty.isFP || ty.isF8) && a.ok ty)) ∧
    (EncodedAs (.fcopysign ty a b) 0x0CA ty 0 [a, b] ∧ (Instr.fcopysign ty a b).wellFormed = ((ty.isFP || ty.isF8) && a.ok ty && b.ok ty)) ∧
    (∀ k, EncodedAs (.fcmp k ty a b) 0x0CB ty k.code [a, b] ∧
      (Instr.fcmp k ty a b).wellFormed = ((ty.isFT || ty.isF8) && a.ok ty && b.ok ty)) ∧
    EncodedAs (.fclass ty a) 0x0CC ty 0 [a] ∧ (Instr.fclass ty a).wellFormed = ((ty.isFT || ty.isF8) && a.ok ty)

/-- 04 R130, 02 R59 to R62: `cvt` of each pair of its table: an integer, a digit or a float into a float type is rounded once; an integer
into `t2` gives its sign; a float into an integer type or `t2` is rounded and clamped; a digit into an integer type gives its value, and
−1 into an unsigned reading 0 with NV. 04 R131: `bitcast` returns the bits. 04 R132, R133: `pack`, `unpack` and `insert` copy the bits of
the elements. -/
def Obligations.Conversions : Prop :=
  ∀ (s : State) (c : Ctx) (ty src et : Ty) (rm : Rm) (sat sgn : Bool) (v : BitVec 24) (n : Nat) (k : BitVec 4) (a e : Opnd)
    (es : List Opnd) (x p q : Nat → Bits) (xs : Nat → List Bits),
    Runs s c → (∀ l ∈ c.lanes, valOf c l v.toNat = some ⟨src, x l⟩) →
    (cvtOk sat sgn src ty = true → ∀ give : (Nat → Bits × Acc) → Prop, (∀ z, give z ↔ GivesAcc s c (.cvt rm sat sgn ty v) ty z) →
      ((ty.isFT || ty.isF8) = true → give fun l =>
        let r := Acc.round (fmtOf ty) rm sat c.g.ftz
          (if src.isI then (FV.ofInt (rRd sgn src.width (x l)) 0, 0)
            else if src = .t2 then (FV.ofInt (readDigit (x l).toNat).1 0, (readDigit (x l).toNat).2)
            else ((fmtOf src).read c.g.ftz (uRd src.width (x l)), 0)) (c.acc l)
        (ofU ty.width r.1, r.2)) ∧
      (src.isI = true → ty = .t2 → give fun l => (ofU 2 (if 0 < sRd src.width (x l) then 1 else if sRd src.width (x l) = 0 then 0 else 3),
        ((c.acc l).draw rm).2)) ∧
      ((src.isFT || src.isF8) = true → (ty.isI = true ∨ ty = .t2) → give fun l =>
        let d := (c.acc l).draw rm
        let r := if ty = .t2 then FV.toDigit rm d.1 ((fmtOf src).read c.g.ftz (uRd src.width (x l)))
          else FV.toInt rm d.1 sgn ty.width ((fmtOf src).read c.g.ftz (uRd src.width (x l)))
        (if ty = .t2 then ofU 2 (digitBits r.1) else ofI ty.width r.1, d.2.flag r.2)) ∧
      (src = .t2 → ty.isI = true → give fun l =>
        let r := readDigit (x l).toNat
        (if sgn ∨ 0 ≤ r.1 then ofI ty.width r.1 else 0, ((c.acc l).draw rm).2.flag (if sgn ∨ 0 ≤ r.1 then r.2 else r.2 ||| fNV)))) ∧
    (bitcastOk src ty = true → Gives s c (.bitcast ty v) ty x) ∧
    (ty.packed = some (n, et) → Operand s c ty a p → Operand s c et e q →
      (∀ l ∈ c.lanes, evalOps s c l (es.map fun o => (et, o)) = some (xs l)) →
      Gives s c (.pack ty es) ty (fun l => BitVec.ofNat 96 (joinElems (elemsOf ty).2 ((xs l).map (·.toNat)))) ∧
      Gives s c (.unpack k ty a) et (fun l => ofU et.width (elemOf (elemsOf ty).2 k.toNat (p l))) ∧
      Gives s c (.insert k ty a e) ty (fun l =>
        BitVec.ofNat 96 (joinElems (elemsOf ty).2 ((List.range n).map fun j =>
          if j = k.toNat then (q l).toNat else elemOf (elemsOf ty).2 j (p l)))))

/-- 04 R98, R130 to R136: `cvt`, `bitcast`, `pack`, `unpack` and `insert` complete for every value of their operands, with a result in each
active lane; `bsquant` and `bsdequant` complete where every access passes the checks, without a result, and every byte outside the written
places reads as before. These are their encodings. -/
def Obligations.ConversionCompletion : Prop :=
  ∀ (s : State) (c : Ctx) (ty : Ty), Runs s c →
    (∀ (v : BitVec 24) (src : Nat → Ty) (x : Nat → Bits), (∀ l ∈ c.lanes, valOf c l v.toNat = some ⟨src l, x l⟩) →
      (∀ rm sat sgn, (∀ l ∈ c.lanes, cvtOk sat sgn (src l) ty = true) → ∃ z, GivesAcc s c (.cvt rm sat sgn ty v) ty z) ∧
      ((∀ l ∈ c.lanes, bitcastOk (src l) ty = true) → Gives s c (.bitcast ty v) ty x)) ∧
    (∀ (n : Nat) (et : Ty) (es : List Opnd) (xs : Nat → List Bits), ty.packed = some (n, et) →
      (∀ l ∈ c.lanes, evalOps s c l (es.map fun o => (et, o)) = some (xs l)) → ∃ z, Gives s c (.pack ty es) ty z) ∧
    (∀ (n : Nat) (et : Ty) (k : BitVec 4) (a e : Opnd) (p q : Nat → Bits), ty.packed = some (n, et) → Operand s c ty a p → Operand s c et e q →
      (∃ z, Gives s c (.unpack k ty a) et z) ∧ ∃ z, Gives s c (.insert k ty a e) ty z) ∧
    (∀ (u : State) (rm : Rm) (o0 o1 o2 : Opnd) (a b d : Nat → Bits) (q : Nat → Option (List Place)) (x y z : Nat → DWord) (n : Nat),
      Operand s c .ptr o0 a → Operand s c .ptr o1 b → Operand s c .ptr o2 d → Ported s c (linesAt c q) u → n = blockBytes ty →
      (∀ l, x l = (a l).extractLsb' 0 64 ∧ y l = (b l).extractLsb' 0 64 ∧ z l = (d l).extractLsb' 0 64) →
      ∀ i, ((i = .bsquant rm ty o0 o1 o2 ∧
            Checked (dropHold c s) c (fun l => Part.read (z l) 128 4 :: sortParts (Part.write (x l) n n) (Part.write (y l) 1 1)) q) ∨
          (i = .bsdequant rm ty o0 o1 o2 ∧
            Checked (dropHold c s) c (fun l => sortParts (Part.read (y l) n n) (Part.read (z l) 1 1) ++ [Part.write (x l) 128 4]) q)) →
        ∃ (f : Nat → Acc) (t : State), exec i s = .next (commit c (c.out fun l => (none, f l)) t) ∧
          ∀ k, (∀ l ∈ c.ordinary, ∀ ps, q l = some ps → ∀ p ∈ ps, p.piece.part.wr = true → k < p.key ∨ p.key + p.piece.len ≤ k) → t.byte k = u.byte k) ∧
    (∀ rm sat sgn v, EncodedAs (.cvt rm sat sgn ty v) 0x140 ty (modF rm sat sgn) [.val v]) ∧
    (∀ v, EncodedAs (.bitcast ty v) 0x141 ty 0 [.val v]) ∧ (∀ es, EncodedAs (.pack ty es) 0x142 ty 0 es) ∧
    (∀ (k : BitVec 4) a, EncodedAs (.unpack k ty a) 0x143 ty k.toNat [a]) ∧ (∀ (k : BitVec 4) a e, EncodedAs (.insert k ty a e) 0x144 ty k.toNat [a, e]) ∧
    ∀ (rm : Rm) (a b d : Opnd), (Instr.bsquant rm ty a b d).toRaw = some ⟨0x145, ty.code, rm.code, false, [a, b, d], []⟩ ∧
      (Instr.bsdequant rm ty a b d).toRaw = some ⟨0x146, ty.code, rm.code, false, [a, b, d], []⟩

/-- 02 R63, 04 R134 to R136: `bsquant` reads 32 `f32` values and writes the quantised block and its scale; `bsdequant` writes the 32
values of a block. All reads come before the first write. -/
def Obligations.BlockConversions : Prop :=
  ∀ (s u : State) (c : Ctx) (rm : Rm) (ty : Ty) (o0 o1 o2 : Opnd) (l n : Nat) (a b d : Nat → Bits) (x y z : DWord) (ps : List Place)
    (q : Nat → Option (List Place)), Runs s c → Ported s c (linesAt c q) u → c.lanes = [l] → c.helper l = false → Operand s c .ptr o0 a →
    Operand s c .ptr o1 b → Operand s c .ptr o2 d → x = (a l).extractLsb' 0 64 → y = (b l).extractLsb' 0 64 →
    z = (d l).extractLsb' 0 64 → n = blockBytes ty → q l = some ps →
    (Checked (dropHold c s) c (fun _ => Part.read z 128 4 :: sortParts (Part.write x n n) (Part.write y 1 1)) q →
      (u.readPlaces (rdOf z 128 ps)).length = 128 →
      ∀ r, r = quantise rm ty (f32Values c.g.ftz 32 (u.readPlaces (rdOf z 128 ps))) (c.acc l) →
      exec (.bsquant rm ty o0 o1 o2) s = .next (commit c [(l, none, r.2.2)]
        ((u.writePlaces (wrOf x n ps) (packBlock ty r.2.1)).writePlaces (wrOf y 1 ps) [BitVec.ofNat 8 r.1]))) ∧
    (Checked (dropHold c s) c (fun _ => sortParts (Part.read y n n) (Part.read z 1 1) ++ [Part.write x 128 4]) q →
      ∀ r, r = dequantise rm ty c.g.ftz (u.readPlaces (rdOf y n ps)) (leNat (u.readPlaces (rdOf z 1 ps))) (c.acc l) →
      exec (.bsdequant rm ty o0 o1 o2) s = .next (commit c [(l, none, r.2)] (u.writePlaces (wrOf x 128 ps) r.1)))

/-! ### Lane, quad and wave instructions (07 R185 to R208; 04 R109, R137) -/

/-- 07 R188, R190: the identities of a lane, in every active lane; 04 R137: `sysread`. 07 R187, R191 to R194: what a lane reads from
another lane of its run; a source lane that is not active gives the reader its own value. -/
def Obligations.IdentitiesAndLaneReads : Prop :=
  (∀ (s : State) (c : Ctx), Runs s c →
    Gives s c .laneid .i32 (fun l => ofU 32 (l - c.base l)) ∧
    Gives s c .waveid .i32 (fun l => ofU 32 (if c.g.w16 then 2 * c.w.index + l / 16 else c.w.index)) ∧
    (c.g.gate = none → Gives s c .groupid .i32 (fun _ => ofU 32 c.g.lin)) ∧
    (c.g.gate = none → ∀ la, s.launch? c.g.launch = some la → ∀ k n,
      ((k, n) = (.gx, c.g.gx) ∨ (k, n) = (.gy, c.g.gy) ∨ (k, n) = (.gz, c.g.gz) ∨ (k, n) = (.nx, la.gridx) ∨
        (k, n) = (.ny, la.gridy) ∨ (k, n) = (.nz, la.gridz) ∨ (k, n) = (.extent, la.extent)) →
      Gives s c (.gridid k) .i32 (fun _ => ofU 32 n)) ∧
    Gives s c (.gridid .tid) .i32 (fun l =>
      ofU 32 ((if c.g.w16 then 2 * c.w.index + l / 16 else c.w.index) * c.width + (l - c.base l))) ∧
    Gives s c (.sysread .domain) .i64 (fun _ => ofU 64 c.g.dom) ∧
    Gives s c (.sysread .die) .i64 (fun _ => ofU 64 (c.g.core / 128)) ∧
    Gives s c (.sysread .hdr) .i64 (fun _ => ofU 64 c.g.hdr.toNat) ∧
    ∀ k, Gives s c (.sysread k) .i64 (fun _ => ofU 64 (sysVal s c.g k))) ∧
  (∀ (s : State) (c : Ctx) (ty : Ty) (a b : Opnd) (v k : Nat → Bits) (n : Nat), Runs s c → Operand s c ty a v →
    Operand s c .i32 b k → n = c.width →
    (∀ dir, Gives s c (.quadswap dir ty a) ty (fun l => c.take v (l ^^^ (dir.code + 1)) l)) ∧
    Gives s c (.quadbcast ty a b) ty (fun l => c.take v (4 * (l / 4) + (k l).toNat % 4) l) ∧
    Gives s c (.shfl .idx false ty a b) ty (fun l => c.take v (c.base l + (k l).toNat % n) l) ∧
    Gives s c (.shfl .xor false ty a b) ty (fun l => c.take v (c.base l + ((l - c.base l) ^^^ (k l).toNat) % n) l) ∧
    (∀ clamp, Gives s c (.shfl .up clamp ty a b) ty (fun l =>
      c.take v (if (k l).toNat ≤ l - c.base l then l - (k l).toNat
        else if clamp then l else c.base l + ((((l - c.base l : Nat) : Int) - (k l).toNat) % n).toNat) l)) ∧
    (∀ clamp, Gives s c (.shfl .down clamp ty a b) ty (fun l =>
      c.take v (if l - c.base l + (k l).toNat < n then l + (k l).toNat
        else if clamp then l else c.base l + (l - c.base l + (k l).toNat) % n) l)) ∧
    Gives s c (.bcast ty a) ty (fun l => c.take v ((c.lanes.find? fun j => c.base j == c.base l).getD l) l))

/-- 07 R189, R190, R195 to R197: masks, votes, matches and the elected lane, over the ordinary active lanes of the reader's logical
wave; a helper lane receives 0. -/
def Obligations.VotesAndMasks : Prop :=
  ∀ (s : State) (c : Ctx) (ty : Ty) (a b : Opnd) (v q : Nat → Bits), Runs s c → Operand s c ty a v → Operand s c .i1 b q →
    (∃ z, Gives s c .activemask .msk z ∧ ∀ l ∈ c.lanes, ∀ i,
      (z l).getLsbD i = (!c.helper l && decide (i < c.width ∧ c.base l + i ∈ c.ordinary))) ∧
    (∃ z, Gives s c (.ballot b) .msk z ∧ ∀ l ∈ c.lanes, ∀ i,
      (z l).getLsbD i = (!c.helper l && decide (i < c.width ∧ c.base l + i ∈ c.ordinary ∧ q (c.base l + i) = 1))) ∧
    (∃ z, Gives s c (.matchLanes ty a) .msk z ∧ ∀ l ∈ c.lanes, ∀ i,
      (z l).getLsbD i = (!c.helper l && decide (i < c.width ∧ c.base l + i ∈ c.ordinary ∧ v (c.base l + i) = v l))) ∧
    Gives s c (.vote .all b) .i1 (fun l => ofB (!c.helper l && decide (∀ j ∈ c.peers l, q j = 1))) ∧
    Gives s c (.vote .any b) .i1 (fun l => ofB (!c.helper l && decide (∃ j ∈ c.peers l, q j = 1))) ∧
    Gives s c (.vote .eq b) .i1 (fun l =>
      ofB (!c.helper l && (decide (∀ j ∈ c.peers l, q j = 1) || decide (∀ j ∈ c.peers l, q j ≠ 1)))) ∧
    Gives s c .elect .i1 (fun l => ofB (!c.helper l && (c.peers l).head? == some l))

/-- 07 R198 to R200: reductions and scans combine the operands of the contributing lanes; integer forms set no flag. -/
def Obligations.ReductionsAndScans : Prop :=
  ∀ (s : State) (c : Ctx) (ty : Ty) (a : Opnd) (v : Nat → Bits) (rm : Rm) (op : RedOp) (excl : Bool), Runs s c →
    Operand s c ty a v →
    Gives s c (.wred .add rm ty a) ty (fun l => if c.helper l then 0 else
      match c.peers l with
      | [j] => v j
      | js => ofU ty.width (js.map fun j => uRd ty.width (v j)).sum) ∧
    GivesAcc s c (.wred op rm ty a) ty (fun l => if c.helper l then (0, c.acc l) else
      let r := redValue op rm ty c (fun j => if j ∈ c.lanes then some (v j) else none) l
      (r.1, (c.acc l).flag r.2)) ∧
    GivesAcc s c (.wscan op rm excl ty a) ty (fun l => if c.helper l then (0, c.acc l) else
      let r := scanValue op rm excl ty c (fun j => if j ∈ c.lanes then some (v j) else none) l
      (r.1, (c.acc l).flag r.2)) ∧
    ∀ l, op.isInt = true → (redValue op rm ty c (fun j => if j ∈ c.lanes then some (v j) else none) l).2 = 0 ∧
      (scanValue op rm excl ty c (fun j => if j ∈ c.lanes then some (v j) else none) l).2 = 0

/-- 07 R205 to R207, 04 R109: random numbers advance the lane's own generator, `randseed` sets it, `flagrd` reads bits [6:0] of the
flag word and `flagclr` clears the flags named. -/
def Obligations.RandomAndFlags : Prop :=
  ∀ (s : State) (c : Ctx) (a b : Opnd) (x m : Nat → Bits), Runs s c → Operand s c .i64 a x → Operand s c .i8 b m →
    GivesAcc s c (.rand .i32) .i32 (fun l =>
      (ofU 32 (c.acc l).rng.draw.1.toNat, { c.acc l with rng := (c.acc l).rng.draw.2 })) ∧
    GivesAcc s c (.rand .i64) .i64 (fun l =>
      let r := (c.acc l).rng.draw
      (ofU 64 (r.1.toNat + r.2.draw.1.toNat * 2 ^ 32), { c.acc l with rng := r.2.draw.2 })) ∧
    GivesAcc s c (.rand .f32) .f32 (fun l => randVal .f32 (c.acc l)) ∧
    Passes s c (.randseed a) (fun l =>
      { c.acc l with rng := rngSeed ((x l).extractLsb' 0 64) (groupIdOf c.g) (tidOf c.g c.w.index l) }) ∧
    Gives s c .flagrd .i8 (fun l => ofU 8 ((c.acc l).flags &&& 0x7F).toNat) ∧
    Passes s c (.flagclr b) (fun l => { c.acc l with flags := (c.acc l).flags &&& ~~~((m l).extractLsb' 0 8 &&& 0x7F#8) })

/-- 05 R160, R161: the ordinary lanes of a run park at the barrier, at their own point, until every lane of the logical wave, or of the
group, that has not ended is parked there; then all of them pass. -/
def Obligations.Barriers : Prop :=
  ∀ (s : State) (c : Ctx) (l : Nat) (x : Lane) (wave group : Prop), Runs s c → l ∈ c.ordinary → c.lane? l = some x →
    (wave ↔ ∀ j z, c.lane? j = some z → z.counts = true → inMask (c.g.halfMask (c.g.halfOf l)) j = true →
      j ∈ c.lanes ∨ z.park = .wbar) →
    (group ↔ ∀ i w j z, c.g.waves[i]? = some w → w.lanes[j]? = some z → z.counts = true →
      (i = c.iss.wave ∧ j ∈ c.lanes) ∨ z.park = .gbar) →
    (∃ t y, exec .wbar s = .next t ∧ c.laneIn t l = some y ∧
      (wave → y = { x.advance with park := .none, age := 0 }) ∧ (¬wave → y = { x with park := .wbar })) ∧
    (∃ t y, exec .gbar s = .next t ∧ c.laneIn t l = some y ∧
      (group → y = { x.advance with park := .none, age := 0 }) ∧ (¬group → y = { x with park := .gbar }))

/-! ### Control and traps (01 R22, R35 to R42; 04 R101 to R108; 17 R378 to R381) -/

/-- 01 R22, 04 R102 to R104: each active lane goes to the first instruction of its target's block with the arguments bound, whatever
ejection or a join then does with the lane. 04 R104: an index at or beyond the table without a default raises SWITCH_RANGE at the
lowest such ordinary lane, with the index in ADDR, before any lane moves; helper lanes beyond the table exit (05 R142). 04 R108: `trap` raises SOFTWARE at the lowest ordinary lane
with its code in ADDR. -/
def Obligations.TransfersAndRaisedTraps : Prop :=
  (∀ (s : State) (c : Ctx) (f : Func) (pt : Point) (i : Instr) (pick : Nat → Target) (blk : Nat → Block) (vs : Nat → List TVal),
    Runs s c → c.here s = some (f, pt) →
    ((∃ t, i = .br t ∧ ∀ l, pick l = t) ∨
     (∃ o t e x, i = .brc o t e ∧ Operand s c .i1 o x ∧ ∀ l, pick l = if x l = 1 then t else e) ∨
     (∃ ty o d ts x, i = .switch ty o d ts ∧ Operand s c ty o x ∧ ∀ l ∈ c.lanes,
        ts[uRd ty.width (x l)]? = some (pick l) ∨ (ts[uRd ty.width (x l)]? = none ∧ d = some (pick l)))) →
    (∀ l ∈ c.lanes, f.blocks[(pick l).blk.toNat]? = some (blk l) ∧ evalArgs s c l (blk l).args (pick l).args = some (vs l)) →
    ∃ t, exec i s = .next t ∧ ∀ l ∈ c.lanes, ∀ x, c.lane? l = some x → ∃ y, c.laneIn t l = some y ∧
      y.frames = (x.modTop fun fr => { bindArgs (blk l).val0 (vs l) fr with idx := (blk l).first }).frames ∧
      y.st = x.st ∧ y.flags = x.flags ∧ y.rng = x.rng) ∧
  (∀ (s u : State) (c : Ctx) (f : Func) (pt : Point) (ty : Ty) (o : Opnd) (ts : List Target) (x : Nat → Bits) (l : Nat), Runs s c →
    c.here s = some (f, pt) → Operand s c ty o x → l ∈ c.ordinary → ts.length ≤ uRd ty.width (x l) →
    (∀ j ∈ c.ordinary, ts.length ≤ uRd ty.width (x j) → l ≤ j) →
    u = exitHelpers c (c.helpers.filter fun j => decide (ts.length ≤ uRd ty.width (x j))) s →
    exec (.switch ty o none ts) s = raise ((u.ctx?).getD c) (FaultInfo.plain 12 l (BitVec.ofNat 64 (uRd ty.width (x l)))) u) ∧
  (∀ (s : State) (c : Ctx) (l : Nat) (r : List Nat) (code : BitVec 30), Runs s c → c.ordinary = l :: r →
    exec .trap s = raise c (FaultInfo.plain 11 l 0) s ∧
    exec (.trapCode code) s = raise c (FaultInfo.plain 11 l (BitVec.ofNat 64 code.toNat)) s)

/-- 01 R35, R36, 04 R105, R107: a call opens a frame at the callee's first instruction with the arguments bound, the caller's point
staying at the call; a return goes on after the call with the result defined. 01 R17, R37, 04 R105, R106: `exit` ends every active lane
at any call depth, and `ret` in the kernel's own body ends it. -/
def Obligations.CallsReturnsAndEnds : Prop :=
  (∀ (s : State) (c : Ctx), Runs s c →
    (∀ (ty : Option Ty) (f : BitVec 32) (args : List Opnd) (fn : Func) (vs : Nat → List TVal), s.func? c.g f.toNat = some fn →
      (∀ l ∈ c.lanes, evalArgs s c l (fn.blocks.headD ⟨0, [], 0⟩).args args = some (vs l)) →
      ∃ t, exec (.call ty f args) s = .next t ∧ ∀ l ∈ c.lanes, ∀ x, c.lane? l = some x →
        c.laneIn t l = some { x with
          frames := bindArgs (fn.blocks.headD ⟨0, [], 0⟩).val0 (vs l) ⟨f.toNat, 0, []⟩ :: x.frames }) ∧
    (∀ (ty : Ty) (o : Opnd) (v : Nat → Bits), Operand s c ty o v →
      (∀ l ∈ c.lanes, ∀ x, c.lane? l = some x → 2 ≤ x.frames.length) →
      (∃ t, exec (.retValue ty o) s = .next t ∧ ∀ l ∈ c.lanes, ∀ x a b r n, c.lane? l = some x → x.frames = a :: b :: r →
        s.callRes c.g b = some n →
        c.laneIn t l = some { x with frames := { b.define n ⟨ty, v l⟩ with idx := b.idx + 1 } :: r }) ∧
      (∃ t, exec .ret s = .next t ∧ ∀ l ∈ c.lanes, ∀ x a b r, c.lane? l = some x → x.frames = a :: b :: r →
        c.laneIn t l = some { x with frames := { b with idx := b.idx + 1 } :: r }))) ∧
  (∀ (s : State) (c : Ctx), Runs s c →
    (∃ t, exec .exit s = .next t ∧ ∀ l ∈ c.lanes, ∃ y, c.laneIn t l = some y ∧ y.st = .exited) ∧
    ((∀ l ∈ c.lanes, ∀ x, c.lane? l = some x → x.frames.length ≤ 1) →
      ∃ t, exec .ret s = .next t ∧ ∀ l ∈ c.lanes, ∃ y, c.laneIn t l = some y ∧ y.st = .exited))

/-- 01 R41, 17 R378 to R381: with the disposition QUEUE, a trap leaves every lane at its point with its values, stops the wave until a
resume word names the record, and gives the domain's trap queue the next sequence number and a record with the fault, its class, the
lane, the address, the portable point and the lanes of the run; memory stays as it was. 17 R379: with the disposition KILL, the
faulting lane is killed and its bit of DEAD is set, the wave goes on without a stop, and the record in the trap queue has the KILLED
bit. 05 R157: a fault of an ejected lane waits, with every lane as it is, while lanes of its wave run on to a safe point. -/
def Obligations.TrapsTaken : Prop :=
  (∀ (s : State) (c : Ctx) (f : FaultInfo) (x : Lane), Runs s c → c.iss.probe = none → c.stopsNow = true →
    c.lane? f.lane = some x → f.eng = none → c.iss.bind = none →
    f.code ≠ 7 → f.code ≠ 8 → s.disposition c.g.dom (faultClass f.code) = .queue →
    ∃ t w r, raise c f s = .next t ∧ t.issue = none ∧ t.mem = s.mem ∧ t.tags = s.tags ∧ c.waveIn t = some w ∧
      w.trap = some ⟨c.g.dom, (s.dom c.g.dom).trapSeq + 1, none, r⟩ ∧ w.chosen = 0 ∧
      (∀ l y, c.lane? l = some y → ∃ z, w.lanes[l]? = some z ∧ z.frames = y.frames ∧ z.flags = y.flags ∧ z.rng = y.rng ∧ z.st = y.st) ∧
      (t.dom c.g.dom).trapSeq = (s.dom c.g.dom).trapSeq + 1 ∧
      (∃ q, (t.dom c.g.dom).trapPend = (s.dom c.g.dom).trapPend ++ [q] ∧ q.seq = (s.dom c.g.dom).trapSeq + 1) ∧
      r.code = f.code ∧ r.cls = faultClass f.code ∧ r.lane.toNat % 32 = f.lane % 32 ∧ r.addr = f.addr ∧
      (r.func, r.index) = x.point ∧ r.run = maskOf c.lanes ∧ r.dom = c.g.dom ∧ r.group = c.g.lin) ∧
  (∀ (s : State) (c : Ctx) (f : FaultInfo) (x : Lane), Runs s c → c.iss.probe = none → c.stopsNow = true →
    c.lane? f.lane = some x → x.alive = true → f.lane < 32 →
    f.eng = none → s.disposition c.g.dom (faultClass f.code) = .kill →
    ∃ t w y q, raise c f s = .next t ∧ c.waveIn t = some w ∧ w.lanes[f.lane]? = some y ∧ y.st = .killed ∧
      inMask w.dead f.lane = true ∧ w.trap = none ∧
      (t.dom c.g.dom).trapPend = (s.dom c.g.dom).trapPend ++ [q] ∧ q.fr.lane.getLsbD 7 = true ∧ q.fr.code = f.code) ∧
  (∀ (s : State) (c : Ctx) (f : FaultInfo), Runs s c → c.iss.probe = none → c.iss.gondola = true → c.w.trap = none → c.w.gfault = none →
    c.w.nativeLeft ≠ 0 → ∃ t w, raise c f s = .next t ∧ t.issue = none ∧ t.mem = s.mem ∧ c.waveIn t = some w ∧ w.trap = none ∧
      w.gfault = some (c.iss, f) ∧ w.lanes = c.w.lanes)

/-! ### Memory (09 R210 to R232; 10; 11 R260 to R280) -/

/-- 11 R263, R265: a load gives each lane the value of its bytes, little-endian, and changes no memory; stores land in ascending lane
number, after which every byte outside the stored places reads as before. 09 R214, 11 R262: a load or a store raises the fault of the
lowest ordinary lane whose access fails a check, and performs nothing; the form of the pointer is checked first, then its alignment. -/
def Obligations.LoadsStoresAndFaults : Prop :=
  (∀ (s u : State) (c : Ctx) (nt : Bool) (sc : Scope) (o : Ord4) (ty : Ty) (p v : Opnd) (a x : Nat → Bits)
    (q : Nat → Option (List Place)), Runs s c → Ported s c (linesAt c q) u → Operand s c .ptr p a → Operand s c ty v x →
    (Checked (dropHold c s) c (fun l => [Part.read ((a l).extractLsb' 0 64) ty.size (alignOf ty)]) q →
      exec (.ld nt sc o ty p) s = .next (commit c (c.out fun l => (some (loaded u ty (q l)), c.acc l)) u)) ∧
    (Checked (dropHold c s) c (fun l => [Part.write ((a l).extractLsb' 0 64) ty.size (alignOf ty)]) q →
      exec (.st nt sc o ty p v) s =
        .next (storesOf c q (fun l => bytesOfVal ty (x l)) (commit c (c.out fun l => (none, c.acc l)) u)))) ∧
  ((∀ (s u : State) (c : Ctx) (nt : Bool) (sc : Scope) (o : Ord4) (ty : Ty) (p v : Opnd) (a x : Nat → Bits) (l : Nat) (f : FaultInfo)
      (wr : Bool) (pt : Nat → Part), Runs s c → u = dropHold c s → Operand s c .ptr p a → Operand s c ty v x → l ∈ c.lanes →
    c.helper l = false → f.code ≠ 3 →
    (∀ j, pt j = ⟨(a j).extractLsb' 0 64, ty.size, !wr, wr, alignOf ty, true, false⟩) → u.checkParts (c.who l) [pt l] = .error f →
    (∀ j ∈ c.lanes, j < l → c.helper j = false → ∃ ps, u.checkParts (c.who j) [pt j] = .ok ps) →
    exec (if wr then .st nt sc o ty p v else .ld nt sc o ty p) s = raise c f u) ∧
  ∀ (u : State) (w : Who) (q : Part),
    (q.ptr.toNat / 2 ^ 60 ≠ 0 → ∃ f, u.checkParts w [q] = .error f ∧ f.code = 4 ∧ f.check = 1 ∧ f.lane = w.lane ∧ f.addr = q.ptr) ∧
    (q.ptr.toNat / 2 ^ 60 = 0 → ptrAddr q.ptr % q.align ≠ 0 →
      ∃ f, u.checkParts w [q] = .error f ∧ f.code = 2 ∧ f.check = 2 ∧ f.lane = w.lane ∧ f.addr = q.ptr))

/-- 11 R269 to R272: an atomic instruction of one lane returns the old value and writes the new one; `cas` writes only where the old
value is the expected one. -/
def Obligations.Atomics : Prop :=
  ∀ (s u : State) (c : Ctx) (sc : Scope) (o : Ord4) (ty : Ty) (p e v : Opnd) (l : Nat) (a ex x : Nat → Bits) (ps : List Place)
    (q : Nat → Option (List Place)) (old : Bits) (host : Bool) (wr : Bits → State) (give : State → Out),
    Runs s c → Ported s c (linesAt c q) u → c.lanes = [l] → c.helper l = false → Operand s c .ptr p a → Operand s c ty e ex →
    Operand s c ty v x → Checked (dropHold c s) c (fun l => [⟨(a l).extractLsb' 0 64, ty.size, true, true, ty.size, host, false⟩]) q →
    q l = some ps → old = (valOfBytes ty (u.readPlaces ps)).bits → (∀ n, wr n = u.writePlaces ps (bytesOfVal ty n)) →
    (∀ t, give t = .next (commit c [(l, some ⟨ty, old⟩, c.acc l)] t)) →
    (host = true → exec (.atom .add sc o ty p v) s = give (wr (ofU ty.width (uRd ty.width old + uRd ty.width (x l))))) ∧
    (host = false →
      exec (.atom .and sc o ty p v) s = give (wr (ofU ty.width (uRd ty.width old &&& uRd ty.width (x l)))) ∧
      exec (.atom .or sc o ty p v) s = give (wr (ofU ty.width (uRd ty.width old ||| uRd ty.width (x l)))) ∧
      exec (.atom .xor sc o ty p v) s = give (wr (ofU ty.width (uRd ty.width old ^^^ uRd ty.width (x l)))) ∧
      exec (.atom .smin sc o ty p v) s = give (wr (if sRd ty.width old ≤ sRd ty.width (x l) then old else x l)) ∧
      exec (.atom .smax sc o ty p v) s = give (wr (if sRd ty.width (x l) ≤ sRd ty.width old then old else x l)) ∧
      exec (.atom .umin sc o ty p v) s = give (wr (if uRd ty.width old ≤ uRd ty.width (x l) then old else x l)) ∧
      exec (.atom .umax sc o ty p v) s = give (wr (if uRd ty.width (x l) ≤ uRd ty.width old then old else x l)) ∧
      ∀ op, exec (.fatom op sc o ty p v) s = give (wr (fatomNew op ty (x l) old))) ∧
    (host = (ty != .ptr) →
      exec (.xchg sc o ty p v) s = give (wr (x l)) ∧
      exec (.cas sc o ty p e v) s = give (if old = ex l then wr (x l) else u))

/-- 11 R263, R269: the atomic instructions of a run are performed lane by lane in ascending order, each on the memory that the one
before it left. -/
def Obligations.AtomicsInLaneOrder : Prop :=
  ∀ (s u : State) (c : Ctx) (sc : Scope) (o : Ord4) (ty : Ty) (p v : Opnd) (a x : Nat → Bits) (q : Nat → Option (List Place))
    (op : AtomOp), Runs s c → Ported s c (linesAt c q) u → Operand s c .ptr p a → Operand s c ty v x → c.helpers = [] →
    Checked (dropHold c s) c (fun l => [⟨(a l).extractLsb' 0 64, ty.size, true, true, ty.size, op == .add, false⟩]) q →
    ∃ (t : State) (m : Nat → State) (r : Nat → Bits), exec (.atom op sc o ty p v) s = .next t ∧ t = commit c (c.out fun l => (some ⟨ty, r l⟩, c.acc l)) (m c.lanes.length) ∧
      m 0 = u ∧ ∀ k l ps, c.lanes[k]? = some l → q l = some ps →
        r l = (valOfBytes ty ((m k).readPlaces ps)).bits ∧
        m (k + 1) = (m k).writePlaces ps (bytesOfVal ty (atomNew op ty (x l) (r l)))

/-- 09 R211, R220 to R222, 11 R267, R268: a layout access goes to the permuted offset in the own allocation, and `laymake` packs a
layout word. 11 R267: `laymake` packs its fields, and marks the word malformed where a field is out of range. -/
def Obligations.LayoutAccessesAndWords : Prop :=
  (∀ (s : State) (c : Ctx) (sc : Scope) (ty : Ty) (lay : BitVec 24) (p i0 i1 i2 v : Opnd) (r : Nat → LayReq)
    (q : Nat → Option (List Place)) (part : Bool → Nat → Part), Runs s c →
    (∀ l ∈ c.lanes, layOpnds s c l lay p i0 i1 i2 (some (ty, v)) = some (r l)) →
    (∀ wr l b, b = layBase (r l).lay + ((r l).i0 * layStride (r l).lay 0 + (r l).i1 * layStride (r l).lay 1 +
        (r l).i2 * layStride (r l).lay 2) * 2 ^ laySize (r l).lay →
      part wr l = ⟨ptrWith (r l).ptr (ownBase + (b ^^^ (if layPerm (r l).lay = 0 then 0
        else b / 128 % 2 ^ layPerm (r l).lay * max 4 (2 ^ laySize (r l).lay) % 128))), ty.size, !wr, wr, 1, true, false⟩) →
    ((∀ l ∈ c.lanes, layCheck (c.who l) false ty.size (r l) = none) → Checked s c (fun l => [part false l]) q →
      exec (.ldlay sc ty lay p i0 i1 i2) s = .next (commit c (c.out fun l => (some (loaded s ty (q l)), c.acc l)) s)) ∧
    ((∀ l ∈ c.lanes, layCheck (c.who l) true ty.size (r l) = none) → Checked s c (fun l => [part true l]) q →
      exec (.stlay sc ty lay p i0 i1 i2 v) s =
        .next (storesOf c q (fun l => bytesOfVal ty (r l).val) (commit c (c.out fun l => (none, c.acc l)) s)))) ∧
  (∀ (s : State) (c : Ctx) (o0 o1 o2 o3 o4 o5 : Opnd) (b p z s0 s1 s2 : Nat → Bits), Runs s c → Operand s c .i32 o0 b →
    Operand s c .i32 o1 p → Operand s c .i32 o2 z → Operand s c .i32 o3 s0 → Operand s c .i32 o4 s1 → Operand s c .i32 o5 s2 →
    ∃ w, Gives s c (.laymake o0 o1 o2 o3 o4 o5) .lay w ∧ ∀ l ∈ c.lanes,
      layBase (w l) = (b l).toNat % 2 ^ 21 ∧ layPerm (w l) = (p l).toNat % 16 ∧ laySize (w l) = (z l).toNat % 8 ∧
      layStride (w l) 0 = (s0 l).toNat % 2 ^ 16 ∧ layStride (w l) 1 = (s1 l).toNat % 2 ^ 16 ∧
      layStride (w l) 2 = (s2 l).toNat % 2 ^ 16 ∧
      (bitsAt (w l) 28 4 = 0 ↔ (b l).toNat < 2 ^ 21 ∧ (p l).toNat ≤ 5 ∧ (z l).toNat ≤ 3 ∧ (s0 l).toNat < 2 ^ 16 ∧
        (s1 l).toNat < 2 ^ 16 ∧ (s2 l).toNat < 2 ^ 16))

/-- 11 R273 to R275, R279: `tagld` reads and `tagst` writes the tag of the pointer's granule, `fence` and `prefetch` have no result. 11
R276, R277: `watchset` writes and `watchclr` clears the entry that the selector names, in the wave's, the group's or the domain's set,
or answers why it does not. -/
def Obligations.TagsFencesAndWatchpoints : Prop :=
  (∀ (s u : State) (c : Ctx) (p t : Opnd) (a x : Nat → Bits) (q : Nat → Option (List Place)) (pl : Nat → Place), Runs s c →
    Ported s c (linesAt c q) u → Operand s c .ptr p a → Operand s c .i8 t x → c.helpers = [] → (∀ l ∈ c.lanes, q l = some [pl l]) →
    (∀ sc o, Passes s c (.fence sc o) c.acc) ∧ (∀ sc, exec (.prefetch sc p) s = .next (commit c (c.out fun l => (none, c.acc l))
      (prefetchLines c.g.core c.g.dom
        (linesOf (c.lanes.filterMap fun l => s.prefetchPlace (c.who l) ((a l).extractLsb' 0 64))).length s))) ∧
    (Checked (dropHold c s) c (fun l => [⟨ptrWith ((a l).extractLsb' 0 64) (ptrAddr ((a l).extractLsb' 0 64) / 64 * 64), 64, true, false, 1, true, true⟩]) q →
      exec (.tagld p) s = .next (commit c (c.out fun l =>
        (some ⟨.i8, if (pl l).tagged then (u.tagAt (pl l).key).zeroExtend 96 else 0⟩, c.acc l)) u)) ∧
    (Checked (dropHold c s) c (fun l => [⟨ptrWith ((a l).extractLsb' 0 64) (ptrAddr ((a l).extractLsb' 0 64) / 64 * 64), 64, false, true, 1, true, true⟩]) q →
      exec (.tagst p t) s = .next (c.lanes.foldl (fun t l => t.setTag (pl l).key ((x l).extractLsb' 0 4))
        (commit c (c.out fun l => (none, c.acc l)) u)))) ∧
  (∀ (s u : State) (c : Ctx) (so ao ko : Opnd) (l : Nat) (r : List Nat) (sel a k : Nat → Bits) (n code : Nat) (e : Watch)
    (give : Nat → State → State), Runs s c → u = dropHold c s →
    (c.g.w16 && c.lanes.any (· < 16) && c.lanes.any (16 ≤ ·)) = false → c.ordinary = l :: r →
    Operand u c .i32 so sel → Operand u c .i64 ao a → Operand u c .i64 ko k → n = (sel l).toNat →
    e = ⟨(a l).extractLsb' 0 64, (k l).extractLsb' 0 64⟩ →
    (∀ st t, give st t = commit c (c.out fun j => (some ⟨.i32, if c.helper j then 0 else ofU 32 st⟩, c.acc j)) t) →
    (code = if selBad n then 1 else if watchBad (n / 2 ^ 14 % 4) e.addr e.ctl then 2 else 0) →
    exec (.watchset so ao ko) s = .next (give code (if code = 0 then setWatch c n e u else u)) ∧
    exec (.watchclr so) s = .next (if selBad n then give 1 u else give 0 (setWatch c n ⟨0, 0⟩ u)) ∧
    (n / 2 ^ 14 % 4 = 0 → (setWatch c n e u) = u.modWave c.iss.gid c.iss.wave fun w => { w with watch := w.watch.set (n % 32) e }) ∧
    (n / 2 ^ 14 % 4 = 1 → (setWatch c n e u) = u.modGroup c.iss.gid fun g => { g with watch := g.watch.set (n % 32) e }) ∧
    (n / 2 ^ 14 % 4 = 2 → (setWatch c n e u) = u.modDom c.g.dom fun d => { d with watch := d.watch.set (n % 32) e }))

/-- Memory reads back what was stored there, and keeps every other byte (01 R31, R34); memory is in canonical form. 11 R263, R265:
after the stores of a run every byte outside the places stored to reads as before, and every tag is as it was. -/
def Obligations.StoresAndTheirFrame : Prop :=
  (∀ (s : State) (bs : List Byte) (k j : Nat),
    (s.setBytes bs k).bytes bs.length k = bs ∧
    ((j < k ∨ k + bs.length ≤ j) → (s.setBytes bs k).byte j = s.byte j) ∧
    (Memory.wf s.mem = true → Memory.wf (s.setBytes bs k).mem = true)) ∧
  (∀ (s t : State) (c : Ctx) (nt : Bool) (sc : Scope) (o : Ord4) (ty : Ty) (p v : Opnd) (a x : Nat → Bits)
    (q : Nat → Option (List Place)) (k : Nat), Runs s c → Operand s c .ptr p a → Operand s c ty v x →
    Checked (dropHold c s) c (fun l => [Part.write ((a l).extractLsb' 0 64) ty.size (alignOf ty)]) q →
    exec (.st nt sc o ty p v) s = .next t →
    (∀ l ∈ c.ordinary, ∀ ps, q l = some ps → ∀ y ∈ ps, k < y.key ∨ y.key + y.piece.len ≤ k) →
    t.byte k = s.byte k ∧ t.tags = s.tags ∧ t.pregs = s.pregs ∧ t.dregs = s.dregs ∧ t.doms = s.doms)

/-- 10 R241 to R247: what every allowed execution shows, and two outcomes that relaxed accesses may show. -/
def Obligations.LitmusTests : Prop :=
  (∀ (x : Execution), x.Allowed →
    -- message passing: a read after an acquire that reads from a release reads the write before it, or a later one
    (∀ a f r b p q, x.writesAt p a = true → x.po a f = true → x.is f (fun e => e.writes && e.rel) = true → x.is r (fun e => e.reads && e.acq) = true →
      x.both f r mutuallyScoped = true → x.readsAt q r = true → x.src r q = some f → x.po r b = true → x.readsAt p b = true →
      x.pos p (some a) ≤ x.pos p (x.src b p)) ∧
    -- store buffering with sequentially consistent fences: not both reads are of the initial value
    (∀ w1 f1 r1 w2 f2 r2 p q, x.writesAt p w1 = true → x.po w1 f1 = true → x.po f1 r1 = true → x.readsAt q r1 = true →
      x.writesAt q w2 = true → x.po w2 f2 = true → x.po f2 r2 = true → x.readsAt p r2 = true → x.is f1 Ev.isSc = true → x.is f2 Ev.isSc = true →
      f1 ≠ f2 → x.both f1 f2 mutuallyScoped = true → ¬(x.src r1 q = none ∧ x.src r2 p = none)) ∧
    -- load buffering: two reads cannot each read from the write after the other
    (∀ r1 w1 r2 w2, x.po r1 w1 = true → x.po r2 w2 = true → x.readsFrom w1 r2 = true → x.readsFrom w2 r1 = true → False) ∧
    -- reads of one place by one thread never go back in its coherence order
    (∀ r1 r2 p, x.po r1 r2 = true → x.readsAt p r1 = true → x.readsAt p r2 = true → x.pos p (x.src r1 p) ≤ x.pos p (x.src r2 p)) ∧
    -- no write stands between what an atomic operation reads and what it writes
    (∀ u w p, x.is u (fun e => e.kind == .rmw) = true → x.readsAt p u = true → x.writesAt p w = true → x.pos p (some w) ≤ x.pos p (x.src u p) ∨
      x.pos p (some u) ≤ x.pos p (some w))) ∧
  (∃ x : Execution, x.Allowed ∧ x.init = [] ∧ (∀ e ∈ x.evs, e.writes = true → e.wval = [1, 0, 0, 0]) ∧
    x.evs.map (fun e => (e.thread, e.kind, e.scope, e.rel || e.acq, e.addr, e.len)) =
      [(0, .write, .system, false, 0, 4), (0, .write, .system, false, 64, 4), (1, .read, .system, false, 64, 4), (1, .read, .system, false, 0, 4)] ∧
    x.got 2 = 1 ∧ x.got 3 = 0) ∧
  ∃ x : Execution, x.Allowed ∧ x.init = [] ∧ (∀ e ∈ x.evs, e.writes = true → e.wval = [1, 0, 0, 0]) ∧
    x.evs.map (fun e => (e.thread, e.kind, e.scope, e.rel || e.acq, e.addr, e.len)) =
      [(0, .write, .system, false, 0, 4), (0, .read, .system, false, 64, 4), (1, .write, .system, false, 64, 4), (1, .read, .system, false, 0, 4)] ∧
    x.got 1 = 0 ∧ x.got 3 = 0

/-! ### Circular buffers, commands and the matrix engine (12; 13) -/

/-- 13 R309 to R312, 12 R283: `cbinit` makes its slot valid with a new generation, `cbwait` passes or holds the run, `cbadv` moves ADV,
and `cbstat` reads; a handle that is not valid raises CB_ERROR at the lowest ordinary lane. -/
def Obligations.BufferInstructions : Prop :=
  ∀ (s u : State) (c : Ctx) (l : Nat) (r : List Nat), Runs s c → c.oneHalf = true → u = dropHold c s → c.ordinary = l :: r →
    (∀ (logn : BitVec 4) (sc : Scope) (o0 o1 o2 o3 : Opnd) (a b d e : Bits) (n : Nat) (p q : DWord) (z : Word) (x : Handle) (v : TVal),
      evalOp u c l .i32 o0 = some a → evalOp u c l .ptr o1 = some b → evalOp u c l .i32 o2 = some d → evalOp u c l .ptr o3 = some e →
      n = a.toNat → p = b.extractLsb' 0 64 → z = d.extractLsb' 0 32 → q = e.extractLsb' 0 64 → x = c.g.handle n → n < 32 →
      p.toNat % 64 = 0 → q.toNat % 8 = 0 → z.toNat % 64 = 0 → 64 ≤ z.toNat → z.toNat ≤ 2 ^ 24 → (x.valid = true → x.claim = x.push) →
      v = ⟨.cbh, ofU 32 (n + (x.gen + 1).toNat * 2 ^ 8 + c.g.dom % 128 * 2 ^ 16)⟩ →
      exec (.cbinit logn sc o0 o1 o2 o3) s = .next (giveAll c (some v) (some v) (u.modHandle c.g.gid n fun _ =>
        { valid := true, gen := x.gen + 1, data := p, slotb := z, logn := logn.toNat, stat := q, scope := sc.code, claim := 0, push := 0,
          adv := 0, codes := List.replicate (2 ^ logn.toNat) 0,
          infos := List.replicate (2 ^ logn.toNat) PushInfo.none }))) ∧
    ∀ (h : BitVec 24) (o : Opnd) (hw : Word) (k : Bits), handleOp c l h = some hw → evalOp u c l .i32 o = some k →
      (c.g.handleOf hw = none → ∀ room key, exec (.cbwait room h o) s = raise c (FaultInfo.plain 14 l 0) u ∧
        exec (.cbadv h o) s = raise c (FaultInfo.plain 14 l 0) u ∧
        exec (.cbstat key h) s = raise c (FaultInfo.plain 14 l 0) u) ∧
      ∀ (n : Nat) (x : Handle), c.g.handleOf hw = some n → x = c.g.handle n →
        (1 ≤ k.toNat → k.toNat ≤ 2 ^ x.logn →
          exec (.cbwait true h o) s = .next (if k.toNat ≤ 2 ^ x.logn - (x.claim - x.adv).toNat then giveAll c none none u
            else holdRun c c.iss.mask (.room hw k.toNat) 0 u) ∧
          ((x.push - x.adv).toNat < k.toNat → exec (.cbwait false h o) s = .next (holdRun c c.iss.mask (.pushes hw k.toNat) 0 u)) ∧
          (k.toNat ≤ (x.push - x.adv).toNat →
            (∀ i < k.toNat, (x.codeAt ((x.adv.toNat + i) % 2 ^ x.logn)).toNat % 256 = 0 ∨
              256 ≤ (x.codeAt ((x.adv.toNat + i) % 2 ^ x.logn)).toNat) →
            exec (.cbwait false h o) s = .next (giveAll c none none u))) ∧
        (1 ≤ k.toNat → k.toNat ≤ (x.push - x.adv).toNat →
          exec (.cbadv h o) s = .next (giveAll c none none (u.modHandle c.g.gid n fun y => { y with adv := y.adv + BitVec.ofNat 32 k.toNat }))) ∧
        (∀ key v, ((key, v) = (.pushes, x.push) ∨ (key, v) = (.claims, x.claim) ∨ (key, v) = (.advs, x.adv)) →
          exec (.cbstat key h) s = .next (giveAll c (some ⟨.i64, ofU 64 v.toNat⟩) (some ⟨.i64, ofU 64 v.toNat⟩) u)) ∧
        (∀ v, v = TVal.mk .ptr (ofU 64 (ptrWith x.data (ptrAddr x.data + x.adv.toNat % 2 ^ x.logn * x.slotb.toNat)).toNat) →
          exec (.cbstat .head h) s = .next (giveAll c (some v) (some v) u)) ∧
        (∀ ps v t, u.checkParts (c.who l) [Part.read (x.statAt (x.adv.toNat % 2 ^ x.logn)) 8 8] = .ok ps →
          (∀ p ∈ ps, u.unanswered p = false) → Ported s c (linesOf ps).length t → v = TVal.mk .i64 (ofU 64 (leNat (t.readPlaces ps))) →
          exec (.cbstat .status h) s = .next (giveAll c (some v) (some v) t))

/-- 12 R284, R286, R287, 13 R313 to R316: the ordinary lanes that have not issued issue their commands in ascending order; each claims
the next ring slot, locks its ranges and enters its engine's queue, and a lane that must wait holds the run. -/
def Obligations.CommandIssue : Prop :=
  (∀ (s u t : State) (c : Ctx) (h : BitVec 24) (i : Instr) (o0 o1 o2 o3 o4 : Opnd) (ty0 ty1 : Ty) (H : Nat → Word) (a b n k : Nat → DWord)
      (w : Nat → Nat) (z : BitVec 2) (slot : Bool) (req : Nat → CmdReq) (rs : List (Nat × CmdReq)),
    Runs s c → c.oneHalf = true → u = dropHold c s → (∀ l ∈ c.ordinary, handleOp c l h = some (H l) ∧ (c.g.handleOf (H l)).isSome) →
    (∀ l ∈ c.ordinary, evalOp u c l ty0 o0 = some ((a l).setWidth 96) ∧ evalOp u c l ty1 o1 = some ((b l).setWidth 96)) →
    ((∃ sel, i = .acopy sel h o0 o1 o2 ∧ ty0 = (if sel = .dslot then .i64 else .ptr) ∧ ty1 = (if sel = .sslot then .i64 else .ptr) ∧
        (∀ l ∈ c.ordinary, evalOp u c l .i64 o2 = some ((n l).setWidth 96)) ∧
        ∀ l, req l = ⟨H l, .copy, [a l, b l, n l],
          (match sel with | .none => none | .dslot => some (0, (n l).toNat) | .sslot => some (1, (n l).toNat)),
          [(1, (n l).toNat, true), (0, (n l).toNat, false)], 0, 0, [], false⟩) ∨
     ((i = .agather z slot h o0 o1 o2 o3 o4 ∧ ty0 = (if slot then .i64 else .ptr) ∧ ty1 = .ptr ∧
        ∀ l, req l = ⟨H l, .gather, [a l, b l, BitVec.ofNat 64 (((n l).toNat + 2 ^ 64 - 1) % 2 ^ 32 + z.toNat * 2 ^ 32), k l,
            BitVec.ofNat 64 (w l), n l], (if slot then some (0, w l * 2 ^ z.toNat) else none),
          [(3, 4 * w l, true), (1, (n l).toNat * 2 ^ z.toNat, true), (0, w l * 2 ^ z.toNat, false)], 0, 0, [], false⟩) ∨
      (i = .ascatter z slot h o0 o1 o2 o3 o4 ∧ ty0 = .ptr ∧ ty1 = (if slot then .i64 else .ptr) ∧
        ∀ l, req l = ⟨H l, .scatter, [a l, b l, BitVec.ofNat 64 (((n l).toNat + 2 ^ 64 - 1) % 2 ^ 32 + z.toNat * 2 ^ 32), k l,
            BitVec.ofNat 64 (w l), n l], (if slot then some (1, w l * 2 ^ z.toNat) else none),
          [(3, 4 * w l, true), (1, w l * 2 ^ z.toNat, true), (0, (n l).toNat * 2 ^ z.toNat, false)], 0, 0, [], false⟩)) ∧
       (∀ l ∈ c.ordinary, evalOp u c l .i64 o2 = some ((n l).setWidth 96) ∧ evalOp u c l .ptr o3 = some ((k l).setWidth 96) ∧
          evalOp u c l .i32 o4 = some (BitVec.ofNat 96 (w l)) ∧ w l < 2 ^ 32) ∨
     (∃ kd ty op ex, ∃ m : Nat → Comm, i = .kstart kd ty op ex h o0 o1 o2 o3 ∧ ty0 = .ptr ∧ ty1 = .ptr ∧
        (∀ l ∈ c.ordinary, evalOp u c l .i32 o2 = some (BitVec.ofNat 96 (w l)) ∧ w l < 2 ^ 32 ∧
          evalOp u c l .ptr o3 = some ((k l).setWidth 96) ∧ u.comm (engineWho c.g c.iss.wave l) (k l) = some (m l)) ∧
        ∀ l, req l = ⟨H l, .coll kd,
          [a l, b l, BitVec.ofNat 64 (w l % 2 ^ 32 + ty.code * 2 ^ 32 + op.code * 2 ^ 36 + ex.toNat * 2 ^ 38), k l], none,
          (if (collCounts kd (w l) (m l)).2.2 ∧ ¬(kd = .allred ∧ ptrAddr (a l) = ptrAddr (b l)) then [(0, (collCounts kd (w l) (m l)).1 * ktySize ty, true)] else []) ++
            [(1, (collCounts kd (w l) (m l)).2.1 * ktySize ty, false)], 0, 0, [], false⟩)) →
    rs = (c.ordinary.filter fun l => !inMask c.w.issued l).map (fun l => (l, req l)) →
    (issueLanes c rs u = (none, t) → exec i s = .next (giveAll c none none
      (t.modWave c.g.gid c.iss.wave fun w => { w with issued := w.issued &&& ~~~c.iss.mask }))) ∧
    (∀ l q, issueLanes c rs u = (some (l, q), t) →
      exec i s = .next (holdRun c c.iss.mask (.issue q.h q.ranges.length (!q.kind.onCe)) 0 t))) ∧
  (∀ (s : State) (g : Group) (wave lane n : Nat) (pt : Nat × Nat) (q : CmdReq) (x : Handle), s.group? g.gid = some g →
    n < g.handles.length → x = g.handle n → q.kind.onCe = true → q.slot = none →
    ∃ t k y, t = issueCmd g wave lane pt q n s ∧ t.cmds = s.cmds ++ [k] ∧ k.id = s.nextId ∧ k.claim = x.claim ∧ k.stg = q.stg ∧
      k.phase = .queued ∧ k.handle = n ∧ k.gid = g.gid ∧ k.lane = lane ∧ (k.func, k.index) = pt ∧
      (t.coreSt g.core).ceQueue = (s.coreSt g.core).ceQueue ++ [k.id] ∧ (t.coreSt g.core).rlt = (s.coreSt g.core).rlt ++ k.locks ∧
      k.locks = q.ranges.map (fun p => ⟨ptrAddr (q.stg.getD p.1 0), p.2.1 % 2 ^ 56, p.2.2, g.dom, s.nextId⟩) ∧
      t.group? g.gid = some y ∧ y.handle n = { x with claim := x.claim + 1 } ∧ t.mem = s.mem)

/-- 12 R298, R299, R301, 13 R319 to R321, R323: `mxlease` gives the group its tiles, all zero, with the kernel's format table, or holds
the run until its domain's share and the engine have room; every later matrix instruction waits for the group's turn and then releases,
selects a format or zeroes tiles, which counts as an operation of the turn unless it faults; without a lease it raises LEASE. -/
def Obligations.MatrixLeases : Prop :=
  ∀ (s u : State) (c : Ctx) (l : Nat) (r : List Nat) (o : Opnd) (n : Bits) (sh : Shape), Runs s c → c.oneHalf = true → c.iss.probe = none →
    u = dropHold c s → c.ordinary = l :: r → evalOp u c l .i32 o = some n →
    (c.g.mxuse = true → c.g.lease = none → 1 ≤ n.toNat → n.toNat ≤ u.mxShare c.g →
      n.toNat ≤ (if 1 ≤ c.g.core / 128 ∧ c.g.core / 128 ≤ 6 then 16 else 8) →
      exec (.mxlease o) s = .next (if u.mxUsed c.g + n.toNat ≤ u.mxShare c.g ∧
          u.mxHeld c.g.core + n.toNat ≤ (if 1 ≤ c.g.core / 128 ∧ c.g.core / 128 ≤ 6 then 16 else 8)
        then giveAll c none none (u.modGroup c.g.gid fun g => { g with lease := some ⟨n.toNat, [], none, u.kernelFmts g, 0, 0⟩ })
        else holdRun c c.iss.mask (.tiles n.toNat) 0 u)) ∧
    ((c.g.mxuse = false ∨ c.g.lease ≠ none ∨ n.toNat = 0 ∨ u.mxShare c.g < n.toNat) →
      exec (.mxlease o) s = raise c (FaultInfo.plain 13 l 0) u) ∧
    (c.g.lease = none → ∀ i, (i = .mxrel ∨ i = .mxfmt o ∨ i = .mxzero sh o) →
      exec i s = raise c (FaultInfo.plain 13 l 0) u) ∧
    ∀ (le : Lease) (k : CoreSt) (turn : Prop), c.g.lease = some le → k = u.coreSt c.g.core →
      (turn ↔ k.turn = none ∧ (∀ h hs, k.mxWait = h :: hs → h = c.g.gid) ∨ k.turn = some c.g.gid ∧ (k.turnOps < u.mxQuantum c.g ∨ ∀ g ∈ k.mxWait, g = c.g.gid)) →
      (¬turn → ∀ i, (i = .mxrel ∨ i = .mxfmt o ∨ i = .mxzero sh o) →
        exec i s = .next (holdRun c c.iss.mask .turn 0 (u.modCore c.g.core fun k =>
          { k with mxWait := if c.g.gid ∈ k.mxWait then k.mxWait else k.mxWait ++ [c.g.gid] }))) ∧
      (turn → ∀ v (count : State → State), v = u.modCore c.g.core (fun k => { k with mxWait := k.mxWait.filter fun g => g != c.g.gid }) →
        (∀ t, count t = t.modCore c.g.core fun k =>
          { k with turn := some c.g.gid, turnOps := if k.turn = some c.g.gid then k.turnOps + 1 else 1 }) →
        exec .mxrel s = .next (giveAll c (some ⟨.i8, ofU 8 (le.flags.toNat % 128)⟩) (some ⟨.i8, ofU 8 (le.flags.toNat % 128)⟩)
          (dropLease c.g v)) ∧
        (n.toNat < 16 → exec (.mxfmt o) s = .next (count (giveAll c none none (v.modLease c.g.gid fun le => { le with fidx := n.toNat })))) ∧
        (16 ≤ n.toNat → exec (.mxfmt o) s = raise c (FaultInfo.plain 15 l 0) v) ∧
        (n.toNat + shapeRows sh / 64 * (shapeCols sh / 64) ≤ le.tiles →
          exec (.mxzero sh o) s = .next (count (giveAll c none none (v.modLease c.g.gid fun le =>
            { le with acc := le.acc.filter fun p =>
                !decide (n.toNat ≤ p.1 / 4096 ∧ p.1 / 4096 < n.toNat + shapeRows sh / 64 * (shapeCols sh / 64)) })))) ∧
        (le.tiles < n.toNat + shapeRows sh / 64 * (shapeCols sh / 64) →
          exec (.mxzero sh o) s = raise c (FaultInfo.plain 13 l 0) v))

/-- 12 R302, 13 R322, R324, R325: `mxldb` loads the bank of B, a multiply gives every element of the shape its dot product and leaves
every other accumulator word, and `mxst` writes the rows converted by the format entry. The lane that acts is the lowest ordinary one,
in its group's turn. -/
def Obligations.MatrixOperations : Prop :=
  ∀ (s u v : State) (c : Ctx) (l : Nat) (r : List Nat) (le : Lease) (e : Word) (sh : Shape) (rows cols : Nat)
      (o0 o1 o2 o3 : Opnd) (x y : DWord) (t kb : Nat) (count : State → State), Runs s c → c.oneHalf = true → c.iss.probe = none →
    u = dropHold c s →
    c.ordinary = l :: r → c.g.lease = some le → le.entry = e → entryOk e = true →
    (u.coreSt c.g.core).mayTurn c.g.gid (u.mxQuantum c.g) = true →
    v = u.modCore c.g.core (fun k => { k with mxWait := k.mxWait.filter fun g => g != c.g.gid }) →
    (∀ t, count t = t.modCore c.g.core fun k =>
      { k with turn := some c.g.gid, turnOps := if k.turn = some c.g.gid then k.turnOps + 1 else 1 }) →
    rows = shapeRows sh → cols = shapeCols sh → t < 2 ^ 32 → kb < 2 ^ 32 →
    evalOp u c l .i32 o0 = some (BitVec.ofNat 96 t) → evalOp u c l .ptr o1 = some (x.setWidth 96) →
    evalOp u c l .ptr o2 = some (y.setWidth 96) → evalOp u c l .i32 o3 = some (BitVec.ofNat 96 kb) →
    (∀ (n128 : Bool) (n : Nat) (ps : List (List Place)), n = (if n128 then 128 else 64) → 1 ≤ kb → kb ≤ 16 →
      mxParts v (c.who l) ([Part.read x (n * (32 * kb) * fmtBits (bFmt e) / 8) 64] ::
        if fmtBlock (bFmt e) then [[Part.read y (n * kb) 64]] else []) = .ok ps →
      exec (.mxldb n128 o1 o2 o3) s = .next (count (giveAll c none none (v.modLease c.g.gid fun le =>
        { le with bank := some ⟨n, 32 * kb, bFmt e, v.readPlaces (ps.headD []),
            if fmtBlock (bFmt e) then v.readPlaces ((ps.drop 1).headD []) else []⟩ })))) ∧
    (∀ (mk : MulKind) (i : Instr) (bk : BBank) (d : MulData) (q : List Place) (qs : List (List Place)),
      ((mk, i) = (.dense, .mxmma sh o0 o1 o2 o3) ∨ (mk, i) = (.sparse, .mxsmma sh o0 o1 o2 o3) ∨
        (mk, i) = (.ternary, .mxtma sh o0 o1 o3)) →
      t + rows / 64 * (cols / 64) ≤ le.tiles → le.bank = some bk → entryFits mk e = true → 1 ≤ kb → kb ≤ 16 → bk.n = cols →
      bk.k = 32 * kb → bk.fmt = bFmt e →
      mxParts v (c.who l) ([Part.read x (rows * (32 * kb) * fmtBits (aFmt e) / 8 / (if mk = .sparse then 2 else 1)) 64] ::
        (match mk with
         | .sparse => [[Part.read y (rows * (32 * kb) / 8) 64]]
         | .dense => if fmtBlock (aFmt e) then [[Part.read y (rows * kb) 64]] else []
         | .ternary => [])) = .ok (q :: qs) →
      d = ⟨v.readPlaces q, v.readPlaces (qs.headD [])⟩ →
      (mk = .sparse → ∀ m < rows, ∀ g < 8 * kb, (metaCode (32 * kb) m g d.x).1 < (metaCode (32 * kb) m g d.x).2) →
      ∃ f acc fl, exec i s = .next (count (giveAll c none none (v.modLease c.g.gid f))) ∧ f le = { le with acc, flags := le.flags ||| fl } ∧
        (∀ m < rows, ∀ n < cols, mget 0 acc (accKey t cols m n) = (mulElem mk e bk d m n (mget 0 le.acc (accKey t cols m n))).1 ∧
          (mulElem mk e bk d m n (mget 0 le.acc (accKey t cols m n))).2 &&& ~~~fl = 0) ∧
        (∀ k, (∀ m < rows, ∀ n < cols, k ≠ accKey t cols m n) → mget 0 acc k = mget 0 le.acc k) ∧
        (classOf (aFmt e) (bFmt e) = some .int → mk ≠ .sparse → ∀ m < rows, ∀ n < cols,
          mget 0 acc (accKey t cols m n) = mget 0 le.acc (accKey t cols m n) + BitVec.ofInt 32 (((List.range bk.k).map fun k =>
            (intElem (aFmt e) (packedElem (fmtBits (aFmt e)) (m * bk.k + k) d.a)).1 *
            (intElem (bFmt e) (packedElem (fmtBits (bFmt e)) (n * bk.k + k) bk.data)).1).sum))) ∧
    (∀ (clr : Bool) (sz : Nat) (ps : List Place) (out : List (List Byte × Byte)), sz = outSize (outFmt e) →
      t + rows / 64 * (cols / 64) ≤ le.tiles → cols * sz ≤ kb → kb % sz = 0 → kb < 2 ^ 21 →
      mxParts v (c.who l) [Part.write x (cols * sz) sz ::
        (List.range (rows - 1)).map fun m => Part.write (ptrWith x (ptrAddr x + (m + 1) * kb)) (cols * sz) sz] = .ok [ps] →
      out = (List.range rows).map (fun m => outRow e t cols m le.acc) →
      exec (.mxst sh clr o0 o1 o3) s = .next (count (giveAll c none none ((v.writePlaces ps (out.flatMap (·.1))).modLease c.g.gid fun le =>
        { le with acc := if clr then le.acc.filter fun p => !decide (t ≤ p.1 / 4096 ∧ p.1 / 4096 < t + rows / 64 * (cols / 64)) else le.acc,
                  flags := out.foldl (fun f o => f ||| o.2) le.flags }))))

/-! ### System, gates and expert placement (16 R373; 20 R435 to R444; 21) -/

/-- 20 R442 to R444, 16 R373: `spawn` gives each ordinary lane the status of its launch, placed in ascending lane order; `ccwait`
passes when every lane's counter has been observed at its value and holds the run until then; `ccadd` adds and lets the CP observe the
counter; `xprefetch` queues its request. -/
def Obligations.SystemInstructions : Prop :=
  ∀ (s u : State) (c : Ctx), Runs s c → u = dropHold c s →
    (∀ (q o : Opnd) (a : Nat → Nat) (p : Nat → DWord) (ps : Nat → List Place) (rs : List (Nat × Nat)) (t : State),
      (∀ l ∈ c.ordinary, a l < 2 ^ 32 ∧ evalOp s c l .i32 q = some (BitVec.ofNat 96 (a l)) ∧
        evalOp s c l .ptr o = some ((p l).setWidth 96) ∧ s.checkParts (c.who l) [Part.read (p l) 128 8] = .ok (ps l)) →
      spawnAll c.g.dom (c.ordinary.map fun l => (l, a l, s.readPlaces (ps l))) s = (rs, t) →
      exec (.spawn q o) s = .next (commit c (c.out fun l =>
        (some ⟨.i32, if c.helper l then 0 else ofU 32 ((rs.lookup l).getD 0)⟩, c.acc l)) t)) ∧
    (∀ (d q : Nat) (bs : List Byte) (x : QDesc),
      (32 ≤ q → spawnOne d q bs s = (3, s)) ∧
      (q < 32 → s.readQueue d q = .ok x → x.ok = true →
        ((x.enable = false ∨ x.state = 2) → spawnOne d q bs s = (2, s)) ∧
        (x.enable = true → x.state ≠ 2 → x.pending = 2 ^ x.logn → spawnOne d q bs s = (1, s)) ∧
        (x.enable = true → x.state ≠ 2 → x.pending ≠ 2 ^ x.logn → ∀ t v,
          s.devWrite d (cpPtr x.ring (128 * (x.wridx % 2 ^ x.logn))) (bs.take 4 ++ [0, 0, 0, 0] ++ bs.drop 8) 128 = .ok t →
          t.devWrite d (cpPtr (s.queueAddr d q) 16) (leBytes 8 ((x.wridx + 1) % 2 ^ 64)) 8 = .ok v →
          spawnOne d q bs s = (0, ring d q v)))) ∧
    (c.oneHalf = true → ∀ (sc : Scope) (o0 o1 : Opnd) (p v : Nat → DWord) (ps : Nat → List Place) (met : Nat → Prop),
      (∀ l ∈ c.ordinary, evalOp u c l .ptr o0 = some ((p l).setWidth 96) ∧ evalOp u c l .i64 o1 = some ((v l).setWidth 96) ∧
        u.checkParts (c.who l) [Part.read (p l) 8 8] = .ok (ps l)) →
      (∀ l, met l ↔ (∀ x ∈ ps l, u.unanswered x = false) ∧ (v l).toNat ≤ leNat (u.readPlaces (ps l))) →
      ((c.released.isSome ∨ ∀ l ∈ c.ordinary, met l) → exec (.ccwait sc o0 o1) s = .next (giveAll c none none u)) ∧
      (c.released = none → (∃ l ∈ c.ordinary, ¬met l) →
        ∃ m, exec (.ccwait sc o0 o1) s = .next (holdRun c c.iss.mask (.counters (c.ordinary.map fun l => (l, p l, v l))) m u) ∧
          ∀ l < 32, (inMask m l = true ↔ l ∈ c.ordinary ∧ met l))) ∧
    (∀ (sc : Scope) (o0 o1 : Opnd) (l : Nat) (a x : Nat → Bits) (q : Nat → Option (List Place)) (pl : Place) (r : List Place),
      c.lanes = [l] → c.helper l = false → Operand s c .ptr o0 a → Operand s c .i64 o1 x →
      Checked u c (fun l => [⟨(a l).extractLsb' 0 64, 8, true, true, 8, true, false⟩]) q → q l = some (pl :: r) →
      ∀ t, Ported s c (linesAt c q) t →
      exec (.ccadd sc o0 o1) s = .next (observeCounters (some pl.key) (commit c [(l, none, c.acc l)]
        (t.writePlaces (pl :: r) (bytesOfVal .i64 (ofU 64 (uRd 64 (valOfBytes .i64 (t.readPlaces (pl :: r))).bits + uRd 64 (x l)))))))) ∧
    (c.oneHalf = true → ∀ (o0 o1 o2 : Opnd) (l : Nat) (r : List Nat) (p : DWord) (i n : Bits) (m : Module) (fn : Func) (key : XlateKey)
        (bs : List Byte), c.ordinary = l :: r → evalOp u c l .ptr o0 = some (p.setWidth 96) → evalOp u c l .i32 o1 = some i →
      evalOp u c l .i32 o2 = some n → u.funcAt c.g.dom p = some (m, fn) → i.toNat < fn.ninstr → n ≠ 0 →
      u.devRead c.g.dom p 64 8 = .ok bs → key = { u.xkey c.g c.w 0 fn.sym (fn.blockOf i.toNat) with modH := m.handle } →
      exec (.xprefetch o0 o1 o2) s = .next (giveAll c none none
        (if (u.cluster (clusterOf c.g.core)).xqueue.length < 32 ∧ (∀ y ∈ (u.cluster (clusterOf c.g.core)).xqueue, y.key ≠ key) ∧
            (u.cluster (clusterOf c.g.core)).xlateFor key = none
         then prefetchCount c true (u.modCluster (clusterOf c.g.core) fun k => { k with xqueue := k.xqueue ++ [⟨key, c.g.cls, true, min n.toNat 4096⟩] })
         else prefetchCount c false u)))

/-- 20 R438 to R440: a `gatecall` whose checks pass copies the lanes' bytes into zeroed gate buffers, starts the gate context and holds
the run, or waits for room; when its lanes have ended by `gateret` the bytes return and each lane has its result; the failures raise
GATE with their reasons. -/
def Obligations.CallGates : Prop :=
  (∀ (s u : State) (c : Ctx) (dir : GateDir) (og ob ol : Opnd) (os : List Opnd) (l : Nat) (r : List Nat) (gb : Bits) (g : Nat)
      (as : List GateArg), Runs s c → c.oneHalf = true → u = dropHold c s → c.ordinary = l :: r → c.iss.bind = none →
    evalOp u c l .i32 og = some gb → g = gb.toNat → gateArgs u c ob ol os c.ordinary = some as →
    (c.released = none →
      (c.g.gate ≠ none → exec (.gatecall dir og ob ol os) s = raise c (FaultInfo.plain 8 l (BitVec.ofNat 64 (g % 64 + 256 * 6))) u) ∧
      (c.g.gate = none → u.gateOf c.g.dom g = none →
        exec (.gatecall dir og ob ol os) s = raise c (FaultInfo.plain 8 l (BitVec.ofNat 64 (g % 64 + 256))) u) ∧
      ∀ (e : GateEntry) (f : Func) (x : GateCtx) (w : State), c.g.gate = none → u.gateOf c.g.dom g = some e → u.offerOf e = some (os.length, f) →
        (dirIn dir = true → e.flags / 2 % 2 = 1) → (dirOut dir = true → e.flags / 4 % 2 = 1) →
        (∀ a ∈ as, a.blen ≤ e.bufmax ∧ (dir = .none → a.blen = 0)) → u.gateReady c.g e = true → bufChecks u c dir as = none →
        u.group? u.nextId = none → x = ⟨c.iss.gid, c.iss.wave, maskOf c.ordinary, g, 0, 32, e.gbase, e.bufmax, s.now + 1000 * e.tlimit⟩ →
        w = { u with nextId := u.nextId + 1, groups := u.groups ++ [newGate c u.nextId g e f s.now] } →
        (w.roomOn e.target ⟨1, 0, false⟩ false (c.g.core, c.g.half) = none →
          exec (.gatecall dir og ob ol os) s = .next (holdRun c c.iss.mask (.gateRoom u.nextId) 0 w)) ∧
        ∀ room v, w.roomOn e.target ⟨1, 0, false⟩ false (c.g.core, c.g.half) = some room → fillBufs c x e.target dir as w = .ok v →
          exec (.gatecall dir og ob ol os) s = .next (holdRun c c.iss.mask (.gateRun u.nextId) 0 (v.modGroup u.nextId fun y =>
            { y with st := .resident, nslots := 1, bank := room.bank,
                     waves := [gateWave f x as room (v.spillBase e.target u.nextId 0)] }))) ∧
    ∀ (h : Hold) (gid : Nat) (t : Group) (x : GateCtx) (v : State), c.released = some h → h.cond = .gateRun gid →
      u.group? gid = some t → t.gate = some x → v = { u with groups := u.groups.filter fun y => y.gid != gid } →
      (x.reason ≠ 0 → exec (.gatecall dir og ob ol os) s = raise c (FaultInfo.plain 8
        (if x.lane < 32 ∧ x.reason ≠ 5 then x.lane else l) (BitVec.ofNat 64 (x.gate % 64 + 256 * x.reason))) v) ∧
      (x.reason = 0 → ∀ ws w ls, (if dirOut dir then drainBufs u c x t.dom as else .ok []) = .ok ws → t.waves = w :: ls →
        exec (.gatecall dir og ob ol os) s = .next (commit c (c.lanes.map fun j =>
          c.give j (some ⟨.i64, if c.helper j then 0 else ofU 64 (((w.lanes[j]?).bind (·.gateVal)).getD 0).toNat⟩))
          (ws.foldl (fun y p => storePlaces c p.1 p.2 y) v)))) ∧
  ∀ (s : State) (c : Ctx) (o : Opnd) (a : Nat → Bits) (l : Nat) (r : List Nat), Runs s c → c.ordinary = l :: r → Operand s c .i64 o a →
    (c.g.gate = none → exec (.gateret o) s = raise c (FaultInfo.plain 8 l (BitVec.ofNat 64 (256 * 7))) s) ∧
    (c.g.gate ≠ none → ∃ t, exec (.gateret o) s = .next t ∧ ∀ j ∈ c.lanes, ∃ y, c.laneIn t j = some y ∧ y.st = .exited ∧
      y.gateVal = some ((a j).extractLsb' 0 64))

/-- 21 R454, R464 to R468: a table that is not valid or an expert outside it raises ENGINE_ERROR at the lowest such lane; otherwise
`ecount` adds to the live counters, saturating, `xrtlook` returns the lookup in CUR and takes a reference, and `xrtver` reads, checks
or releases a stamp, lane by lane. -/
def Obligations.ExpertPlacement : Prop :=
  (∀ (s : State) (c : Ctx) (o0 o1 o2 : Opnd) (t e n : Nat → Nat), Runs s c →
    (∀ l ∈ c.ordinary, t l < 2 ^ 32 ∧ e l < 2 ^ 32 ∧ n l < 2 ^ 32 ∧ evalOp s c l .i32 o0 = some (BitVec.ofNat 96 (t l)) ∧
      evalOp s c l .i32 o1 = some (BitVec.ofNat 96 (e l)) ∧ evalOp s c l .i32 o2 = some (BitVec.ofNat 96 (n l))) →
    (∀ l ∈ c.ordinary, (∀ j ∈ c.ordinary, j < l → t j < 4 ∧ ∃ x, s.table c.g.dom (t j) = some x ∧ e j < x.nexp) →
      ∀ i, (i = .ecount o0 o1 o2 ∨ i = .xrtlook o0 o1 o2) →
      ((4 ≤ t l ∨ s.table c.g.dom (t l) = none) → exec i s = raise c (FaultInfo.plain 15 l 1) s) ∧
      (∀ x, t l < 4 → s.table c.g.dom (t l) = some x → x.nexp ≤ e l → exec i s = raise c (FaultInfo.plain 15 l 2) s)) ∧
    ((∀ l ∈ c.ordinary, t l < 4 ∧ ∃ x, s.table c.g.dom (t l) = some x ∧ e l < x.nexp) →
      exec (.ecount o0 o1 o2) s = .next (commit c (c.out fun l => (none, c.acc l))
        (c.ordinary.foldl (fun u l => { u with winch := (mset 0 u.winch (u.counterKey c.g.dom (t l) (e l))
          (BitVec.ofNat 32 (min (2 ^ 32 - 1) ((mget 0 u.winch (u.counterKey c.g.dom (t l) (e l))).toNat + n l)))) }) s)) ∧
      ∃ u, exec (.xrtlook o0 o1 o2) s = .next u ∧
        u = commit c (c.out fun l => (some ⟨.i64, match s.table c.g.dom (t l) with
            | some x => if c.helper l then 0 else ofU 64 (lookupIn x.bankCur x.cur (e l) (n l)).toNat
            | none => 0⟩, c.acc l))
          (c.ordinary.foldl (fun u l => u.modTable c.g.dom (t l) fun x => { x with refCur := x.refCur + 1 }) s))) ∧
  (∀ (s : State) (c : Ctx) (o0 o1 o2 o3 : Opnd) (l : Nat) (t e h : Nat) (d : DWord) (x : Table) (give : DWord → State → Out), Runs s c →
    c.lanes = [l] → c.helper l = false → t < 4 → e < 2 ^ 32 → h < 2 ^ 32 → s.table c.g.dom t = some x →
    evalOp s c l .i32 o0 = some (BitVec.ofNat 96 t) → evalOp s c l .i32 o1 = some (BitVec.ofNat 96 e) →
    evalOp s c l .i32 o2 = some (BitVec.ofNat 96 h) → evalOp s c l .i64 o3 = some (d.setWidth 96) → e < x.nexp →
    (∀ v u, give v u = .next (commit c [(l, some ⟨.i64, ofU 64 v.toNat⟩, c.acc l)] u)) →
    exec (.xrtverCur o0) s = give (BitVec.ofNat 64 (x.cur + (match x.prev with | some p => p | none => 0xFFFFFFFF) * 2 ^ 32)) s ∧
    (d.toNat / 2 ^ 32 = x.cur → exec (.xrtverChk o0 o1 o2 o3) s = give d s) ∧
    (d.toNat / 2 ^ 32 ≠ x.cur → x.prev ≠ some (d.toNat / 2 ^ 32) → exec (.xrtverChk o0 o1 o2 o3) s =
      give (lookupIn x.bankCur x.cur e h) (s.modTable c.g.dom t fun x => { x with refCur := x.refCur + 1 })) ∧
    (x.prev = some (d.toNat / 2 ^ 32) → d.toNat / 2 ^ 32 ≠ x.cur → 2 ≤ x.refPrev → exec (.xrtverChk o0 o1 o2 o3) s =
      give (lookupIn x.bankCur x.cur e h)
        (s.modTable c.g.dom t fun x => { x with refCur := x.refCur + 1, refPrev := x.refPrev - 1 })) ∧
    (d.toNat / 2 ^ 32 = x.cur → 0 < x.refCur → exec (.xrtverDone o0 o3) s =
      give 0 (s.modTable c.g.dom t fun x => { x with refCur := x.refCur - 1 })) ∧
    (d.toNat / 2 ^ 32 = x.cur → x.refCur = 0 → exec (.xrtverDone o0 o3) s = give 2 (winchLog c.g.dom (wlog 7 t x.cur) s)) ∧
    (d.toNat / 2 ^ 32 ≠ x.cur → x.prev ≠ some (d.toNat / 2 ^ 32) → exec (.xrtverDone o0 o3) s = give 1 s)) ∧
  ∀ (bank : List (List (Option Nat))) (v e h k : Nat) (l : List (Nat × Nat)), l = presentIn (bank.getD e []) → h < 2 ^ 32 → v < 2 ^ 32 →
    k = h * l.length / 2 ^ 32 → ∀ n p, l[k]? = some (n, p) → p < 2 ^ 16 → n < 2 ^ 16 →
    (lookupIn bank v e h).toNat = p + n * 2 ^ 16 + v * 2 ^ 32

/-- 21 R454: a lookup takes, among the replicas present, ascending, the one at floor(u(h) × count / 2^32), and answers its slot, its
index and the version. -/
def Obligations.ExpertLookups : Prop :=
  ∀ (bank : List (List (Option Nat))) (e h v : Nat) (list : List Nat) (k : Nat),
    list = (List.range 8).filter (fun n => ((entryOf bank e).getD n none).isSome) → (entryOf bank e).length ≤ 8 →
    k = h % 2 ^ 32 * list.length / 2 ^ 32 → v < 2 ^ 32 →
    (list ≠ [] → k < list.length) ∧
    ∀ n slot, list[k]? = some n → (entryOf bank e).getD n none = some slot → slot < 2 ^ 16 →
      (lookupIn bank v e h).toNat = slot + n * 2 ^ 16 + v * 2 ^ 32

/-- 21 R468: `rmerge` issues its lane's merge command, which takes a reference on the stamp's version and locks the primary's bytes as
its destination and the other replicas' as its sources; a stamp of neither version, a count of 0 and one beyond GSLOTB leave a command
that completes with BAD_CMD and takes no reference. -/
def Obligations.ReplicaMerges : Prop :=
  ∀ (s u : State) (c : Ctx) (g : Group) (bf16 : Bool) (h : BitVec 24) (o0 o1 o2 o3 : Opnd) (l t e n bytes hn : Nat) (hw : Word) (d : DWord)
      (x : Table) (z : Lane) (row : List (Option Nat)) (slots : List Nat) (req : CmdReq), Runs s c → c.oneHalf = true → u = dropHold c s →
    c.lanes = [l] → c.helper l = false → c.lane? l = some z → c.iss.bind = none → inMask c.w.issued l = false → t < 4 → e < 2 ^ 32 → n < 2 ^ 32 →
    s.table c.g.dom t = some x → e < x.nexp →
    handleOp c l h = some hw → c.g.handleOf hw = some hn → u.group? c.g.gid = some g → g.handleOf hw = some hn →
    evalOp s c l .i32 o0 = some (BitVec.ofNat 96 t) → evalOp s c l .i32 o1 = some (BitVec.ofNat 96 e) →
    evalOp s c l .i64 o2 = some (d.setWidth 96) → evalOp s c l .i32 o3 = some (BitVec.ofNat 96 n) →
    bytes = n * (if bf16 then 2 else 4) →
    row = (if d.toNat / 2 ^ 32 = x.cur then x.bankCur.getD e [] else x.bankPrev.getD e []) → slots = (presentIn row).map (·.2) →
    ((d.toNat / 2 ^ 32 = x.cur ∨ x.prev = some (d.toNat / 2 ^ 32)) ∧ n ≠ 0 ∧ bytes ≤ x.gslotb → req =
      ⟨hw, .merge, BitVec.ofNat 64 (n + bf16.toNat * 2 ^ 32) :: slots.map (fun p => ptrWith x.grad (ptrAddr x.grad + p * x.gslotb)), none,
        slots.mapIdx (fun i _ => (i + 1, bytes, i != 0)), t, d.toNat / 2 ^ 32, slots, false⟩) →
    (¬((d.toNat / 2 ^ 32 = x.cur ∨ x.prev = some (d.toNat / 2 ^ 32)) ∧ n ≠ 0 ∧ bytes ≤ x.gslotb) → req = ⟨hw, .merge, [], none, [], t, 0, [], true⟩) →
    (u.cmdRoom g hn req.ranges.length false = true → ∃ v w, v = issueCmd g c.iss.wave l z.point req hn u ∧
      exec (.rmerge bf16 h o0 o1 o2 o3) s = .next w ∧
      w.cmds = v.cmds ∧ w.mem = s.mem ∧ w.coreSt c.g.core = v.coreSt c.g.core ∧
      ∃ y, w.table c.g.dom t = some y ∧ y = (if req.bad then x
        else if d.toNat / 2 ^ 32 = x.cur then { x with refCur := x.refCur + 1 } else { x with refPrev := x.refPrev + 1 })) ∧
    (u.cmdRoom g hn req.ranges.length false = false →
      exec (.rmerge bf16 h o0 o1 o2 o3) s = .next (holdRun c c.iss.mask (.issue hw req.ranges.length true) 0 u))

/-! ### The native form (15) -/

/-- 15 R342 to R344: the native-only operations that move values: each executing lane writes its own part of the destination, and every
other register part stays; a spill stores its register in the wave's spill slot and a fill reads it back. -/
def Obligations.NativeMoves : Prop :=
  ∀ (s : State) (c : Ctx) (n : Native), Runs s c → c.w.native = some n →
    (∀ (v : VSlot) (ex : List Nat), ex = c.lanes.filter (fun l => v.mask == 0 || inMask (c.regs.mReg v.mask.toNat) l) →
      (∃ r, LeavesRegs s c (.nmov v) r ∧ r.s = n.regs.s ∧ r.m = n.regs.m ∧ r.stg = n.regs.stg ∧ ∀ k l, l < 32 →
        r.vReg k l = if l ∈ ex ∧ (k = v.d.toNat ∨ (k = v.d.toNat + 1 ∧ 32 < v.type.width) ∨ (k = v.d.toNat + 2 ∧ 64 < v.type.width))
          then (readSrc c.regs v.type l (vSrc v)).extractLsb' (32 * (k - v.d.toNat)) 32 else n.regs.vReg k l) ∧
      (∃ r, LeavesRegs s c (.nvtos v) r ∧ r.v = n.regs.v ∧ r.m = n.regs.m ∧ r.stg = n.regs.stg ∧ ∀ k,
        r.sReg k = match ex with
          | l :: _ => if k = v.d.toNat % 64 then (c.regs.vVal v.type v.a.toNat l).extractLsb' 0 64 else n.regs.sReg k
          | [] => n.regs.sReg k) ∧
      (8 ≤ v.d.toNat → ∃ r, LeavesRegs s c (.nstgv v) r ∧ r.s = n.regs.s ∧ r.v = n.regs.v ∧ r.m = n.regs.m ∧ ∀ k l, l < 32 → 8 ≤ k →
        r.stgReg k l = if l ∈ ex ∧ k = v.d.toNat then (c.regs.vVal v.type v.a.toNat l).extractLsb' 0 64 else n.regs.stgReg k l) ∧
      (∃ r, LeavesRegs s c (.nmask v) r ∧ r.s = n.regs.s ∧ r.v = n.regs.v ∧ r.stg = n.regs.stg ∧ ∀ k l, l < 32 →
        inMask (r.mReg k) l = if k = v.d.toNat ∧ l ∈ ex then decide (c.regs.vReg v.a.toNat l ≠ 0) else inMask (n.regs.mReg k) l) ∧
      (∃ r, LeavesRegs s c (.nmaskv v) r ∧ r.s = n.regs.s ∧ r.m = n.regs.m ∧ r.stg = n.regs.stg ∧ ∀ k l, l < 32 →
        r.vReg k l = if k = v.d.toNat ∧ l ∈ ex then (if inMask (c.regs.mReg (v.a.toNat % 8)) l then 1 else 0) else n.regs.vReg k l)) ∧
    (∀ (f : SSlot) (x : DWord), x = BitVec.ofNat 64 ((c.regs.sReg f.a.toNat).toNat % 2 ^ (8 * 2 ^ f.w.toNat)) →
      (∃ r, LeavesRegs s c (.nmovs f) r ∧ r.v = n.regs.v ∧ r.m = n.regs.m ∧ r.stg = n.regs.stg ∧
        ∀ k, r.sReg k = if k = f.d.toNat then x else n.regs.sReg k) ∧
      ∃ r, LeavesRegs s c (.nstg f) r ∧ r.s = n.regs.s ∧ r.v = n.regs.v ∧ r.m = n.regs.m ∧
        ∀ k l, l < 32 → r.stgReg k l = if k = f.d.toNat then x else n.regs.stgReg k l) ∧
    (∀ (k : BitVec 2) (clr : Bool) (d : BitVec 6) (imm : BitVec 24) (a b : BitVec 6), k ≠ 3 →
      ∃ r, LeavesRegs s c (.nlit k clr d imm a b) r ∧ r.v = n.regs.v ∧ r.m = n.regs.m ∧ r.stg = n.regs.stg ∧
        (∀ j, j ≠ d.toNat → r.sReg j = n.regs.sReg j) ∧
        ∀ i, i < 64 → (r.sReg d.toNat).getLsbD i =
          if 24 * k.toNat ≤ i ∧ i < 24 * k.toNat + 24 then imm.getLsbD (i - 24 * k.toNat) else !clr && (n.regs.sReg d.toNat).getLsbD i) ∧
    ∀ (kd : SpillKind) (reg : BitVec 7) (si : BitVec 16) (a : Nat), a = c.w.spb + 128 * si.toNat → s.mayUse c.g.dom a = true →
      s.poisoned a = false → s.poisoned (a + 64) = false →
      (∃ t, exec (.nspill kd reg si) s = .next t ∧ t.groups = s.groups ∧
        (∀ p, p < a ∨ a + spillBytes kd ≤ p → t.byte p = s.byte p) ∧
        (kd = .scalar → leNat (t.bytes 8 a) = (c.regs.sReg reg.toNat).toNat) ∧
        (kd = .mask → leNat (t.bytes 4 a) = (c.regs.mReg reg.toNat).toNat) ∧
        (kd = .vector → ∀ l < 32, leNat (t.bytes 4 (a + 4 * l)) = (c.regs.vReg reg.toNat l).toNat)) ∧
      ∃ r, LeavesRegs s c (.nfill kd reg si) r ∧ r.stg = n.regs.stg ∧
        (∀ k, r.sReg k = if kd = .scalar ∧ k = reg.toNat then BitVec.ofNat 64 (leNat (s.bytes 8 a)) else n.regs.sReg k) ∧
        (∀ k, r.mReg k = if kd = .mask ∧ k = reg.toNat then BitVec.ofNat 32 (leNat (s.bytes 4 a)) else n.regs.mReg k) ∧
        ∀ k l, l < 32 → r.vReg k l = if kd = .vector ∧ k = reg.toNat then BitVec.ofNat 32 (leNat (s.bytes 4 (a + 4 * l))) else n.regs.vReg k l

/-- 15 R343, R349, R350: `nlcset` sets TRIP and clears ITER, `nloop` starts its body or passes it by with TRIP 0, `nland` waits out the
pending results of its kinds, `nxit` leaves at the exit point of its entry with the values listed there, and `ntrap` raises
ILLEGAL_OPCODE. -/
def Obligations.NativeControl : Prop :=
  ∀ (s : State) (c : Ctx) (n : Native) (b : Bind), Runs s c → c.w.native = some n → c.iss.bind = some b →
    (∀ (k : BitVec 2) (x w : BitVec 2) (y a : BitVec 6), ∃ t v m, exec (.nlcset k x w y a) s = .next t ∧ c.waveIn t = some v ∧ v.native = some m ∧
      m.lanes = n.lanes ∧ m.loop = n.loop ∧ m.pending = n.pending ∧ m.regs.s = n.regs.s ∧ m.regs.v = n.regs.v ∧ m.regs.m = n.regs.m ∧
      ∀ j, m.regs.trip j = (if j = k.toNat then (b.snap.sReg a.toNat).extractLsb' 0 32 else n.regs.trip j) ∧
        m.regs.iter j = (if j = k.toNat then 0 else n.regs.iter j)) ∧
    (∀ (lc : BitVec 2) (ii : BitVec 6) (sc : BitVec 4) (trip body : Nat), trip = (n.regs.trip lc.toNat).toNat → body = 64 * b.line + 64 →
      ∃ t v m, exec (.nloop lc ii sc) s = .next t ∧ c.waveIn t = some v ∧ v.native = some m ∧
        m.lanes = n.lanes.map (fun p => (p.1, if inMask c.iss.mask p.1
          then { p.2 with npc := if trip = 0 then body + 64 * ii.toNat + 64 * ((ii.toNat + 7) / 8) else body } else p.2)) ∧
        m.regs.iter lc.toNat = 0 ∧ m.regs.trip lc.toNat = n.regs.trip lc.toNat ∧
        (trip = 0 → m.loop = none) ∧ (trip ≠ 0 → m.loop = some ⟨lc.toNat, ii.toNat, sc.toNat, body, 0, 0, trip, false, false⟩)) ∧
    (∀ kinds : BitVec 4, ∃ t v m, exec (.nland kinds) s = .next t ∧ c.waveIn t = some v ∧ v.native = some m ∧ m.regs = n.regs ∧
      m.lanes = n.lanes ∧ m.loop = n.loop ∧ ∀ k, k ∈ m.pending ↔ k ∈ n.pending ∧ kinds.getLsbD (k / 256) = false) ∧
    (∀ e : MapEntry, boundEntry s c b = some e → ∃ t, exec .nxit s = .next t ∧ t.mem = s.mem ∧
      ∀ l ∈ c.lanes, ∃ y w, c.laneIn t l = some y ∧ c.waveIn t = some w ∧ w.isNative l = false ∧ y.point = (e.func, e.aux) ∧
        y.top.vals = entryVals s c.w n.regs l e) ∧
    ∀ l r, c.ordinary = l :: r → exec .ntrap s = raise c (FaultInfo.plain 1 l 0) s

/-! ### Steps that no instruction causes (05, 06, 09, 12, 15 to 22) -/

/-- 05 R146, R151, R154, R155, 12 R299, 13 R308, 15 R346, 22 R488: promotion of an old run, the gondolas, rejoining and its timeout,
the release of held runs, landing, the turn of the matrix engine, and accesses that a peer does not answer. -/
def Obligations.RunEvents : Prop :=
  ∀ (s : State) (gid wi : Nat) (g : Group) (w : Wave), s.group? gid = some g → g.waves[wi]? = some w →
    (∀ r rs, g.w16 = false → w.oldRuns g 0 = r :: rs → exec (.agingPromotion gid wi) s =
      .next (s.modWave gid wi fun w => { w with promoted := w.promoted ||| r.mask, chosen := w.chosen &&& ~~~(g.halvesOf r.mask) })) ∧
    (∀ (k n : Nat) (a b : List EjLane) (e : EjLane), n < 4 → (s.cluster k).ejq = a ++ e :: b → (∀ x ∈ a, x.gondola ≠ none) → e.gondola = none →
      (((s.cluster k).ejq.filter fun x => x.gondola == some n).length < 4) →
      exec (.gondolaTake k n) s = .next (s.modCluster k fun y => { y with ejq := a ++ { e with gondola := some n } :: b })) ∧
    (∀ l x, w.lanes[l]? = some x → x.ejected = true → x.alive = true → ∃ t y, exec (.rejoin gid wi l) s = .next t ∧
      t.lane? gid wi l = some y ∧ y.ejected = false ∧ y.frames = x.frames ∧ y.flags = x.flags ∧ y.rng = x.rng ∧
      ∀ e ∈ (t.cluster (g.core / 8)).ejq, ¬(e.gid = gid ∧ e.wave = wi ∧ e.lane = l)) ∧
    (∀ k e, w.ejSets.find? (fun e => e.id == k) = some e → e.timerOn = true → e.timedOut = false → e.away ≠ 0 →
      field (s.dreg g.dom 0x148) 0 1 = 0 → exec (.rejoinTimeout gid wi k) s =
        .next ((s.modWave gid wi fun w => releaseJoins g
          { w with ejSets := w.ejSets.map fun e => if e.id = k then { e with timedOut := true } else e }).modDom g.dom fun x =>
            { x with rejoins := x.rejoins + 1 })) ∧
    (∀ h ∈ w.holds, h.released = false → s.condMet g wi h = true → ∃ t, exec (.heldRunRelease gid wi) s = .next t ∧
      ∀ l x, inMask h.mask l = true → w.lanes[l]? = some x → x.park = .held → t.lane? gid wi l = some { x with park := .none, age := 0 }) ∧
    (exec (.landing gid wi) s =
      .next (s.modWave gid wi fun w => { w with native := w.native.map fun n => { n with pending := n.pending.tail } })) ∧
    (∀ core h hs, s.mxPasses core = true → (s.coreSt core).mxWait = h :: hs → exec (.mxTurnPass core) s =
      .next (s.modCore core fun k => { k with turn := some h, turnOps := 0, mxWait := hs })) ∧
    (∀ h l x p ps c u, w.holds = [h] → inMask h.mask l = true → h.cond = .peer ps → ps.lookup l = some p → w.lanes[l]? = some x →
      u = { (s.modWave gid wi fun w => unpark g h.mask
        { w with holds := w.holds.filter fun h => !(inMask h.mask l && match h.cond with | .peer l' => (l'.lookup l).isSome | _ => false) }) with issue := some ⟨gid, wi, h.mask, x.ejected, 0, none, none⟩ } →
      Runs u c → exec (.peerReadTimeout gid wi l) s = raise c ⟨16, l, 10, 1, p, 0, none⟩ u) ∧
    ∀ (d : Nat) (a : DWord), ∃ t q, exec (.peerWriteTimeout d a) s = .next t ∧ t.mem = s.mem ∧
      (t.dom d).trapPend = (s.dom d).trapPend ++ [q] ∧ q.seq = (s.dom d).trapSeq + 1 ∧ q.fr.code = 16 ∧ q.fr.cls = 4 ∧ q.fr.addr = a

/-- 06 R169 to R180, 13 R317: a doorbell, admission and rejection, the budget window, the counters that launches wait on, placement of
groups and troupes, the end of a group and of a launch, and an overrun. -/
def Obligations.LaunchEvents : Prop :=
  ∀ (s : State) (d q : Nat), q < 32 → q < (s.dom d).queues.length → s.domValid d = true → (s.dom d).ifstate ≠ .error →
    ((s.dom d).paused = true → exec (.doorbell d q) s = .next (s.modDom d fun x => { x with latched := sadd x.latched q })) ∧
    ((s.dom d).paused = false → ∀ x, s.readQueue d q = .ok x → x.ok = true → x.state ≠ 2 → x.enable = true → x.pending ≠ 0 →
      ∃ t, exec (.doorbell d q) s = .next t ∧ .admission d q ∈ t.agenda ∧ (t.queue d q).enabled = true ∧ (t.queue d q).state = 1 ∧
        (t.queue d q).wridx = x.wridx ∧ (t.queue d q).rdidx = x.rdidx ∧ (t.queue d q).ring = x.ring) ∧
    (∀ y slot bs x, (s.dom d).paused = false → y = s.queue d q → y.enabled = true → y.state ≠ 2 → y.rdidx ≠ y.wridx →
      slot = cpPtr y.ring (128 * (y.rdidx % 2 ^ y.logn)) → s.headOf d q = .ok bs → x = ldesc bs →
      (∀ code, s.rejection d y.cls x = some code → ∃ t, exec (.admission d q) s = .next t ∧ t.launches = s.launches ∧
        (t.queue d q).state = 2 ∧ (t.queue d q).rdidx = (y.rdidx + 1) % 2 ^ 64) ∧
      (s.rejection d y.cls x = none → (x.barrier = true → ∀ l ∈ s.launches, l.dom = d → l.queue = q → l.ring = y.rdidx) →
        (x.marker = true ∨ x.cost ≤ ((s.dom d).budgets.getD y.cls ⟨0, 0, 0⟩).left) →
        ∃ t args ws, exec (.admission d q) s = .next t ∧
          t.launches = s.launches ++ [{ x.launch s.nextId d q y.rdidx y.cls slot args s.now with waits := ws }] ∧
          ws.map (fun w => (w.1, w.2.1)) = x.waits ∧
          (∀ w ∈ ws, (w.2.2 = true → w.1 ≠ 0 ∧ s.waitMet d w.1 w.2.1 = true) ∧
            (w.1 ≠ 0 → s.waitMet d w.1 w.2.1 = true → s.observed d w.1 = true → w.2.2 = true)) ∧
          (t.queue d q).rdidx = (y.rdidx + 1) % 2 ^ 64)) ∧
    (∃ t, exec .budgetWindowRefill s = .next t ∧ ∀ k, (s.doms.filter fun p => p.1 == k).length = 1 →
      (t.dom k).budgets = (s.dom k).budgets.map fun b => ⟨b.total, b.total - min b.owed b.total, b.owed - min b.owed b.total⟩) ∧
    (∃ t, exec .counterPoll s = .next t ∧ t.launches = s.launches.map (s.observe none) ∧
      ∀ l, (∀ w ∈ l.waits, w.2.2 = true ∨ w.1 = 0 ∨ s.waitMet l.dom w.1 w.2.1 = true) → (s.observe none l).ready = true) ∧
    ∀ (i : Nat) (l : Launch), s.launch? i = some l →
      (∀ f, (s.module? l.dom l.modH).bind (·.func? l.kernel) = some f → s.placing l = true →
        (field f.hdr 14 4 = 0 →
          (∀ r, s.findRoom l.dom l.placeClass l.id (needOf f.hdr) (s.placesOf (s.partOf l.dom)) = some r → exec (.placeGroup i) s = .next
            (({ s with nextId := s.nextId + 1,
                       groups := s.groups ++ [makeGroup { s with nextId := s.nextId + 1 } s.nextId l f l.next r none] } : State).modLaunch i
              fun l => { l with next := l.next + 1 })) ∧
          (∀ vs, s.findRoom l.dom l.placeClass l.id (needOf f.hdr) (s.placesOf (s.partOf l.dom)) = none →
            s.preemptPlan l.dom l.placeClass (needOf f.hdr) (s.placesOf (s.partOf l.dom)) = some vs →
            exec (.placeGroup i) s = .next (requestPreempt l.placeClass l.id vs s))) ∧
        (∀ n k u, n = min (field f.hdr 14 4) (l.total - l.next) → n ≠ 0 →
          clustersOf (s.placesOf (s.partOf l.dom)) = [k] →
          putTroupe l f l.next n ((s.placesOf (s.partOf l.dom)).filter fun p => p.1 / 8 == k) n s = some u →
          exec (.placeTroupe i) s = .next (u.modLaunch i fun l => { l with next := l.next + n }))) ∧
      (∀ gid g, s.group? gid = some g → g.launch = i → g.gate = none → g.allEnded = true → s.quiet gid = true → g.st ≠ .ended → g.inSave = false →
        ∃ t, exec (.groupEnd gid) s = .next t ∧ t.groups = s.groups.filter (fun x => x.gid != gid) ∧
          t.launch? i = some { l with ended := l.ended + 1 } ∧ (l.ended + 1 = l.total → .launchComplete i ∈ t.agenda)) ∧
      ((∀ w ∈ l.waits, w.2.2 = true ∨ w.1 = 0) → l.total ≤ l.ended → (s.dom l.dom).ifstate ≠ .error →
        ∃ t, exec (.launchComplete i) s = .next t ∧ t.launch? i = none ∧
          ∀ u v, u = { s with launches := s.launches.filter fun x => x.id != i } → l.sigAddr = 0 → l.excess ≤ l.charged →
            u.devWrite l.dom l.statusAddr (leBytes 4 (3 + 256 * l.late.toNat + 512 * l.overrun.toNat + 1024 * l.killed.toNat)) 4 = .ok v →
            t.mem = v.mem ∧ t.launches = u.launches) ∧
      (l.marker = false → l.cost + l.charged < l.measured → ∃ t, exec (.launchOverrun i l.measured) s = .next t ∧
        t.launch? i = some { l with charged := l.measured - l.cost, overrun := true, background := true } ∧
        (t.dom l.dom).budgets =
          modNth (fun b => { b with owed := b.owed + (l.measured - l.cost - l.charged) }) (s.dom l.dom).budgets l.cls)

/-- 17 R387 to R391: a stop request, the stop of a wave, the deadline, the save of a group and its restore. -/
def Obligations.StopAndSaveEvents : Prop :=
  ∀ (s : State) (gid : Nat) (g : Group), s.group? gid = some g →
    (g.st = .resident → g.gate = none → ∀ cls,
      ((s.coreSt g.core).saving = false → g.why = .none → ∃ t, exec (.stopRequest g.dom [gid] cls) s = .next t ∧ t.mem = s.mem ∧
        t.group? gid = some (g.asked s (.preempt cls))) ∧
      ((s.coreSt g.core).saving = true → exec (.stopRequest g.dom [gid] cls) s =
        .next (s.modCore g.core fun k => { k with preempt := k.preempt ++ [(cls, g.dom, [gid])] }))) ∧
    (∀ wi w, g.st = .resident → g.waves[wi]? = some w → w.stopAsked = true → w.native = none → w.gond = [] → w.stopped = false →
      ∃ t, exec (.waveStop gid wi) s = .next t ∧ t.wave? gid wi = some { w with stopped := true, chosen := 0 } ∧
        ((∀ j x, g.waves[j]? = some x → j ≠ wi → x.stopped = true) → (t.coreSt g.core).saving = true ∧ .saveComplete gid ∈ t.agenda)) ∧
    (g.st = .resident → g.why ≠ .none → g.why ≠ .gang → g.allStopped = false → (∀ w ∈ g.waves, w.lanes.length ≤ 32) →
      ∃ t q, exec (.stopDeadline gid) s = .next t ∧ (∀ wi l x, t.lane? gid wi l = some x → x.st ≠ .live) ∧
        q ∈ (t.dom g.dom).trapPend ∧ q.fr.cls = 4 ∧ q.fr.group = g.lin) ∧
    (g.st = .resident → g.why ≠ .none → g.allStopped = true → g.allEnded = false → (∀ x ∈ s.gateCalls gid, x.gid ≠ gid) →
      ∃ t y, exec (.saveComplete gid) s = .next t ∧ t.group? gid = some y ∧ y.st = .saved ∧ y.borrowed = false ∧
        y.waves = g.waves.map savedWave ∧ y.handles = g.handles ∧ y.lease = g.lease ∧ (t.coreSt g.core).saving = false ∧
        ∀ i w l x, g.waves[i]? = some w → w.lanes[l]? = some x → t.lane? gid i l = some { x with ejected := false }) ∧
    (g.st = .saved → (s.dom g.dom).paused = false → ∀ core half,
      ((∀ w ∈ g.waves, w.lanes.length ≤ 32) → ∃ t, exec (.restore gid core half false) s = .next t ∧
        ∀ wi l x, t.lane? gid wi l = some x → x.st ≠ .live) ∧
      ∀ r, (s.module? g.dom g.modH).isSome → s.restoreRoom g core half = some r → s.leaseFits g core half = true →
        g.why = .none → (∀ w ∈ g.waves, w.pendAct = none) →
        ∃ t y, exec (.restore gid core half true) s = .next t ∧ t.group? gid = some y ∧ y.st = .resident ∧ y.core = core ∧ y.half = half ∧
          y.bank = r.bank ∧ ∀ i w l x, g.waves[i]? = some w → w.lanes[l]? = some x →
            t.lane? gid i l = some { x with age := 0, park := if x.park = .held ∨ x.park = .join then .none else x.park })

/-- 09 R217, R233 to R236, 19 R407 to R414: the regulators' ticks, grants and loans, the split of a core's memory, and the flits and
rails of the links. -/
def Obligations.PortEvents : Prop :=
  ∀ (s : State) (core d : Nat) (p : Port), p = s.l2Port core →
    ((∀ x ∈ p, x.2.2.borrowed = [] ∧ x.2.2.aside = 0 ∧ x.2.2.waiting = 0) → ∃ t, exec (.l2RefillTick core) s = .next t ∧ ∀ x ∈ p,
      mget Bucket.reset (t.coreSt core).buckets x.1 =
        { x.2.2 with own := min (x.2.2.own + x.2.1.rate) x.2.1.depth, issued := false }) ∧
    (∀ x ∈ p, x.1 = d → x.2.2.borrowed = [] → ∃ t, exec (.l2PortGrant core d) s = .next t ∧
      (0 < x.2.2.own → x.2.2.waiting = 0 →
        mget Bucket.reset (t.coreSt core).buckets d = { x.2.2 with own := x.2.2.own - 1, gone := x.2.2.gone + 1, issued := true }) ∧
      (x.2.2.own = 0 → mget Bucket.reset (t.coreSt core).buckets d = { x.2.2 with waiting := x.2.2.waiting + 1, issued := true }) ∧
      ((∃ y ∈ p, ∃ n, (d, n) ∈ y.2.2.borrowed) → .loanRevoke core d ∈ t.agenda)) ∧
    ((∀ x ∈ p, x.1 = d → x.2.2.waiting = 0) →
      ∃ t, exec (.loanRevoke core d) s = .next t ∧ ∀ x ∈ p, mget Bucket.reset (t.coreSt core).buckets x.1 =
      { x.2.2 with borrowed := x.2.2.borrowed.filter (fun q => q.1 != d), aside := if x.1 = d then 0 else x.2.2.aside,
                   own := if x.1 = d then min (x.2.2.own + (((p.flatMap fun y => y.2.2.borrowed.filter fun q => q.1 == d).map (·.2)).sum + x.2.2.aside))
                       x.2.1.depth
                     else x.2.2.own }) ∧
    -- a waiting request leaves with the first token, and a lender's waiting requests leave on the tokens that come back
    (∀ b n, b = requestPort n { own := 0, borrowed := [], aside := 0, waiting := 0, gone := 0, issued := false } → b.waiting = n ∧
      (leavePort { b with own := 1 }).gone = min n 1) ∧
    (∀ port, (∀ v < 66, (s.vc port v).bucket.borrowed = [] ∧ (s.vc port v).bucket.aside = 0 ∧ (s.vc port v).bucket.waiting = 0) →
      ∃ t, exec (.linkRefillTick port) s = .next t ∧ ∀ v < 66, ∀ r, r = linkRate (s.preg (0x300000 + 0x800 * port + 8 * v)) →
        (t.vc port v).bucket = { (s.vc port v).bucket with own := min ((s.vc port v).bucket.own + r.rate) r.depth, issued := false } ∧
        (port ≤ 14 → (t.vc port v).held = (s.vc port v).held)) ∧
    (∀ n old, old = (s.coreSt core).split →
      ((n ≤ (if 1 ≤ core / 128 ∧ core / 128 ≤ 6 then 8 else 4) ∧ ∀ g ∈ s.groups, g.st = .resident → g.core = core → g.nbanks = 0) →
        ∃ t, exec (.sramSplitChange core n) s = .next t ∧ (t.coreSt core).split = n ∧ ∀ k, t.byte k =
          if spadKey core (old * 262144) ≤ k ∧ k < spadKey core (old * 262144) + (n - old) * 262144 then 0 else s.byte k) ∧
      ((∃ g ∈ s.groups, g.st = .resident ∧ g.core = core ∧ g.nbanks ≠ 0) → exec (.sramSplitChange core n) s = .next (s.ignored 0))) ∧
    ∀ (r : Nat) (f : BitVec 2048) (h : FlitHead) (q : BitVec 12), h = flitHead f →
      ((flitOk f = false ∨ h.clean = false ∨ (h.ackv = false ∧ h.kind = 1 ∧ h.seq ≠ (s.rail r).expect)) →
        exec (.flitReceive r f) s = .next (s.modRail r fun x => { x with nak := some x.expect })) ∧
      -- a transaction in sequence is taken where its containment identifier holds: at the die's end it waits in its receive buffer, in the
      -- Headframe it waits for a token of the port at which it leaves, or leaves with one
      (flitOk f = true → h.clean = true → h.ackv = false → h.kind = 1 → h.seq = (s.rail r).expect →
        ∃ t p b, exec (.flitReceive r f) s = .next t ∧ (t.rail r).expect = (s.rail r).expect + 1 ∧ (t.rail r).nak = none ∧
          p = flitPort f ∧ b = (s.vc p h.vc).bucket ∧
          (s.contained h = false → (t.vc (r / 16) h.vc).held = (s.vc (r / 16) h.vc).held ∧ t.cfgErrors.length = s.cfgErrors.length + 1) ∧
          (s.contained h = true → (r / 16 = 0 ∨ 14 < r / 16) → (t.vc (r / 16) h.vc).held = (s.vc (r / 16) h.vc).held ++ [f]) ∧
          (s.contained h = true → 1 ≤ r / 16 → r / 16 ≤ 14 → b.borrowed = [] → (∀ x ∈ s.linkPort p, ∀ y ∈ x.2.2.borrowed, y.1 ≠ h.vc) →
            (b.own = 0 → (t.vc (r / 16) h.vc).held = (s.vc (r / 16) h.vc).held ++ [f] ∧
              (t.vc p h.vc).bucket = { b with waiting := b.waiting + 1, issued := true }) ∧
            (0 < b.own → b.waiting = 0 → (∀ k, 1 ≤ k → k ≤ 14 → ∀ g ∈ (s.vc k h.vc).held, flitPort g ≠ p) →
              (t.vc (r / 16) h.vc).held = (s.vc (r / 16) h.vc).held ∧
              (t.vc p h.vc).bucket = { b with own := b.own - 1, gone := b.gone + 1, issued := true } ∧
              (f ∈ (t.vc p h.vc).out ∨ ∃ k n, (n, f) ∈ (t.rail k).buf)))) ∧
      (flitOk f = true → h.clean = true → h.ackv = false → h.kind = 2 → exec (.flitReceive r f) s = .next (s.due (.nakReplay r h.seq))) ∧
      ((∃ x ∈ (s.rail r).buf, x.1 = q) → ∃ t ts, exec (.nakReplay r q) s = .next t ∧ (t.rail r).replays = ts ∧ (t.rail r).buf = (s.rail r).buf ∧
        ts = ((s.rail r).replays.filter fun x => decide (s.now < x + 1000000)) ++ [s.now] ∧
        (ts.length = 16 → .replayThreshold r ∈ t.agenda) ∧ (ts.length = 64 → .railRetrain r ∈ t.agenda)) ∧
      exec (.replayThreshold r) s = .next { s with cerrs := s.cerrs ++ [r] } ∧
      (∃ t, exec (.railRetrain r) s = .next t ∧ (t.rail r).st = 1 ∧ ∀ b bs, s.otherRails r = b :: bs → (t.rail r).buf = [] ∧
        (t.rail b).buf.map (·.2) = (s.rail b).buf.map (·.2) ++ (s.rail r).buf.map (·.2)) ∧
      ((s.rail r).st = 1 → (∃ t, exec (.railRetrainEnd r true) s = .next t ∧ (t.rail r).st = 0 ∧ (t.rail r).replays = []) ∧
        ∃ t, exec (.railRetrainEnd r false) s = .next t ∧ (t.rail r).st = 2 ∧
          ((∀ i < 16, r / 16 * 16 + i = r ∨ (s.rail (r / 16 * 16 + i)).st = 2) → 1 ≤ r / 16 → r / 16 ≤ 14 → r / 16 ∈ t.lost))

/-- 19 R404 to R406, R415 to R419, 20 R446: writes of a place table, L2DROP, the failure of a unit, a poisoned granule, the migration
of a group, and gang scheduling. -/
def Obligations.PackageEvents : Prop :=
  ∀ (s : State) (v : DWord), (∀ g ∈ s.groups, ∀ w ∈ g.waves, w.lanes.length ≤ 32) →
    (∀ off die tb k, placeAt off = some (die, tb, k) →
      (field v 12 3 = 0 → v.toNat < 2 ^ 16 → (∀ j ∈ placeMates die tb k, j ≠ k → field (s.preg (placeOff die tb j)) 0 12 ≠ field v 0 12) →
        s.quiesced die tb k = true → exec (.placeTableWrite off v) s = .next (if tb = .slice
          then { s.setPreg off v with dropped := sdel s.dropped (die * 256 + k) } else s.setPreg off v)) ∧
      ((field v 12 3 ≠ 0 ∨ 2 ^ 16 ≤ v.toNat ∨ s.quiesced die tb k = false) → exec (.placeTableWrite off v) s = .next (s.ignored 0))) ∧
    (∀ die k, v = BitVec.ofNat 64 (die + 16 * k) → 1 ≤ die → die ≤ 8 → k < 192 → exec (.l2drop v) s =
      .next (({ s with l2drops := s.l2drops ++ [(die, k, s.preg 0x4C38)] } : State).due (.l2dropDone die k))) ∧
    (∀ die k cw rest, s.l2drops = (die, k, cw) :: rest → ∃ t, exec (.l2dropDone die k) s = .next t ∧ t.l2drops = rest ∧
      t.dropped = sadd s.dropped (die * 256 + k) ∧ ∀ u, ({ s with l2drops := rest, dropped := sadd s.dropped (die * 256 + k) } : State).devWrite 0 cw
        (leBytes 8 1) 8 = .ok u → t = u) ∧
    (∀ die k, placeAt (placeOff die .core k) = some (die, .core, k) → ∃ t, exec (.unitFailure .core die k) s = .next t ∧
      field (t.preg (placeOff die .core k)) 15 1 = 1 ∧
      ∀ gid g wi l x, s.group? gid = some g → g.st = .resident → g.core = 128 * die + k → t.lane? gid wi l = some x → x.st ≠ .live) ∧
    (∀ die, ∃ t, exec (.unitFailure .link die 0) s = .next t ∧ die ∈ t.lost ∧
      ∀ gid g wi l x, s.group? gid = some g → g.st = .resident → g.core / 128 = die → t.lane? gid wi l = some x → x.st ≠ .live) ∧
    (∀ a d, s.stampOf a = some d → ∃ t q, exec (.uncorrectableMemoryError a) s = .next t ∧ a / 64 ∈ t.poison ∧
      q ∈ (t.dom d).trapPend ∧ q.fr.code = 16 ∧ q.fr.cls = 4 ∧ q.fr.addr = 0 ∧
      (d ≠ 0 → ∃ r ∈ (t.dom 0).trapPend, r.fr.code = 16 ∧ r.fr.addr = BitVec.ofNat 64 a)) ∧
    (∀ bs x, s.devRead 0 v 32 32 = .ok bs → x = mdesc bs →
      ((∀ g ∈ s.groups, ¬(g.dom = x.dom ∧ g.lin = x.lin ∧ g.gate = none ∧ s.launchWord g = x.launch ∧ g.allEnded = false)) →
        exec (.migrate v) s = .next (migrateDone v 3 s)) ∧
      ∀ g gs r, s.groups = g :: gs → (∀ y ∈ gs, y.gid ≠ g.gid) → g.dom = x.dom → x.dom ≠ 0 → g.lin = x.lin → g.gate = none → s.launchWord g = x.launch →
        g.allEnded = false → g.troupe = none →
        (g.st ≠ .resident → exec (.migrate v) s = .next (migrateDone v 4 s)) ∧
        (g.st = .resident → g.why = .none → (x.ok = false ∨ s.coreAbsent x.core = true ∨ s.moveRoom g x.core = none) →
          exec (.migrate v) s = .next (migrateDone v 2 s)) ∧
        (g.st = .resident → g.why = .none → x.ok = true → s.coreAbsent x.core = false → s.moveRoom g x.core = some r →
          exec (.migrate v) s = .next { s with groups :=
            (g.asked s (.migrate v x.core)) :: gs })) ∧
    ((field v 0 20 < 100 ∨ field v 20 20 < 10 ∨ 1000 < field v 20 20 ∨ field v 0 20 ≤ field v 20 20 ∨ field v 40 8 = 0 ∨ 64 < field v 40 8) →
      exec (.gangctlWrite v) s = .next (s.ignored 0)) ∧
    (100 ≤ field v 0 20 → 10 ≤ field v 20 20 → field v 20 20 ≤ 1000 → field v 20 20 < field v 0 20 → 1 ≤ field v 40 8 → field v 40 8 ≤ 64 →
      v.toNat < 2 ^ 49 → exec (.gangctlWrite v) s = .next (if field v 48 1 = 1
        then { s.setPreg 0x4600 v with gang := { tick := 0, since := s.now, missed := [] } } else s.setPreg 0x4600 v)) ∧
    (∀ d mask n, field (s.preg 0x4600) 48 1 = 1 → n = s.gang.tick % field (s.preg 0x4600) 40 8 → s.gangEntry n = some (d, mask) →
      ∃ t, exec .gangTick s = .next t ∧ t.gang.tick = s.gang.tick + 1 ∧ ∀ gid g, s.group? gid = some g → g.st = .resident → g.dom = d →
        g.gate = none → g.why = .none → g.core / 128 ∈ gangDies mask → t.group? gid = some
          (g.asked s (.gang))) ∧
    (∀ die, ∃ t, exec (.gangDeadline die) s = .next t ∧
      (s.gangUnsaved s.gangOut die = true → (die, s.gangOut) ∈ t.gang.missed) ∧
      ∀ n, (die, n) ∈ s.gang.missed → n ≠ s.gangOut → s.gangUnsaved n die = true → .ctxTorn n ∈ t.agenda) ∧
    ∀ n d mask, s.gangEntry n = some (d, mask) → ∃ t q, exec (.ctxTorn n) s = .next t ∧ q ∈ (t.dom d).trapPend ∧ q.fr.code = 17 ∧
      (∀ k, (k, n) ∉ t.gang.missed) ∧
      ∀ gid g wi l x, s.group? gid = some g → g.dom = d → g.gate = none → g.core / 128 ∈ gangDies mask → t.lane? gid wi l = some x → x.st ≠ .live

/-- 17 R379 to R386, R392, R393, R399, 22 R473: the record writer, the words by which a handler continues or kills a stopped wave, the
records of a hypervisor, the debug register, and cached translations. -/
def Obligations.TrapServiceEvents : Prop :=
  ∀ (s : State) (d : Nat) (seq : Word),
    (∀ r rest u, (s.dom d).trapPend = r :: rest → s.ringSet d trapRing = true → s.ringFull d trapRing = false →
      s.ringWrite d trapRing (r.fr.bytes r.seq) = .ok u → ∃ t, exec (.trapRecordWrite d) s = .next t ∧ t.mem = u.mem ∧
        (t.dom d).trapPend = rest ∧ t.dreg d 0x118 = s.dreg d 0x118 + 1 ∧ (t.dreg d 0x1C0).getLsbD 0 = true) ∧
    ((s.dom d).trapPend ≠ [] → s.ringFull d trapRing = true → s.ringSet d trapRing = true → exec (.trapRecordWrite d) s = .next s) ∧
    (∀ gid wi g w t, s.findStop d seq = some (gid, wi) → s.group? gid = some g → g.waves[wi]? = some w → w.trap = some t →
      (g.st ≠ .saved → ∃ u y, exec (.resume d seq) s = .next u ∧ u.mem = s.mem ∧ u.wave? gid wi = some y ∧ y.trap = none ∧ y.chosen = 0 ∧
        (t.fr.code ≠ 11 → y.lanes = w.lanes) ∧ (t.fr.code = 9 → y.waive = t.fr.run) ∧
        (t.fr.code = 11 → ∀ l x, w.lanes[l]? = some x →
          y.lanes[l]? = some (if inMask t.fr.run l ∧ x.st = .live then { x.advance with age := 0 } else x))) ∧
      (g.st ≠ .saved → ∀ x, t.fr.lane.getLsbD 6 = false → t.fr.wave = wi → w.lanes[t.fr.lane.toNat % 32]? = some x → x.st = .live →
        ∃ u y z, exec (.killLane d seq) s = .next u ∧ u.wave? gid wi = some y ∧ y.trap = none ∧
          y.lanes[t.fr.lane.toNat % 32]? = some z ∧ z.st = .killed ∧ inMask y.dead (t.fr.lane.toNat % 32) = true) ∧
      (g.st ≠ .saved → w.lanes.length ≤ 32 → ∃ u y, exec (.killWave d seq) s = .next u ∧ u.wave? gid wi = some y ∧ y.trap = none ∧
        ∀ x ∈ y.lanes, x.st ≠ .live) ∧
      (g.st = .saved → ∀ i a, ((i, a) = (.resume d seq, 0) ∨ (i, a) = (.killLane d seq, 1) ∨ (i, a) = (.killWave d seq, 2)) →
        exec i s = .next (s.modWave gid wi fun w => { w with pendAct := some a }))) ∧
    (s.findStop d seq = none → d < 128 → ∀ i, (i = .resume d seq ∨ i = .killLane d seq ∨ i = .killWave d seq) →
      exec i s = .next (s.ignored d)) ∧
    (∀ r k, ((s.dom 0).hyp.find? fun (q, _) => q.seq == seq) = some (r, k) → ∀ i, (i = .forward seq ∨ i = .hypTimeout seq) →
      ∃ t q, exec i s = .next t ∧ (t.dom k).trapPend = (s.dom k).trapPend ++ [q] ∧ q.seq = (s.dom k).trapSeq + 1 ∧
        q.fr.code = r.fr.code ∧ q.fr.addr = r.fr.addr ∧ ∀ x ∈ (t.dom 0).hyp, x.1.seq ≠ seq) ∧
    (((s.dom 0).hyp.find? fun (q, _) => q.seq == seq) = none → exec (.forward seq) s = .next (s.ignored 0) ∧ exec (.hypTimeout seq) s = .next s) ∧
    (∀ gid wi w v by0, s.selectedWave d = some (gid, wi) → s.wave? gid wi = some w → (by0 = true ∨ field (s.dreg d 0x1B0) 2 1 = 1) →
      ∃ t, exec (.wdctlWrite by0 d v) s = .next t ∧
        t.wave? gid wi = some { w with dbg := (v &&& 3#64) ||| (if by0 then v &&& 4#64 else w.dbg &&& 4#64) }) ∧
    (∀ v, (s.selectedWave d = none ∨ field (s.dreg d 0x1B0) 2 1 = 0) → exec (.wdctlWrite false d v) s = .next (s.ignored d)) ∧
    (∀ (va : BitVec 56) e, s.walk d va.toNat = .leaf e → (∀ q ∈ (s.dom d).tlb, ¬(q.va ≤ va.toNat ∧ va.toNat < q.va + q.len)) →
      exec (.pageWalkDone d va) s = .next (s.modDom d fun x => { x with tlb := x.tlb ++ [e] })) ∧
    (∀ cw, exec (.tlbInvalidate d cw) s = .next ((s.modDom d fun x =>
      { x with tlbPend := x.tlbPend ++ [(cw, s.dreg d 0x198, s.dreg d 0x1A0)] }).due (.tlbInvalidateDone d))) ∧
    (∀ cw va len rest, (s.dom d).tlbPend = (cw, va, len) :: rest → ∃ t, exec (.tlbInvalidateDone d) s = .next t ∧ (t.dom d).tlbPend = rest ∧
      ((t.dom d).tlb = (s.dom d).tlb.filter fun e => !decide (e.va < ptrAddr va + len.toNat ∧ ptrAddr va < e.va + e.len)) ∧
      (rest ≠ [] → .tlbInvalidateDone d ∈ t.agenda)) ∧
    ∀ (r : FaultRec) (b : Nat → Nat → Nat), (∀ o n, b o n = leNat (((r.bytes seq).drop o).take n)) → (r.bytes seq).length = 64 ∧
      b 0 2 = r.code % 2 ^ 16 ∧ b 2 1 = r.cls % 256 ∧ b 3 1 = r.lane.toNat ∧ b 6 1 = r.dom % 256 ∧ b 8 8 = r.addr.toNat ∧
      b 16 4 = r.func % 2 ^ 32 ∧ b 20 4 = r.index % 2 ^ 32 ∧ b 32 4 = r.group % 2 ^ 32 ∧ b 40 4 = r.dead.toNat ∧ b 44 4 = r.run.toNat ∧ b 56 4 = r.launch.toNat ∧ b 60 4 = seq.toNat

/-- 12 R281, R284 to R296, R303 to R305, 21 R468: how the engines check a command and give it to the firmware, how the units of an operation
are performed in order, each when its lines have left the L2 port, and what a failed check, an index outside the window, the firmware's DONE,
an exception, the watchdog and the bound leave; the firmware's transfers, contributions, reductions, merges, and the push. 12 R285: the engine
writes the status word of a push: CODE in [7:0], FLAGS in [15:8], DLV in bit 16 and COUNT in [63:32]; a failure of the write is reported to
the domain with the word's own address and changes no byte. -/
def Obligations.EngineEventsAndStatusWords : Prop :=
  (∀ (s : State) (i : Nat) (c : Cmd) (perform : OneUnit → Nat → (State → State) → Out → Prop), s.cmd? i = some c →
    -- an operation of m units, from its next unit on: performed to the end, as far as the port lets it, or ended by a failed unit
    (∀ u m done o, perform u m done o ↔ ∃ t r, runRest i m u s = (t, r) ∧
      (r = .done → o = .next (done (t.modCmd i fun c => { c with units := 0, lines := [], port := none }))) ∧ (r = .waits → o = .next t) ∧
      (∀ f, r = .stopped (.fault f) → o = .next (finishFault i f t)) ∧
      (∀ k, r = .stopped (.index k) → o = .next (finishAt i 2 (BitVec.ofNat 64 k) t))) →
    (c.phase = .queued → c.kind ≠ .merge → s.mayStart c = true →
      (s.cmdBad c = true → exec (.fwCmdRead i) s = .next (finish i 5 0 0 s)) ∧
      (s.cmdBad c = false → s.fwKey c = none → ∀ v m,
        (v = s ∧ (c.kind.onCe = true ∨ c.dom ∈ (s.cluster (c.core / 8)).keImages) ∨
          c.kind.onCe = false ∧ c.dom ∉ (s.cluster (c.core / 8)).keImages ∧ (s.cluster (c.core / 8)).keImages.length < 4 ∧
          v = s.modCluster (c.core / 8) fun k => { k with keImages := k.keImages ++ [c.dom] }) →
        m = (match c.kind with | .coll _ => v.cmdComm c | _ => none) →
        exec (.fwCmdRead i) s = .next (v.modCmd i fun c => { c with phase := .running, comm := m }))) ∧
    (∀ v, c.dom ∉ (s.cluster (c.core / 8)).keImages → v ∈ (s.cluster (c.core / 8)).keImages → 4 ≤ (s.cluster (c.core / 8)).keImages.length →
      (s.keRuns (c.core / 8) v = false → exec (.firmwareImageReplace i v) s = .next (s.modCluster (c.core / 8) fun k =>
        { k with keImages := (k.keImages.filter fun d => d != v) ++ [c.dom], fw := k.fw.filter fun x => x.1 != v })) ∧
      (s.keRuns (c.core / 8) v = true → exec (.firmwareImageReplace i v) s = .next (s.modCluster (c.core / 8) id))) ∧
    (∀ a b n m r, (s.fwAt c = none → exec (.fwPggo i a b n m r) s = .next s) ∧
      ∀ k v x, s.fwAt c = some (k, v, .go x) → v.csrs.take 5 = [a, b, n, m, r] → ∃ t, exec (.fwPggo i a b n m r) s = .next t ∧ t.mem = s.mem ∧
        t.cmd? i = some { c with units := 0, lines := [], port := none, phase := .busy, csrs := [a, b, n, m, r, 0] }) ∧
    (c.phase = .running → s.customFw c = false → c.sent = false → c.worked = false → s.portFree c = true →
      ((c.kind = .copy ∨ c.kind = .gather ∨ c.kind = .scatter) →
        perform (s.ceUnits c).1 (s.ceUnits c).2 (fun t => t.modCmd i fun c => { c with worked := true }) (exec (.pathTransferDone i) s)) ∧
      (∀ k m, c.kind = .coll k → s.cmdComm c = some m → perform (sendUnit c (s.cmdWho c) m k) (m.p * sendUnits c k m)
        (fun t => t.modCmd i fun c => { c with sent := true }) (exec (.pathTransferDone i) s)) ∧
      -- a copy of one unit: its bytes are read before one is written, and COUNT rises by their number
      (∀ n ps u, c.kind = .copy → n = (c.st 2).toNat → 0 < n → n ≤ 64 → c.units = 0 → c.lines = [] → c.port = none →
        s.engineCheck (s.cmdWho c) [Part.read (ptrPlus (c.st 1) 0) n 1, Part.write (ptrPlus (c.st 0) 0) n 1] = .ok ps →
        moveLines c.core c.dom (linesOf ps).length s = (none, u) →
        ∃ t e, exec (.pathTransferDone i) s = .next t ∧ t.cmd? i = some e ∧ e.worked = true ∧ e.count = c.count + n ∧
          t.mem = (engineWrite c.dom (ps.filter fun p => p.piece.part.wr) (u.readPlaces (ps.filter fun p => p.piece.part.rd)) u).mem) ∧
      (∀ n f, c.kind = .copy → n = (c.st 2).toNat → 0 < n → n ≤ 64 → c.units = 0 →
        s.engineCheck (s.cmdWho c) [Part.read (ptrPlus (c.st 1) 0) n 1, Part.write (ptrPlus (c.st 0) 0) n 1] = .error f →
        ∃ t e, exec (.pathTransferDone i) s = .next t ∧ t.cmd? i = some e ∧ e.phase = .finished ∧ e.code = 1 ∧ e.addr = f.addr ∧ e.fault = f.code ∧
          t.mem = s.mem)) ∧
    (∀ a b n m r, c.phase = .busy → c.csrs = [a, b, n, m, r, 0] → s.portFree c = true →
      (s.pathUnits c = none → exec (.pathTransferDone i) s = .next (finishAt i 3 0 (pgDone c 2 0 s))) ∧
      ((n = 0 ∨ 2 ^ 32 < n.toNat ∨ 3 < m.toNat ∨ m.toNat ≠ 2 ∧ c.covered a n.toNat = false ∨
        (m.toNat = 0 ∨ m.toNat = 2) ∧ c.covered b n.toNat = false ∨ m.toNat = 1 ∧ 16384 < b.toNat + n.toNat ∨ m.toNat = 2 ∧ 16384 < a.toNat + n.toNat) →
        s.pathUnits c = none) ∧
      (0 < n.toNat → n.toNat ≤ 2 ^ 32 → m = 0 → c.covered a n.toNat = true → c.covered b n.toNat = true →
        s.pathUnits c = some (copyUnit i (s.cmdWho c) a b n.toNat, n.toNat, decide (ptrAddr a < ptrAddr b ∧ ptrAddr b < ptrAddr a + n.toNat))) ∧
      (∀ u k down t e, s.pathUnits c = some (u, k, down) → runRest i (copyUnits k) u s = (t, e) →
        (e = .done → exec (.pathTransferDone i) s = .next (pgDone c 0 k t)) ∧ (e = .waits → exec (.pathTransferDone i) s = .next t) ∧
        (∀ f y, e = .stopped (.fault f) → t.cmd? i = some y →
          exec (.pathTransferDone i) s = .next (finishFault i f (pgDone c 1 (copyBytes k down y.units) t)))) ∧
      ∀ stat k, ∃ e, (pgDone c stat k s).cmd? i = some e ∧ e.phase = .running ∧ (pgDone c stat k s).mem = s.mem ∧
        e.csrs = [a, b, n, m, r, BitVec.ofNat 64 (stat + k % 2 ^ 32 * 2 ^ 32)]) ∧
    (∀ (code : BitVec 8) (n : BitVec 32),
      (s.customFw c = false → c.phase = .running → c.worked = true → exec (.fwDone i code n) s = .next
        (finish i (if code = 0 ∨ 128 ≤ code.toNat then code.toNat else 3) n.toNat 0 s)) ∧
      ∀ k v w x, s.fwAt c = some (k, v, .done w x) → w.extractLsb' 0 8 = code → w.extractLsb' 32 32 = n → ∃ t e, exec (.fwDone i code n) s = .next t ∧
        t.cmd? i = some e ∧ e.phase = .finished ∧ e.code = (if code = 0 ∨ 128 ≤ code.toNat then code.toNat else 3) ∧ e.count = n.toNat ∧
        .enginePush i ∈ t.agenda) ∧
    ((c.phase = .running ∨ c.phase = .busy) → ∀ e, (e = .firmwareWatchdog i ∨ e = .firmwareException i ∧ ∃ k v, s.fwAt c = some (k, v, .bad)) →
      ∃ t y, exec e s = .next t ∧ t.cmd? i = some y ∧ y.phase = .finished ∧ y.code = 3 ∧ y.count = c.count / c.unit % 2 ^ 32 ∧ t.mem = s.mem ∧
        .enginePush i ∈ t.agenda) ∧
    (∀ k r o bs, c.kind = .coll k → c.phase ≠ .finished → c.worked = false → ∃ t e, exec (.keContribution i r o bs) s = .next t ∧
      t.cmd? i = some e ∧ e = { c with contribs := c.contribs ++ [(r, o, bs)] }) ∧
    (∀ k m, c.kind = .coll k → s.cmdComm c = some m → c.worked = false →
      (c.phase = .running → contribsIn c k m = true → s.portFree c = true → (s.customFw c = true ∨ c.sent = true) →
        perform (collUnit c (s.cmdWho c) k m) (collCounts k c.kcount m).2.1
          (fun t => t.modCmd i fun c => { c with worked := true, contribs := [] }) (exec (.keReduce i) s)) ∧
      (c.phase ≠ .finished → contribsIn c k m = false → exec (.keBoundExpiry i) s = .next (finish i 4 (c.count / c.unit) 0 s))) ∧
    (c.kind = .merge → c.phase = .queued → s.mayStart c = true → s.portFree c = true →
      (c.bad = true → exec (.keReduce i) s = .next (finish i 5 0 0 s)) ∧
      (c.bad = false → perform (mergeUnit c (s.cmdWho c) (c.mergeFmt.width / 8) (c.stg.drop 1)) (field (c.st 0) 0 32) (finishAt i 0 0)
        (exec (.keReduce i) s))) ∧
    ∀ (g : Group) (h : Handle), s.group? c.gid = some g → c.handle < g.handles.length → h = g.handle c.handle → c.phase = .finished →
      h.push = c.claim → h.codes.length = 2 ^ h.logn → ∃ t y, exec (.enginePush i) s = .next t ∧ t.group? c.gid = some y ∧
        (y.handle c.handle).push = h.push + 1 ∧ (y.handle c.handle).codeAt (c.claim.toNat % 2 ^ h.logn) = BitVec.ofNat 9 (c.code % 256) ∧
        t.cmd? i = none ∧ (∀ r ∈ (t.coreSt c.core).rlt, r.cmd ≠ i) ∧ i ∉ (t.coreSt c.core).ceQueue ∧ i ∉ (t.cluster (c.core / 8)).keQueue) ∧
  (∀ (s : State) (g : Group) (h : Handle) (k : Nat) (code : BitVec 9) (i : PushInfo) (w : DWord), i = h.infoAt k →
    w = BitVec.ofNat 64 (code.toNat % 256 + i.flags.toNat * 2 ^ 8 + code.toNat / 256 * 2 ^ 16 + i.count % 2 ^ 32 * 2 ^ 32) →
    (∀ ps, s.checkParts ⟨g.dom, g.core, g.gid, i.wave, i.lane, true, false, false⟩
        [Part.write (ptrWith h.stat (ptrAddr h.stat + k * 8)) 8 8] = .ok ps →
      writeStatus g h k code s = s.writePlaces ps (leBytes 8 w.toNat)) ∧
    (∀ f, s.checkParts ⟨g.dom, g.core, g.gid, i.wave, i.lane, true, false, false⟩
        [Part.write (ptrWith h.stat (ptrAddr h.stat + k * 8)) 8 8] = .error f →
      ∃ q, (writeStatus g h k code s).mem = s.mem ∧ ((writeStatus g h k code s).dom g.dom).trapPend = (s.dom g.dom).trapPend ++ [q] ∧
        q.fr.cls = 4 ∧ q.fr.code = f.code ∧ q.fr.addr = ptrWith h.stat (ptrAddr h.stat + k * 8)) ∧
    w.extractLsb' 0 8 = code.extractLsb' 0 8 ∧ w.extractLsb' 8 8 = i.flags ∧ w.getLsbD 16 = code.getLsbD 8 ∧
    (w.extractLsb' 32 32).toNat = i.count % 2 ^ 32)

/-- 16 R360, R365 to R368, R376, 17 R397, R398, 18 R400, R401: lines of the translation cache, the translation of a region (an image that
matches, or what the Assayer made where it is lawful), text that cannot be read, the replacement of an image, eviction, and the freeing of a
translation's space. -/
def Obligations.TranslationEvents : Prop :=
  ∀ (s : State) (cl a b : Nat), b = a / 64 * 64 →
    (((s.cluster cl).xlateAt b).isSome → b ∉ (s.cluster cl).tc → ∃ t, exec (.tcLineFill cl a) s = .next t ∧ b ∈ (t.cluster cl).tc ∧
      (((s.cluster cl).tc.filter fun x => x / 64 % 8192 == a / 64 % 8192).length < 16 → ∀ x ∈ (s.cluster cl).tc, x ∈ (t.cluster cl).tc)) ∧
    (((s.cluster cl).xlateAt b).isSome → b ∈ (s.cluster cl).tc → ∃ t, exec (.tcLineFill cl a) s = .next t ∧
      (t.cluster cl).tc = (s.cluster cl).tc ∧ (t.cluster cl).corrected = (s.cluster cl).corrected + 1) ∧
    (∃ t, exec (.tcLineError cl a) s = .next t ∧ b ∉ (t.cluster cl).tc ∧ (t.cluster cl).badLines = (s.cluster cl).badLines + 1 ∧
      (t.cluster cl).xlates = (s.cluster cl).xlates) ∧
    (∀ (key : XlateKey) (body : XlateBody) (m : Module), s.module? key.dom key.modH = some m →
      (∀ x ∈ (s.cluster cl).xlates, x.key = key → x.retiring = true) → body.fromImage = false → m.images = [] →
      (s.cluster cl).mayServe key = true →
      (∀ p, s.textFault key body.entries = none → s.regionLawful m key ((s.cluster cl).coverOf key) body = true →
        findGap body.lines.length (s.cluster cl).xlates = some p →
        ∃ t x, exec (.translateRegion cl key body) s = .next t ∧ (t.cluster cl).xlates = (s.cluster cl).xlates ++ [x] ∧ x.key = key ∧ x.base = p ∧
          x.lines = body.lines ∧ x.retiring = false ∧ (∀ r ∈ (t.cluster cl).xqueue, r.key ≠ key) ∧
          x.entries = body.entries.map fun e => { e with line := e.line + p / 64 }) ∧
      (s.textFault key body.entries = none → s.regionLawful m key ((s.cluster cl).coverOf key) body = false →
        exec (.translateRegion cl key body) s = .next s) ∧
      (∀ p v, s.textFault key body.entries = none → s.regionLawful m key ((s.cluster cl).coverOf key) body = true →
        findGap body.lines.length (s.cluster cl).xlates = none → (s.cluster cl).victim key.dom = some v →
        p = v.xid → exec (.translateRegion cl key body) s = .next (evict cl p 0 s)) ∧
      (∀ code p, s.textFault key body.entries = some (code, p) → ∃ t, exec (.translateRegion cl key body) s = .next t ∧
        (t.cluster cl).xfail = (s.cluster cl).xfail ++ [(key.dom, key.modH, key.func, key.entry, code, p)] ∧
        (t.cluster cl).xlates = (s.cluster cl).xlates ∧ ∀ r ∈ (t.cluster cl).xqueue, r.key ≠ key)) ∧
    (∀ (key : XlateKey) (body im : XlateBody) (m : Module) (q : XlateKey) (p : Nat), s.module? key.dom key.modH = some m →
      (∀ x ∈ (s.cluster cl).xlates, x.key ≠ key ∧ key ∉ x.runs) → m.images = [(q, im)] → imageServes true q key = true →
      (s.cluster cl).mayServe key = true → s.textFault key im.entries = none → findGap im.lines.length (s.cluster cl).xlates = some p →
      (im.fromImage = true ∨ s.regionLawful m key ((s.cluster cl).coverOf key) im = true) →
      ∃ t x, exec (.translateRegion cl key body) s = .next t ∧ (t.cluster cl).xlates = (s.cluster cl).xlates ++ [x] ∧ x.key = key ∧ x.base = p ∧
        x.lines = im.lines) ∧
    (∀ n p, findGap n (s.cluster cl).xlates = some p → p + 64 * n ≤ 2 ^ 25 ∧
      ∀ x ∈ (s.cluster cl).xlates, p + 64 * n ≤ x.base ∨ x.base + 64 * x.lines.length ≤ p) ∧
    (∀ xid cause x, ((s.cluster cl).xlates.find? fun x => x.xid == xid) = some x → x.retiring = false → ∃ t, exec (.eviction cl xid cause) s = .next t ∧
      (t.cluster cl).xlates = ((s.cluster cl).xlates.map fun y => if y.xid = xid then { y with retiring := true } else y) ∧
      .translationFree cl xid ∈ t.agenda) ∧
    (∀ xid x, ((s.cluster cl).xlates.find? fun x => x.xid == xid && x.retiring) = some x → s.inXlate cl x = false →
      ∃ t, exec (.translationFree cl xid) s = .next t ∧ (t.cluster cl).xlates = ((s.cluster cl).xlates.filter fun y => y.xid != xid) ∧
        ∀ p ∈ (t.cluster cl).tc, p < x.base ∨ x.base + 64 * x.lines.length ≤ p) ∧
    ∀ gid wi g w n x e m p, s.group? gid = some g → s.wave? gid wi = some w → w.native = some n → w.together 0xFFFFFFFF#32 = (m, p) →
      (s.cluster (g.core / 8)).xlateAt p = some x → x.entryAt p 0 = some e → replaced s g w x e = true →
      exec (.imageReplace gid wi) s = .next (leaveAt gid wi m e (entryPoint n.regs e) s)

/-- 20 R424 to R427, R430 to R432, 09 R233, 21 R450, 22 R480: writes of the partition, slice, domain, DPR and counter registers, and
the reshapes of a core. -/
def Obligations.ConfigurationEvents : Prop :=
  ∀ (s : State) (v : DWord) (c e w k d p : Nat),
    (∀ far off n, off = sliceOff far k → n = (if far then 2048 else 384) →
      ((n ≤ k ∨ 2 ^ 8 ≤ v.toNat ∨ 64 < field v 0 7) → exec (.sliceTableWrite far k v) s = .next (s.configError off)) ∧
      (k < n → v.toNat < 2 ^ 8 → field v 0 7 ≤ 64 → (field (s.preg off) 7 1 = 1 → s.frozen (field (s.preg off) 0 7) = false) →
        exec (.sliceTableWrite far k v) s =
          .next (({ s with restamps := s.restamps ++ [(off, v, s.preg 0x4C28)] } : State).due (.sliceZeroDone far k))) ∧
      (k < n → v.toNat < 2 ^ 8 → field v 0 7 ≤ 64 → field (s.preg off) 7 1 = 1 → s.frozen (field (s.preg off) 0 7) = true →
        exec (.sliceTableWrite far k v) s = .next (toError (field (s.preg off) 0 7) s)) ∧
      (∀ cw rest base, s.restamps = (off, v, cw) :: rest → base = (if far then 2 ^ 40 else 0) + k * 2 ^ 30 →
        exec (.sliceZeroDone far k) s =
          .next (((({ s with restamps := rest } : State).zeroRange base (2 ^ 30)).setPreg off v).completionWord 0 cw) ∧
        ∀ a, base ≤ a → a < base + 2 ^ 30 → (s.zeroRange base (2 ^ 30)).byte a = 0 ∧ (s.zeroRange base (2 ^ 30)).tagAt a = 0 ∧
          a / 64 ∉ (s.zeroRange base (2 ^ 30)).poison)) ∧
    ((64 < d ∨ field v 48 16 ≠ 0 ∨ field v 23 9 ≠ 0 ∨ 23 < field v 0 5 ∨
        (field v 5 1 = 1 ∧ field (s.preg (0x4400 + 8 * field v 0 5)) 10 1 = 0)) →
      exec (.domcfgWrite d v) s = .next (s.configError (0x4000 + 8 * d))) ∧
    (d ≤ 64 → field v 48 16 = 0 → field v 23 9 = 0 → field v 0 5 ≤ 23 → (field v 5 1 = 1 → field (s.preg (0x4400 + 8 * field v 0 5)) 10 1 = 1) →
      (s.frozen d = true → exec (.domcfgWrite d v) s = .next (toError d s)) ∧
      (s.frozen d = false → ∃ t, exec (.domcfgWrite d v) s = .next t ∧ t.domcfg d = setField v 32 16 (s.gen d) ∧ t.gen d = s.gen d ∧ t.mem = s.mem ∧
        (field (s.domcfg d) 5 1 = 0 → field v 5 1 = 1 → d ≠ 0 → t.dreg d 0x1C8 = 0x3F ∧ (t.dom d).paused = false ∧
          ∀ o ∈ [0x148, 0x168, 0x1B0, 0x1C0, 0x1D8, 0x1E0], t.dreg d o = 0))) ∧
    ((p ≤ 23 → v.toNat < 2 ^ 11 → 1 ≤ field v 0 10 → field v 0 10 ≤ 1000 → exec (.partcfgWrite p v) s = .next (s.setPreg (0x4400 + 8 * p) v)) ∧
      ((23 < p ∨ 2 ^ 11 ≤ v.toNat ∨ field v 0 10 = 0 ∨ 1000 < field v 0 10) →
        exec (.partcfgWrite p v) s = .next (s.configError (0x4400 + 8 * p)))) ∧
    (c < 1152 → e < 8 → ∀ off, off = 0x20000 + 256 * c + 32 * e + 8 * w →
      ((w = 0 ∧ s.dpraOk c e v = false ∨ w = 1 ∧ dprbOk c v = false ∨ w = 2 ∧ s.l2Ok c e v = false ∨ 2 < w) →
        exec (.dprWrite c e w v) s = .next (s.configError off)) ∧
      ((w = 0 ∧ s.dpraOk c e v = true ∨ w = 1 ∧ dprbOk c v = true ∨ w = 2 ∧ s.l2Ok c e v = true) →
        (field (s.dpra c e) 7 1 = 1 → s.frozen (field (s.dpra c e) 0 7) = false) →
        ((w ≠ 0 ∨ s.takesAway c e v = false) → exec (.dprWrite c e w v) s = .next (s.setPreg off v)) ∧
        (w = 0 → s.takesAway c e v = true → (s.coreSt c).reshape = none → ∃ t, exec (.dprWrite c e w v) s = .next t ∧ t.dpra c e = s.dpra c e ∧
          ∃ r, (t.coreSt c).reshape = some r ∧ r.dpr = some (e, 0, v))) ∧
      (s.dpraOk c e v = true → 2 ^ 55 > v.toNat ∧ field v 0 7 ≤ 64 ∧ (field v 7 1 = 1 →
        field v 9 5 + field v 14 6 ≤ s.coreSlots c ∧ s.corePart c (field v 8 1) = some (s.partOf (field v 0 7)) ∧
        (s.isSplit c = false → field v 8 1 = 0) ∧
        ∀ j < 8, j ≠ e → field (s.dpra c j) 7 1 = 1 → field (s.dpra c j) 8 1 = field v 8 1 → field (s.dpra c j) 0 7 ≠ field v 0 7 ∧
          (field v 9 5 + field v 14 6 ≤ field (s.dpra c j) 9 5 ∨ field (s.dpra c j) 9 5 + field (s.dpra c j) 14 6 ≤ field v 9 5 ∨
            field v 14 6 = 0 ∨ field (s.dpra c j) 14 6 = 0)))) ∧
    ((d ≤ 64 → v.toNat < 2 ^ 33 → field v 0 16 + field v 16 17 ≤ 65536 → (∀ x ∈ (s.dom d).tables, x = none) →
        (∀ j ≤ 64, j ≠ d → ∀ q, q = s.preg (0x4A00 + 8 * j) → field v 0 16 + field v 16 17 ≤ field q 0 16 ∨ field q 0 16 + field q 16 17 ≤ field v 0 16) →
        exec (.wcntWrite d v) s = .next (if s.frozen d then toError d s else s.setPreg (0x4A00 + 8 * d) v)) ∧
      ((64 < d ∨ field v 33 31 ≠ 0 ∨ 65536 < field v 0 16 + field v 16 17) → exec (.wcntWrite d v) s = .next (s.configError (0x4A00 + 8 * d)))) ∧
    (∀ f i, s.devRead 0 v 32 32 = .error f → (i = .reshapeAssign v ∨ i = .reshapeSplit v ∨ i = .reshapeJoin v) →
      exec i s = .next (s.configError 0x4C08)) ∧
    (∀ bs x kind i, s.devRead 0 v 32 32 = .ok bs → x = rdesc bs →
      ((kind, i) = (0, .reshapeAssign v) ∨ (kind, i) = (1, .reshapeSplit v) ∨ (kind, i) = (2, .reshapeJoin v)) →
      (s.rdescOk kind x = false → exec i s = .next (reportDone 8 v 3 s)) ∧
      (s.rdescOk kind x = true → (s.coreSt x.core).reshape.isSome → exec i s = .next (reportDone 8 v 2 s)) ∧
      (s.rdescOk kind x = true → (s.coreSt x.core).reshape = none → (∀ g ∈ s.groups, ∀ a b, g.why ≠ .migrate a b) →
        (∀ j < 8, field (s.dpra x.core j) 7 1 = 1 → s.frozen (field (s.dpra x.core j) 0 7) = false) →
        (kind = 0 → exec i s = .next (s.modCore x.core fun y => { y with reshape := some ⟨0, v, x.part0, x.part1, none, false, s.drainDue x.core 0⟩ })) ∧
        (kind ≠ 0 → (∀ g ∈ s.groups, g.gate = none) → ∃ t, exec i s = .next t ∧
          (t.coreSt x.core).reshape = some ⟨kind, v, x.part0, x.part1, none, true, s.drainDue x.core 0⟩ ∧ ∀ gid g, s.group? gid = some g → g.st = .resident →
            g.core = x.core → g.why = .none → t.group? gid = some
              (g.asked s (.reshape))))) ∧
    (∀ r, (s.coreSt c).reshape = some r → r.kind = 0 → r.dpr = none → s.isSplit c = false → (∀ g ∈ s.groups, g.gate = none) →
      (r.moved = true → exec (.drainDeadline c) s = .next s) ∧
      (r.moved = false → ∃ t, exec (.drainDeadline c) s = .next t ∧ (t.coreSt c).reshape = some { r with moved := true } ∧
        ∀ gid g, s.group? gid = some g → g.st = .resident → g.core = c → g.why = .none → t.group? gid = some
          (g.asked s (.reshape)))) ∧
    ∀ r, (s.coreSt c).reshape = some r → r.dpr = none → r.desc = noDesc → s.groups = [] →
      ((finishReshape c s).coreSt c).reshape = none ∧ (finishReshape c s).corecfg c = reshaped r (s.corecfg c) ∧
      (r.kind ≠ 0 → ∀ j < 8, field ((finishReshape c s).dpra c j) 7 1 = 0) ∧
      (r.kind = 0 → field (s.corecfg c) 11 1 = 0 → r.part0 < 31 → field (reshaped r (s.corecfg c)) 0 1 = 1 ∧
        field (reshaped r (s.corecfg c)) 1 5 = r.part0) ∧
      (r.kind = 1 → r.part0 < 32 → r.part1 < 32 → field (reshaped r (s.corecfg c)) 0 1 = 1 ∧ field (reshaped r (s.corecfg c)) 11 1 = 1 ∧
        field (reshaped r (s.corecfg c)) 1 5 = r.part0 ∧ field (reshaped r (s.corecfg c)) 6 5 = r.part1)

/-- 20 R433, R434, R440, R447, 22 R474, R476, R477, R487, 03 R93, 06 R184, 10 R257: pausing, resuming and resetting a domain, the limit
of a gate call, guest counters, modules, and the accesses of the host and of peers. -/
def Obligations.DomainEvents : Prop :=
  ∀ (s : State) (d k : Nat), (∀ g ∈ s.groups, ∀ w ∈ g.waves, w.lanes.length ≤ 32) →
    ((d = 0 ∨ s.domValid d = false) → ∀ i, (i = .domainPause d ∨ i = .domainResume d ∨ i = .domainReset d) → exec i s = .next (s.ignored 0)) ∧
    (d ≠ 0 → s.domValid d = true →
      ((∀ g ∈ s.groups, g.gate = none) → ∃ t, exec (.domainPause d) s = .next t ∧ t.mem = s.mem ∧
        t.dom d = { s.dom d with paused := true, stopCw := (s.dom d).stopCw ++ [s.preg 0x4C18] } ∧
        ∀ gid g, s.group? gid = some g → g.dom = d → g.st = .resident → g.why = .none → t.group? gid = some
          (g.asked s (.pause))) ∧
      (∃ t, exec (.domainResume d) s = .next t ∧ (t.dom d).paused = false ∧ (t.dom d).latched = [] ∧
        (∀ gid g, s.group? gid = some g → g.dom = d → g.st = .saved → g.why = .pause → t.group? gid = some { g with why := .none }) ∧
        ((s.dom d).paused = true → (s.dom d).latched = [] → (t.dom d).msix = (s.dom d).msix ++
          (List.range 6).filter fun n => (s.dreg d 0x1C0).getLsbD n && !(s.dreg d 0x1C8).getLsbD n)) ∧
      exec (.domainReset d) s = .next ((resetDomain d s).completionWord 0 (s.preg 0x4C18))) ∧
    (1 ≤ d → d ≤ 64 → exec (.hostFunctionReset d) s = .next (resetDomain d s)) ∧
    (∀ t, t = resetDomain d s → d ≠ 0 → t.gen d = (s.gen d + 1) % 2 ^ 16 ∧ (∀ off, off ≠ 0x4000 + 8 * d → t.preg off = s.preg off) ∧
      (t.dom d).paused = false ∧ (t.dom d).ifstate = .unlocked ∧ (t.dom d).discarded = s.unread d ∧ (t.dom d).trapPend = [] ∧ (t.dom d).evPend = [] ∧
      (t.dom d).wlPend = [] ∧ (t.dom d).latched = [] ∧ (t.dom d).watch = List.replicate 32 ⟨0, 0⟩ ∧ t.dreg d 0x1C8 = 0x3F ∧
      (∀ o ∈ [0x148, 0x168, 0x1B0, 0x1E0], t.dreg d o = 0) ∧ (∀ o ∈ [0x110, 0x130, 0x150, 0x170], t.dreg d (o + 16) = t.dreg d (o + 8)) ∧
      (∀ l ∈ t.launches, l.dom ≠ d) ∧ (∀ g ∈ t.groups, g.dom = d → g.st ≠ .saved ∧ g.lease = none) ∧
      (∀ (n : Nat) (x : Table), (t.dom d).tables[n]? = some (some x) → x.req = none) ∧
      ∀ gid g w l x, s.group? gid = some g → g.dom = d → t.lane? gid w l = some x → x.st ≠ .live) ∧
    (∀ gid g x, s.group? gid = some g → g.gate = some x → g.st = .resident → ∃ t y z, exec (.gateTlimit gid) s = .next t ∧ t.group? gid = some y ∧
      y.gate = some z ∧ z.reason = (if x.reason = 0 then 8 else x.reason) ∧ ∀ w l u, t.lane? gid w l = some u → u.st ≠ .live) ∧
    (∀ give : DWord → State → State, (∀ a u, give a u = u.modDom d fun x => { x with readOut := x.readOut ++ [(k, a)] }) →
      (16 ≤ k → exec (.counterRead d k) s = .next (give 0 s)) ∧
      (k < 16 → field (s.dreg d 0x1D8) k 1 = 1 → ∃ a, exec (.counterRead d k) s = .next (give a { s with free := s.free + 1 }) ∧
        ((k = 0 ∨ 13 ≤ k) → a = BitVec.ofNat 64 ((s.dom d).guest.getD k 0))) ∧
      (k < 16 → field (s.dreg d 0x1D8) k 1 = 0 → field (s.domcfg d) 6 1 = 0 → exec (.counterRead d k) s = .next (give 0 s)) ∧
      (k < 16 → field (s.dreg d 0x1D8) k 1 = 0 → field (s.domcfg d) 6 1 = 1 →
        exec (.counterRead d k) s = .next (s.modDom d fun x => { x with reads := x.reads ++ [k] })) ∧
      (k ∈ (s.dom d).reads → exec (.counterReadTimeout d k) s = .next (s.modDom d fun x =>
        { x with reads := x.reads.erase k, readOut := x.readOut ++ [(k, 0)], timeouts := x.timeouts + 1 }))) ∧
    (∀ base file e at0 st, e = readEco file → at0 = placeSecs e.secs base.toNat → st = e.status (e.funcs at0) →
      ((s.module? d k).isSome → exec (.moduleLoad d k base file) s = .next s) ∧
      (s.module? d k = none → st ≠ 0 → exec (.moduleLoad d k base file) s = .next (s.modDom d fun x =>
        { x with tdispOut := x.tdispOut ++ [⟨0x300, [BitVec.ofNat 8 st]⟩] })) ∧
      (s.module? d k = none → st = 0 → ∃ t m, exec (.moduleLoad d k base file) s = .next t ∧ t.modules = s.modules ++ [m] ∧ m.dom = d ∧ m.handle = k ∧
        m.base = base.toNat ∧ m.unloading = false ∧ m.funcs = e.funcs at0 ∧ t.groups = s.groups ∧ t.module? d k = some m ∧
        (t.dom d).tdispOut = (s.dom d).tdispOut ++ [⟨0x300, [0]⟩])) ∧
    ((∀ l ∈ s.launches, ¬(l.dom = d ∧ l.modH = k ∧ l.marker = false)) → ∃ t, exec (.moduleUnload d k) s = .next t ∧
      t.modules = s.modules.filter (fun m => !(m.dom == d && m.handle == k)) ∧ t.module? d k = none) ∧
    ((∃ l ∈ s.launches, l.dom = d ∧ l.modH = k ∧ l.marker = false) → exec (.moduleUnload d k) s = .next
      { s with modules := s.modules.map fun m => if m.dom = d ∧ m.handle = k then { m with unloading := true } else m }) ∧
    ∀ (addr : BitVec 56) (off : BitVec 36) (bytes : List Byte) (p : DWord), p = BitVec.ofNat 64 (((s.expbase d).toNat + off.toNat) % 2 ^ 56) →
      ((s.inError d = true ∨ s.present d = false) → exec (.hostWrite d addr bytes) s = .next s) ∧
      (s.inError d = false → s.present d = true → ∀ u, s.devWrite d (addr.setWidth 64) bytes 1 = .ok u → exec (.hostWrite d addr bytes) s = .next u) ∧
      (∀ f, s.devWrite d (addr.setWidth 64) bytes 1 = .error f → exec (.hostWrite d addr bytes) s = .next s) ∧
      (∀ wr, exportOk (s.expctl d) (!wr) wr = false → exec (.peerAccess d off wr bytes) s = .next s) ∧
      (exportOk (s.expctl d) false true = true → ∀ u, s.devWrite d p bytes 1 = .ok u → exec (.peerAccess d off true bytes) s = .next u) ∧
      (exportOk (s.expctl d) true false = true → ∀ b, s.devRead d p bytes.length 1 = .ok b → exec (.peerAccess d off false bytes) s =
        .next (s.modDom d fun x => { x with tdispOut := x.tdispOut ++ [⟨0x200, b⟩] }))

/-- 21 R451 to R462: installing and clearing a replica table, requests and their refusals, publication, rollback and forced retirement,
the close of a window, and the Winch's log. -/
def Obligations.PlacementTableEvents : Prop :=
  ∀ (s : State) (d tab : Nat),
    (∀ x, s.table d tab = some x →
      (∀ v fw op i e slot row y, field v 2 2 = tab → op = field v 0 2 → e = field v 4 12 → slot = field v 20 12 → row = entryOf x.bankCur e →
        (op ≠ 1 ∧ i = .replicate d fw v ∨ op = 1 ∧ i = .retire d fw v) → y = (if fw then { x with acted := true } else x) →
        (fw = true → x.acted = true → exec i s = .next s) ∧
        ((fw = true → x.acted = false) →
        (refusal fw v (some x) = none ↔ e < x.nexp ∧ field v 32 32 = 0 ∧ field v 19 1 = 0 ∧ op ≤ 1 ∧ (fw = true → x.auto = true) ∧
          (op = 0 → slot < x.nslot ∧ slot ∉ slotsIn x.bankCur ∧ slot ∉ slotsIn x.bankPrev ∧ slot ∉ x.locked ∧
            (presentIn row).length < x.maxrep) ∧
          (op = 1 → field v 16 3 ≠ 0 ∧ (row.getD (field v 16 3) none).isSome) ∧ x.req = none ∧ x.prev = none ∧ x.cur ≠ 2 ^ 32 - 1) ∧
        ((x.nexp ≤ e ∨ field v 32 32 ≠ 0 ∨ field v 19 1 ≠ 0 ∨ 1 < op ∨ (fw = true ∧ x.auto = false)) → refusal fw v (some x) = some 1) ∧
        (∀ n, refusal fw v (some x) = some n → ∃ t q, exec i s = .next t ∧ t.table d tab = some y ∧ t.mem = s.mem ∧
          (t.dom d).wlPend = (s.dom d).wlPend ++ [q] ∧ q.kind = 6 ∧ q.reason = n ∧ q.expert = e ∧ q.version = x.cur) ∧
        (refusal fw v (some x) = none → ∃ t r, exec i s = .next t ∧ t.table d tab = some { y with req := some r } ∧ t.mem = s.mem ∧
          r.op = op ∧ r.expert = e ∧ r.fault = 0 ∧ (op = 0 → r.slot = slot ∧ r.rep = freeRep row ∧ r.copied = false) ∧
          (op = 1 → r.rep = field v 16 3 ∧ row.getD r.rep none = some r.slot ∧ r.copied = true)))) ∧
      (∀ r, x.req = some r → r.fault = 0 →
        (∀ u, (r.copied = true ∧ u = s ∨ r.copied = false ∧ winchCopy d x r s = (u, none)) → u.logRoom d = true →
          ∃ t y, exec (.publish d tab) s = .next t ∧ t.mem = u.mem ∧ t.table d tab = some y ∧ y.cur = x.cur + 1 ∧ y.refCur = 0 ∧ y.req = none ∧
            entryOf y.bankCur r.expert = (entryOf x.bankCur r.expert).set r.rep (if r.op = 0 then some r.slot else none) ∧
            (∀ e, e ≠ r.expert → entryOf y.bankCur e = entryOf x.bankCur e) ∧
            (x.refCur = 0 → y.prev = none) ∧ (x.refCur ≠ 0 → y.prev = some x.cur ∧ y.bankPrev = x.bankCur ∧ y.refPrev = x.refCur)) ∧
        (r.copied = true → s.logRoom d = false → ∃ t y, exec (.publish d tab) s = .next t ∧ t.table d tab = some y ∧ y.cur = x.cur ∧
          y.prev = x.prev ∧ y.bankCur = x.bankCur) ∧
        (∀ u f, r.copied = false → winchCopy d x r s = (u, some f) → ∃ t y, exec (.publish d tab) s = .next t ∧ t.mem = u.mem ∧
          .rollback d tab ∈ t.agenda ∧ t.table d tab = some y ∧ y.cur = x.cur ∧ y.req = some { r with fault := f.code, addr := f.addr })) ∧
      (∀ r, x.req = some r → ∃ t q, exec (.rollback d tab) s = .next t ∧ t.mem = s.mem ∧ t.table d tab = some { x with req := none } ∧
        (t.dom d).wlPend = (s.dom d).wlPend ++ [q] ∧ q.kind = 5 ∧ q.reason = 7 ∧ q.fault = r.fault ∧ q.addr = r.addr) ∧
      (∀ v, x.prev = some v → x.refPrev ≠ 0 → ∃ t y q, exec (.forcedRetire d tab) s = .next t ∧ t.table d tab = some y ∧ y.prev = none ∧
        y.cur = x.cur ∧ y.bankCur = x.bankCur ∧ (t.dom d).wlPend = (s.dom d).wlPend ++ [q] ∧ q.kind = 4 ∧ q.refs = x.refPrev ∧ q.version = v) ∧
      (s.logRoom d = false → exec (.windowClose d tab) s = .next s) ∧
      (s.logRoom d = true → ∀ u f cs, cs = (List.range x.nexp).map (fun e => (mget 0 s.winch (s.counterKey d tab 0 + e)).toNat) →
        snapWrites d ((cs.zipIdx.map fun (c, e) => (ptrPlus x.snap (4 * e), leBytes 4 c)) ++
          [(ptrPlus x.snap ((4 * x.nexp + 7) / 8 * 8), leBytes 8 (x.window + 1))]) none s = (u, f) →
        ∃ t y, exec (.windowClose d tab) s = .next t ∧ t.mem = u.mem ∧ t.table d tab = some y ∧ y.window = x.window + 1 ∧ y.snaps = cs ∧
          y.cur = x.cur ∧ y.bankCur = x.bankCur ∧ (∀ e < x.nexp, mget 0 t.winch (s.counterKey d tab 0 + e) = 0) ∧
          (∀ g, f = some g → ∃ q ∈ (t.dom d).wlPend, q.kind = 8 ∧ q.reason = 8 ∧ q.fault = g.code ∧ q.addr = g.addr) ∧
          (x.auto = false → y.req = x.req))) ∧
    (∀ r rest u, (s.dom d).wlPend = r :: rest → s.ringSet d winchRing = true → s.ringFull d winchRing = false →
      s.ringWrite d winchRing r.bytes = .ok u → ∃ t, exec (.winchLogWrite d) s = .next t ∧ t.mem = u.mem ∧ (t.dom d).wlPend = rest ∧
        t.dreg d 0x178 = s.dreg d 0x178 + 1 ∧ (t.dreg d 0x1C0).getLsbD 3 = true) ∧
    ((s.dom d).wlPend ≠ [] → s.ringSet d winchRing = true → s.ringFull d winchRing = true → exec (.winchLogWrite d) s = .next s) ∧
    ∀ (v : DWord), tab = field v 0 2 → (s.dom d).tables.length = 4 → (s.dom d).lastVer.length = 4 →
      ((field v 3 3 ≠ 0 ∨ field v 56 8 ≠ 0) → ∀ i, (i = .tableInstall d v ∨ i = .tableClear d v) → ∃ t q, exec i s = .next t ∧
        t.table d tab = s.table d tab ∧ (t.dom d).wlPend = (s.dom d).wlPend ++ [q] ∧ q.kind = 6 ∧ q.reason = 1) ∧
      (field v 3 3 = 0 → field v 56 8 = 0 →
        (∃ t, exec (.tableClear d v) s = .next t ∧ t.table d tab = none ∧ (t.dom d).lastVer = (s.dom d).lastVer ∧ t.mem = s.mem) ∧
        (∀ f, s.devRead d (BitVec.ofNat 64 (field v 6 50 * 64)) 64 64 = .error f → ∃ t q, exec (.tableInstall d v) s = .next t ∧
          t.table d tab = s.table d tab ∧ (t.dom d).wlPend = (s.dom d).wlPend ++ [q] ∧ q.kind = 6 ∧ q.reason = 1 ∧ q.fault = f.code ∧ q.addr = f.addr) ∧
        (∀ bs x last, s.devRead d (BitVec.ofNat 64 (field v 6 50 * 64)) 64 64 = .ok bs → x = tableDesc bs → last = (s.dom d).lastVer.getD tab 0 →
          (x.ok (field (s.preg (0x4A00 + 8 * d)) 16 17) = false → ∃ t q, exec (.tableInstall d v) s = .next t ∧
            t.table d tab = s.table d tab ∧ (t.dom d).wlPend = (s.dom d).wlPend ++ [q] ∧ q.kind = 6 ∧ q.reason = 1 ∧ q.fault = 0) ∧
          (x.ok (field (s.preg (0x4A00 + 8 * d)) 16 17) = true → ∀ is, s.devRead d x.init (2 * x.nexp) 1 = .ok is →
            distinctBelow x.nslot (initSlots x.nexp is) = true → ∃ t y q, exec (.tableInstall d v) s = .next t ∧ t.table d tab = some y ∧
              y.cur = (if last = 2 ^ 32 - 1 then 1 else last + 1) ∧ (t.dom d).lastVer.getD tab 0 = y.cur ∧ y.prev = none ∧ y.req = none ∧ y.refCur = 0 ∧
              y.nexp = x.nexp ∧ y.nslot = x.nslot ∧ y.maxrep = x.maxrep ∧ y.pool = x.pool ∧ y.slotb = x.slotb ∧
              (∀ e < x.nexp, entryOf y.bankCur e = some (leNat ((is.drop (2 * e)).take 2)) :: List.replicate 7 none) ∧
              (t.dom d).wlPend = (s.dom d).wlPend ++ [q] ∧ q.kind = 1 ∧ q.version = y.cur ∧ q.reason = (if last = 2 ^ 32 - 1 then 6 else 0))))

/-- 22 R479 to R483: the interface state machine, its answers, the frozen set, and the SPDM responder. -/
def Obligations.InterfaceEvents : Prop :=
  ∀ (s : State) (d : Nat),
    ((s.dom d).ifstate = .unlocked → ∃ t a, exec (.lockInterfaceRequest d) s = .next t ∧ (t.dom d).ifstate = .locked ∧
      (t.dom d).digest = some (Config.sm3 (s.frozenBytes d)) ∧ (t.dreg d 0x1C0).getLsbD 5 = true ∧ t.mem = s.mem ∧ t.groups = s.groups ∧
      (t.dom d).tdispOut = (s.dom d).tdispOut ++ [a] ∧ a.kind = 0x03) ∧
    ((s.dom d).ifstate = .locked → ∃ t a, exec (.startInterfaceRequest d) s = .next t ∧ (t.dom d).ifstate = .run ∧
      (t.dom d).digest = (s.dom d).digest ∧ (t.dreg d 0x1C0).getLsbD 5 = true ∧ t.mem = s.mem ∧ t.groups = s.groups ∧
      (t.dom d).tdispOut = (s.dom d).tdispOut ++ [a] ∧ a.kind = 0x06) ∧
    (∀ i, (i = .lockInterfaceRequest d ∧ (s.dom d).ifstate ≠ .unlocked ∨ i = .startInterfaceRequest d ∧ (s.dom d).ifstate ≠ .locked ∨
        i = .getDeviceInterfaceReport d ∧ s.frozen d = false) → ∃ a, exec i s = .next (s.modDom d fun x =>
      { x with tdispOut := x.tdispOut ++ [a] }) ∧ a.kind = 0x7F) ∧
    (∀ i n, ((i, n) = (.getDeviceInterfaceReport d, 0x04) ∧ s.frozen d = true ∨ (i, n) = (.getTdispVersion d, 0x01) ∨
        (i, n) = (.getTdispCapabilities d, 0x02) ∨ (i, n) = (.getDeviceInterfaceState d, 0x05)) → ∃ a, exec i s = .next (s.modDom d fun x =>
      { x with tdispOut := x.tdispOut ++ [a] }) ∧ a.kind = n ∧
      (n = 0x05 → a.bytes = [match (s.dom d).ifstate with | .unlocked => 0 | .locked => 1 | .run => 2 | .error => 3]) ∧
      (n = 0x04 → ∃ pre info, a.bytes = pre ++ info ∧ info.length = 64 ∧ info.take 4 =
          [BitVec.ofNat 8 d, BitVec.ofNat 8 (s.partOf d), BitVec.ofNat 8 (s.gen d), BitVec.ofNat 8 (s.gen d / 256)] ∧
        leNat ((info.drop 8).take 32) = ((s.dom d).digest.getD 0).toNat ∧ ∀ b ∈ info.drop 44, b = 0)) ∧
    (∃ t a, exec (.stopInterfaceRequest d) s = .next t ∧ (t.dom d).ifstate = .unlocked ∧ (t.dom d).tdispOut = (s.dom d).tdispOut ++ [a] ∧ a.kind = 0x07 ∧
      (d ≠ 0 → t.gen d = (s.gen d + 1) % 2 ^ 16) ∧
      ∀ far k off base, off = sliceOff far k → k < (if far then 2048 else 384) → field (s.preg off) 7 1 = 1 → field (s.preg off) 0 7 = d →
        base = (if far then 2 ^ 40 else 0) + k * 2 ^ 30 → t.preg off = s.preg off ∧ ∀ a, base ≤ a → a < base + 2 ^ 30 → t.byte a = 0) ∧
    (exec (.frozenSetWrite d) s = .next (if s.frozen d then toError d s else s)) ∧
    (s.frozen d = true → ∃ t, exec (.spdmSessionEnd d) s = .next t ∧ (t.dom d).ifstate = .error ∧ (t.dreg d 0x1C0).getLsbD 5 = true ∧
      (t.dom d).session = false ∧ t.mem = s.mem ∧ t.pregs = s.pregs) ∧
    (s.frozen d = false → exec (.spdmSessionEnd d) s = .next (s.modDom d fun x => { x with session := false })) ∧
    ∀ bytes, ∃ t a, exec (.spdmRequest d bytes) s = .next t ∧ (t.dom d).tdispOut = (s.dom d).tdispOut ++ [a] ∧
      a.kind = 0x100 ∧ t.mem = s.mem ∧ (t.dom d).ifstate = (s.dom d).ifstate ∧ (t.dom d).session = (if bytes.getD 1 0 = 0xE5 then true else (s.dom d).session) ∧
      (bytes.getD 1 0 = 0xE0 → bytes.getD 3 0 = 7 → ∃ pre, a.bytes = pre ++ leBytes 32 ((s.dom d).digest.getD 0).toNat)

/-- 20 R434, R445, 22 R470 to R473, R475, R478, R489, R490: power, package reset, firmware update, host ports and logical devices, and
writes of registers. -/
def Obligations.PowerAndRegisterEvents : Prop :=
  ∀ (s : State) (d : Nat) (v : DWord),
    ((v.toNat ≤ 3400 → v.toNat ≤ (s.preg 0x4C20).toNat → exec (.pwrlimWrite v) s = .next (s.setPreg 0x4C20 v)) ∧
      ((3400 < v.toNat ∨ (s.preg 0x4C20).toNat < v.toNat) → exec (.pwrlimWrite v) s = .next (s.ignored 0))) ∧
    exec .powerClamp s = .next { s with power := { s.power with clock := if 12 < s.power.clock then s.power.clock - 1 else 12 } } ∧
    (∃ t, exec (.thermalThrottle d) s = .next t ∧ d ∈ t.power.throttled ∧ t.power.clock = s.power.clock) ∧
    (∀ i, (i = .packageReset ∨ i = .thermalReset d) → ∃ t, exec i s = .next t ∧ t.groups = [] ∧ t.launches = [] ∧ t.modules = [] ∧ t.cmds = [] ∧
      t.power = State.reset.power ∧ t.dregs = [] ∧ t.doms = [] ∧ t.tags = [] ∧ t.poison = [] ∧ (∀ k ≤ 64, t.gen k = (s.gen k + 1) % 2 ^ 16) ∧
      (∀ off, (∀ k ≤ 64, off ≠ 0x4000 + 8 * k) → t.preg off = pregReset off) ∧ t.host.flash = s.host.flash ∧
      ∀ k, t.byte k = if 2 ^ 60 ≤ k ∧ k < 2 ^ 61 ∨ 2 ^ 64 ≤ k then s.byte k else 0) ∧
    (∀ ok ver b, s.host.flash.length = 2 → s.host.active < 2 → b = 1 - s.host.active → ∃ t, exec (.firmwareUpdate ok ver) s = .next t ∧
      t.host.flash[b]? = some (ok, ver) ∧ t.host.flash[s.host.active]? = s.host.flash[s.host.active]? ∧ t.host.active = s.host.active ∧
      t.host.rpb = s.host.rpb ∧ (ok = true → s.host.rpb.toNat ≤ ver.toNat → t.host.nextActive = b) ∧
      ((ok = false ∨ ver.toNat < s.host.rpb.toNat) → t.host.nextActive = s.host.nextActive)) ∧
    (∀ port q, s.host.ports[port]? = some q → ∀ p,
      (q ≠ 3 → exec (.hostPortTrain port p) s = .next s) ∧
      (q = 3 → ∃ t, exec (.hostPortTrain port p) s = .next t ∧ t.host.ports = s.host.ports.set port (if p ≤ 1 then p else 2) ∧
        (p ≤ 1 → t.cfgErrors = s.cfgErrors) ∧ (2 ≤ p → t.cfgErrors = s.cfgErrors ++ [0x1000000 + port]))) ∧
    (∀ port ld, s.host.ports.getD port 0 = 1 → ld < 16 →
      (1 ≤ d → d ≤ 64 → (∀ q ∈ s.host.lds, q.2 ≠ d) → ∃ t, exec (.logicalDeviceBind port ld (some d)) s = .next t ∧
        (port * 16 + ld, d) ∈ t.host.lds ∧ (t.dom d).hostPresent = true) ∧
      (∃ t, exec (.logicalDeviceBind port ld none) s = .next t ∧ (∀ q ∈ t.host.lds, q.1 ≠ port * 16 + ld) ∧
        ∀ e, s.host.lds.lookup (port * 16 + ld) = some e → (t.dom e).hostPresent = false) ∧
      ((d = 0 ∨ 64 < d ∨ ∃ q ∈ s.host.lds, q.2 = d ∧ q.1 ≠ port * 16 + ld) → exec (.logicalDeviceBind port ld (some d)) s = .next s)) ∧
    exec (.grantWrite d v) s = .next (s.setDreg d 0x1B0 (v &&& 15)) ∧
    exec (.intstatWrite d v) s = .next (s.setDreg d 0x1C0 (s.dreg d 0x1C0 &&& ~~~v)) ∧
    (∀ off, exec (.registerWrite false none off v) s = .next s) ∧
    (∀ by0 off, off % 8 ≠ 0 → exec (.registerWrite by0 (some d) off v) s = .next s) ∧
    (d ≤ 64 →
      (∀ off, (s.inError d = true ∨ s.present d = false) → exec (.registerWrite false (some d) off v) s = .next s) ∧
      (s.inError d = false → s.present d = true →
        (∀ off ∈ [0x108, 0x110, 0x130, 0x150, 0x170, 0x1D0, 0x1D8], exec (.registerWrite false (some d) off v) s = .next (s.ignored d)) ∧
        (exec (.registerWrite false (some d) 0x1B0 v) s = exec (.grantWrite d v) s)) ∧
      (∀ off ∈ [0x108, 0x1D0, 0x1D8], s.frozen d = false → exec (.registerWrite true (some d) off v) s = .next (s.setDreg d off v)) ∧
      (∀ off ∈ [0x110, 0x130, 0x150], s.frozen d = false → 4 ≤ field v 0 5 → field v 0 5 ≤ 16 →
        exec (.registerWrite true (some d) off v) s = .next (s.setDreg d off v)) ∧
      (∀ off ∈ [0x108, 0x1D0, 0x1D8], s.frozen d = true → exec (.registerWrite true (some d) off v) s = .next (toError d s)) ∧
      (d ≠ 0 → exec (.registerWrite true (some d) 0x1B0 v) s = .next (s.ignored d)) ∧
      (∀ by0, (by0 = true ∨ s.inError d = false ∧ s.present d = true) →
        (∀ off < 0x100, off % 8 = 0 → exec (.registerWrite by0 (some d) off v) s = exec (.doorbell d (off / 8)) s) ∧
        exec (.registerWrite by0 (some d) 0x1C0 v) s = exec (.intstatWrite d v) s ∧
        exec (.registerWrite by0 (some d) 0x1C8 v) s = .next (s.setDreg d 0x1C8 (v &&& 0x3F)) ∧
        exec (.registerWrite by0 (some d) 0x148 v) s = .next (s.setDreg d 0x148 (v &&& 1)) ∧
        exec (.registerWrite by0 (some d) 0x1A8 v) s = exec (.tlbInvalidate d v) s ∧
        exec (.registerWrite by0 (some d) 0x1E8 v) s = exec (.wdctlWrite by0 d v) s ∧
        exec (.registerWrite by0 (some d) 0x188 v) s = (if field v 2 1 = 1 then exec (.tableClear d v) s else exec (.tableInstall d v) s) ∧
        (field v 36 28 = 0 → ∀ n i, ((n, i) = (0, .resume d (v.extractLsb' 0 32)) ∨ (n, i) = (1, .killLane d (v.extractLsb' 0 32)) ∨
          (n, i) = (2, .killWave d (v.extractLsb' 0 32))) → field v 32 4 = n → exec (.registerWrite by0 (some d) 0x128 v) s = exec i s))) ∧
    exec (.registerWrite true none 0x4600 v) s = exec (.gangctlWrite v) s ∧
    exec (.registerWrite true none 0x4C00 v) s = exec (.migrate v) s ∧
    (v.toNat < 2 ^ 9 → ∀ n i, ((n, i) = (0, .domainPause (field v 0 7)) ∨ (n, i) = (1, .domainResume (field v 0 7)) ∨
      (n, i) = (2, .domainReset (field v 0 7))) → field v 7 2 = n → exec (.registerWrite true none 0x4C10 v) s = exec i s) ∧
    exec (.registerWrite true none 0x4C20 v) s = exec (.pwrlimWrite v) s ∧
    exec (.registerWrite true none 0x4C30 v) s = exec (.l2drop v) s ∧
    (∀ k ≤ 64, exec (.registerWrite true none (0x4000 + 8 * k) v) s = exec (.domcfgWrite k v) s) ∧
    (∀ k < 24, exec (.registerWrite true none (0x4400 + 8 * k) v) s = exec (.partcfgWrite k v) s) ∧
    (∀ k < 64, exec (.registerWrite true none (0x4A00 + 8 * k) v) s = exec (.wcntWrite k v) s) ∧
    (∀ far k, k < (if far then 2048 else 384) → exec (.registerWrite true none (sliceOff far k) v) s = exec (.sliceTableWrite far k v) s) ∧
    ∀ c e w, c < 1152 → e < 8 → w < 3 → exec (.registerWrite true none (0x20000 + 256 * c + 32 * e + 8 * w) v) s = exec (.dprWrite c e w v) s

/-! ### Encoding, the step and its frames -/

/-- 03 R68 to R82, 15 R333 to R344: a well-formed instruction's words decode to it, with its hint and its debug line and the words that
follow left, for every operand; a native-only operation's slot decodes to it. -/
def Obligations.EncodedWordsDecode : Prop :=
  ∀ (d : Decoded) (rest : List Word), d.ins.wellFormed = true →
    (∀ ws, encode d = some ws → decode (ws ++ rest) = .ok (d, rest)) ∧
    (∀ w long, encodeNative d.ins = some (w, long) → (decodeNativeS w long).or (decodeNativeB w) = some d.ins) ∧
    (∀ v w x, encodeNativeV d.ins = some (v, w, x) → decodeNativeV v w x = some d.ins) ∧
    (∀ m, encodeNativeM d.ins = some m → decodeNativeM m = some d.ins)

/-- 03 R68 to R83: words have one reading: what decodes is well formed, and the words read are those that encode it. -/
def Obligations.DecodedWordsEncode : Prop :=
  ∀ (ws rest : List Word) (d : Decoded), decode ws = .ok (d, rest) →
    d.ins.wellFormed = true ∧ ∃ es, encode d = some es ∧ ws = es ++ rest

/-- 03 R68, R80, 15 R333, R339: words written out from the encoding tables decode to the instructions that they stand for. -/
def Obligations.WordsOfEachFamily : Prop :=
  decode [0x10021040, 0x00000001, 0x40000005] = .ok (⟨false, none, .add .i32 (.val 1) (.imm 5)⟩, []) ∧
  decode [0xB0021040, 0x00000001, 0x40000005, 7, 9] = .ok (⟨true, some 7, .add .i32 (.val 1) (.imm 5)⟩, [9]) ∧
  decode [0x00010001, 0x80000003] = .ok (⟨false, none, .br ⟨3, []⟩⟩, []) ∧
  decode [0x101220C0, 1, 2] = .ok (⟨false, none, .fadd .rz .f32 (.val 1) (.val 2)⟩, []) ∧
  decode [0x10012140, 7] = .ok (⟨false, none, .cvt .rne false false .f32 7⟩, []) ∧
  decode [0x10121187, 1, 0x40000001] = .ok (⟨false, none, .shfl .up false .i32 (.val 1) (.imm 1)⟩, []) ∧
  decode [0x10D12200, 9] = .ok (⟨false, none, .ld false .system .acquire .f32 (.val 9)⟩, []) ∧
  decode [0x00021201, 9, 1] = .ok (⟨false, none, .st false .wave .relaxed .i32 (.val 9) (.val 1)⟩, []) ∧
  decode [0x00020281, 1, 2] = .ok (⟨false, none, .cbwait false 1 (.val 2)⟩, []) ∧
  decode [0x00040295, 1, 2, 3, 4] = .ok (⟨false, none, .mxmma .m64n64 (.val 1) (.val 2) (.val 3) (.val 4)⟩, []) ∧
  decode [0x10901700] = .ok (⟨false, none, .sysread .time⟩, []) ∧
  decode [0x00011709, 5] = .ok (⟨false, none, .gateret (.val 5)⟩, []) ∧
  decode [0x10031719, 1, 2, 3] = .ok (⟨false, none, .xrtlook (.val 1) (.val 2) (.val 3)⟩, []) ∧
  decodeNativeS 0xF08183A1 0x12345678 = none ∧ decodeNativeB 0x0000038B = some .nxit ∧ decodeNativeB 0x00C02389 = none ∧
  decodeNativeB 0x00082389 = some (.nloop 0 2 2) ∧
  decode [0x0000000A] = .error .undefinedOpcode ∧ decode [0x10021040, 1] = .error .overrun

/-- 03 R68, 04 R97, 05 R143 to R146: one step performs what is due, or the only choice: an event of the device, the run of a wave, an
ejected lane, or an instruction of a control core. A run at a portable point executes the instruction that the words there decode to, or
enters the translation that begins there; a native run executes its bundle. -/
def Obligations.StepRunsTheDecodedInstruction : Prop :=
  ∀ (s : State),
    (∀ i r, s.agenda = i :: r → step s = settled (tick s) (exec i { tick s with agenda := r })) ∧
    (s.agenda = [] → (tick s).choices = [] → step s = .next (tick s)) ∧
    (∀ i, s.agenda = [] → (tick s).choices = [.event i] → step s = settled (tick s) (exec i (tick s))) ∧
    (∀ g i w m u l, s.agenda = [] → (tick s).choices = [.wave g i w m] → (activeLanes w m).head? = some l →
      u = beginIssue g i ((traceChoice g i w (tick s)).modWave g.gid i fun _ => w) →
      (w.isNative l = false → step s = settled (tick s) (issuePoint exec g.gid i (m &&& ~~~w.nativeOf m) false u)) ∧
      (w.isNative l = true → step s = settled (tick s) (match issueBundle exec g.gid i m false u with
        | .next t => .next (stepDone g.gid i m { t with issue := none })
        | o => o))) ∧
    (∀ gid wi l g w, s.agenda = [] → (tick s).choices = [.lane gid wi l] → s.group? gid = some g → s.wave? gid wi = some w →
      (w.gond.lookup l = none → step s = settled (tick s) (issuePoint exec gid wi (maskOf [l]) true (tick s))) ∧
      ((w.gond.lookup l).isSome → ∀ t v, onGondola g wi l (issueBundle exec gid wi (maskOf [l]) true) (tick s) = .next t →
        t.wave? gid wi = some v → step s = settled (tick s) (.next (if (v.gond.lookup l).isNone then arrive gid wi l { t with issue := none }
          else { t with issue := none })))) ∧
    (∀ k, s.agenda = [] → (tick s).choices = [.control k] → step s = settled (tick s) (controlStep k (tick s))) ∧
    ∀ gid wi m gond g w l x k, s.group? gid = some g → s.wave? gid wi = some w → (activeLanes w m).head? = some l → w.lanes[l]? = some x →
      k = s.cluster (clusterOf g.core) → k.failedAt g x.point.1 x.point.2 = none →
      (∀ y, k.xlateFor (s.runKey g w gond m x.point) = some y → w.mayEnter g gond (activeLanes w m) = true → gond = false →
        issuePoint exec gid wi m gond s = .next (enterXlate gid wi m y s)) ∧
      ∀ u i p, (k.xlateFor (s.runKey g w gond m x.point) = none ∧ u = missAt g w gond m x.point s ∨
          (k.xlateFor (s.runKey g w gond m x.point)).isSome ∧ w.mayEnter g gond (activeLanes w m) = false ∧ u = s) →
        s.fetch g x.point = some (i, p) →
        (∃ f d rest, s.func? g x.point.1 = some f ∧ f.points[x.point.2]? = some p ∧ p.trap = false ∧ f.whole = false ∧
          decode (f.words.drop p.off) = .ok (d, rest) ∧ i = d.ins) ∧
        issuePoint exec gid wi m gond s = match exec i (atIssue gid wi m gond (p.res.getD 0) u) with
          | .next t => .next (endIssue gid wi m gond t)
          | o => o

/-- 20 R424, R425, 22 R472, R474, 19 R418: what the registers hold at package reset; nothing is loaded, placed or in progress, and
memory and tags are in canonical form. That every byte is 0 is the model's choice (log entry 2). -/
def Obligations.ResetState : Prop :=
  State.reset.canonical = true ∧ State.reset.groups = [] ∧ State.reset.launches = [] ∧ State.reset.cmds = [] ∧ State.reset.agenda = [] ∧
  (∀ d ≤ 64, State.reset.gen d = 0 ∧ State.reset.partOf d = 0 ∧ field (State.reset.domcfg d) 5 2 = 0 ∧ field (State.reset.domcfg d) 7 16 = 0xFFFF ∧
    State.reset.domValid d = decide (d = 0) ∧ (State.reset.dom d).ifstate = .unlocked ∧ (State.reset.dom d).paused = false ∧
    State.reset.dreg d 0x1C8 = 0x3F ∧ State.reset.dreg d 0x1B0 = 0 ∧ State.reset.dreg d 0x1C0 = 0) ∧
  (∀ p ≤ 23, State.reset.preg (0x4400 + 8 * p) = 20) ∧
  (∀ c < 1152, State.reset.corecfg c = 0 ∧ ∀ e < 8, State.reset.dpra c e = 0 ∧ field (State.reset.dprb c e) 21 13 = 1 ∧
    field (State.reset.dprb c e) 0 21 = 0 ∧ field (State.reset.dprb c e) 34 8 = 0) ∧
  (∀ far k, k < (if far then 2048 else 384) → State.reset.preg (sliceOff far k) = 0) ∧
  (∀ k, State.reset.byte k = 0 ∧ State.reset.tagAt k = 0 ∧ k ∉ State.reset.poison)

/-- 09 R215 to R221, 22 R490: every step keeps memory and tags in the one form in which equal memories are equal data, from every state
that has it. -/
def Obligations.StepsKeepMemoryCanonical : Prop :=
  ∀ (s t : State), s.canonical = true → step s = .next t → t.canonical = true

/-- 13 R307, R308, 08 R209, 00 R11: in W16 mode the runs of both halves issue as one instruction; an instruction that acts once per run
acts for the lower half, then for the upper half in the state that the lower one left, and where either half faults, that half takes the
trap and the instruction has no effect in any lane. -/
def Obligations.HalvesActInTurn : Prop :=
  ∀ (s : State) (c : Ctx) (i : Instr) (lo : State), Runs s c → c.oneHalf = false → actsPerRun i = true → lo = s.narrow 0x0000FFFF →
    ∀ t, exec i lo.tried = .next t →
      (∀ f, t.failed = some f → exec i s = halfRun lo (refault f)) ∧
      (t.failed = none → ∀ hi v, hi = ({ t with issue := s.issue } : State).narrow 0xFFFF0000 → exec i hi.tried = .next v →
        (∀ f, v.failed = some f → exec i s = halfRun (s.narrow 0xFFFF0000) (refault f)) ∧
        (v.failed = none → exec i s = .next { v with issue := s.issue }))

/-- 04 R97: what the completion of a lane-local instruction leaves: nothing outside the issuing run's wave changes; there, a lane that
is not active keeps everything; an active lane of the portable form gets its result under the result's number, passes to the next
index, and keeps every other value and every frame below; in the native form only the destination's registers may change. -/
def Obligations.CompletionFrame : Prop :=
  ∀ (s : State) (c : Ctx) (f : Nat → LaneOut) (t : State), Runs s c → t = commit c (c.out f) s →
    (∃ gs, t = { s with groups := gs }) ∧
    (∀ gid, gid ≠ c.iss.gid → t.group? gid = s.group? gid) ∧
    (∃ ws, t.group? c.iss.gid = some { c.g with waves := ws }) ∧
    (∀ k, k ≠ c.iss.wave → t.wave? c.iss.gid k = s.wave? c.iss.gid k) ∧
    (∃ ls n, c.waveIn t = some { c.w with lanes := ls, native := n } ∧ (c.iss.bind = none → n = c.w.native)) ∧
    (∀ l, l ∉ c.lanes → c.laneIn t l = c.lane? l) ∧
    (∀ l ∈ c.lanes, ∀ x, c.lane? l = some x → ∃ y, c.laneIn t l = some y ∧ y.flags = (f l).2.flags ∧ y.rng = (f l).2.rng ∧
      y = { x with frames := y.frames, flags := y.flags, rng := y.rng } ∧
      (c.iss.bind.isSome → y.frames = x.frames) ∧
      (c.iss.bind = none → ∀ top rest, x.frames = top :: rest → ∃ top', y.frames = top' :: rest ∧ top'.func = top.func ∧
        top'.idx = top.idx + 1 ∧ (∀ v, (f l).1 = some v → lookupVal top'.vals c.iss.res = some v) ∧
        (∀ n, ((f l).1 = none ∨ n ≠ c.iss.res) → lookupVal top'.vals n = lookupVal top.vals n)))

/-- 01 R34, 11 R260: an instruction that stores nothing leaves every byte of memory, every tag, and every register of the package and
of the domains as it was, whether it completes, waits or traps. -/
def Obligations.InstructionsThatStoreNothing : Prop :=
  ∀ (s t : State) (i : Instr), storesNothing i = true → exec i s = .next t →
    t.mem = s.mem ∧ t.tags = s.tags ∧ t.poison = s.poison ∧ t.pregs = s.pregs ∧ t.dregs = s.dregs ∧ t.modules = s.modules ∧ t.host = s.host
end

