-- ==== Sys2Proof/Laws/Consistency.lean ====
section
/-! SUPPORT. A check that proves a given execution allowed, from a transitive relation above its edges and a rank of its events. -/
namespace Sys2Proof.Machine

/-- Happens-before lies in every transitive relation that holds the edges. -/
theorem HB_le {x : Execution} {R : Nat → Nat → Prop} (he : ∀ a b, x.edge a b = true → R a b)
    (ht : ∀ a b c, R a b → R b c → R a c) {a b : Nat} (h : HB x a b) : R a b := by
  induction h with
  | edge a b h => exact he a b h
  | trans a b c _ _ h1 h2 => exact ht a b c h1 h2

/-- A rank that rises along program order and reads-from shows that they have no cycle. -/
theorem Feeds_rank {x : Execution} {k : Nat → Nat} (hk : ∀ a b, (x.po a b || x.readsFrom a b) = true → k a < k b) {a b : Nat}
    (h : Feeds x a b) : k a < k b := by
  induction h with
  | step a b h => exact hk a b h
  | trans a b c _ _ h1 h2 => omega

/-- A condition that holds of an event holds of one in the list. -/
theorem is_lt {x : Execution} {i : Nat} {p : Ev → Bool} (h : x.is i p = true) : i < x.evs.length := by
  unfold Execution.is at h
  cases hx : x.evs[i]? with
  | none => rw [hx] at h; cases h
  | some e => exact (List.getElem?_eq_some_iff.mp hx).1

/-- Two events that meet a condition are in the list. -/
theorem both_lt {x : Execution} {i j : Nat} {p : Ev → Ev → Bool} (h : x.both i j p = true) :
    i < x.evs.length ∧ j < x.evs.length := by
  unfold Execution.both at h
  cases hx : x.evs[i]? with
  | none => rw [hx] at h; cases h
  | some e =>
    cases hy : x.evs[j]? with
    | none => rw [hx, hy] at h; cases h
    | some f => exact ⟨(List.getElem?_eq_some_iff.mp hx).1, (List.getElem?_eq_some_iff.mp hy).1⟩

theorem po_lt {x : Execution} {i j : Nat} (h : x.po i j = true) : i < x.evs.length ∧ j < x.evs.length := by
  simp only [Execution.po, Bool.and_eq_true] at h
  exact both_lt h.2

theorem readsAt_lt {x : Execution} {b r : Nat} (h : x.readsAt b r = true) : r < x.evs.length := is_lt h
theorem writesAt_lt {x : Execution} {b w : Nat} (h : x.writesAt b w = true) : w < x.evs.length := is_lt h

theorem edge_lt {x : Execution} {a b : Nat} (h : x.edge a b = true) : a < x.evs.length ∧ b < x.evs.length := by
  simp only [Execution.edge, Bool.or_eq_true] at h
  obtain (((h | h) | h) | h) | h := h
  · exact po_lt h
  · simp only [Execution.sync, List.any_eq_true, Bool.and_eq_true] at h
    obtain ⟨w, _, r, _, ⟨⟨⟨_, _⟩, h⟩, _⟩, _⟩ := h
    exact both_lt h
  · simp only [Bool.and_eq_true] at h
    exact both_lt h.2
  · exact both_lt h
  · simp only [Execution.arrived, Bool.and_eq_true] at h
    exact ⟨is_lt h.1.1, is_lt h.1.2⟩

/-- The places that the events of an execution touch. -/
def Execution.touched (x : Execution) : List Nat := x.evs.flatMap Ev.places

theorem readsAt_touched {x : Execution} {b r : Nat} (h : x.readsAt b r = true) : b ∈ x.touched := by
  unfold Execution.readsAt Execution.is at h
  cases hx : x.evs[r]? with
  | none => rw [hx] at h; cases h
  | some e =>
    rw [hx] at h
    simp only [Bool.and_eq_true, List.contains_iff_mem] at h
    exact List.mem_flatMap.mpr ⟨e, List.mem_of_getElem? hx, h.2⟩

theorem writesAt_touched {x : Execution} {b w : Nat} (h : x.writesAt b w = true) : b ∈ x.touched := by
  unfold Execution.writesAt Execution.is at h
  cases hx : x.evs[w]? with
  | none => rw [hx] at h; cases h
  | some e =>
    rw [hx] at h
    simp only [Bool.and_eq_true, List.contains_iff_mem] at h
    exact List.mem_flatMap.mpr ⟨e, List.mem_of_getElem? hx, h.2⟩

/-- Every number below n meets a condition. -/
def below (n : Nat) (p : Nat → Bool) : Bool := (List.range n).all p

theorem below_spec {n : Nat} {p : Nat → Bool} (h : below n p = true) {i : Nat} (hi : i < n) : p i = true :=
  List.all_eq_true.mp h i (List.mem_range.mpr hi)

/-- The checks of one place. -/
def Execution.placeOk (x : Execution) (H : Nat → Nat → Bool) (b : Nat) : Bool :=
  let n := x.evs.length
  let rd := x.readsAt b
  let wr := x.writesAt b
  decide (x.order b).Nodup && (x.order b).all wr && (below n fun w => !wr w || (x.order b).contains w) &&
  (below n fun r => !rd r || ((match x.src r b with | some w => wr w && !H r w | none => true) &&
    x.is r fun e => e.rval.getD (b - e.places.headD 0) 0 == x.valueAt b (x.src r b))) &&
  (below n fun i => below n fun j =>
    (!(wr i && wr j && H i j) || decide (x.pos b (some i) < x.pos b (some j))) &&
    (!(wr i && rd j && H i j) || decide (x.pos b (some i) ≤ x.pos b (x.src j b))) &&
    (!(rd i && rd j && H i j) || decide (x.pos b (x.src i b) ≤ x.pos b (x.src j b))) &&
    (!(rd i && wr j && H i j) || decide (x.pos b (x.src i b) < x.pos b (some j))) &&
    (!(wr i && rd j && x.both i j fun e f => f.agent.inPackage && decide (e.time + 2000 ≤ f.time)) ||
      decide (x.pos b (some i) ≤ x.pos b (x.src j b))) &&
    below n fun a =>
      !(wr i && rd j && H a j && x.both i a fun e f => (e.agent.kind == .host || e.agent.kind == .peer) && f.acq &&
        f.scope == .system && decide (e.time ≤ f.time)) || decide (x.pos b (some i) ≤ x.pos b (x.src j b))) &&
  below n fun u => !(rd u && wr u) || x.pos b (some u) == x.pos b (x.src u b) + 1

/-- The whole check: H holds the edges and is transitive, and rk rises along program order and reads-from. -/
def Execution.okWith (x : Execution) (H : Nat → Nat → Bool) (rk : Nat → Nat) : Bool :=
  let n := x.evs.length
  (below n fun a => below n fun b => (!x.edge a b || H a b) && (!(x.po a b || x.readsFrom a b) || decide (rk a < rk b)) &&
    below n fun c => !(H a b && H b c) || H a c) &&
  x.touched.all (x.placeOk H) && (x.co.all fun p => x.touched.contains p.1 || p.2 == []) &&
  (below n fun r => x.is r fun e => !(e.reads && e.single && e.places.all fun b => x.sameShape r (x.src r b)) ||
    e.places.all fun b => e.places.all fun c => x.src r b == x.src r c) &&
  (x.touched.all fun b => below n fun i => below n fun j =>
    (!(x.writesAt b i && x.writesAt b j && x.lower i j) || decide (x.pos b (some i) < x.pos b (some j))) &&
    (!(x.rmwAt b i && x.readsAt b j && x.lower i j) || x.src j b == some i || !below n fun k => !(x.rmwAt b k && x.lower i k && x.lower k j)) &&
    (!(x.readsAt b i && x.rmwAt b j && x.lower i j) || decide (x.pos b (x.src i b) ≤ x.pos b (x.src j b)))) &&
  (below n fun i => !x.is i Ev.ofEngine ||
    ((x.is i fun e => !e.rel && !e.acq) &&
      (!below n fun j => !(x.po j i && x.is j Ev.isStart)) &&
      below n fun j => !(x.is j Ev.isPush && x.po j i))) &&
  (decide x.sc.Nodup && x.sc.all (fun f => x.is f Ev.isSc) && (below n fun f => !x.is f Ev.isSc || x.sc.contains f) &&
    below n fun f => below n fun g => !(x.scBefore f g && H g f))

/-- Reads-from joins events of the list where every read reads from a write. -/
theorem readsFrom_lt {x : Execution} {w r : Nat} (hs : ∀ b, x.readsAt b r = true → x.src r b = some w → x.writesAt b w = true)
    (h : x.readsFrom w r = true) : w < x.evs.length ∧ r < x.evs.length := by
  refine ⟨?_, is_lt h⟩
  unfold Execution.readsFrom Execution.is at h
  cases hx : x.evs[r]? with
  | none => rw [hx] at h; cases h
  | some e =>
    rw [hx] at h
    simp only [Bool.and_eq_true, List.any_eq_true, beq_iff_eq] at h
    obtain ⟨hr, b, hb, hb'⟩ := h
    refine writesAt_lt (hs b ?_ hb')
    simp [Execution.readsAt, Execution.is, hx, hr, hb]

/-- A lookup that answers stands in the list. -/
theorem mem_of_lookup {α : Type} {l : List (Nat × α)} {k : Nat} {v : α} (h : l.lookup k = some v) : (k, v) ∈ l := by
  induction l with
  | nil => cases h
  | cons p r ih =>
    obtain ⟨k', v'⟩ := p
    simp only [List.lookup] at h
    split at h
    · rename_i he
      cases h
      simp only [beq_iff_eq] at he
      subst he
      exact List.mem_cons_self
    · exact List.mem_cons_of_mem _ (ih h)

set_option maxRecDepth 4000 in
/-- The check proves an execution allowed. -/
theorem okWith_allowed {x : Execution} (R : List (List Nat)) (rk : List Nat)
    (h : x.okWith (fun a b => (R.getD a []).contains b) (fun a => rk.getD a 0) = true) : x.Allowed := by
  generalize hH : (fun a b => (R.getD a []).contains b : Nat → Nat → Bool) = H at h
  generalize hK : (fun a => rk.getD a 0 : Nat → Nat) = K at h
  simp only [Execution.okWith, Bool.and_eq_true] at h
  obtain ⟨⟨⟨⟨⟨⟨hrel, hpl⟩, hco⟩, hsc1⟩, hla⟩, hen⟩, ⟨⟨hscN, hscA⟩, hscB⟩, hscC⟩ := h
  have hpl' := List.all_eq_true.mp hpl
  have parts : ∀ a b, a < x.evs.length → b < x.evs.length → (x.edge a b = true → H a b = true) ∧
      ((x.po a b || x.readsFrom a b) = true → K a < K b) ∧ ∀ c, c < x.evs.length → H a b = true → H b c = true → H a c = true := by
    intro a b ha hb
    have h1 := below_spec (below_spec hrel ha) hb
    simp only [Bool.and_eq_true, Bool.or_eq_true, Bool.not_eq_true'] at h1
    refine ⟨fun e => by simpa [e] using h1.1.1, fun e => ?_, fun c hc e1 e2 => ?_⟩
    · have := h1.1.2
      simp only [Bool.or_eq_true] at e
      simp only [decide_eq_true_eq, Bool.or_eq_false_iff] at this
      rcases this with this | this
      · rcases e with e | e <;> simp [e] at this
      · exact this
    · have := below_spec h1.2 hc
      simpa [e1, e2] using this
  have hb : ∀ a b, HB x a b → a < x.evs.length ∧ b < x.evs.length ∧ H a b = true := by
    intro a b h
    refine HB_le (R := fun a b => a < x.evs.length ∧ b < x.evs.length ∧ H a b = true) ?_ ?_ h
    · intro a b h
      have hl := edge_lt h
      exact ⟨hl.1, hl.2, (parts a b hl.1 hl.2).1 h⟩
    · intro a b c ⟨h1, h2, h3⟩ ⟨_, h5, h6⟩
      exact ⟨h1, h5, (parts a b h1 h2).2.2 c h5 h3 h6⟩
  have place : ∀ b, b ∈ x.touched → _ := fun b hb => hpl' b hb
  simp only [Execution.placeOk, Bool.and_eq_true] at place
  have rd : ∀ b r, x.readsAt b r = true → (∀ w, x.src r b = some w → x.writesAt b w = true ∧ H r w = false) ∧
      x.is r (fun e => e.rval.getD (b - e.places.headD 0) 0 == x.valueAt b (x.src r b)) = true := by
    intro b r hr
    obtain ⟨⟨⟨_, h4⟩, _⟩, _⟩ := place b (readsAt_touched hr)
    have := below_spec h4 (readsAt_lt hr)
    simp only [hr, Bool.not_true, Bool.false_or, Bool.and_eq_true] at this
    refine ⟨fun w hw => ?_, this.2⟩
    have h1 := this.1
    simp only [hw, Bool.and_eq_true, Bool.not_eq_true'] at h1
    exact h1
  have pairs : ∀ b i j, b ∈ x.touched → i < x.evs.length → j < x.evs.length → _ := fun b i j hb hi hj =>
    below_spec (below_spec (place b hb).1.2 hi) hj
  simp only [Bool.and_eq_true, Bool.or_eq_true, Bool.not_eq_true', decide_eq_true_eq] at pairs
  have lane : ∀ b i j, b ∈ x.touched → i < x.evs.length → j < x.evs.length → _ := fun b i j hb hi hj =>
    below_spec (below_spec (List.all_eq_true.mp hla b hb) hi) hj
  simp only [Bool.and_eq_true] at lane
  refine ⟨?_, ?_, ⟨?_, ?_, ?_, ?_, ?_, ?_⟩, ?_, ?_, ?_, ?_, ?_, ⟨?_, ?_, ?_⟩, ?_⟩
  · intro r b hr
    exact ⟨fun w hw => ((rd b r hr).1 w hw).1, (rd b r hr).2⟩
  · intro b
    by_cases hb' : b ∈ x.touched
    · obtain ⟨⟨⟨⟨⟨h1, h2⟩, h3⟩, _⟩, _⟩, _⟩ := place b hb'
      refine ⟨by simpa using h1, fun w => ⟨fun hw => List.all_eq_true.mp h2 w hw, fun hw => ?_⟩⟩
      have := below_spec h3 (writesAt_lt hw)
      simpa [hw] using this
    · have hnil : x.order b = [] := by
        unfold Execution.order
        cases hl : x.co.lookup b with
        | none => rfl
        | some l =>
          have := List.all_eq_true.mp hco _ (mem_of_lookup hl)
          simpa [hb'] using this
      rw [hnil]
      refine ⟨List.nodup_nil, fun w => Iff.intro (fun h => absurd h List.not_mem_nil) (fun h => absurd (writesAt_touched h) hb')⟩
  · intro b w1 w2 h1 h2 h
    obtain ⟨_, _, h⟩ := hb _ _ h
    have := (pairs b w1 w2 (writesAt_touched h1) (writesAt_lt h1) (writesAt_lt h2)).1.1.1.1.1
    simpa [h1, h2, h] using this
  · intro b r w h1 h2 h
    obtain ⟨_, _, h⟩ := hb _ _ h
    have := ((rd b r h1).1 w h2).2
    rw [h] at this
    cases this
  · intro b w r h1 h2 h
    obtain ⟨_, _, h⟩ := hb _ _ h
    have := (pairs b w r (writesAt_touched h1) (writesAt_lt h1) (readsAt_lt h2)).1.1.1.1.2
    simpa [h1, h2, h] using this
  · intro b r1 r2 h1 h2 h
    obtain ⟨_, _, h⟩ := hb _ _ h
    have := (pairs b r1 r2 (readsAt_touched h1) (readsAt_lt h1) (readsAt_lt h2)).1.1.1.2
    simpa [h1, h2, h] using this
  · intro b r w h1 h2 h
    obtain ⟨_, _, h⟩ := hb _ _ h
    have := (pairs b r w (readsAt_touched h1) (readsAt_lt h1) (writesAt_lt h2)).1.1.2
    simpa [h1, h2, h] using this
  · intro b u h1 h2
    have := below_spec (place b (readsAt_touched h1)).2 (readsAt_lt h1)
    simpa [h1, h2] using this
  · intro r e he hr hs hsh b c hb' hc
    have hl : r < x.evs.length := (List.getElem?_eq_some_iff.mp he).1
    have := below_spec hsc1 hl
    simp only [Execution.is, he, hr, hs, hsh, Bool.and_self, Bool.not_true, Bool.false_or] at this
    have := List.all_eq_true.mp (List.all_eq_true.mp this b hb') c hc
    simpa using this
  · intro a h
    have : K a < K a := by
      refine Feeds_rank (k := K) ?_ h
      intro a b h
      have hl : a < x.evs.length ∧ b < x.evs.length := by
        rcases Bool.or_eq_true_iff.mp h with h | h
        · exact po_lt h
        · exact readsFrom_lt (fun c hc hw => ((rd c b hc).1 a hw).1) h
      exact (parts a b hl.1 hl.2).2.1 h
    omega
  · intro b w r h1 h2 h
    have := (pairs b w r (writesAt_touched h1) (writesAt_lt h1) (readsAt_lt h2)).1.2
    simpa [h1, h2, h] using this
  · intro b w a r h1 h2 h h'
    obtain ⟨ha, _, h'⟩ := hb _ _ h'
    have := below_spec (pairs b w r (writesAt_touched h1) (writesAt_lt h1) (readsAt_lt h2)).2 ha
    simpa [h1, h2, h, h'] using this
  · refine ⟨by simpa using hscN, fun f => ⟨fun hf => List.all_eq_true.mp hscA f hf, fun hf => ?_⟩, fun f g h hg => ?_⟩
    · have := below_spec hscB (is_lt hf)
      simpa [hf] using this
    · obtain ⟨hg1, hf1, hg⟩ := hb _ _ hg
      have := below_spec (below_spec hscC hf1) hg1
      simp [h, hg] at this
  · intro b i j hi hj h
    have := (lane b i j (writesAt_touched hi) (writesAt_lt hi) (writesAt_lt hj)).1.1
    simpa [hi, hj, h] using this
  · intro b i j hi hj h hk
    have := (lane b i j (readsAt_touched hj) (both_lt h).1 (both_lt h).2).1.2
    simp only [hi, hj, h, Bool.and_self, Bool.not_true, Bool.false_or, Bool.or_eq_true, beq_iff_eq, Bool.not_eq_true'] at this
    rcases this with this | this
    · exact this
    · have ht : below x.evs.length (fun k => !(x.rmwAt b k && x.lower i k && x.lower k j)) = true := by
        refine List.all_eq_true.mpr fun k _ => ?_
        cases h1 : x.rmwAt b k <;> cases h2 : x.lower i k <;> simp [*]
      rw [ht] at this
      cases this
  · intro b i j hi hj h
    have := (lane b i j (readsAt_touched hi) (both_lt h).1 (both_lt h).2).2
    simpa [hi, hj, h] using this
  · intro i hi
    have := below_spec hen (is_lt hi)
    simp only [hi, Bool.not_true, Bool.false_or, Bool.and_eq_true, Bool.not_eq_true'] at this
    obtain ⟨⟨h1, h2⟩, h3⟩ := this
    refine ⟨h1, ?_, fun j hj => ?_⟩
    · refine Classical.byContradiction fun hn => ?_
      have ht : below x.evs.length (fun j => !(x.po j i && x.is j Ev.isStart)) = true := by
        refine List.all_eq_true.mpr fun j _ => ?_
        cases h1 : x.po j i with
        | false => rfl
        | true =>
          cases h2 : x.is j Ev.isStart with
          | false => rfl
          | true => exact absurd ⟨j, h1, h2⟩ hn
      rw [ht] at h2
      cases h2
    · have := below_spec h3 (is_lt hj)
      simpa [hj] using this

end Sys2Proof.Machine
end

