-- ==== Sys2Proof/Laws/Maps.lean ====
section
/-! SUPPORT. Laws of sparse maps: reading after writing, and the canonical form. -/
namespace Sys2Proof.Machine

variable {V : Type}

theorem keysAbove_mono {j k : Nat} (h : j ≤ k) {m : List (Nat × V)} (hm : keysAbove k m = true) : keysAbove j m = true := by
  cases m with
  | nil => rfl
  | cons p r => simp only [keysAbove, decide_eq_true_eq] at *; omega

theorem mget_above [DecidableEq V] {d : V} {dd : Nat → V} {m : List (Nat × V)} {i : Nat} (hw : mwf dd m = true)
    (h : keysAbove i m = true) {j : Nat} (hj : j ≤ i) : mget d m j = d := by
  induction m generalizing i with
  | nil => rfl
  | cons p r ih =>
    obtain ⟨k, v⟩ := p
    simp only [mwf, Bool.and_eq_true] at hw
    simp only [keysAbove, decide_eq_true_eq] at h
    rw [mget, if_neg (by omega)]
    exact ih hw.2 hw.1.1 (by omega)

theorem keysAbove_of_wf [DecidableEq V] {dd : Nat → V} {k : Nat} {v : V} {r : List (Nat × V)} (h : mwf dd ((k, v) :: r) = true) :
    keysAbove k r = true ∧ mwf dd r = true ∧ v ≠ dd k := by
  simpa [mwf, and_assoc, and_comm, and_left_comm] using h

theorem wf_filter_above [DecidableEq V] {dd : Nat → V} (p : Nat × V → Bool) {m : List (Nat × V)} (hw : mwf dd m = true) :
    ∀ k, keysAbove k m = true → keysAbove k (m.filter p) = true ∧ mwf dd (m.filter p) = true := by
  induction m with
  | nil => intro _ _; exact ⟨rfl, rfl⟩
  | cons q r ih =>
    obtain ⟨j, w⟩ := q
    intro k hk
    obtain ⟨h1, h2, h3⟩ := keysAbove_of_wf hw
    simp only [keysAbove, decide_eq_true_eq] at hk
    have := ih h2 j h1
    rw [List.filter_cons]
    split
    · exact ⟨by simpa [keysAbove] using hk, by simp [mwf, this, h3]⟩
    · exact ⟨keysAbove_mono (by omega) this.1, this.2⟩

/-- Filtering keeps the canonical form. -/
theorem mwf_filter [DecidableEq V] {dd : Nat → V} (p : Nat × V → Bool) {m : List (Nat × V)} (hw : mwf dd m = true) :
    mwf dd (m.filter p) = true := by
  cases m with
  | nil => rfl
  | cons q r =>
    obtain ⟨k, v⟩ := q
    obtain ⟨h1, h2, h3⟩ := keysAbove_of_wf hw
    have := wf_filter_above p h2 k h1
    rw [List.filter_cons]
    split
    · simp [mwf, this, h3]
    · exact this.2

/-! ### Deleting -/

/-- Deleting keeps the canonical form. -/
theorem mwf_mdel [DecidableEq V] {dd : Nat → V} {m : List (Nat × V)} {i : Nat} (hw : mwf dd m = true) : mwf dd (mdel m i) = true :=
  mwf_filter _ hw

/-- Reading after a filter by keys. -/
theorem mget_filter {d : V} (q : Nat → Bool) (m : List (Nat × V)) (j : Nat) :
    mget d (m.filter fun p => q p.1) j = if q j = true then mget d m j else d := by
  induction m with
  | nil => simp [mget]
  | cons p r ih =>
    obtain ⟨k, v⟩ := p
    by_cases hk : k = j
    · subst hk; by_cases hq : q k = true <;> simp [hq, mget, ih]
    · by_cases hq : q k = true <;> simp [hq, mget, hk, ih]

/-- Reading after a deletion. -/
theorem mget_mdel {d : V} (m : List (Nat × V)) (i j : Nat) :
    mget d (mdel m i) j = if j = i then d else mget d m j := by
  rw [mdel, mget_filter (fun k => k != i)]
  by_cases h : j = i <;> simp [h]

/-! ### Putting -/

theorem keysAbove_mput {k i : Nat} {v : V} {m : List (Nat × V)} (h : keysAbove k m = true) (hi : k < i) :
    keysAbove k (mput m i v) = true := by
  cases m with
  | nil => simpa [mput, keysAbove] using hi
  | cons p r =>
    obtain ⟨j, w⟩ := p
    rw [mput]
    split
    · simpa [keysAbove] using hi
    · split
      · simpa [keysAbove] using hi
      · simpa [keysAbove] using h

/-- Putting a value that the key does not read as when unlisted keeps the canonical form. -/
theorem mwf_mput [DecidableEq V] {dd : Nat → V} {m : List (Nat × V)} {i : Nat} {v : V} (hw : mwf dd m = true) (hv : v ≠ dd i) :
    mwf dd (mput m i v) = true := by
  induction m with
  | nil => simp [mput, mwf, keysAbove, hv]
  | cons p r ih =>
    obtain ⟨k, w⟩ := p
    obtain ⟨h1, h2, h3⟩ := keysAbove_of_wf hw
    rw [mput]
    split
    · next hk => 
      have h4 : keysAbove i ((k, w) :: r) = true := by simpa [keysAbove] using hk
      simp only [mwf, h4, hv, Bool.true_and, decide_true, ne_eq, not_false_eq_true]
      simp [h1, h2, h3]
    · split
      · next hk => subst hk; simp [mwf, h1, h2, hv]
      · next hk hk' => simp [mwf, ih h2, h3, keysAbove_mput h1 (by omega : k < i)]

/-- Reading after putting. -/
theorem mget_mput {d : V} (m : List (Nat × V)) (i j : Nat) (v : V) :
    mget d (mput m i v) j = if i = j then v else mget d m j := by
  induction m with
  | nil => simp [mput, mget]
  | cons p r ih =>
    obtain ⟨k, w⟩ := p
    rw [mput]
    split
    · simp [mget]
    · split
      · next hk => subst hk; simp only [mget]; split <;> rfl
      · next hk =>
        simp only [mget, ih]
        by_cases hkj : k = j
        · subst hkj; simp [hk]
        · simp [hkj]

/-! ### Setting -/

/-- Setting keeps the canonical form. -/
theorem mwf_mset [DecidableEq V] {dd : Nat → V} {m : List (Nat × V)} {i : Nat} {v : V} (hw : mwf dd m = true) :
    mwf dd (mset (dd i) m i v) = true := by
  rw [mset]
  split
  · exact mwf_mdel hw
  · next h => exact mwf_mput hw h

/-- Reading after setting. -/
theorem mget_mset [DecidableEq V] {d : V} (m : List (Nat × V)) (i j : Nat) (v : V) :
    mget d (mset d m i v) j = if i = j then v else mget d m j := by
  rw [mset]
  split
  · next h => rw [mget_mdel]; subst h; simp [eq_comm]
  · exact mget_mput ..

/-- Setting entries one after the other keeps the canonical form. -/
theorem mwf_foldl_mset [DecidableEq V] {d : V} (g : Nat → Nat) (cells : List (Nat × V)) {m : List (Nat × V)}
    (hw : mwf (fun _ => d) m = true) :
    mwf (fun _ => d) (cells.foldl (fun m c => mset d m (g c.1) c.2) m) = true := by
  induction cells generalizing m with
  | nil => exact hw
  | cons c r ih => exact ih (mwf_mset (dd := fun _ => d) hw)

end Sys2Proof.Machine
end

