-- ==== Sys2Proof/Laws/State.lean ====
section
/-! SUPPORT. What each update of the state leaves of every other field, one lemma per field. -/
namespace Sys2Proof.Machine

@[simp] theorem setPreg_agenda (s : State) (o : Nat) (v : DWord) : (s.setPreg o v).agenda = s.agenda := rfl
@[simp] theorem setPreg_issue (s : State) (o : Nat) (v : DWord) : (s.setPreg o v).issue = s.issue := rfl
@[simp] theorem setPreg_free (s : State) (o : Nat) (v : DWord) : (s.setPreg o v).free = s.free := rfl
@[simp] theorem setPreg_steps (s : State) (o : Nat) (v : DWord) : (s.setPreg o v).steps = s.steps := rfl
@[simp] theorem setPreg_mem (s : State) (o : Nat) (v : DWord) : (s.setPreg o v).mem = s.mem := rfl
@[simp] theorem setPreg_tags (s : State) (o : Nat) (v : DWord) : (s.setPreg o v).tags = s.tags := rfl
@[simp] theorem setPreg_poison (s : State) (o : Nat) (v : DWord) : (s.setPreg o v).poison = s.poison := rfl
@[simp] theorem setPreg_dregs (s : State) (o : Nat) (v : DWord) : (s.setPreg o v).dregs = s.dregs := rfl
@[simp] theorem setPreg_doms (s : State) (o : Nat) (v : DWord) : (s.setPreg o v).doms = s.doms := rfl
@[simp] theorem setPreg_cores (s : State) (o : Nat) (v : DWord) : (s.setPreg o v).cores = s.cores := rfl
@[simp] theorem setPreg_clusters (s : State) (o : Nat) (v : DWord) : (s.setPreg o v).clusters = s.clusters := rfl
@[simp] theorem setPreg_modules (s : State) (o : Nat) (v : DWord) : (s.setPreg o v).modules = s.modules := rfl
@[simp] theorem setPreg_launches (s : State) (o : Nat) (v : DWord) : (s.setPreg o v).launches = s.launches := rfl
@[simp] theorem setPreg_groups (s : State) (o : Nat) (v : DWord) : (s.setPreg o v).groups = s.groups := rfl
@[simp] theorem setPreg_cmds (s : State) (o : Nat) (v : DWord) : (s.setPreg o v).cmds = s.cmds := rfl
@[simp] theorem setPreg_winch (s : State) (o : Nat) (v : DWord) : (s.setPreg o v).winch = s.winch := rfl
@[simp] theorem setPreg_rails (s : State) (o : Nat) (v : DWord) : (s.setPreg o v).rails = s.rails := rfl
@[simp] theorem setPreg_vcs (s : State) (o : Nat) (v : DWord) : (s.setPreg o v).vcs = s.vcs := rfl
@[simp] theorem setPreg_host (s : State) (o : Nat) (v : DWord) : (s.setPreg o v).host = s.host := rfl
@[simp] theorem setPreg_power (s : State) (o : Nat) (v : DWord) : (s.setPreg o v).power = s.power := rfl
@[simp] theorem setPreg_gang (s : State) (o : Nat) (v : DWord) : (s.setPreg o v).gang = s.gang := rfl
@[simp] theorem setPreg_peers (s : State) (o : Nat) (v : DWord) : (s.setPreg o v).peers = s.peers := rfl
@[simp] theorem setPreg_booted (s : State) (o : Nat) (v : DWord) : (s.setPreg o v).booted = s.booted := rfl
@[simp] theorem setPreg_cpSeen (s : State) (o : Nat) (v : DWord) : (s.setPreg o v).cpSeen = s.cpSeen := rfl
@[simp] theorem setPreg_nextId (s : State) (o : Nat) (v : DWord) : (s.setPreg o v).nextId = s.nextId := rfl
@[simp] theorem setPreg_cfgErrors (s : State) (o : Nat) (v : DWord) : (s.setPreg o v).cfgErrors = s.cfgErrors := rfl
@[simp] theorem setPreg_cerrs (s : State) (o : Nat) (v : DWord) : (s.setPreg o v).cerrs = s.cerrs := rfl
@[simp] theorem setPreg_lost (s : State) (o : Nat) (v : DWord) : (s.setPreg o v).lost = s.lost := rfl
@[simp] theorem setPreg_l2drops (s : State) (o : Nat) (v : DWord) : (s.setPreg o v).l2drops = s.l2drops := rfl
@[simp] theorem setPreg_dropped (s : State) (o : Nat) (v : DWord) : (s.setPreg o v).dropped = s.dropped := rfl
@[simp] theorem setPreg_restamps (s : State) (o : Nat) (v : DWord) : (s.setPreg o v).restamps = s.restamps := rfl
@[simp] theorem setPreg_early (s : State) (o : Nat) (v : DWord) : (s.setPreg o v).early = s.early := rfl

@[simp] theorem setDreg_agenda (s : State) (d o : Nat) (v : DWord) : (s.setDreg d o v).agenda = s.agenda := rfl
@[simp] theorem setDreg_issue (s : State) (d o : Nat) (v : DWord) : (s.setDreg d o v).issue = s.issue := rfl
@[simp] theorem setDreg_free (s : State) (d o : Nat) (v : DWord) : (s.setDreg d o v).free = s.free := rfl
@[simp] theorem setDreg_steps (s : State) (d o : Nat) (v : DWord) : (s.setDreg d o v).steps = s.steps := rfl
@[simp] theorem setDreg_mem (s : State) (d o : Nat) (v : DWord) : (s.setDreg d o v).mem = s.mem := rfl
@[simp] theorem setDreg_tags (s : State) (d o : Nat) (v : DWord) : (s.setDreg d o v).tags = s.tags := rfl
@[simp] theorem setDreg_poison (s : State) (d o : Nat) (v : DWord) : (s.setDreg d o v).poison = s.poison := rfl
@[simp] theorem setDreg_pregs (s : State) (d o : Nat) (v : DWord) : (s.setDreg d o v).pregs = s.pregs := rfl
@[simp] theorem setDreg_doms (s : State) (d o : Nat) (v : DWord) : (s.setDreg d o v).doms = s.doms := rfl
@[simp] theorem setDreg_cores (s : State) (d o : Nat) (v : DWord) : (s.setDreg d o v).cores = s.cores := rfl
@[simp] theorem setDreg_clusters (s : State) (d o : Nat) (v : DWord) : (s.setDreg d o v).clusters = s.clusters := rfl
@[simp] theorem setDreg_modules (s : State) (d o : Nat) (v : DWord) : (s.setDreg d o v).modules = s.modules := rfl
@[simp] theorem setDreg_launches (s : State) (d o : Nat) (v : DWord) : (s.setDreg d o v).launches = s.launches := rfl
@[simp] theorem setDreg_groups (s : State) (d o : Nat) (v : DWord) : (s.setDreg d o v).groups = s.groups := rfl
@[simp] theorem setDreg_cmds (s : State) (d o : Nat) (v : DWord) : (s.setDreg d o v).cmds = s.cmds := rfl
@[simp] theorem setDreg_winch (s : State) (d o : Nat) (v : DWord) : (s.setDreg d o v).winch = s.winch := rfl
@[simp] theorem setDreg_rails (s : State) (d o : Nat) (v : DWord) : (s.setDreg d o v).rails = s.rails := rfl
@[simp] theorem setDreg_vcs (s : State) (d o : Nat) (v : DWord) : (s.setDreg d o v).vcs = s.vcs := rfl
@[simp] theorem setDreg_host (s : State) (d o : Nat) (v : DWord) : (s.setDreg d o v).host = s.host := rfl
@[simp] theorem setDreg_power (s : State) (d o : Nat) (v : DWord) : (s.setDreg d o v).power = s.power := rfl
@[simp] theorem setDreg_gang (s : State) (d o : Nat) (v : DWord) : (s.setDreg d o v).gang = s.gang := rfl
@[simp] theorem setDreg_peers (s : State) (d o : Nat) (v : DWord) : (s.setDreg d o v).peers = s.peers := rfl
@[simp] theorem setDreg_booted (s : State) (d o : Nat) (v : DWord) : (s.setDreg d o v).booted = s.booted := rfl
@[simp] theorem setDreg_cpSeen (s : State) (d o : Nat) (v : DWord) : (s.setDreg d o v).cpSeen = s.cpSeen := rfl
@[simp] theorem setDreg_nextId (s : State) (d o : Nat) (v : DWord) : (s.setDreg d o v).nextId = s.nextId := rfl
@[simp] theorem setDreg_cfgErrors (s : State) (d o : Nat) (v : DWord) : (s.setDreg d o v).cfgErrors = s.cfgErrors := rfl
@[simp] theorem setDreg_cerrs (s : State) (d o : Nat) (v : DWord) : (s.setDreg d o v).cerrs = s.cerrs := rfl
@[simp] theorem setDreg_lost (s : State) (d o : Nat) (v : DWord) : (s.setDreg d o v).lost = s.lost := rfl
@[simp] theorem setDreg_l2drops (s : State) (d o : Nat) (v : DWord) : (s.setDreg d o v).l2drops = s.l2drops := rfl
@[simp] theorem setDreg_dropped (s : State) (d o : Nat) (v : DWord) : (s.setDreg d o v).dropped = s.dropped := rfl
@[simp] theorem setDreg_restamps (s : State) (d o : Nat) (v : DWord) : (s.setDreg d o v).restamps = s.restamps := rfl
@[simp] theorem setDreg_early (s : State) (d o : Nat) (v : DWord) : (s.setDreg d o v).early = s.early := rfl

@[simp] theorem modDom_agenda (s : State) (d : Nat) (f : Dom → Dom) : (s.modDom d f).agenda = s.agenda := rfl
@[simp] theorem modDom_issue (s : State) (d : Nat) (f : Dom → Dom) : (s.modDom d f).issue = s.issue := rfl
@[simp] theorem modDom_free (s : State) (d : Nat) (f : Dom → Dom) : (s.modDom d f).free = s.free := rfl
@[simp] theorem modDom_steps (s : State) (d : Nat) (f : Dom → Dom) : (s.modDom d f).steps = s.steps := rfl
@[simp] theorem modDom_mem (s : State) (d : Nat) (f : Dom → Dom) : (s.modDom d f).mem = s.mem := rfl
@[simp] theorem modDom_tags (s : State) (d : Nat) (f : Dom → Dom) : (s.modDom d f).tags = s.tags := rfl
@[simp] theorem modDom_poison (s : State) (d : Nat) (f : Dom → Dom) : (s.modDom d f).poison = s.poison := rfl
@[simp] theorem modDom_pregs (s : State) (d : Nat) (f : Dom → Dom) : (s.modDom d f).pregs = s.pregs := rfl
@[simp] theorem modDom_dregs (s : State) (d : Nat) (f : Dom → Dom) : (s.modDom d f).dregs = s.dregs := rfl
@[simp] theorem modDom_cores (s : State) (d : Nat) (f : Dom → Dom) : (s.modDom d f).cores = s.cores := rfl
@[simp] theorem modDom_clusters (s : State) (d : Nat) (f : Dom → Dom) : (s.modDom d f).clusters = s.clusters := rfl
@[simp] theorem modDom_modules (s : State) (d : Nat) (f : Dom → Dom) : (s.modDom d f).modules = s.modules := rfl
@[simp] theorem modDom_launches (s : State) (d : Nat) (f : Dom → Dom) : (s.modDom d f).launches = s.launches := rfl
@[simp] theorem modDom_groups (s : State) (d : Nat) (f : Dom → Dom) : (s.modDom d f).groups = s.groups := rfl
@[simp] theorem modDom_cmds (s : State) (d : Nat) (f : Dom → Dom) : (s.modDom d f).cmds = s.cmds := rfl
@[simp] theorem modDom_winch (s : State) (d : Nat) (f : Dom → Dom) : (s.modDom d f).winch = s.winch := rfl
@[simp] theorem modDom_rails (s : State) (d : Nat) (f : Dom → Dom) : (s.modDom d f).rails = s.rails := rfl
@[simp] theorem modDom_vcs (s : State) (d : Nat) (f : Dom → Dom) : (s.modDom d f).vcs = s.vcs := rfl
@[simp] theorem modDom_host (s : State) (d : Nat) (f : Dom → Dom) : (s.modDom d f).host = s.host := rfl
@[simp] theorem modDom_power (s : State) (d : Nat) (f : Dom → Dom) : (s.modDom d f).power = s.power := rfl
@[simp] theorem modDom_gang (s : State) (d : Nat) (f : Dom → Dom) : (s.modDom d f).gang = s.gang := rfl
@[simp] theorem modDom_peers (s : State) (d : Nat) (f : Dom → Dom) : (s.modDom d f).peers = s.peers := rfl
@[simp] theorem modDom_booted (s : State) (d : Nat) (f : Dom → Dom) : (s.modDom d f).booted = s.booted := rfl
@[simp] theorem modDom_cpSeen (s : State) (d : Nat) (f : Dom → Dom) : (s.modDom d f).cpSeen = s.cpSeen := rfl
@[simp] theorem modDom_nextId (s : State) (d : Nat) (f : Dom → Dom) : (s.modDom d f).nextId = s.nextId := rfl
@[simp] theorem modDom_cfgErrors (s : State) (d : Nat) (f : Dom → Dom) : (s.modDom d f).cfgErrors = s.cfgErrors := rfl
@[simp] theorem modDom_cerrs (s : State) (d : Nat) (f : Dom → Dom) : (s.modDom d f).cerrs = s.cerrs := rfl
@[simp] theorem modDom_lost (s : State) (d : Nat) (f : Dom → Dom) : (s.modDom d f).lost = s.lost := rfl
@[simp] theorem modDom_l2drops (s : State) (d : Nat) (f : Dom → Dom) : (s.modDom d f).l2drops = s.l2drops := rfl
@[simp] theorem modDom_dropped (s : State) (d : Nat) (f : Dom → Dom) : (s.modDom d f).dropped = s.dropped := rfl
@[simp] theorem modDom_restamps (s : State) (d : Nat) (f : Dom → Dom) : (s.modDom d f).restamps = s.restamps := rfl
@[simp] theorem modDom_early (s : State) (d : Nat) (f : Dom → Dom) : (s.modDom d f).early = s.early := rfl

@[simp] theorem modCore_agenda (s : State) (c : Nat) (f : CoreSt → CoreSt) : (s.modCore c f).agenda = s.agenda := rfl
@[simp] theorem modCore_issue (s : State) (c : Nat) (f : CoreSt → CoreSt) : (s.modCore c f).issue = s.issue := rfl
@[simp] theorem modCore_free (s : State) (c : Nat) (f : CoreSt → CoreSt) : (s.modCore c f).free = s.free := rfl
@[simp] theorem modCore_steps (s : State) (c : Nat) (f : CoreSt → CoreSt) : (s.modCore c f).steps = s.steps := rfl
@[simp] theorem modCore_mem (s : State) (c : Nat) (f : CoreSt → CoreSt) : (s.modCore c f).mem = s.mem := rfl
@[simp] theorem modCore_tags (s : State) (c : Nat) (f : CoreSt → CoreSt) : (s.modCore c f).tags = s.tags := rfl
@[simp] theorem modCore_poison (s : State) (c : Nat) (f : CoreSt → CoreSt) : (s.modCore c f).poison = s.poison := rfl
@[simp] theorem modCore_pregs (s : State) (c : Nat) (f : CoreSt → CoreSt) : (s.modCore c f).pregs = s.pregs := rfl
@[simp] theorem modCore_dregs (s : State) (c : Nat) (f : CoreSt → CoreSt) : (s.modCore c f).dregs = s.dregs := rfl
@[simp] theorem modCore_doms (s : State) (c : Nat) (f : CoreSt → CoreSt) : (s.modCore c f).doms = s.doms := rfl
@[simp] theorem modCore_clusters (s : State) (c : Nat) (f : CoreSt → CoreSt) : (s.modCore c f).clusters = s.clusters := rfl
@[simp] theorem modCore_modules (s : State) (c : Nat) (f : CoreSt → CoreSt) : (s.modCore c f).modules = s.modules := rfl
@[simp] theorem modCore_launches (s : State) (c : Nat) (f : CoreSt → CoreSt) : (s.modCore c f).launches = s.launches := rfl
@[simp] theorem modCore_groups (s : State) (c : Nat) (f : CoreSt → CoreSt) : (s.modCore c f).groups = s.groups := rfl
@[simp] theorem modCore_cmds (s : State) (c : Nat) (f : CoreSt → CoreSt) : (s.modCore c f).cmds = s.cmds := rfl
@[simp] theorem modCore_winch (s : State) (c : Nat) (f : CoreSt → CoreSt) : (s.modCore c f).winch = s.winch := rfl
@[simp] theorem modCore_rails (s : State) (c : Nat) (f : CoreSt → CoreSt) : (s.modCore c f).rails = s.rails := rfl
@[simp] theorem modCore_vcs (s : State) (c : Nat) (f : CoreSt → CoreSt) : (s.modCore c f).vcs = s.vcs := rfl
@[simp] theorem modCore_host (s : State) (c : Nat) (f : CoreSt → CoreSt) : (s.modCore c f).host = s.host := rfl
@[simp] theorem modCore_power (s : State) (c : Nat) (f : CoreSt → CoreSt) : (s.modCore c f).power = s.power := rfl
@[simp] theorem modCore_gang (s : State) (c : Nat) (f : CoreSt → CoreSt) : (s.modCore c f).gang = s.gang := rfl
@[simp] theorem modCore_peers (s : State) (c : Nat) (f : CoreSt → CoreSt) : (s.modCore c f).peers = s.peers := rfl
@[simp] theorem modCore_booted (s : State) (c : Nat) (f : CoreSt → CoreSt) : (s.modCore c f).booted = s.booted := rfl
@[simp] theorem modCore_cpSeen (s : State) (c : Nat) (f : CoreSt → CoreSt) : (s.modCore c f).cpSeen = s.cpSeen := rfl
@[simp] theorem modCore_nextId (s : State) (c : Nat) (f : CoreSt → CoreSt) : (s.modCore c f).nextId = s.nextId := rfl
@[simp] theorem modCore_cfgErrors (s : State) (c : Nat) (f : CoreSt → CoreSt) : (s.modCore c f).cfgErrors = s.cfgErrors := rfl
@[simp] theorem modCore_cerrs (s : State) (c : Nat) (f : CoreSt → CoreSt) : (s.modCore c f).cerrs = s.cerrs := rfl
@[simp] theorem modCore_lost (s : State) (c : Nat) (f : CoreSt → CoreSt) : (s.modCore c f).lost = s.lost := rfl
@[simp] theorem modCore_l2drops (s : State) (c : Nat) (f : CoreSt → CoreSt) : (s.modCore c f).l2drops = s.l2drops := rfl
@[simp] theorem modCore_dropped (s : State) (c : Nat) (f : CoreSt → CoreSt) : (s.modCore c f).dropped = s.dropped := rfl
@[simp] theorem modCore_restamps (s : State) (c : Nat) (f : CoreSt → CoreSt) : (s.modCore c f).restamps = s.restamps := rfl
@[simp] theorem modCore_early (s : State) (c : Nat) (f : CoreSt → CoreSt) : (s.modCore c f).early = s.early := rfl

@[simp] theorem modCluster_agenda (s : State) (c : Nat) (f : ClusterSt → ClusterSt) : (s.modCluster c f).agenda = s.agenda := rfl
@[simp] theorem modCluster_issue (s : State) (c : Nat) (f : ClusterSt → ClusterSt) : (s.modCluster c f).issue = s.issue := rfl
@[simp] theorem modCluster_free (s : State) (c : Nat) (f : ClusterSt → ClusterSt) : (s.modCluster c f).free = s.free := rfl
@[simp] theorem modCluster_steps (s : State) (c : Nat) (f : ClusterSt → ClusterSt) : (s.modCluster c f).steps = s.steps := rfl
@[simp] theorem modCluster_mem (s : State) (c : Nat) (f : ClusterSt → ClusterSt) : (s.modCluster c f).mem = s.mem := rfl
@[simp] theorem modCluster_tags (s : State) (c : Nat) (f : ClusterSt → ClusterSt) : (s.modCluster c f).tags = s.tags := rfl
@[simp] theorem modCluster_poison (s : State) (c : Nat) (f : ClusterSt → ClusterSt) : (s.modCluster c f).poison = s.poison := rfl
@[simp] theorem modCluster_pregs (s : State) (c : Nat) (f : ClusterSt → ClusterSt) : (s.modCluster c f).pregs = s.pregs := rfl
@[simp] theorem modCluster_dregs (s : State) (c : Nat) (f : ClusterSt → ClusterSt) : (s.modCluster c f).dregs = s.dregs := rfl
@[simp] theorem modCluster_doms (s : State) (c : Nat) (f : ClusterSt → ClusterSt) : (s.modCluster c f).doms = s.doms := rfl
@[simp] theorem modCluster_cores (s : State) (c : Nat) (f : ClusterSt → ClusterSt) : (s.modCluster c f).cores = s.cores := rfl
@[simp] theorem modCluster_modules (s : State) (c : Nat) (f : ClusterSt → ClusterSt) : (s.modCluster c f).modules = s.modules := rfl
@[simp] theorem modCluster_launches (s : State) (c : Nat) (f : ClusterSt → ClusterSt) : (s.modCluster c f).launches = s.launches := rfl
@[simp] theorem modCluster_groups (s : State) (c : Nat) (f : ClusterSt → ClusterSt) : (s.modCluster c f).groups = s.groups := rfl
@[simp] theorem modCluster_cmds (s : State) (c : Nat) (f : ClusterSt → ClusterSt) : (s.modCluster c f).cmds = s.cmds := rfl
@[simp] theorem modCluster_winch (s : State) (c : Nat) (f : ClusterSt → ClusterSt) : (s.modCluster c f).winch = s.winch := rfl
@[simp] theorem modCluster_rails (s : State) (c : Nat) (f : ClusterSt → ClusterSt) : (s.modCluster c f).rails = s.rails := rfl
@[simp] theorem modCluster_vcs (s : State) (c : Nat) (f : ClusterSt → ClusterSt) : (s.modCluster c f).vcs = s.vcs := rfl
@[simp] theorem modCluster_host (s : State) (c : Nat) (f : ClusterSt → ClusterSt) : (s.modCluster c f).host = s.host := rfl
@[simp] theorem modCluster_power (s : State) (c : Nat) (f : ClusterSt → ClusterSt) : (s.modCluster c f).power = s.power := rfl
@[simp] theorem modCluster_gang (s : State) (c : Nat) (f : ClusterSt → ClusterSt) : (s.modCluster c f).gang = s.gang := rfl
@[simp] theorem modCluster_peers (s : State) (c : Nat) (f : ClusterSt → ClusterSt) : (s.modCluster c f).peers = s.peers := rfl
@[simp] theorem modCluster_booted (s : State) (c : Nat) (f : ClusterSt → ClusterSt) : (s.modCluster c f).booted = s.booted := rfl
@[simp] theorem modCluster_cpSeen (s : State) (c : Nat) (f : ClusterSt → ClusterSt) : (s.modCluster c f).cpSeen = s.cpSeen := rfl
@[simp] theorem modCluster_nextId (s : State) (c : Nat) (f : ClusterSt → ClusterSt) : (s.modCluster c f).nextId = s.nextId := rfl
@[simp] theorem modCluster_cfgErrors (s : State) (c : Nat) (f : ClusterSt → ClusterSt) : (s.modCluster c f).cfgErrors = s.cfgErrors := rfl
@[simp] theorem modCluster_cerrs (s : State) (c : Nat) (f : ClusterSt → ClusterSt) : (s.modCluster c f).cerrs = s.cerrs := rfl
@[simp] theorem modCluster_lost (s : State) (c : Nat) (f : ClusterSt → ClusterSt) : (s.modCluster c f).lost = s.lost := rfl
@[simp] theorem modCluster_l2drops (s : State) (c : Nat) (f : ClusterSt → ClusterSt) : (s.modCluster c f).l2drops = s.l2drops := rfl
@[simp] theorem modCluster_dropped (s : State) (c : Nat) (f : ClusterSt → ClusterSt) : (s.modCluster c f).dropped = s.dropped := rfl
@[simp] theorem modCluster_restamps (s : State) (c : Nat) (f : ClusterSt → ClusterSt) : (s.modCluster c f).restamps = s.restamps := rfl
@[simp] theorem modCluster_early (s : State) (c : Nat) (f : ClusterSt → ClusterSt) : (s.modCluster c f).early = s.early := rfl

@[simp] theorem modGroup_agenda (s : State) (g : Nat) (f : Group → Group) : (s.modGroup g f).agenda = s.agenda := rfl
@[simp] theorem modGroup_issue (s : State) (g : Nat) (f : Group → Group) : (s.modGroup g f).issue = s.issue := rfl
@[simp] theorem modGroup_free (s : State) (g : Nat) (f : Group → Group) : (s.modGroup g f).free = s.free := rfl
@[simp] theorem modGroup_steps (s : State) (g : Nat) (f : Group → Group) : (s.modGroup g f).steps = s.steps := rfl
@[simp] theorem modGroup_mem (s : State) (g : Nat) (f : Group → Group) : (s.modGroup g f).mem = s.mem := rfl
@[simp] theorem modGroup_tags (s : State) (g : Nat) (f : Group → Group) : (s.modGroup g f).tags = s.tags := rfl
@[simp] theorem modGroup_poison (s : State) (g : Nat) (f : Group → Group) : (s.modGroup g f).poison = s.poison := rfl
@[simp] theorem modGroup_pregs (s : State) (g : Nat) (f : Group → Group) : (s.modGroup g f).pregs = s.pregs := rfl
@[simp] theorem modGroup_dregs (s : State) (g : Nat) (f : Group → Group) : (s.modGroup g f).dregs = s.dregs := rfl
@[simp] theorem modGroup_doms (s : State) (g : Nat) (f : Group → Group) : (s.modGroup g f).doms = s.doms := rfl
@[simp] theorem modGroup_cores (s : State) (g : Nat) (f : Group → Group) : (s.modGroup g f).cores = s.cores := rfl
@[simp] theorem modGroup_clusters (s : State) (g : Nat) (f : Group → Group) : (s.modGroup g f).clusters = s.clusters := rfl
@[simp] theorem modGroup_modules (s : State) (g : Nat) (f : Group → Group) : (s.modGroup g f).modules = s.modules := rfl
@[simp] theorem modGroup_launches (s : State) (g : Nat) (f : Group → Group) : (s.modGroup g f).launches = s.launches := rfl
@[simp] theorem modGroup_cmds (s : State) (g : Nat) (f : Group → Group) : (s.modGroup g f).cmds = s.cmds := rfl
@[simp] theorem modGroup_winch (s : State) (g : Nat) (f : Group → Group) : (s.modGroup g f).winch = s.winch := rfl
@[simp] theorem modGroup_rails (s : State) (g : Nat) (f : Group → Group) : (s.modGroup g f).rails = s.rails := rfl
@[simp] theorem modGroup_vcs (s : State) (g : Nat) (f : Group → Group) : (s.modGroup g f).vcs = s.vcs := rfl
@[simp] theorem modGroup_host (s : State) (g : Nat) (f : Group → Group) : (s.modGroup g f).host = s.host := rfl
@[simp] theorem modGroup_power (s : State) (g : Nat) (f : Group → Group) : (s.modGroup g f).power = s.power := rfl
@[simp] theorem modGroup_gang (s : State) (g : Nat) (f : Group → Group) : (s.modGroup g f).gang = s.gang := rfl
@[simp] theorem modGroup_peers (s : State) (g : Nat) (f : Group → Group) : (s.modGroup g f).peers = s.peers := rfl
@[simp] theorem modGroup_booted (s : State) (g : Nat) (f : Group → Group) : (s.modGroup g f).booted = s.booted := rfl
@[simp] theorem modGroup_cpSeen (s : State) (g : Nat) (f : Group → Group) : (s.modGroup g f).cpSeen = s.cpSeen := rfl
@[simp] theorem modGroup_nextId (s : State) (g : Nat) (f : Group → Group) : (s.modGroup g f).nextId = s.nextId := rfl
@[simp] theorem modGroup_cfgErrors (s : State) (g : Nat) (f : Group → Group) : (s.modGroup g f).cfgErrors = s.cfgErrors := rfl
@[simp] theorem modGroup_cerrs (s : State) (g : Nat) (f : Group → Group) : (s.modGroup g f).cerrs = s.cerrs := rfl
@[simp] theorem modGroup_lost (s : State) (g : Nat) (f : Group → Group) : (s.modGroup g f).lost = s.lost := rfl
@[simp] theorem modGroup_l2drops (s : State) (g : Nat) (f : Group → Group) : (s.modGroup g f).l2drops = s.l2drops := rfl
@[simp] theorem modGroup_dropped (s : State) (g : Nat) (f : Group → Group) : (s.modGroup g f).dropped = s.dropped := rfl
@[simp] theorem modGroup_restamps (s : State) (g : Nat) (f : Group → Group) : (s.modGroup g f).restamps = s.restamps := rfl
@[simp] theorem modGroup_early (s : State) (g : Nat) (f : Group → Group) : (s.modGroup g f).early = s.early := rfl

@[simp] theorem modWave_agenda (s : State) (g w : Nat) (f : Wave → Wave) : (s.modWave g w f).agenda = s.agenda := rfl
@[simp] theorem modWave_issue (s : State) (g w : Nat) (f : Wave → Wave) : (s.modWave g w f).issue = s.issue := rfl
@[simp] theorem modWave_free (s : State) (g w : Nat) (f : Wave → Wave) : (s.modWave g w f).free = s.free := rfl
@[simp] theorem modWave_steps (s : State) (g w : Nat) (f : Wave → Wave) : (s.modWave g w f).steps = s.steps := rfl
@[simp] theorem modWave_mem (s : State) (g w : Nat) (f : Wave → Wave) : (s.modWave g w f).mem = s.mem := rfl
@[simp] theorem modWave_tags (s : State) (g w : Nat) (f : Wave → Wave) : (s.modWave g w f).tags = s.tags := rfl
@[simp] theorem modWave_poison (s : State) (g w : Nat) (f : Wave → Wave) : (s.modWave g w f).poison = s.poison := rfl
@[simp] theorem modWave_pregs (s : State) (g w : Nat) (f : Wave → Wave) : (s.modWave g w f).pregs = s.pregs := rfl
@[simp] theorem modWave_dregs (s : State) (g w : Nat) (f : Wave → Wave) : (s.modWave g w f).dregs = s.dregs := rfl
@[simp] theorem modWave_doms (s : State) (g w : Nat) (f : Wave → Wave) : (s.modWave g w f).doms = s.doms := rfl
@[simp] theorem modWave_cores (s : State) (g w : Nat) (f : Wave → Wave) : (s.modWave g w f).cores = s.cores := rfl
@[simp] theorem modWave_clusters (s : State) (g w : Nat) (f : Wave → Wave) : (s.modWave g w f).clusters = s.clusters := rfl
@[simp] theorem modWave_modules (s : State) (g w : Nat) (f : Wave → Wave) : (s.modWave g w f).modules = s.modules := rfl
@[simp] theorem modWave_launches (s : State) (g w : Nat) (f : Wave → Wave) : (s.modWave g w f).launches = s.launches := rfl
@[simp] theorem modWave_cmds (s : State) (g w : Nat) (f : Wave → Wave) : (s.modWave g w f).cmds = s.cmds := rfl
@[simp] theorem modWave_winch (s : State) (g w : Nat) (f : Wave → Wave) : (s.modWave g w f).winch = s.winch := rfl
@[simp] theorem modWave_rails (s : State) (g w : Nat) (f : Wave → Wave) : (s.modWave g w f).rails = s.rails := rfl
@[simp] theorem modWave_vcs (s : State) (g w : Nat) (f : Wave → Wave) : (s.modWave g w f).vcs = s.vcs := rfl
@[simp] theorem modWave_host (s : State) (g w : Nat) (f : Wave → Wave) : (s.modWave g w f).host = s.host := rfl
@[simp] theorem modWave_power (s : State) (g w : Nat) (f : Wave → Wave) : (s.modWave g w f).power = s.power := rfl
@[simp] theorem modWave_gang (s : State) (g w : Nat) (f : Wave → Wave) : (s.modWave g w f).gang = s.gang := rfl
@[simp] theorem modWave_peers (s : State) (g w : Nat) (f : Wave → Wave) : (s.modWave g w f).peers = s.peers := rfl
@[simp] theorem modWave_booted (s : State) (g w : Nat) (f : Wave → Wave) : (s.modWave g w f).booted = s.booted := rfl
@[simp] theorem modWave_cpSeen (s : State) (g w : Nat) (f : Wave → Wave) : (s.modWave g w f).cpSeen = s.cpSeen := rfl
@[simp] theorem modWave_nextId (s : State) (g w : Nat) (f : Wave → Wave) : (s.modWave g w f).nextId = s.nextId := rfl
@[simp] theorem modWave_cfgErrors (s : State) (g w : Nat) (f : Wave → Wave) : (s.modWave g w f).cfgErrors = s.cfgErrors := rfl
@[simp] theorem modWave_cerrs (s : State) (g w : Nat) (f : Wave → Wave) : (s.modWave g w f).cerrs = s.cerrs := rfl
@[simp] theorem modWave_lost (s : State) (g w : Nat) (f : Wave → Wave) : (s.modWave g w f).lost = s.lost := rfl
@[simp] theorem modWave_l2drops (s : State) (g w : Nat) (f : Wave → Wave) : (s.modWave g w f).l2drops = s.l2drops := rfl
@[simp] theorem modWave_dropped (s : State) (g w : Nat) (f : Wave → Wave) : (s.modWave g w f).dropped = s.dropped := rfl
@[simp] theorem modWave_restamps (s : State) (g w : Nat) (f : Wave → Wave) : (s.modWave g w f).restamps = s.restamps := rfl
@[simp] theorem modWave_early (s : State) (g w : Nat) (f : Wave → Wave) : (s.modWave g w f).early = s.early := rfl

@[simp] theorem modLaunch_agenda (s : State) (i : Nat) (f : Launch → Launch) : (s.modLaunch i f).agenda = s.agenda := rfl
@[simp] theorem modLaunch_issue (s : State) (i : Nat) (f : Launch → Launch) : (s.modLaunch i f).issue = s.issue := rfl
@[simp] theorem modLaunch_free (s : State) (i : Nat) (f : Launch → Launch) : (s.modLaunch i f).free = s.free := rfl
@[simp] theorem modLaunch_steps (s : State) (i : Nat) (f : Launch → Launch) : (s.modLaunch i f).steps = s.steps := rfl
@[simp] theorem modLaunch_mem (s : State) (i : Nat) (f : Launch → Launch) : (s.modLaunch i f).mem = s.mem := rfl
@[simp] theorem modLaunch_tags (s : State) (i : Nat) (f : Launch → Launch) : (s.modLaunch i f).tags = s.tags := rfl
@[simp] theorem modLaunch_poison (s : State) (i : Nat) (f : Launch → Launch) : (s.modLaunch i f).poison = s.poison := rfl
@[simp] theorem modLaunch_pregs (s : State) (i : Nat) (f : Launch → Launch) : (s.modLaunch i f).pregs = s.pregs := rfl
@[simp] theorem modLaunch_dregs (s : State) (i : Nat) (f : Launch → Launch) : (s.modLaunch i f).dregs = s.dregs := rfl
@[simp] theorem modLaunch_doms (s : State) (i : Nat) (f : Launch → Launch) : (s.modLaunch i f).doms = s.doms := rfl
@[simp] theorem modLaunch_cores (s : State) (i : Nat) (f : Launch → Launch) : (s.modLaunch i f).cores = s.cores := rfl
@[simp] theorem modLaunch_clusters (s : State) (i : Nat) (f : Launch → Launch) : (s.modLaunch i f).clusters = s.clusters := rfl
@[simp] theorem modLaunch_modules (s : State) (i : Nat) (f : Launch → Launch) : (s.modLaunch i f).modules = s.modules := rfl
@[simp] theorem modLaunch_groups (s : State) (i : Nat) (f : Launch → Launch) : (s.modLaunch i f).groups = s.groups := rfl
@[simp] theorem modLaunch_cmds (s : State) (i : Nat) (f : Launch → Launch) : (s.modLaunch i f).cmds = s.cmds := rfl
@[simp] theorem modLaunch_winch (s : State) (i : Nat) (f : Launch → Launch) : (s.modLaunch i f).winch = s.winch := rfl
@[simp] theorem modLaunch_rails (s : State) (i : Nat) (f : Launch → Launch) : (s.modLaunch i f).rails = s.rails := rfl
@[simp] theorem modLaunch_vcs (s : State) (i : Nat) (f : Launch → Launch) : (s.modLaunch i f).vcs = s.vcs := rfl
@[simp] theorem modLaunch_host (s : State) (i : Nat) (f : Launch → Launch) : (s.modLaunch i f).host = s.host := rfl
@[simp] theorem modLaunch_power (s : State) (i : Nat) (f : Launch → Launch) : (s.modLaunch i f).power = s.power := rfl
@[simp] theorem modLaunch_gang (s : State) (i : Nat) (f : Launch → Launch) : (s.modLaunch i f).gang = s.gang := rfl
@[simp] theorem modLaunch_peers (s : State) (i : Nat) (f : Launch → Launch) : (s.modLaunch i f).peers = s.peers := rfl
@[simp] theorem modLaunch_booted (s : State) (i : Nat) (f : Launch → Launch) : (s.modLaunch i f).booted = s.booted := rfl
@[simp] theorem modLaunch_cpSeen (s : State) (i : Nat) (f : Launch → Launch) : (s.modLaunch i f).cpSeen = s.cpSeen := rfl
@[simp] theorem modLaunch_nextId (s : State) (i : Nat) (f : Launch → Launch) : (s.modLaunch i f).nextId = s.nextId := rfl
@[simp] theorem modLaunch_cfgErrors (s : State) (i : Nat) (f : Launch → Launch) : (s.modLaunch i f).cfgErrors = s.cfgErrors := rfl
@[simp] theorem modLaunch_cerrs (s : State) (i : Nat) (f : Launch → Launch) : (s.modLaunch i f).cerrs = s.cerrs := rfl
@[simp] theorem modLaunch_lost (s : State) (i : Nat) (f : Launch → Launch) : (s.modLaunch i f).lost = s.lost := rfl
@[simp] theorem modLaunch_l2drops (s : State) (i : Nat) (f : Launch → Launch) : (s.modLaunch i f).l2drops = s.l2drops := rfl
@[simp] theorem modLaunch_dropped (s : State) (i : Nat) (f : Launch → Launch) : (s.modLaunch i f).dropped = s.dropped := rfl
@[simp] theorem modLaunch_restamps (s : State) (i : Nat) (f : Launch → Launch) : (s.modLaunch i f).restamps = s.restamps := rfl
@[simp] theorem modLaunch_early (s : State) (i : Nat) (f : Launch → Launch) : (s.modLaunch i f).early = s.early := rfl

@[simp] theorem modCmd_agenda (s : State) (i : Nat) (f : Cmd → Cmd) : (s.modCmd i f).agenda = s.agenda := rfl
@[simp] theorem modCmd_issue (s : State) (i : Nat) (f : Cmd → Cmd) : (s.modCmd i f).issue = s.issue := rfl
@[simp] theorem modCmd_free (s : State) (i : Nat) (f : Cmd → Cmd) : (s.modCmd i f).free = s.free := rfl
@[simp] theorem modCmd_steps (s : State) (i : Nat) (f : Cmd → Cmd) : (s.modCmd i f).steps = s.steps := rfl
@[simp] theorem modCmd_mem (s : State) (i : Nat) (f : Cmd → Cmd) : (s.modCmd i f).mem = s.mem := rfl
@[simp] theorem modCmd_tags (s : State) (i : Nat) (f : Cmd → Cmd) : (s.modCmd i f).tags = s.tags := rfl
@[simp] theorem modCmd_poison (s : State) (i : Nat) (f : Cmd → Cmd) : (s.modCmd i f).poison = s.poison := rfl
@[simp] theorem modCmd_pregs (s : State) (i : Nat) (f : Cmd → Cmd) : (s.modCmd i f).pregs = s.pregs := rfl
@[simp] theorem modCmd_dregs (s : State) (i : Nat) (f : Cmd → Cmd) : (s.modCmd i f).dregs = s.dregs := rfl
@[simp] theorem modCmd_doms (s : State) (i : Nat) (f : Cmd → Cmd) : (s.modCmd i f).doms = s.doms := rfl
@[simp] theorem modCmd_cores (s : State) (i : Nat) (f : Cmd → Cmd) : (s.modCmd i f).cores = s.cores := rfl
@[simp] theorem modCmd_clusters (s : State) (i : Nat) (f : Cmd → Cmd) : (s.modCmd i f).clusters = s.clusters := rfl
@[simp] theorem modCmd_modules (s : State) (i : Nat) (f : Cmd → Cmd) : (s.modCmd i f).modules = s.modules := rfl
@[simp] theorem modCmd_launches (s : State) (i : Nat) (f : Cmd → Cmd) : (s.modCmd i f).launches = s.launches := rfl
@[simp] theorem modCmd_groups (s : State) (i : Nat) (f : Cmd → Cmd) : (s.modCmd i f).groups = s.groups := rfl
@[simp] theorem modCmd_winch (s : State) (i : Nat) (f : Cmd → Cmd) : (s.modCmd i f).winch = s.winch := rfl
@[simp] theorem modCmd_rails (s : State) (i : Nat) (f : Cmd → Cmd) : (s.modCmd i f).rails = s.rails := rfl
@[simp] theorem modCmd_vcs (s : State) (i : Nat) (f : Cmd → Cmd) : (s.modCmd i f).vcs = s.vcs := rfl
@[simp] theorem modCmd_host (s : State) (i : Nat) (f : Cmd → Cmd) : (s.modCmd i f).host = s.host := rfl
@[simp] theorem modCmd_power (s : State) (i : Nat) (f : Cmd → Cmd) : (s.modCmd i f).power = s.power := rfl
@[simp] theorem modCmd_gang (s : State) (i : Nat) (f : Cmd → Cmd) : (s.modCmd i f).gang = s.gang := rfl
@[simp] theorem modCmd_peers (s : State) (i : Nat) (f : Cmd → Cmd) : (s.modCmd i f).peers = s.peers := rfl
@[simp] theorem modCmd_booted (s : State) (i : Nat) (f : Cmd → Cmd) : (s.modCmd i f).booted = s.booted := rfl
@[simp] theorem modCmd_cpSeen (s : State) (i : Nat) (f : Cmd → Cmd) : (s.modCmd i f).cpSeen = s.cpSeen := rfl
@[simp] theorem modCmd_nextId (s : State) (i : Nat) (f : Cmd → Cmd) : (s.modCmd i f).nextId = s.nextId := rfl
@[simp] theorem modCmd_cfgErrors (s : State) (i : Nat) (f : Cmd → Cmd) : (s.modCmd i f).cfgErrors = s.cfgErrors := rfl
@[simp] theorem modCmd_cerrs (s : State) (i : Nat) (f : Cmd → Cmd) : (s.modCmd i f).cerrs = s.cerrs := rfl
@[simp] theorem modCmd_lost (s : State) (i : Nat) (f : Cmd → Cmd) : (s.modCmd i f).lost = s.lost := rfl
@[simp] theorem modCmd_l2drops (s : State) (i : Nat) (f : Cmd → Cmd) : (s.modCmd i f).l2drops = s.l2drops := rfl
@[simp] theorem modCmd_dropped (s : State) (i : Nat) (f : Cmd → Cmd) : (s.modCmd i f).dropped = s.dropped := rfl
@[simp] theorem modCmd_restamps (s : State) (i : Nat) (f : Cmd → Cmd) : (s.modCmd i f).restamps = s.restamps := rfl
@[simp] theorem modCmd_early (s : State) (i : Nat) (f : Cmd → Cmd) : (s.modCmd i f).early = s.early := rfl

@[simp] theorem due_issue (s : State) (i : Instr) : (s.due i).issue = s.issue := rfl
@[simp] theorem due_free (s : State) (i : Instr) : (s.due i).free = s.free := rfl
@[simp] theorem due_steps (s : State) (i : Instr) : (s.due i).steps = s.steps := rfl
@[simp] theorem due_mem (s : State) (i : Instr) : (s.due i).mem = s.mem := rfl
@[simp] theorem due_tags (s : State) (i : Instr) : (s.due i).tags = s.tags := rfl
@[simp] theorem due_poison (s : State) (i : Instr) : (s.due i).poison = s.poison := rfl
@[simp] theorem due_pregs (s : State) (i : Instr) : (s.due i).pregs = s.pregs := rfl
@[simp] theorem due_dregs (s : State) (i : Instr) : (s.due i).dregs = s.dregs := rfl
@[simp] theorem due_doms (s : State) (i : Instr) : (s.due i).doms = s.doms := rfl
@[simp] theorem due_cores (s : State) (i : Instr) : (s.due i).cores = s.cores := rfl
@[simp] theorem due_clusters (s : State) (i : Instr) : (s.due i).clusters = s.clusters := rfl
@[simp] theorem due_modules (s : State) (i : Instr) : (s.due i).modules = s.modules := rfl
@[simp] theorem due_launches (s : State) (i : Instr) : (s.due i).launches = s.launches := rfl
@[simp] theorem due_groups (s : State) (i : Instr) : (s.due i).groups = s.groups := rfl
@[simp] theorem due_cmds (s : State) (i : Instr) : (s.due i).cmds = s.cmds := rfl
@[simp] theorem due_winch (s : State) (i : Instr) : (s.due i).winch = s.winch := rfl
@[simp] theorem due_rails (s : State) (i : Instr) : (s.due i).rails = s.rails := rfl
@[simp] theorem due_vcs (s : State) (i : Instr) : (s.due i).vcs = s.vcs := rfl
@[simp] theorem due_host (s : State) (i : Instr) : (s.due i).host = s.host := rfl
@[simp] theorem due_power (s : State) (i : Instr) : (s.due i).power = s.power := rfl
@[simp] theorem due_gang (s : State) (i : Instr) : (s.due i).gang = s.gang := rfl
@[simp] theorem due_peers (s : State) (i : Instr) : (s.due i).peers = s.peers := rfl
@[simp] theorem due_booted (s : State) (i : Instr) : (s.due i).booted = s.booted := rfl
@[simp] theorem due_cpSeen (s : State) (i : Instr) : (s.due i).cpSeen = s.cpSeen := rfl
@[simp] theorem due_nextId (s : State) (i : Instr) : (s.due i).nextId = s.nextId := rfl
@[simp] theorem due_cfgErrors (s : State) (i : Instr) : (s.due i).cfgErrors = s.cfgErrors := rfl
@[simp] theorem due_cerrs (s : State) (i : Instr) : (s.due i).cerrs = s.cerrs := rfl
@[simp] theorem due_lost (s : State) (i : Instr) : (s.due i).lost = s.lost := rfl
@[simp] theorem due_l2drops (s : State) (i : Instr) : (s.due i).l2drops = s.l2drops := rfl
@[simp] theorem due_dropped (s : State) (i : Instr) : (s.due i).dropped = s.dropped := rfl
@[simp] theorem due_restamps (s : State) (i : Instr) : (s.due i).restamps = s.restamps := rfl
@[simp] theorem due_early (s : State) (i : Instr) : (s.due i).early = s.early := rfl

@[simp] theorem setByte_agenda (s : State) (k : Nat) (b : Byte) : (s.setByte k b).agenda = s.agenda := rfl
@[simp] theorem setByte_issue (s : State) (k : Nat) (b : Byte) : (s.setByte k b).issue = s.issue := rfl
@[simp] theorem setByte_free (s : State) (k : Nat) (b : Byte) : (s.setByte k b).free = s.free := rfl
@[simp] theorem setByte_steps (s : State) (k : Nat) (b : Byte) : (s.setByte k b).steps = s.steps := rfl
@[simp] theorem setByte_tags (s : State) (k : Nat) (b : Byte) : (s.setByte k b).tags = s.tags := rfl
@[simp] theorem setByte_poison (s : State) (k : Nat) (b : Byte) : (s.setByte k b).poison = s.poison := rfl
@[simp] theorem setByte_pregs (s : State) (k : Nat) (b : Byte) : (s.setByte k b).pregs = s.pregs := rfl
@[simp] theorem setByte_dregs (s : State) (k : Nat) (b : Byte) : (s.setByte k b).dregs = s.dregs := rfl
@[simp] theorem setByte_doms (s : State) (k : Nat) (b : Byte) : (s.setByte k b).doms = s.doms := rfl
@[simp] theorem setByte_cores (s : State) (k : Nat) (b : Byte) : (s.setByte k b).cores = s.cores := rfl
@[simp] theorem setByte_clusters (s : State) (k : Nat) (b : Byte) : (s.setByte k b).clusters = s.clusters := rfl
@[simp] theorem setByte_modules (s : State) (k : Nat) (b : Byte) : (s.setByte k b).modules = s.modules := rfl
@[simp] theorem setByte_launches (s : State) (k : Nat) (b : Byte) : (s.setByte k b).launches = s.launches := rfl
@[simp] theorem setByte_groups (s : State) (k : Nat) (b : Byte) : (s.setByte k b).groups = s.groups := rfl
@[simp] theorem setByte_cmds (s : State) (k : Nat) (b : Byte) : (s.setByte k b).cmds = s.cmds := rfl
@[simp] theorem setByte_winch (s : State) (k : Nat) (b : Byte) : (s.setByte k b).winch = s.winch := rfl
@[simp] theorem setByte_rails (s : State) (k : Nat) (b : Byte) : (s.setByte k b).rails = s.rails := rfl
@[simp] theorem setByte_vcs (s : State) (k : Nat) (b : Byte) : (s.setByte k b).vcs = s.vcs := rfl
@[simp] theorem setByte_host (s : State) (k : Nat) (b : Byte) : (s.setByte k b).host = s.host := rfl
@[simp] theorem setByte_power (s : State) (k : Nat) (b : Byte) : (s.setByte k b).power = s.power := rfl
@[simp] theorem setByte_gang (s : State) (k : Nat) (b : Byte) : (s.setByte k b).gang = s.gang := rfl
@[simp] theorem setByte_peers (s : State) (k : Nat) (b : Byte) : (s.setByte k b).peers = s.peers := rfl
@[simp] theorem setByte_booted (s : State) (k : Nat) (b : Byte) : (s.setByte k b).booted = s.booted := rfl
@[simp] theorem setByte_cpSeen (s : State) (k : Nat) (b : Byte) : (s.setByte k b).cpSeen = s.cpSeen := rfl
@[simp] theorem setByte_nextId (s : State) (k : Nat) (b : Byte) : (s.setByte k b).nextId = s.nextId := rfl
@[simp] theorem setByte_cfgErrors (s : State) (k : Nat) (b : Byte) : (s.setByte k b).cfgErrors = s.cfgErrors := rfl
@[simp] theorem setByte_cerrs (s : State) (k : Nat) (b : Byte) : (s.setByte k b).cerrs = s.cerrs := rfl
@[simp] theorem setByte_lost (s : State) (k : Nat) (b : Byte) : (s.setByte k b).lost = s.lost := rfl
@[simp] theorem setByte_l2drops (s : State) (k : Nat) (b : Byte) : (s.setByte k b).l2drops = s.l2drops := rfl
@[simp] theorem setByte_dropped (s : State) (k : Nat) (b : Byte) : (s.setByte k b).dropped = s.dropped := rfl
@[simp] theorem setByte_restamps (s : State) (k : Nat) (b : Byte) : (s.setByte k b).restamps = s.restamps := rfl
@[simp] theorem setByte_early (s : State) (k : Nat) (b : Byte) : (s.setByte k b).early = s.early := rfl

@[simp] theorem setTag_agenda (s : State) (k : Nat) (t : BitVec 4) : (s.setTag k t).agenda = s.agenda := rfl
@[simp] theorem setTag_issue (s : State) (k : Nat) (t : BitVec 4) : (s.setTag k t).issue = s.issue := rfl
@[simp] theorem setTag_free (s : State) (k : Nat) (t : BitVec 4) : (s.setTag k t).free = s.free := rfl
@[simp] theorem setTag_steps (s : State) (k : Nat) (t : BitVec 4) : (s.setTag k t).steps = s.steps := rfl
@[simp] theorem setTag_mem (s : State) (k : Nat) (t : BitVec 4) : (s.setTag k t).mem = s.mem := rfl
@[simp] theorem setTag_poison (s : State) (k : Nat) (t : BitVec 4) : (s.setTag k t).poison = s.poison := rfl
@[simp] theorem setTag_pregs (s : State) (k : Nat) (t : BitVec 4) : (s.setTag k t).pregs = s.pregs := rfl
@[simp] theorem setTag_dregs (s : State) (k : Nat) (t : BitVec 4) : (s.setTag k t).dregs = s.dregs := rfl
@[simp] theorem setTag_doms (s : State) (k : Nat) (t : BitVec 4) : (s.setTag k t).doms = s.doms := rfl
@[simp] theorem setTag_cores (s : State) (k : Nat) (t : BitVec 4) : (s.setTag k t).cores = s.cores := rfl
@[simp] theorem setTag_clusters (s : State) (k : Nat) (t : BitVec 4) : (s.setTag k t).clusters = s.clusters := rfl
@[simp] theorem setTag_modules (s : State) (k : Nat) (t : BitVec 4) : (s.setTag k t).modules = s.modules := rfl
@[simp] theorem setTag_launches (s : State) (k : Nat) (t : BitVec 4) : (s.setTag k t).launches = s.launches := rfl
@[simp] theorem setTag_groups (s : State) (k : Nat) (t : BitVec 4) : (s.setTag k t).groups = s.groups := rfl
@[simp] theorem setTag_cmds (s : State) (k : Nat) (t : BitVec 4) : (s.setTag k t).cmds = s.cmds := rfl
@[simp] theorem setTag_winch (s : State) (k : Nat) (t : BitVec 4) : (s.setTag k t).winch = s.winch := rfl
@[simp] theorem setTag_rails (s : State) (k : Nat) (t : BitVec 4) : (s.setTag k t).rails = s.rails := rfl
@[simp] theorem setTag_vcs (s : State) (k : Nat) (t : BitVec 4) : (s.setTag k t).vcs = s.vcs := rfl
@[simp] theorem setTag_host (s : State) (k : Nat) (t : BitVec 4) : (s.setTag k t).host = s.host := rfl
@[simp] theorem setTag_power (s : State) (k : Nat) (t : BitVec 4) : (s.setTag k t).power = s.power := rfl
@[simp] theorem setTag_gang (s : State) (k : Nat) (t : BitVec 4) : (s.setTag k t).gang = s.gang := rfl
@[simp] theorem setTag_peers (s : State) (k : Nat) (t : BitVec 4) : (s.setTag k t).peers = s.peers := rfl
@[simp] theorem setTag_booted (s : State) (k : Nat) (t : BitVec 4) : (s.setTag k t).booted = s.booted := rfl
@[simp] theorem setTag_cpSeen (s : State) (k : Nat) (t : BitVec 4) : (s.setTag k t).cpSeen = s.cpSeen := rfl
@[simp] theorem setTag_nextId (s : State) (k : Nat) (t : BitVec 4) : (s.setTag k t).nextId = s.nextId := rfl
@[simp] theorem setTag_cfgErrors (s : State) (k : Nat) (t : BitVec 4) : (s.setTag k t).cfgErrors = s.cfgErrors := rfl
@[simp] theorem setTag_cerrs (s : State) (k : Nat) (t : BitVec 4) : (s.setTag k t).cerrs = s.cerrs := rfl
@[simp] theorem setTag_lost (s : State) (k : Nat) (t : BitVec 4) : (s.setTag k t).lost = s.lost := rfl
@[simp] theorem setTag_l2drops (s : State) (k : Nat) (t : BitVec 4) : (s.setTag k t).l2drops = s.l2drops := rfl
@[simp] theorem setTag_dropped (s : State) (k : Nat) (t : BitVec 4) : (s.setTag k t).dropped = s.dropped := rfl
@[simp] theorem setTag_restamps (s : State) (k : Nat) (t : BitVec 4) : (s.setTag k t).restamps = s.restamps := rfl
@[simp] theorem setTag_early (s : State) (k : Nat) (t : BitVec 4) : (s.setTag k t).early = s.early := rfl

@[simp] theorem addPoison_agenda (s : State) (k : Nat) : (s.addPoison k).agenda = s.agenda := rfl
@[simp] theorem addPoison_issue (s : State) (k : Nat) : (s.addPoison k).issue = s.issue := rfl
@[simp] theorem addPoison_free (s : State) (k : Nat) : (s.addPoison k).free = s.free := rfl
@[simp] theorem addPoison_steps (s : State) (k : Nat) : (s.addPoison k).steps = s.steps := rfl
@[simp] theorem addPoison_mem (s : State) (k : Nat) : (s.addPoison k).mem = s.mem := rfl
@[simp] theorem addPoison_tags (s : State) (k : Nat) : (s.addPoison k).tags = s.tags := rfl
@[simp] theorem addPoison_pregs (s : State) (k : Nat) : (s.addPoison k).pregs = s.pregs := rfl
@[simp] theorem addPoison_dregs (s : State) (k : Nat) : (s.addPoison k).dregs = s.dregs := rfl
@[simp] theorem addPoison_doms (s : State) (k : Nat) : (s.addPoison k).doms = s.doms := rfl
@[simp] theorem addPoison_cores (s : State) (k : Nat) : (s.addPoison k).cores = s.cores := rfl
@[simp] theorem addPoison_clusters (s : State) (k : Nat) : (s.addPoison k).clusters = s.clusters := rfl
@[simp] theorem addPoison_modules (s : State) (k : Nat) : (s.addPoison k).modules = s.modules := rfl
@[simp] theorem addPoison_launches (s : State) (k : Nat) : (s.addPoison k).launches = s.launches := rfl
@[simp] theorem addPoison_groups (s : State) (k : Nat) : (s.addPoison k).groups = s.groups := rfl
@[simp] theorem addPoison_cmds (s : State) (k : Nat) : (s.addPoison k).cmds = s.cmds := rfl
@[simp] theorem addPoison_winch (s : State) (k : Nat) : (s.addPoison k).winch = s.winch := rfl
@[simp] theorem addPoison_rails (s : State) (k : Nat) : (s.addPoison k).rails = s.rails := rfl
@[simp] theorem addPoison_vcs (s : State) (k : Nat) : (s.addPoison k).vcs = s.vcs := rfl
@[simp] theorem addPoison_host (s : State) (k : Nat) : (s.addPoison k).host = s.host := rfl
@[simp] theorem addPoison_power (s : State) (k : Nat) : (s.addPoison k).power = s.power := rfl
@[simp] theorem addPoison_gang (s : State) (k : Nat) : (s.addPoison k).gang = s.gang := rfl
@[simp] theorem addPoison_peers (s : State) (k : Nat) : (s.addPoison k).peers = s.peers := rfl
@[simp] theorem addPoison_booted (s : State) (k : Nat) : (s.addPoison k).booted = s.booted := rfl
@[simp] theorem addPoison_cpSeen (s : State) (k : Nat) : (s.addPoison k).cpSeen = s.cpSeen := rfl
@[simp] theorem addPoison_nextId (s : State) (k : Nat) : (s.addPoison k).nextId = s.nextId := rfl
@[simp] theorem addPoison_cfgErrors (s : State) (k : Nat) : (s.addPoison k).cfgErrors = s.cfgErrors := rfl
@[simp] theorem addPoison_cerrs (s : State) (k : Nat) : (s.addPoison k).cerrs = s.cerrs := rfl
@[simp] theorem addPoison_lost (s : State) (k : Nat) : (s.addPoison k).lost = s.lost := rfl
@[simp] theorem addPoison_l2drops (s : State) (k : Nat) : (s.addPoison k).l2drops = s.l2drops := rfl
@[simp] theorem addPoison_dropped (s : State) (k : Nat) : (s.addPoison k).dropped = s.dropped := rfl
@[simp] theorem addPoison_restamps (s : State) (k : Nat) : (s.addPoison k).restamps = s.restamps := rfl
@[simp] theorem addPoison_early (s : State) (k : Nat) : (s.addPoison k).early = s.early := rfl

@[simp] theorem clearPoison_agenda (s : State) (k : Nat) : (s.clearPoison k).agenda = s.agenda := rfl
@[simp] theorem clearPoison_issue (s : State) (k : Nat) : (s.clearPoison k).issue = s.issue := rfl
@[simp] theorem clearPoison_free (s : State) (k : Nat) : (s.clearPoison k).free = s.free := rfl
@[simp] theorem clearPoison_steps (s : State) (k : Nat) : (s.clearPoison k).steps = s.steps := rfl
@[simp] theorem clearPoison_mem (s : State) (k : Nat) : (s.clearPoison k).mem = s.mem := rfl
@[simp] theorem clearPoison_tags (s : State) (k : Nat) : (s.clearPoison k).tags = s.tags := rfl
@[simp] theorem clearPoison_pregs (s : State) (k : Nat) : (s.clearPoison k).pregs = s.pregs := rfl
@[simp] theorem clearPoison_dregs (s : State) (k : Nat) : (s.clearPoison k).dregs = s.dregs := rfl
@[simp] theorem clearPoison_doms (s : State) (k : Nat) : (s.clearPoison k).doms = s.doms := rfl
@[simp] theorem clearPoison_cores (s : State) (k : Nat) : (s.clearPoison k).cores = s.cores := rfl
@[simp] theorem clearPoison_clusters (s : State) (k : Nat) : (s.clearPoison k).clusters = s.clusters := rfl
@[simp] theorem clearPoison_modules (s : State) (k : Nat) : (s.clearPoison k).modules = s.modules := rfl
@[simp] theorem clearPoison_launches (s : State) (k : Nat) : (s.clearPoison k).launches = s.launches := rfl
@[simp] theorem clearPoison_groups (s : State) (k : Nat) : (s.clearPoison k).groups = s.groups := rfl
@[simp] theorem clearPoison_cmds (s : State) (k : Nat) : (s.clearPoison k).cmds = s.cmds := rfl
@[simp] theorem clearPoison_winch (s : State) (k : Nat) : (s.clearPoison k).winch = s.winch := rfl
@[simp] theorem clearPoison_rails (s : State) (k : Nat) : (s.clearPoison k).rails = s.rails := rfl
@[simp] theorem clearPoison_vcs (s : State) (k : Nat) : (s.clearPoison k).vcs = s.vcs := rfl
@[simp] theorem clearPoison_host (s : State) (k : Nat) : (s.clearPoison k).host = s.host := rfl
@[simp] theorem clearPoison_power (s : State) (k : Nat) : (s.clearPoison k).power = s.power := rfl
@[simp] theorem clearPoison_gang (s : State) (k : Nat) : (s.clearPoison k).gang = s.gang := rfl
@[simp] theorem clearPoison_peers (s : State) (k : Nat) : (s.clearPoison k).peers = s.peers := rfl
@[simp] theorem clearPoison_booted (s : State) (k : Nat) : (s.clearPoison k).booted = s.booted := rfl
@[simp] theorem clearPoison_cpSeen (s : State) (k : Nat) : (s.clearPoison k).cpSeen = s.cpSeen := rfl
@[simp] theorem clearPoison_nextId (s : State) (k : Nat) : (s.clearPoison k).nextId = s.nextId := rfl
@[simp] theorem clearPoison_cfgErrors (s : State) (k : Nat) : (s.clearPoison k).cfgErrors = s.cfgErrors := rfl
@[simp] theorem clearPoison_cerrs (s : State) (k : Nat) : (s.clearPoison k).cerrs = s.cerrs := rfl
@[simp] theorem clearPoison_lost (s : State) (k : Nat) : (s.clearPoison k).lost = s.lost := rfl
@[simp] theorem clearPoison_l2drops (s : State) (k : Nat) : (s.clearPoison k).l2drops = s.l2drops := rfl
@[simp] theorem clearPoison_dropped (s : State) (k : Nat) : (s.clearPoison k).dropped = s.dropped := rfl
@[simp] theorem clearPoison_restamps (s : State) (k : Nat) : (s.clearPoison k).restamps = s.restamps := rfl
@[simp] theorem clearPoison_early (s : State) (k : Nat) : (s.clearPoison k).early = s.early := rfl

@[simp] theorem narrow_agenda (s : State) (m : Word) : (s.narrow m).agenda = s.agenda := rfl
@[simp] theorem narrow_free (s : State) (m : Word) : (s.narrow m).free = s.free := rfl
@[simp] theorem narrow_steps (s : State) (m : Word) : (s.narrow m).steps = s.steps := rfl
@[simp] theorem narrow_mem (s : State) (m : Word) : (s.narrow m).mem = s.mem := rfl
@[simp] theorem narrow_tags (s : State) (m : Word) : (s.narrow m).tags = s.tags := rfl
@[simp] theorem narrow_poison (s : State) (m : Word) : (s.narrow m).poison = s.poison := rfl
@[simp] theorem narrow_pregs (s : State) (m : Word) : (s.narrow m).pregs = s.pregs := rfl
@[simp] theorem narrow_dregs (s : State) (m : Word) : (s.narrow m).dregs = s.dregs := rfl
@[simp] theorem narrow_doms (s : State) (m : Word) : (s.narrow m).doms = s.doms := rfl
@[simp] theorem narrow_cores (s : State) (m : Word) : (s.narrow m).cores = s.cores := rfl
@[simp] theorem narrow_clusters (s : State) (m : Word) : (s.narrow m).clusters = s.clusters := rfl
@[simp] theorem narrow_modules (s : State) (m : Word) : (s.narrow m).modules = s.modules := rfl
@[simp] theorem narrow_launches (s : State) (m : Word) : (s.narrow m).launches = s.launches := rfl
@[simp] theorem narrow_groups (s : State) (m : Word) : (s.narrow m).groups = s.groups := rfl
@[simp] theorem narrow_cmds (s : State) (m : Word) : (s.narrow m).cmds = s.cmds := rfl
@[simp] theorem narrow_winch (s : State) (m : Word) : (s.narrow m).winch = s.winch := rfl
@[simp] theorem narrow_rails (s : State) (m : Word) : (s.narrow m).rails = s.rails := rfl
@[simp] theorem narrow_vcs (s : State) (m : Word) : (s.narrow m).vcs = s.vcs := rfl
@[simp] theorem narrow_host (s : State) (m : Word) : (s.narrow m).host = s.host := rfl
@[simp] theorem narrow_power (s : State) (m : Word) : (s.narrow m).power = s.power := rfl
@[simp] theorem narrow_gang (s : State) (m : Word) : (s.narrow m).gang = s.gang := rfl
@[simp] theorem narrow_peers (s : State) (m : Word) : (s.narrow m).peers = s.peers := rfl
@[simp] theorem narrow_booted (s : State) (m : Word) : (s.narrow m).booted = s.booted := rfl
@[simp] theorem narrow_cpSeen (s : State) (m : Word) : (s.narrow m).cpSeen = s.cpSeen := rfl
@[simp] theorem narrow_nextId (s : State) (m : Word) : (s.narrow m).nextId = s.nextId := rfl
@[simp] theorem narrow_cfgErrors (s : State) (m : Word) : (s.narrow m).cfgErrors = s.cfgErrors := rfl
@[simp] theorem narrow_cerrs (s : State) (m : Word) : (s.narrow m).cerrs = s.cerrs := rfl
@[simp] theorem narrow_lost (s : State) (m : Word) : (s.narrow m).lost = s.lost := rfl
@[simp] theorem narrow_l2drops (s : State) (m : Word) : (s.narrow m).l2drops = s.l2drops := rfl
@[simp] theorem narrow_dropped (s : State) (m : Word) : (s.narrow m).dropped = s.dropped := rfl
@[simp] theorem narrow_restamps (s : State) (m : Word) : (s.narrow m).restamps = s.restamps := rfl
@[simp] theorem narrow_early (s : State) (m : Word) : (s.narrow m).early = s.early := rfl

@[simp] theorem tried_agenda (s : State) : (s.tried).agenda = s.agenda := rfl
@[simp] theorem tried_free (s : State) : (s.tried).free = s.free := rfl
@[simp] theorem tried_steps (s : State) : (s.tried).steps = s.steps := rfl
@[simp] theorem tried_mem (s : State) : (s.tried).mem = s.mem := rfl
@[simp] theorem tried_tags (s : State) : (s.tried).tags = s.tags := rfl
@[simp] theorem tried_poison (s : State) : (s.tried).poison = s.poison := rfl
@[simp] theorem tried_pregs (s : State) : (s.tried).pregs = s.pregs := rfl
@[simp] theorem tried_dregs (s : State) : (s.tried).dregs = s.dregs := rfl
@[simp] theorem tried_doms (s : State) : (s.tried).doms = s.doms := rfl
@[simp] theorem tried_cores (s : State) : (s.tried).cores = s.cores := rfl
@[simp] theorem tried_clusters (s : State) : (s.tried).clusters = s.clusters := rfl
@[simp] theorem tried_modules (s : State) : (s.tried).modules = s.modules := rfl
@[simp] theorem tried_launches (s : State) : (s.tried).launches = s.launches := rfl
@[simp] theorem tried_groups (s : State) : (s.tried).groups = s.groups := rfl
@[simp] theorem tried_cmds (s : State) : (s.tried).cmds = s.cmds := rfl
@[simp] theorem tried_winch (s : State) : (s.tried).winch = s.winch := rfl
@[simp] theorem tried_rails (s : State) : (s.tried).rails = s.rails := rfl
@[simp] theorem tried_vcs (s : State) : (s.tried).vcs = s.vcs := rfl
@[simp] theorem tried_host (s : State) : (s.tried).host = s.host := rfl
@[simp] theorem tried_power (s : State) : (s.tried).power = s.power := rfl
@[simp] theorem tried_gang (s : State) : (s.tried).gang = s.gang := rfl
@[simp] theorem tried_peers (s : State) : (s.tried).peers = s.peers := rfl
@[simp] theorem tried_booted (s : State) : (s.tried).booted = s.booted := rfl
@[simp] theorem tried_cpSeen (s : State) : (s.tried).cpSeen = s.cpSeen := rfl
@[simp] theorem tried_nextId (s : State) : (s.tried).nextId = s.nextId := rfl
@[simp] theorem tried_cfgErrors (s : State) : (s.tried).cfgErrors = s.cfgErrors := rfl
@[simp] theorem tried_cerrs (s : State) : (s.tried).cerrs = s.cerrs := rfl
@[simp] theorem tried_lost (s : State) : (s.tried).lost = s.lost := rfl
@[simp] theorem tried_l2drops (s : State) : (s.tried).l2drops = s.l2drops := rfl
@[simp] theorem tried_dropped (s : State) : (s.tried).dropped = s.dropped := rfl
@[simp] theorem tried_restamps (s : State) : (s.tried).restamps = s.restamps := rfl
@[simp] theorem tried_early (s : State) : (s.tried).early = s.early := rfl

@[simp] theorem tick_agenda (s : State) : (tick s).agenda = s.agenda := rfl
@[simp] theorem tick_issue (s : State) : (tick s).issue = s.issue := rfl
@[simp] theorem tick_free (s : State) : (tick s).free = s.free := rfl
@[simp] theorem tick_mem (s : State) : (tick s).mem = s.mem := rfl
@[simp] theorem tick_tags (s : State) : (tick s).tags = s.tags := rfl
@[simp] theorem tick_poison (s : State) : (tick s).poison = s.poison := rfl
@[simp] theorem tick_pregs (s : State) : (tick s).pregs = s.pregs := rfl
@[simp] theorem tick_dregs (s : State) : (tick s).dregs = s.dregs := rfl
@[simp] theorem tick_doms (s : State) : (tick s).doms = s.doms := rfl
@[simp] theorem tick_cores (s : State) : (tick s).cores = s.cores := rfl
@[simp] theorem tick_clusters (s : State) : (tick s).clusters = s.clusters := rfl
@[simp] theorem tick_modules (s : State) : (tick s).modules = s.modules := rfl
@[simp] theorem tick_launches (s : State) : (tick s).launches = s.launches.map (accrue s.groups ((tick s).now - s.now)) := rfl
@[simp] theorem tick_groups (s : State) : (tick s).groups = s.groups := rfl
@[simp] theorem tick_cmds (s : State) : (tick s).cmds = s.cmds := rfl
@[simp] theorem tick_winch (s : State) : (tick s).winch = s.winch := rfl
@[simp] theorem tick_rails (s : State) : (tick s).rails = s.rails := rfl
@[simp] theorem tick_vcs (s : State) : (tick s).vcs = s.vcs := rfl
@[simp] theorem tick_host (s : State) : (tick s).host = s.host := rfl
@[simp] theorem tick_power (s : State) : (tick s).power = s.power := rfl
@[simp] theorem tick_gang (s : State) : (tick s).gang = s.gang := rfl
@[simp] theorem tick_peers (s : State) : (tick s).peers = s.peers := rfl
@[simp] theorem tick_booted (s : State) : (tick s).booted = s.booted := rfl
@[simp] theorem tick_cpSeen (s : State) : (tick s).cpSeen = s.cpSeen := rfl
@[simp] theorem tick_nextId (s : State) : (tick s).nextId = s.nextId := rfl
@[simp] theorem tick_cfgErrors (s : State) : (tick s).cfgErrors = s.cfgErrors := rfl
@[simp] theorem tick_cerrs (s : State) : (tick s).cerrs = s.cerrs := rfl
@[simp] theorem tick_lost (s : State) : (tick s).lost = s.lost := rfl
@[simp] theorem tick_l2drops (s : State) : (tick s).l2drops = s.l2drops := rfl
@[simp] theorem tick_dropped (s : State) : (tick s).dropped = s.dropped := rfl
@[simp] theorem tick_restamps (s : State) : (tick s).restamps = s.restamps := rfl
@[simp] theorem tick_early (s : State) : (tick s).early = s.early := rfl
@[simp] theorem tick_steps (s : State) : (tick s).steps = s.steps + 1 := rfl

/-! ### What each update leaves in its own field -/

@[simp] theorem setPreg_pregs (s : State) (o : Nat) (v : DWord) : (s.setPreg o v).pregs = mset (pregReset o) s.pregs o v := rfl
@[simp] theorem setDreg_dregs (s : State) (d o : Nat) (v : DWord) :
    (s.setDreg d o v).dregs = mset (dregReset o) s.dregs (dregKey d o) v := rfl
@[simp] theorem modDom_doms (s : State) (d : Nat) (f : Dom → Dom) :
    (s.modDom d f).doms = mset Dom.reset s.doms d (f (s.dom d)) := rfl
@[simp] theorem modCore_cores (s : State) (c : Nat) (f : CoreSt → CoreSt) :
    (s.modCore c f).cores = mset CoreSt.reset s.cores c (f (s.coreSt c)) := rfl
@[simp] theorem modCluster_clusters (s : State) (c : Nat) (f : ClusterSt → ClusterSt) :
    (s.modCluster c f).clusters = mset ClusterSt.reset s.clusters c (f (s.cluster c)) := rfl
@[simp] theorem modGroup_groups (s : State) (g : Nat) (f : Group → Group) : (s.modGroup g f).groups = modGroups g f s.groups := rfl
@[simp] theorem modWave_groups (s : State) (g w : Nat) (f : Wave → Wave) :
    (s.modWave g w f).groups = modGroups g (Group.modWave w f) s.groups := rfl
@[simp] theorem setByte_mem (s : State) (k : Nat) (b : Byte) : (s.setByte k b).mem = mset memDefault s.mem k b := rfl
@[simp] theorem setTag_tags (s : State) (k : Nat) (t : BitVec 4) : (s.setTag k t).tags = mset 0 s.tags (k / 64) t := rfl
@[simp] theorem addPoison_poison (s : State) (k : Nat) : (s.addPoison k).poison = sadd s.poison (k / 64) := rfl
@[simp] theorem clearPoison_poison (s : State) (k : Nat) : (s.clearPoison k).poison = sdel s.poison (k / 64) := rfl

end Sys2Proof.Machine
end

