-- ==== Sys2Proof/Laws/Memory.lean ====
section
/-! SUPPORT. Laws of memory: what is read after a write, and that every operation over memory keeps its canonical form. -/
namespace Sys2Proof.Machine

/-! ### Reading after writing -/

/-- A byte after one byte was written. -/
theorem byte_setByte (s : State) (k j : Nat) (b : Byte) : (s.setByte k b).byte j = if k = j then b else s.byte j :=
  mget_mset s.mem k j b

/-- A byte after bytes were written: the byte stored there, or the one that was there. -/
theorem byte_setBytes (s : State) (bs : List Byte) (k j : Nat) :
    (s.setBytes bs k).byte j = if k ≤ j ∧ j < k + bs.length then bs.getD (j - k) 0 else s.byte j := by
  induction bs generalizing s k with
  | nil => rw [State.setBytes, if_neg]; simp only [List.length_nil]; omega
  | cons b r ih =>
    rw [State.setBytes, ih, byte_setByte]
    by_cases h1 : k = j
    · subst h1; rw [if_neg (by omega), if_pos rfl, if_pos (by simp)]; simp
    · by_cases h2 : k + 1 ≤ j ∧ j < k + 1 + r.length
      · have h3 : k ≤ j ∧ j < k + (r.length + 1) := by omega
        have h4 : j - k = j - (k + 1) + 1 := by omega
        simp only [h2, and_self, if_true, List.length_cons, h3, h4, List.getD_cons_succ]
      · have h3 : ¬(k ≤ j ∧ j < k + (r.length + 1)) := by omega
        simp only [h2, if_false, List.length_cons, h3, h1]

/-- Outside the bytes written every byte reads as before. -/
theorem byte_setBytes_outside (s : State) (bs : List Byte) (k j : Nat) (h : j < k ∨ k + bs.length ≤ j) :
    (s.setBytes bs k).byte j = s.byte j := by
  rw [byte_setBytes, if_neg (by omega)]

/-- Reading n bytes, by index. -/
theorem bytes_getD (s : State) (n k i : Nat) (h : i < n) : (s.bytes n k).getD i 0 = s.byte (k + i) := by
  induction n generalizing k i with
  | zero => omega
  | succ n ih =>
    cases i with
    | zero => rfl
    | succ i => rw [State.bytes, List.getD_cons_succ, ih _ _ (by omega)]; congr 1; omega

@[simp] theorem bytes_length (s : State) (n k : Nat) : (s.bytes n k).length = n := by
  induction n generalizing k with
  | zero => rfl
  | succ n ih => simp [State.bytes, ih]

/-- Two states with equal bytes in a range read the same there. -/
theorem bytes_congr (s t : State) (n k : Nat) (h : ∀ j, k ≤ j → j < k + n → s.byte j = t.byte j) : s.bytes n k = t.bytes n k := by
  induction n generalizing k with
  | zero => rfl
  | succ n ih =>
    rw [State.bytes, State.bytes, h k (by omega) (by omega), ih (k + 1) fun j h1 h2 => h j (by omega) (by omega)]

/-- What was written reads back. -/
theorem bytes_setBytes (s : State) (bs : List Byte) (k : Nat) : (s.setBytes bs k).bytes bs.length k = bs := by
  induction bs generalizing s k with
  | nil => rfl
  | cons b r ih =>
    rw [State.setBytes, List.length_cons, State.bytes, ih, byte_setBytes_outside _ _ _ _ (by omega), byte_setByte, if_pos rfl]

/-- A tag after a tag was set. -/
theorem tagAt_setTag (s : State) (k j : Nat) (t : BitVec 4) : (s.setTag k t).tagAt j = if k / 64 = j / 64 then t else s.tagAt j :=
  mget_mset s.tags (k / 64) (j / 64) t

/-! ### The fields that writing bytes leaves -/

theorem setBytes_frame (s : State) (bs : List Byte) (k : Nat) : { s.setBytes bs k with mem := s.mem } = s := by
  induction bs generalizing s k with
  | nil => rfl
  | cons b r ih =>
    rw [State.setBytes]
    exact congrArg (fun u : State => { u with mem := s.mem }) (ih (s.setByte k b) (k + 1))

@[simp] theorem setBytes_tags (s : State) (bs : List Byte) (k : Nat) : (s.setBytes bs k).tags = s.tags :=
  (congrArg State.tags (setBytes_frame s bs k) :)
@[simp] theorem setBytes_poison (s : State) (bs : List Byte) (k : Nat) : (s.setBytes bs k).poison = s.poison :=
  (congrArg State.poison (setBytes_frame s bs k) :)
@[simp] theorem setBytes_pregs (s : State) (bs : List Byte) (k : Nat) : (s.setBytes bs k).pregs = s.pregs :=
  (congrArg State.pregs (setBytes_frame s bs k) :)
@[simp] theorem setBytes_dregs (s : State) (bs : List Byte) (k : Nat) : (s.setBytes bs k).dregs = s.dregs :=
  (congrArg State.dregs (setBytes_frame s bs k) :)
@[simp] theorem setBytes_doms (s : State) (bs : List Byte) (k : Nat) : (s.setBytes bs k).doms = s.doms :=
  (congrArg State.doms (setBytes_frame s bs k) :)
@[simp] theorem setBytes_groups (s : State) (bs : List Byte) (k : Nat) : (s.setBytes bs k).groups = s.groups :=
  (congrArg State.groups (setBytes_frame s bs k) :)
@[simp] theorem setBytes_cores (s : State) (bs : List Byte) (k : Nat) : (s.setBytes bs k).cores = s.cores :=
  (congrArg State.cores (setBytes_frame s bs k) :)
@[simp] theorem setBytes_issue (s : State) (bs : List Byte) (k : Nat) : (s.setBytes bs k).issue = s.issue :=
  (congrArg State.issue (setBytes_frame s bs k) :)
@[simp] theorem setBytes_agenda (s : State) (bs : List Byte) (k : Nat) : (s.setBytes bs k).agenda = s.agenda :=
  (congrArg State.agenda (setBytes_frame s bs k) :)

/-! ### The canonical form of memory and tags -/

theorem canonical_iff (s : State) : s.canonical = true ↔ Memory.wf s.mem = true ∧ mwf (fun _ => (0 : BitVec 4)) s.tags = true := by
  simp [State.canonical]

/-- The canonical form rests on memory and tags alone. -/
theorem canonical_congr {s t : State} (hm : t.mem = s.mem) (ht : t.tags = s.tags) : t.canonical = s.canonical := by
  simp [State.canonical, hm, ht]

theorem wf_setByte {s : State} (h : Memory.wf s.mem = true) (k : Nat) (b : Byte) : Memory.wf (s.setByte k b).mem = true :=
  mwf_mset (dd := fun _ => memDefault) h

theorem wf_setBytes {s : State} (h : Memory.wf s.mem = true) (bs : List Byte) (k : Nat) : Memory.wf (s.setBytes bs k).mem = true := by
  induction bs generalizing s k with
  | nil => exact h
  | cons b r ih => exact ih (wf_setByte h k b) (k + 1)

theorem canonical_setByte {s : State} (h : s.canonical = true) (k : Nat) (b : Byte) : (s.setByte k b).canonical = true := by
  rw [canonical_iff] at *
  exact ⟨wf_setByte h.1 k b, h.2⟩

theorem canonical_setBytes {s : State} (h : s.canonical = true) (bs : List Byte) (k : Nat) : (s.setBytes bs k).canonical = true := by
  rw [canonical_iff] at *
  exact ⟨wf_setBytes h.1 bs k, by simpa using h.2⟩

theorem canonical_setTag {s : State} (h : s.canonical = true) (k : Nat) (t : BitVec 4) : (s.setTag k t).canonical = true := by
  rw [canonical_iff] at *
  exact ⟨h.1, mwf_mset (dd := fun _ => (0 : BitVec 4)) h.2⟩

theorem canonical_clearPoison {s : State} (h : s.canonical = true) (k : Nat) : (s.clearPoison k).canonical = true := h

theorem canonical_addPoison {s : State} (h : s.canonical = true) (k : Nat) : (s.addPoison k).canonical = true := h

theorem canonical_writePlaces {s : State} (h : s.canonical = true) (ps : List Place) (bs : List Byte) :
    (s.writePlaces ps bs).canonical = true := by
  induction ps generalizing s bs with
  | nil => exact h
  | cons p r ih =>
    rw [State.writePlaces]
    split
    · apply ih
      split
      · exact canonical_setBytes h _ _
      · exact canonical_setBytes h _ _
    · exact ih h bs

theorem canonical_zeroGranules {s : State} (h : s.canonical = true) (n k : Nat) : (zeroGranules n k s).canonical = true := by
  induction n generalizing s k with
  | zero => exact h
  | succ n ih => exact ih (canonical_clearPoison (canonical_setTag (canonical_setBytes h _ _) _ _) _) _

theorem canonical_zeroRange {s : State} (h : s.canonical = true) (k n : Nat) : (s.zeroRange k n).canonical = true := by
  rw [canonical_iff] at *
  exact ⟨mwf_filter _ h.1, mwf_filter _ h.2⟩

/-- A property that each step of a fold keeps. -/
theorem foldl_keeps {A B : Type} (P : A → Prop) {f : A → B → A} (hf : ∀ x y, P x → P (f x y)) (l : List B) {x : A} (h : P x) :
    P (l.foldl f x) := by
  induction l generalizing x with
  | nil => exact h
  | cons y r ih => exact ih (hf x y h)

theorem canonical_moveRange {s : State} (h : s.canonical = true) (a b n : Nat) : (moveRange a b n s).canonical = true := by
  have hz := (canonical_iff _).mp (canonical_zeroRange (canonical_zeroRange h a n) b n)
  rw [canonical_iff]
  refine ⟨foldl_keeps (fun m => Memory.wf m = true) (fun m c hm => ?_) _ hz.1,
    foldl_keeps (fun m => mwf (fun _ => (0 : BitVec 4)) m = true) (fun m c hm => ?_) _ hz.2⟩
  · exact mwf_mset (dd := fun _ => memDefault) hm
  · exact mwf_mset (dd := fun _ => (0 : BitVec 4)) hm

/-- A zeroed range reads as zero; every other byte reads as before. -/
theorem byte_zeroRange (s : State) (k n j : Nat) : (s.zeroRange k n).byte j = if k ≤ j ∧ j < k + n then 0 else s.byte j := by
  have := mget_filter (d := memDefault) (fun x => !(k ≤ x && x < k + n)) s.mem j
  simp only [State.byte, State.zeroRange, outside]
  rw [this]
  by_cases h : k ≤ j ∧ j < k + n
  · simp [h, memDefault]
  · have h' : ¬(k ≤ j ∧ j < k + n) := h
    rw [if_neg h', if_pos]
    simp only [not_and, Nat.not_lt] at h
    simp only [Bool.not_eq_true', Bool.and_eq_false_iff, decide_eq_false_iff_not]
    omega

end Sys2Proof.Machine
end

