-- ==== Sys2Proof/Laws/Frames.lean ====
section
/-! SUPPORT. What the shared operations leave alone: ending lanes, posting records, taking a trap, committing results, moving lanes
and holding runs change no byte of memory, no tag, no poison, no package or domain register and no module. -/
namespace Sys2Proof.Machine

/-- Memory, tags, poison, the package's and domains' registers, the modules and the host's side stand in t as they stood in s. -/
structure Leaves (s t : State) : Prop where
  mem : t.mem = s.mem
  tags : t.tags = s.tags
  poison : t.poison = s.poison
  pregs : t.pregs = s.pregs
  dregs : t.dregs = s.dregs
  modules : t.modules = s.modules
  host : t.host = s.host

theorem leaves_refl (s : State) : Leaves s s := ⟨rfl, rfl, rfl, rfl, rfl, rfl, rfl⟩

theorem Leaves.trans {s t u : State} (h : Leaves s t) (k : Leaves t u) : Leaves s u :=
  ⟨k.mem.trans h.mem, k.tags.trans h.tags, k.poison.trans h.poison, k.pregs.trans h.pregs, k.dregs.trans h.dregs,
    k.modules.trans h.modules, k.host.trans h.host⟩

theorem Leaves.byte {s t : State} (h : Leaves s t) (k : Nat) : t.byte k = s.byte k := by rw [State.byte, h.mem]; rfl

theorem Leaves.canonical {s t : State} (h : Leaves s t) : t.canonical = s.canonical := canonical_congr h.mem h.tags

/-- An operation that leaves memory leaves it after any number of uses. -/
theorem leaves_foldl {B : Type} {f : State → B → State} (hf : ∀ s b, Leaves s (f s b)) (l : List B) (s : State) :
    Leaves s (l.foldl f s) := by
  induction l generalizing s with
  | nil => exact leaves_refl s
  | cons b r ih => exact (hf s b).trans (ih (f s b))

/-- A choice between two states that both leave memory. -/
theorem leaves_ite {s a b : State} {p : Prop} [Decidable p] (ha : Leaves s a) (hb : Leaves s b) : Leaves s (if p then a else b) := by
  split <;> assumption

/-! ### Single updates -/

theorem leaves_modDom (d : Nat) (f : Dom → Dom) (s : State) : Leaves s (s.modDom d f) := ⟨rfl, rfl, rfl, rfl, rfl, rfl, rfl⟩
theorem leaves_modCore (c : Nat) (f : CoreSt → CoreSt) (s : State) : Leaves s (s.modCore c f) := ⟨rfl, rfl, rfl, rfl, rfl, rfl, rfl⟩
theorem leaves_modCluster (k : Nat) (f : ClusterSt → ClusterSt) (s : State) : Leaves s (s.modCluster k f) := ⟨rfl, rfl, rfl, rfl, rfl, rfl, rfl⟩
theorem leaves_modGroup (g : Nat) (f : Group → Group) (s : State) : Leaves s (s.modGroup g f) := ⟨rfl, rfl, rfl, rfl, rfl, rfl, rfl⟩
theorem leaves_modWave (g w : Nat) (f : Wave → Wave) (s : State) : Leaves s (s.modWave g w f) := ⟨rfl, rfl, rfl, rfl, rfl, rfl, rfl⟩
theorem leaves_mapLanes (g w : Nat) (f : Nat → Lane → Lane) (s : State) : Leaves s (s.mapLanes g w f) := ⟨rfl, rfl, rfl, rfl, rfl, rfl, rfl⟩
theorem leaves_modLaunch (i : Nat) (f : Launch → Launch) (s : State) : Leaves s (s.modLaunch i f) := ⟨rfl, rfl, rfl, rfl, rfl, rfl, rfl⟩
theorem leaves_modCmd (i : Nat) (f : Cmd → Cmd) (s : State) : Leaves s (s.modCmd i f) := ⟨rfl, rfl, rfl, rfl, rfl, rfl, rfl⟩
theorem leaves_due (i : Instr) (s : State) : Leaves s (s.due i) := ⟨rfl, rfl, rfl, rfl, rfl, rfl, rfl⟩
theorem leaves_narrow (s : State) (m : Word) : Leaves s (s.narrow m) := ⟨rfl, rfl, rfl, rfl, rfl, rfl, rfl⟩
theorem leaves_issue (s : State) (i : Option Issue) : Leaves s { s with issue := i } := ⟨rfl, rfl, rfl, rfl, rfl, rfl, rfl⟩
theorem leaves_ignored (d : Nat) (s : State) : Leaves s (s.ignored d) := ⟨rfl, rfl, rfl, rfl, rfl, rfl, rfl⟩
theorem leaves_configError (o : Nat) (s : State) : Leaves s (s.configError o) := ⟨rfl, rfl, rfl, rfl, rfl, rfl, rfl⟩
theorem leaves_newId (s : State) : Leaves s s.newId.2 := ⟨rfl, rfl, rfl, rfl, rfl, rfl, rfl⟩
theorem leaves_dropHold (c : Ctx) (s : State) : Leaves s (dropHold c s) := ⟨rfl, rfl, rfl, rfl, rfl, rfl, rfl⟩
theorem leaves_holdRun (c : Ctx) (m : Word) (k : Cond) (met : Word) (s : State) : Leaves s (holdRun c m k met s) := ⟨rfl, rfl, rfl, rfl, rfl, rfl, rfl⟩
theorem leaves_commit (c : Ctx) (rs : List (Nat × LaneOut)) (s : State) : Leaves s (commit c rs s) := ⟨rfl, rfl, rfl, rfl, rfl, rfl, rfl⟩
theorem leaves_parkAt (p : Park) (c : Ctx) (s : State) : Leaves s (parkAt p c s) := ⟨rfl, rfl, rfl, rfl, rfl, rfl, rfl⟩

/-! ### Ending lanes -/

theorem leaves_afterEnd (gid : Nat) (s : State) : Leaves s (afterEnd gid s) := by
  unfold afterEnd
  dsimp only
  split
  · split
    · exact ⟨rfl, rfl, rfl, rfl, rfl, rfl, rfl⟩
    · exact ⟨rfl, rfl, rfl, rfl, rfl, rfl, rfl⟩
  · exact ⟨rfl, rfl, rfl, rfl, rfl, rfl, rfl⟩

theorem leaves_endLane (killed : Bool) (gid w l : Nat) (s : State) : Leaves s (endLane killed gid w l s) := by
  unfold endLane
  split
  · refine leaves_ite (leaves_refl s) (Leaves.trans ?_ (leaves_afterEnd gid _))
    split
    · split
      · exact ⟨rfl, rfl, rfl, rfl, rfl, rfl, rfl⟩
      · exact ⟨rfl, rfl, rfl, rfl, rfl, rfl, rfl⟩
    · exact ⟨rfl, rfl, rfl, rfl, rfl, rfl, rfl⟩
  · exact leaves_refl s

/-- Ending a list of lanes. -/
theorem leaves_endLanes (killed : Bool) (gid w : Nat) (ls : List Nat) (s : State) :
    Leaves s (ls.foldl (fun s l => endLane killed gid w l s) s) :=
  leaves_foldl (fun s l => leaves_endLane killed gid w l s) ls s

theorem leaves_killWaveLanes (gid w : Nat) (s : State) : Leaves s (killWaveLanes gid w s) := leaves_endLanes true gid w _ s

theorem leaves_killGroup (gid : Nat) (s : State) : Leaves s (killGroup gid s) := by
  unfold killGroup
  split
  · exact leaves_refl s
  · exact leaves_foldl (fun s w => leaves_killWaveLanes gid w s) _ s

/-! ### Records and traps -/

theorem leaves_postRecord (d : Nat) (r : FaultRec) (gid w : Nat) (s : State) : Leaves s (postRecord d r gid w s) :=
  ⟨rfl, rfl, rfl, rfl, rfl, rfl, rfl⟩

theorem leaves_postReport (d : Nat) (r : FaultRec) (s : State) : Leaves s (postReport d r s) := leaves_postRecord d r 0 0 s

theorem leaves_killNotice (g : Group) (s : State) : Leaves s (killNotice g s) := leaves_postReport _ _ s

theorem leaves_reinsertFaulting (c : Ctx) (f : FaultInfo) (s : State) : Leaves s (reinsertFaulting c f s) := by
  unfold reinsertFaulting
  split
  · exact ⟨rfl, rfl, rfl, rfl, rfl, rfl, rfl⟩
  · exact leaves_refl s

/-- Taking a trap stores nothing and writes no register of the package (17 R378 to R381). -/
theorem leaves_takeTrap (c : Ctx) (f : FaultInfo) (s : State) : Leaves s (takeTrap c f s) := by
  unfold takeTrap
  have h0 : Leaves s (reinsertFaulting c f (if f.code = 6 then
      State.modDom c.g.dom (fun x => { x with guest := modNth (· + 1) x.guest 15 }) { s with issue := none }
      else { s with issue := none })) := by
    refine Leaves.trans ?_ (leaves_reinsertFaulting c f _)
    split
    · exact ⟨rfl, rfl, rfl, rfl, rfl, rfl, rfl⟩
    · exact ⟨rfl, rfl, rfl, rfl, rfl, rfl, rfl⟩
  refine h0.trans ?_
  dsimp only
  generalize reinsertFaulting c f _ = u
  split
  · exact Leaves.trans (leaves_modWave _ _ _ u) (Leaves.trans (leaves_endLane _ _ _ _ _) (leaves_postRecord _ _ _ _ _))
  · split
    · exact ⟨rfl, rfl, rfl, rfl, rfl, rfl, rfl⟩
    · exact ⟨rfl, rfl, rfl, rfl, rfl, rfl, rfl⟩
    · split
      · exact ⟨rfl, rfl, rfl, rfl, rfl, rfl, rfl⟩
      · exact ⟨rfl, rfl, rfl, rfl, rfl, rfl, rfl⟩

/-! ### Moving lanes -/

theorem leaves_arrive (gid wi l : Nat) (s : State) : Leaves s (arrive gid wi l s) := by
  unfold arrive
  split
  · split
    · split
      · exact leaves_refl s
      · split
        · exact leaves_ite (leaves_due _ s) (leaves_refl s)
        · exact leaves_modWave _ _ _ s
    · exact leaves_refl s
  · exact leaves_refl s

theorem leaves_ejectSide (c : Ctx) (h i j : Nat) (x : Side) (s : State) : Leaves s (ejectSide c h i j x s) := ⟨rfl, rfl, rfl, rfl, rfl, rfl, rfl⟩

theorem leaves_ejectSides (c : Ctx) (h i j : Nat) (ok : List Nat) (all r : List Side) (s : State) :
    Leaves s (ejectSides c h i j ok all r s) := by
  induction r generalizing s with
  | nil => exact leaves_refl s
  | cons x r ih =>
    rw [ejectSides]
    refine Leaves.trans ?_ (ih _)
    split
    · dsimp only
      split
      · exact (leaves_modDom c.g.dom _ s).trans (leaves_ejectSide ..)
      · exact ⟨rfl, rfl, rfl, rfl, rfl, rfl, rfl⟩
    · exact leaves_refl s

theorem leaves_ejectAt (c : Ctx) (pt : Point) (ms : List Move) (s : State) : Leaves s (ejectAt c pt ms s) := by
  unfold ejectAt
  split
  · exact leaves_refl s
  · split
    · exact leaves_refl s
    · refine ((leaves_newId s).trans (leaves_newId _)).trans ?_
      dsimp only
      split
      · exact (leaves_ejectSides ..).trans (leaves_ejectSides ..)
      · exact leaves_ejectSides ..

/-- A transfer of control stores nothing (01 R22; 05 R145). -/
theorem leaves_transfer (c : Ctx) (pt : Point) (ms : List Move) (s : State) : Leaves s (transfer c pt ms s) :=
  ((leaves_modWave c.iss.gid c.iss.wave _ s).trans (leaves_ejectAt c pt ms _)).trans
    (leaves_foldl (fun s m => leaves_arrive c.iss.gid c.iss.wave m.lane s) ms _)

theorem leaves_returnLanes (c : Ctx) (v : Nat → Option TVal) (s : State) : Leaves s (returnLanes c v s) := by
  refine (leaves_modWave c.iss.gid c.iss.wave _ s).trans (leaves_foldl (fun s l => ?_) c.lanes _)
  split
  · split
    · exact leaves_endLane ..
    · exact leaves_refl s
  · exact leaves_refl s

/-! ### Whole outcomes -/

/-- What an outcome goes on with leaves memory and registers alone. -/
def OutLeaves (s : State) (o : Out) : Prop := ∀ t, o = .next t → Leaves s t

theorem outLeaves_next {s t : State} (h : Leaves s t) : OutLeaves s (.next t) := fun u hu => by cases hu; exact h

theorem outLeaves_fault (s : State) (f : Fault) : OutLeaves s (.fault f) := fun _ h => nomatch h

theorem OutLeaves.after {s t : State} {o : Out} (h : Leaves s t) (k : OutLeaves t o) : OutLeaves s o := fun u hu => h.trans (k u hu)

theorem leaves_deferFault (c : Ctx) (f : FaultInfo) (s : State) : Leaves s (deferFault c f s) := by
  unfold deferFault
  exact leaves_ite (Leaves.trans (leaves_issue s none) (leaves_modWave ..)) (leaves_issue s none)

theorem outLeaves_raise (c : Ctx) (f : FaultInfo) (s : State) : OutLeaves s (raise c f s) := by
  unfold raise
  split
  · exact outLeaves_next (leaves_issue s _)
  · exact outLeaves_next (leaves_ite (leaves_takeTrap c f s) (leaves_deferFault c f s))

theorem leaves_exitHelpers (c : Ctx) (ls : List Nat) (s : State) : Leaves s (exitHelpers c ls s) := leaves_endLanes ..

theorem outLeaves_illegal (c : Ctx) (s : State) : OutLeaves s (illegal c s) := by
  unfold illegal
  dsimp only
  split
  · exact outLeaves_next (leaves_exitHelpers ..)
  · exact OutLeaves.after (leaves_exitHelpers ..) (outLeaves_raise _ _ _)

theorem outLeaves_refault (f : FaultInfo) (c : Ctx) (s : State) : OutLeaves s (refault f c s) := by
  unfold refault
  split
  · exact outLeaves_illegal _ _
  · exact outLeaves_raise _ _ _

theorem outLeaves_memRaise (c : Ctx) (f : FaultInfo) (s : State) : OutLeaves s (memRaise c f s) := by
  unfold memRaise
  refine OutLeaves.after ?_ (outLeaves_raise _ _ _)
  unfold noteForeign; split
  · exact leaves_configError ..
  · exact leaves_refl s

/-- An instruction of the issuing run leaves what its meaning leaves. -/
theorem outLeaves_withRun {s : State} {k : Ctx → Out} (h : ∀ c, Runs s c → OutLeaves s (k c)) : OutLeaves s (withRun s k) := by
  unfold withRun
  split
  · exact outLeaves_fault s _
  · next c hc => exact h c hc

/-- Lane-local instructions store nothing (04 R97). -/
theorem outLeaves_laneMap (s : State) (f : Ctx → Nat → Acc → Option LaneOut) : OutLeaves s (laneMap s f) :=
  outLeaves_withRun fun c _ => by
    split
    · exact outLeaves_next (leaves_commit ..)
    · exact outLeaves_illegal _ _

theorem outLeaves_lane1 (s : State) (rt t : Ty) (a : Opnd) (f : Ctx → Bits → Acc → Bits × Acc) : OutLeaves s (lane1 s rt t a f) :=
  outLeaves_laneMap _ _

theorem outLeaves_lane2 (s : State) (rt t u : Ty) (a b : Opnd) (f : Ctx → Bits → Bits → Acc → Bits × Acc) :
    OutLeaves s (lane2 s rt t u a b f) := outLeaves_laneMap _ _

theorem outLeaves_lane3 (s : State) (rt t u v : Ty) (a b d : Opnd) (f : Ctx → Bits → Bits → Bits → Acc → Bits × Acc) :
    OutLeaves s (lane3 s rt t u v a b d f) := outLeaves_laneMap _ _

theorem outLeaves_lane4 (s : State) (rt t u v w : Ty) (a b d e : Opnd) (f : Ctx → Bits → Bits → Bits → Bits → Acc → Bits × Acc) :
    OutLeaves s (lane4 s rt t u v w a b d e f) := outLeaves_laneMap _ _

/-- Cross-lane instructions store nothing (07 R187). -/
theorem outLeaves_crossLane (s : State) (rt t : Ty) (x : Opnd)
    (f : Ctx → (Nat → Option Bits) → Nat → Acc → Option (Bits × Acc)) : OutLeaves s (crossLane s rt t x f) :=
  outLeaves_withRun fun c _ => by
    dsimp only
    split
    · exact outLeaves_illegal _ _
    · split
      · exact outLeaves_next (leaves_commit ..)
      · exact outLeaves_illegal _ _

/-- Branches store nothing (05 R145). -/
theorem outLeaves_branch (s : State) (pick : Ctx → Nat → Option Target) : OutLeaves s (branch s pick) :=
  outLeaves_withRun fun c _ => by
    split
    · exact outLeaves_illegal _ _
    · split
      · exact outLeaves_next (leaves_transfer ..)
      · exact outLeaves_illegal _ _

/-- An instruction that acts once per run leaves what it leaves of each half (13 R307). -/
theorem outLeaves_perRun {s : State} {k : Ctx → State → Out} (h : ∀ c s, OutLeaves s (k c s)) : OutLeaves s (perRun s k) := by
  refine outLeaves_withRun fun c _ => ?_
  have half : ∀ (f : Ctx → State → Out), (∀ c s, OutLeaves s (f c s)) → ∀ u : State, OutLeaves u (halfRun u f) := fun f hf u =>
    outLeaves_withRun fun c _ => OutLeaves.after (leaves_dropHold c u) (hf c _)
  have tried : ∀ u : State, Leaves u u.tried := fun u => leaves_issue u _
  have other : ∀ u : State, Leaves u (State.narrow { u with issue := s.issue } 0xFFFF0000#32) := fun u =>
    (leaves_issue u _).trans (leaves_narrow _ _)
  dsimp only
  split
  · split
    · next t ht =>
      have h1 := ((leaves_narrow s _).trans (tried _)).trans (half k h _ t ht)
      split
      · exact OutLeaves.after (leaves_narrow s _) (half _ (outLeaves_refault _) _)
      · split
        · next v hv =>
          split
          · exact OutLeaves.after (other s) (half _ (outLeaves_refault _) _)
          · exact outLeaves_next (((h1.trans ((other t).trans (tried _))).trans (half k h _ v hv)).trans (leaves_issue v _))
        · next o ho => intro u hu; exact absurd hu (ho u)
    · next o ho => intro u hu; exact absurd hu (ho u)
  · exact OutLeaves.after (leaves_dropHold c s) (h c _)

theorem leaves_askL2 (core d n : Nat) (s : State) : Leaves s (askL2 core d n s) := by
  unfold askL2
  dsimp only
  split
  · exact (leaves_modCore ..).trans (leaves_due ..)
  · exact leaves_modCore ..

/-- A bucket with enough tokens and nothing waiting lets the lines of an access go at once. -/
theorem wantLines_enough {core d n : Nat} {s : State} (h : (s.bucket core d).enough n = true) : (wantLines core d n s).1 = none := by
  unfold wantLines
  split
  · rfl
  · simp [h]

/-- The lines that an access wants change buckets, the agenda and the count of free values alone (09 R234). -/
theorem leaves_wantLines (core d n : Nat) (s : State) : Leaves s (wantLines core d n s).2 := by
  unfold wantLines
  split
  · exact leaves_refl s
  · exact Leaves.trans (t := { s with free := s.free + 1 }) ⟨rfl, rfl, rfl, rfl, rfl, rfl, rfl⟩ (leaves_askL2 ..)

theorem leaves_prefetchLines (core d n : Nat) (s : State) : Leaves s (prefetchLines core d n s) := by
  unfold prefetchLines
  refine leaves_ite (leaves_refl s) (Leaves.trans (t := { s with free := s.free + 1 }) ⟨rfl, rfl, rfl, rfl, rfl, rfl, rfl⟩ ?_)
  exact leaves_askL2 ..

/-- What a run does behind the L2 port leaves what it leaves. -/
theorem outLeaves_throughPort {c : Ctx} {n : Nat} {s : State} {act : State → State} (h : ∀ s, Leaves s (act s)) :
    OutLeaves s (throughPort c n s act) := by
  have hw := leaves_wantLines c.g.core c.g.dom n s
  unfold throughPort
  split
  · exact outLeaves_next (h s)
  · split
    · next e => rw [e] at hw; exact outLeaves_next (hw.trans (h _))
    · next e =>
      rw [e] at hw
      split
      · exact outLeaves_next (hw.trans (h _))
      · exact outLeaves_next (hw.trans (leaves_holdRun ..))

/-- A memory instruction leaves what its accesses leave (11 R262). -/
theorem outLeaves_memInstr {A : Type} {s : State} {opnds : Ctx → Nat → Option A} {req : A → List Part}
    {act : Ctx → List (Nat × A × Option (List Place)) → State → State} (h : ∀ c as s, Leaves s (act c as s)) :
    OutLeaves s (memInstr s opnds req act) := by
  refine outLeaves_withRun fun c _ => OutLeaves.after (leaves_dropHold c s) ?_
  dsimp only
  split
  · exact outLeaves_illegal _ _
  · split
    · exact outLeaves_memRaise _ _ _
    · split
      · exact outLeaves_next ((leaves_holdRun ..).trans (leaves_due ..))
      · exact outLeaves_throughPort (h _ _)

/-- A load stores nothing (11 R265). -/
theorem outLeaves_load {A : Type} {s : State} {opnds : Ctx → Nat → Option A} {req : A → List Part} (ty : Ty) :
    OutLeaves s (memInstr s opnds req fun c as s => commit c (loadAll c s ty as) s) := outLeaves_memInstr fun _ _ _ => leaves_commit ..

end Sys2Proof.Machine
end

