-- ==== Sys2Proof/Laws/Operands.lean ====
section
/-! SUPPORT. What the shared operations of lane-local instructions answer. -/
namespace Sys2Proof.Machine

/-- An active lane is a lane of the wave. -/
theorem ctx_lane {s : State} {c : Ctx} (h : Runs s c) {l : Nat} (hl : l ∈ c.lanes) : ∃ x, c.lane? l = some x ∧ x.alive = true := by
  unfold Runs State.ctx? at h
  split at h
  · cases h
  · split at h
    · cases h
    · split at h
      · cases h
      · cases h
        simp only [activeLanes, List.mem_filter] at hl
        obtain ⟨_, hl⟩ := hl
        unfold Ctx.lane?
        split at hl
        · next x hx => exact ⟨x, hx, hl⟩
        · cases hl

/-- Lanes that all have an outcome have one together. -/
theorem gather_map {f : Nat → Option LaneOut} {r : Nat → LaneOut} {ls : List Nat} (h : ∀ l ∈ ls, f l = some (r l)) :
    gather f ls = some (ls.map fun l => (l, r l)) := by
  induction ls with
  | nil => rfl
  | cons l t ih =>
    rw [gather, h l List.mem_cons_self, ih fun x hx => h x (List.mem_cons_of_mem _ hx)]
    rfl

/-- A lane-local instruction completes where every active lane has an outcome. -/
theorem laneMap_next {s : State} {c : Ctx} (h : Runs s c) {f : Ctx → Nat → Acc → Option LaneOut} {r : Nat → LaneOut}
    (hf : ∀ l ∈ c.lanes, f c l (c.acc l) = some (r l)) : laneMap s f = .next (commit c (c.out r) s) := by
  have h' : s.ctx? = some c := h
  have hg : gather (fun l => (c.lane? l).bind fun x => f c l x.acc) c.lanes = some (c.out r) := by
    apply gather_map
    intro l hl
    obtain ⟨x, hx, _⟩ := ctx_lane h hl
    have := hf l hl
    simp only [Ctx.acc, hx] at this
    simp [hx, this]
  simp only [laneMap, withRun, h', hg]

/-- A lane-local instruction is a trap point where some active lane has no outcome. -/
theorem laneMap_illegal {s : State} {c : Ctx} (h : Runs s c) {f : Ctx → Nat → Acc → Option LaneOut} {l : Nat}
    (hl : l ∈ c.lanes) (hf : f c l (c.acc l) = none) : laneMap s f = illegal c s := by
  have h' : s.ctx? = some c := h
  have hg : ∀ ls, l ∈ ls → gather (fun l => (c.lane? l).bind fun x => f c l x.acc) ls = none := by
    intro ls
    induction ls with
    | nil => intro h; cases h
    | cons k t ih =>
      intro hk
      rcases List.mem_cons.mp hk with hk | hk
      · subst hk
        obtain ⟨x, hx, _⟩ := ctx_lane h hl
        simp only [Ctx.acc, hx] at hf
        simp [gather, hx, hf]
      · rw [gather, ih hk]
        split <;> simp_all
  simp only [laneMap, withRun, h', hg c.lanes hl]

/-- One operand. -/
theorem lane1_next {s : State} {c : Ctx} (h : Runs s c) {rt t : Ty} {a : Opnd} {x : Nat → Bits} (hx : Operand s c t a x)
    (f : Ctx → Bits → Acc → Bits × Acc) :
    lane1 s rt t a f = .next (commit c (c.out fun l => (some ⟨rt, (f c (x l) (c.acc l)).1⟩, (f c (x l) (c.acc l)).2)) s) := by
  refine laneMap_next h fun l hl => ?_
  simp [hx l hl]

/-- Two operands. -/
theorem lane2_next {s : State} {c : Ctx} (h : Runs s c) {rt t u : Ty} {a b : Opnd} {x y : Nat → Bits} (hx : Operand s c t a x)
    (hy : Operand s c u b y) (f : Ctx → Bits → Bits → Acc → Bits × Acc) :
    lane2 s rt t u a b f =
      .next (commit c (c.out fun l => (some ⟨rt, (f c (x l) (y l) (c.acc l)).1⟩, (f c (x l) (y l) (c.acc l)).2)) s) := by
  refine laneMap_next h fun l hl => ?_
  simp [hx l hl, hy l hl]

/-- Three operands. -/
theorem lane3_next {s : State} {c : Ctx} (h : Runs s c) {rt t u v : Ty} {a b d : Opnd} {x y z : Nat → Bits}
    (hx : Operand s c t a x) (hy : Operand s c u b y) (hz : Operand s c v d z) (f : Ctx → Bits → Bits → Bits → Acc → Bits × Acc) :
    lane3 s rt t u v a b d f = .next (commit c (c.out fun l =>
      (some ⟨rt, (f c (x l) (y l) (z l) (c.acc l)).1⟩, (f c (x l) (y l) (z l) (c.acc l)).2)) s) := by
  refine laneMap_next h fun l hl => ?_
  simp [hx l hl, hy l hl, hz l hl]

/-- Four operands. -/
theorem lane4_next {s : State} {c : Ctx} (h : Runs s c) {rt t u v w : Ty} {a b d e : Opnd} {x y z q : Nat → Bits}
    (hx : Operand s c t a x) (hy : Operand s c u b y) (hz : Operand s c v d z) (hq : Operand s c w e q)
    (f : Ctx → Bits → Bits → Bits → Bits → Acc → Bits × Acc) :
    lane4 s rt t u v w a b d e f = .next (commit c (c.out fun l =>
      (some ⟨rt, (f c (x l) (y l) (z l) (q l) (c.acc l)).1⟩, (f c (x l) (y l) (z l) (q l) (c.acc l)).2)) s) := by
  refine laneMap_next h fun l hl => ?_
  simp [hx l hl, hy l hl, hz l hl, hq l hl]

end Sys2Proof.Machine
end

