-- ==== Sys2Proof/Laws/PerInstr.lean ====
section
/-! SUPPORT. Statements made of every instruction, one lemma per constructor. -/
namespace Sys2Proof

@[simp] theorem Ty.ofCode_code (x : Ty) : Ty.ofCode x.code = some x := by cases x <;> rfl
@[simp] theorem Rm.ofCode_code (x : Rm) : Rm.ofCode x.code = some x := by cases x <;> rfl
@[simp] theorem ICond.ofCode_code (x : ICond) : ICond.ofCode x.code = some x := by cases x <;> rfl
@[simp] theorem FCond.ofCode_code (x : FCond) : FCond.ofCode x.code = some x := by cases x <;> rfl
@[simp] theorem Scope.ofCode_code (x : Scope) : Scope.ofCode x.code = some x := by cases x <;> rfl
@[simp] theorem FAtomOp.ofCode_code (x : FAtomOp) : FAtomOp.ofCode x.code = some x := by cases x <;> rfl
@[simp] theorem RedOp.ofCode_code (x : RedOp) : RedOp.ofCode x.code = some x := by cases x <;> rfl
@[simp] theorem QDir.ofCode_code (x : QDir) : QDir.ofCode x.code = some x := by cases x <;> rfl
@[simp] theorem VoteOp.ofCode_code (x : VoteOp) : VoteOp.ofCode x.code = some x := by cases x <;> rfl
@[simp] theorem SysKey.ofCode_code (x : SysKey) : SysKey.ofCode x.code = some x := by cases x <;> rfl
@[simp] theorem GridKey.ofCode_code (x : GridKey) : GridKey.ofCode x.code = some x := by cases x <;> rfl
@[simp] theorem CbKey.ofCode_code (x : CbKey) : CbKey.ofCode x.code = some x := by cases x <;> rfl
@[simp] theorem SlotSel.ofCode_code (x : SlotSel) : SlotSel.ofCode x.code = some x := by cases x <;> rfl
@[simp] theorem KType.ofCode_code (x : KType) : KType.ofCode x.code = some x := by cases x <;> rfl
@[simp] theorem KOp.ofCode_code (x : KOp) : KOp.ofCode x.code = some x := by cases x <;> rfl
@[simp] theorem Ord4.ofCode_code (x : Ord4) : Ord4.ofCode x.code = x := by cases x <;> rfl
@[simp] theorem AtomOp.ofCode_code (x : AtomOp) : AtomOp.ofCode x.code = x := by cases x <;> rfl
@[simp] theorem ShflMode.ofCode_code (x : ShflMode) : ShflMode.ofCode x.code = x := by cases x <;> rfl
@[simp] theorem KKind.ofCode_code (x : KKind) : KKind.ofCode x.code = x := by cases x <;> rfl
@[simp] theorem Shape.ofCode_code (x : Shape) : Shape.ofCode x.code = x := by cases x <;> rfl
@[simp] theorem GateDir.ofCode_code (x : GateDir) : GateDir.ofCode x.code = x := by cases x <;> rfl

/-- The fields of an instruction give it back where they have its opcode group's reading. -/
theorem fromRaw_of {r : Raw} {i : Instr} (ho : opcodeDefined r.op = true) (hg : rawGroup r = some i) (hr : i.toRaw = some r)
    (hw : i.wellFormed = true) : fromRaw r = .ok i := by simp [fromRaw, ho, hg, hr, hw]

/-- The family FieldsDecode: the fields of a well-formed instruction decode to it (03 R80, R82). A row without fields of its own has
nothing to decode. -/
def Laws.FieldsDecode.Statement (i : Instr) : Prop := i.wellFormed = true → ∀ r, i.toRaw = some r → fromRaw r = .ok i

theorem fieldsDecode_of {i : Instr} {r : Raw} (hr : i.toRaw = some r) (ho : opcodeDefined r.op = true) (hg : rawGroup r = some i) :
    Laws.FieldsDecode.Statement i := by
  intro hw q hq
  rw [hr] at hq
  cases hq
  exact fromRaw_of ho hg hr hw

theorem fieldsDecode_none {i : Instr} (h : i.toRaw = none) : Laws.FieldsDecode.Statement i := by
  intro _ q hq
  rw [h] at hq
  cases hq

namespace Laws.FieldsDecode

theorem br (t : Target) : Statement (.br t) := fieldsDecode_of rfl rfl rfl
theorem brc (c : Opnd) (t : Target) (f : Target) : Statement (.brc c t f) := fieldsDecode_of rfl rfl rfl
theorem switch (ty : Ty) (idx : Opnd) (dflt : Option Target) (ts : List Target) : Statement (.switch ty idx dflt ts) := by
  cases dflt <;> cases ty <;> exact fieldsDecode_of rfl rfl rfl
theorem ret : Statement (.ret) := fieldsDecode_of rfl rfl rfl
theorem retValue (ty : Ty) (v : Opnd) : Statement (.retValue ty v) := by
  cases ty <;> exact fieldsDecode_of rfl rfl rfl
theorem exit : Statement (.exit) := fieldsDecode_of rfl rfl rfl
theorem call (ty : Option Ty) (f : BitVec 32) (args : List Opnd) : Statement (.call ty f args) := by
  cases ty with
  | none => exact fieldsDecode_of rfl rfl rfl
  | some ty => cases ty <;> exact fieldsDecode_of rfl rfl rfl
theorem trap : Statement (.trap) := fieldsDecode_of rfl rfl rfl
theorem trapCode (code : BitVec 30) : Statement (.trapCode code) := fieldsDecode_of rfl rfl rfl
theorem flagrd : Statement (.flagrd) := fieldsDecode_of rfl rfl rfl
theorem flagclr (m : Opnd) : Statement (.flagclr m) := fieldsDecode_of rfl rfl rfl
theorem add (ty : Ty) (a : Opnd) (b : Opnd) : Statement (.add ty a b) :=
  fieldsDecode_of rfl rfl (by simp [rawGroup, rawInteger, opnds2])
theorem sub (ty : Ty) (a : Opnd) (b : Opnd) : Statement (.sub ty a b) :=
  fieldsDecode_of rfl rfl (by simp [rawGroup, rawInteger, opnds2])
theorem mul (ty : Ty) (a : Opnd) (b : Opnd) : Statement (.mul ty a b) :=
  fieldsDecode_of rfl rfl (by simp [rawGroup, rawInteger, opnds2])
theorem mulhi (sgn : Bool) (ty : Ty) (a : Opnd) (b : Opnd) : Statement (.mulhi sgn ty a b) :=
  fieldsDecode_of rfl rfl (by cases sgn <;> simp [rawGroup, rawInteger, opnds2])
theorem sdiv (ty : Ty) (a : Opnd) (b : Opnd) : Statement (.sdiv ty a b) :=
  fieldsDecode_of rfl rfl (by simp [rawGroup, rawInteger, opnds2])
theorem udiv (ty : Ty) (a : Opnd) (b : Opnd) : Statement (.udiv ty a b) :=
  fieldsDecode_of rfl rfl (by simp [rawGroup, rawInteger, opnds2])
theorem srem (ty : Ty) (a : Opnd) (b : Opnd) : Statement (.srem ty a b) :=
  fieldsDecode_of rfl rfl (by simp [rawGroup, rawInteger, opnds2])
theorem urem (ty : Ty) (a : Opnd) (b : Opnd) : Statement (.urem ty a b) :=
  fieldsDecode_of rfl rfl (by simp [rawGroup, rawInteger, opnds2])
theorem neg (ty : Ty) (a : Opnd) : Statement (.neg ty a) :=
  fieldsDecode_of rfl rfl (by simp [rawGroup, rawInteger, opnds1])
theorem abs (ty : Ty) (a : Opnd) : Statement (.abs ty a) :=
  fieldsDecode_of rfl rfl (by simp [rawGroup, rawInteger, opnds1])
theorem smin (ty : Ty) (a : Opnd) (b : Opnd) : Statement (.smin ty a b) :=
  fieldsDecode_of rfl rfl (by simp [rawGroup, rawInteger, opnds2])
theorem smax (ty : Ty) (a : Opnd) (b : Opnd) : Statement (.smax ty a b) :=
  fieldsDecode_of rfl rfl (by simp [rawGroup, rawInteger, opnds2])
theorem umin (ty : Ty) (a : Opnd) (b : Opnd) : Statement (.umin ty a b) :=
  fieldsDecode_of rfl rfl (by simp [rawGroup, rawInteger, opnds2])
theorem umax (ty : Ty) (a : Opnd) (b : Opnd) : Statement (.umax ty a b) :=
  fieldsDecode_of rfl rfl (by simp [rawGroup, rawInteger, opnds2])
theorem addsat (sgn : Bool) (ty : Ty) (a : Opnd) (b : Opnd) : Statement (.addsat sgn ty a b) :=
  fieldsDecode_of rfl rfl (by cases sgn <;> simp [rawGroup, rawInteger, opnds2])
theorem subsat (sgn : Bool) (ty : Ty) (a : Opnd) (b : Opnd) : Statement (.subsat sgn ty a b) :=
  fieldsDecode_of rfl rfl (by cases sgn <;> simp [rawGroup, rawInteger, opnds2])
theorem and (ty : Ty) (a : Opnd) (b : Opnd) : Statement (.and ty a b) :=
  fieldsDecode_of rfl rfl (by simp [rawGroup, rawInteger, opnds2])
theorem or (ty : Ty) (a : Opnd) (b : Opnd) : Statement (.or ty a b) :=
  fieldsDecode_of rfl rfl (by simp [rawGroup, rawInteger, opnds2])
theorem xor (ty : Ty) (a : Opnd) (b : Opnd) : Statement (.xor ty a b) :=
  fieldsDecode_of rfl rfl (by simp [rawGroup, rawInteger, opnds2])
theorem not (ty : Ty) (a : Opnd) : Statement (.not ty a) :=
  fieldsDecode_of rfl rfl (by simp [rawGroup, rawInteger, opnds1])
theorem shl (ty : Ty) (a : Opnd) (b : Opnd) : Statement (.shl ty a b) :=
  fieldsDecode_of rfl rfl (by simp [rawGroup, rawInteger, opnds2])
theorem lshr (ty : Ty) (a : Opnd) (b : Opnd) : Statement (.lshr ty a b) :=
  fieldsDecode_of rfl rfl (by simp [rawGroup, rawInteger, opnds2])
theorem ashr (ty : Ty) (a : Opnd) (b : Opnd) : Statement (.ashr ty a b) :=
  fieldsDecode_of rfl rfl (by simp [rawGroup, rawInteger, opnds2])
theorem rotl (ty : Ty) (a : Opnd) (b : Opnd) : Statement (.rotl ty a b) :=
  fieldsDecode_of rfl rfl (by simp [rawGroup, rawInteger, opnds2])
theorem rotr (ty : Ty) (a : Opnd) (b : Opnd) : Statement (.rotr ty a b) :=
  fieldsDecode_of rfl rfl (by simp [rawGroup, rawInteger, opnds2])
theorem popc (ty : Ty) (a : Opnd) : Statement (.popc ty a) :=
  fieldsDecode_of rfl rfl (by simp [rawGroup, rawInteger, opnds1])
theorem clz (ty : Ty) (a : Opnd) : Statement (.clz ty a) :=
  fieldsDecode_of rfl rfl (by simp [rawGroup, rawInteger, opnds1])
theorem ctz (ty : Ty) (a : Opnd) : Statement (.ctz ty a) :=
  fieldsDecode_of rfl rfl (by simp [rawGroup, rawInteger, opnds1])
theorem brev (ty : Ty) (a : Opnd) : Statement (.brev ty a) :=
  fieldsDecode_of rfl rfl (by simp [rawGroup, rawInteger, opnds1])
theorem bswap (ty : Ty) (a : Opnd) : Statement (.bswap ty a) :=
  fieldsDecode_of rfl rfl (by simp [rawGroup, rawInteger, opnds1])
theorem bfext (sgn : Bool) (ty : Ty) (x : Opnd) (pos : Opnd) (len : Opnd) : Statement (.bfext sgn ty x pos len) :=
  fieldsDecode_of rfl rfl (by cases sgn <;> simp [rawGroup, rawInteger, opnds3])
theorem bfins (ty : Ty) (x : Opnd) (y : Opnd) (pos : Opnd) (len : Opnd) : Statement (.bfins ty x y pos len) :=
  fieldsDecode_of rfl rfl (by simp [rawGroup, rawInteger, opnds4])
theorem icmp (c : ICond) (ty : Ty) (a : Opnd) (b : Opnd) : Statement (.icmp c ty a b) :=
  fieldsDecode_of rfl rfl (by simp [rawGroup, rawInteger, opnds2])
theorem select (ty : Ty) (c : Opnd) (a : Opnd) (b : Opnd) : Statement (.select ty c a b) :=
  fieldsDecode_of rfl rfl (by simp [rawGroup, rawInteger, opnds3])
theorem zext (ty : Ty) (v : BitVec 24) : Statement (.zext ty v) :=
  fieldsDecode_of rfl rfl (by simp [rawGroup, rawInteger, valueOp])
theorem sext (ty : Ty) (v : BitVec 24) : Statement (.sext ty v) :=
  fieldsDecode_of rfl rfl (by simp [rawGroup, rawInteger, valueOp])
theorem trunc (ty : Ty) (v : BitVec 24) : Statement (.trunc ty v) :=
  fieldsDecode_of rfl rfl (by simp [rawGroup, rawInteger, valueOp])
theorem mad (sgn : Bool) (ty : Ty) (a : Opnd) (b : Opnd) (c : Opnd) : Statement (.mad sgn ty a b c) :=
  fieldsDecode_of rfl rfl (by cases sgn <;> simp [rawGroup, rawInteger, opnds3])
theorem ptradd (p : Opnd) (off : Opnd) : Statement (.ptradd p off) :=
  fieldsDecode_of rfl rfl (by simp [rawGroup, rawInteger, opnds2, Ty.ofCode])
theorem ptrdiff (a : Opnd) (b : Opnd) : Statement (.ptrdiff a b) :=
  fieldsDecode_of rfl rfl (by simp [rawGroup, rawInteger, opnds2, Ty.ofCode])
theorem ptrtag (p : Opnd) : Statement (.ptrtag p) :=
  fieldsDecode_of rfl rfl (by simp [rawGroup, rawInteger, opnds1, Ty.ofCode])
theorem ptrsettag (p : Opnd) (t : Opnd) : Statement (.ptrsettag p t) :=
  fieldsDecode_of rfl rfl (by simp [rawGroup, rawInteger, opnds2, Ty.ofCode])
theorem ptrtoint (p : Opnd) : Statement (.ptrtoint p) :=
  fieldsDecode_of rfl rfl (by simp [rawGroup, rawInteger, opnds1, Ty.ofCode])
theorem inttoptr (x : Opnd) : Statement (.inttoptr x) :=
  fieldsDecode_of rfl rfl (by simp [rawGroup, rawInteger, opnds1, Ty.ofCode])
theorem mov (ty : Ty) (a : Opnd) : Statement (.mov ty a) :=
  fieldsDecode_of rfl rfl (by simp [rawGroup, rawInteger, opnds1])
theorem fadd (rm : Rm) (ty : Ty) (a : Opnd) (b : Opnd) : Statement (.fadd rm ty a b) :=
  fieldsDecode_of rfl rfl (by simp [rawGroup, rawFloat, opnds2])
theorem fsub (rm : Rm) (ty : Ty) (a : Opnd) (b : Opnd) : Statement (.fsub rm ty a b) :=
  fieldsDecode_of rfl rfl (by simp [rawGroup, rawFloat, opnds2])
theorem fmul (rm : Rm) (ty : Ty) (a : Opnd) (b : Opnd) : Statement (.fmul rm ty a b) :=
  fieldsDecode_of rfl rfl (by simp [rawGroup, rawFloat, opnds2])
theorem fdiv (rm : Rm) (ty : Ty) (a : Opnd) (b : Opnd) : Statement (.fdiv rm ty a b) :=
  fieldsDecode_of rfl rfl (by simp [rawGroup, rawFloat, opnds2])
theorem fma (rm : Rm) (ty : Ty) (a : Opnd) (b : Opnd) (c : Opnd) : Statement (.fma rm ty a b c) :=
  fieldsDecode_of rfl rfl (by simp [rawGroup, rawFloat, opnds3])
theorem fsqrt (rm : Rm) (ty : Ty) (a : Opnd) : Statement (.fsqrt rm ty a) :=
  fieldsDecode_of rfl rfl (by simp [rawGroup, rawFloat, opnds1])
theorem fmin (ty : Ty) (a : Opnd) (b : Opnd) : Statement (.fmin ty a b) :=
  fieldsDecode_of rfl rfl (by simp [rawGroup, rawFloat, opnds2])
theorem fmax (ty : Ty) (a : Opnd) (b : Opnd) : Statement (.fmax ty a b) :=
  fieldsDecode_of rfl rfl (by simp [rawGroup, rawFloat, opnds2])
theorem fneg (ty : Ty) (a : Opnd) : Statement (.fneg ty a) :=
  fieldsDecode_of rfl rfl (by simp [rawGroup, rawFloat, opnds1])
theorem fabs (ty : Ty) (a : Opnd) : Statement (.fabs ty a) :=
  fieldsDecode_of rfl rfl (by simp [rawGroup, rawFloat, opnds1])
theorem fcopysign (ty : Ty) (a : Opnd) (b : Opnd) : Statement (.fcopysign ty a b) :=
  fieldsDecode_of rfl rfl (by simp [rawGroup, rawFloat, opnds2])
theorem fcmp (c : FCond) (ty : Ty) (a : Opnd) (b : Opnd) : Statement (.fcmp c ty a b) :=
  fieldsDecode_of rfl rfl (by simp [rawGroup, rawFloat, opnds2])
theorem fclass (ty : Ty) (a : Opnd) : Statement (.fclass ty a) :=
  fieldsDecode_of rfl rfl (by simp [rawGroup, rawFloat, opnds1])
theorem frint (rm : Rm) (ty : Ty) (a : Opnd) : Statement (.frint rm ty a) :=
  fieldsDecode_of rfl rfl (by simp [rawGroup, rawFloat, opnds1])
theorem fdot2 (rm : Rm) (ty : Ty) (a : Opnd) (b : Opnd) (c : Opnd) : Statement (.fdot2 rm ty a b c) :=
  fieldsDecode_of rfl rfl (by simp [rawGroup, rawFloat, opnds3])
theorem fdot4 (rm : Rm) (ty : Ty) (a : Opnd) (b : Opnd) (c : Opnd) : Statement (.fdot4 rm ty a b c) :=
  fieldsDecode_of rfl rfl (by simp [rawGroup, rawFloat, opnds3])
theorem frcp (rm : Rm) (ty : Ty) (a : Opnd) : Statement (.frcp rm ty a) :=
  fieldsDecode_of rfl rfl (by simp [rawGroup, rawFloat, opnds1])
theorem frsqrt (rm : Rm) (ty : Ty) (a : Opnd) : Statement (.frsqrt rm ty a) :=
  fieldsDecode_of rfl rfl (by simp [rawGroup, rawFloat, opnds1])
theorem fexp2 (rm : Rm) (ty : Ty) (a : Opnd) : Statement (.fexp2 rm ty a) :=
  fieldsDecode_of rfl rfl (by simp [rawGroup, rawFloat, opnds1])
theorem flog2 (rm : Rm) (ty : Ty) (a : Opnd) : Statement (.flog2 rm ty a) :=
  fieldsDecode_of rfl rfl (by simp [rawGroup, rawFloat, opnds1])
theorem fsin (rm : Rm) (ty : Ty) (a : Opnd) : Statement (.fsin rm ty a) :=
  fieldsDecode_of rfl rfl (by simp [rawGroup, rawFloat, opnds1])
theorem fcos (rm : Rm) (ty : Ty) (a : Opnd) : Statement (.fcos rm ty a) :=
  fieldsDecode_of rfl rfl (by simp [rawGroup, rawFloat, opnds1])
theorem ftanh (rm : Rm) (ty : Ty) (a : Opnd) : Statement (.ftanh rm ty a) :=
  fieldsDecode_of rfl rfl (by simp [rawGroup, rawFloat, opnds1])
theorem cvt (rm : Rm) (sat : Bool) (sgn : Bool) (ty : Ty) (v : BitVec 24) : Statement (.cvt rm sat sgn ty v) :=
  fieldsDecode_of rfl rfl (by cases rm <;> cases sat <;> cases sgn <;> simp [rawGroup, rawConvert, valueOp, modF, Rm.code, Rm.ofCode])
theorem bitcast (ty : Ty) (v : BitVec 24) : Statement (.bitcast ty v) :=
  fieldsDecode_of rfl rfl (by simp [rawGroup, rawConvert, valueOp])
theorem pack (ty : Ty) (es : List Opnd) : Statement (.pack ty es) :=
  fieldsDecode_of rfl rfl (by simp [rawGroup, rawConvert])
theorem unpack (k : BitVec 4) (ty : Ty) (x : Opnd) : Statement (.unpack k ty x) :=
  fieldsDecode_of rfl rfl (by simp [rawGroup, rawConvert, opnds1])
theorem insert (k : BitVec 4) (ty : Ty) (x : Opnd) (e : Opnd) : Statement (.insert k ty x e) :=
  fieldsDecode_of rfl rfl (by simp [rawGroup, rawConvert, opnds2])
theorem bsquant (rm : Rm) (ty : Ty) (elem : Opnd) (scale : Opnd) (src : Opnd) : Statement (.bsquant rm ty elem scale src) :=
  fieldsDecode_of rfl rfl (by cases rm <;> simp [rawGroup, rawConvert, opnds3, Rm.code, Rm.ofCode, Rm.code, Rm.ofCode])
theorem bsdequant (rm : Rm) (ty : Ty) (dst : Opnd) (elem : Opnd) (scale : Opnd) : Statement (.bsdequant rm ty dst elem scale) :=
  fieldsDecode_of rfl rfl (by cases rm <;> simp [rawGroup, rawConvert, opnds3, Rm.code, Rm.ofCode, Rm.code, Rm.ofCode])
theorem sysread (k : SysKey) : Statement (.sysread k) :=
  fieldsDecode_of rfl rfl (by simp [rawGroup, rawSystem])
theorem laneid : Statement (.laneid) :=
  fieldsDecode_of rfl rfl (by simp [rawGroup, rawIdentity])
theorem waveid : Statement (.waveid) :=
  fieldsDecode_of rfl rfl (by simp [rawGroup, rawIdentity])
theorem groupid : Statement (.groupid) :=
  fieldsDecode_of rfl rfl (by simp [rawGroup, rawIdentity])
theorem gridid (k : GridKey) : Statement (.gridid k) :=
  fieldsDecode_of rfl rfl (by simp [rawGroup, rawIdentity])
theorem activemask : Statement (.activemask) :=
  fieldsDecode_of rfl rfl (by simp [rawGroup, rawIdentity])
theorem quadswap (dir : QDir) (ty : Ty) (x : Opnd) : Statement (.quadswap dir ty x) :=
  fieldsDecode_of rfl rfl (by simp [rawGroup, rawIdentity, rawWave, opnds1])
theorem quadbcast (ty : Ty) (x : Opnd) (k : Opnd) : Statement (.quadbcast ty x k) :=
  fieldsDecode_of rfl rfl (by simp [rawGroup, rawIdentity, rawWave, opnds2])
theorem shfl (m : ShflMode) (clamp : Bool) (ty : Ty) (x : Opnd) (idx : Opnd) : Statement (.shfl m clamp ty x idx) :=
  fieldsDecode_of rfl rfl (by cases m <;> cases clamp <;> simp [rawGroup, rawIdentity, rawWave, opnds2, ShflMode.code, ShflMode.ofCode])
theorem ballot (c : Opnd) : Statement (.ballot c) :=
  fieldsDecode_of rfl rfl (by simp [rawGroup, rawIdentity, rawWave, opnds1, Ty.ofCode])
theorem vote (op : VoteOp) (c : Opnd) : Statement (.vote op c) :=
  fieldsDecode_of rfl rfl (by simp [rawGroup, rawIdentity, rawWave, opnds1, Ty.ofCode])
theorem matchLanes (ty : Ty) (x : Opnd) : Statement (.matchLanes ty x) :=
  fieldsDecode_of rfl rfl (by simp [rawGroup, rawIdentity, rawWave, opnds1])
theorem wred (op : RedOp) (rm : Rm) (ty : Ty) (x : Opnd) : Statement (.wred op rm ty x) :=
  fieldsDecode_of rfl rfl (by cases op <;> cases rm <;> simp [rawGroup, rawIdentity, rawWave, opnds1, RedOp.code, RedOp.ofCode, Rm.code, Rm.ofCode])
theorem wscan (op : RedOp) (rm : Rm) (excl : Bool) (ty : Ty) (x : Opnd) : Statement (.wscan op rm excl ty x) :=
  fieldsDecode_of rfl rfl (by cases op <;> cases rm <;> cases excl <;> simp [rawGroup, rawIdentity, rawWave, opnds1, RedOp.code, RedOp.ofCode, Rm.code, Rm.ofCode])
theorem elect : Statement (.elect) :=
  fieldsDecode_of rfl rfl (by simp [rawGroup, rawIdentity])
theorem wbar : Statement (.wbar) :=
  fieldsDecode_of rfl rfl (by simp [rawGroup, rawIdentity])
theorem gbar : Statement (.gbar) :=
  fieldsDecode_of rfl rfl (by simp [rawGroup, rawIdentity])
theorem rand (ty : Ty) : Statement (.rand ty) :=
  fieldsDecode_of rfl rfl (by simp [rawGroup, rawIdentity, rawWave])
theorem randseed (seed : Opnd) : Statement (.randseed seed) :=
  fieldsDecode_of rfl rfl (by simp [rawGroup, rawIdentity, rawWave, opnds1, Ty.ofCode])
theorem bcast (ty : Ty) (x : Opnd) : Statement (.bcast ty x) :=
  fieldsDecode_of rfl rfl (by simp [rawGroup, rawIdentity, rawWave, opnds1])
theorem ld (nt : Bool) (sc : Scope) (o : Ord4) (ty : Ty) (p : Opnd) : Statement (.ld nt sc o ty p) :=
  fieldsDecode_of rfl rfl (by cases nt <;> cases sc <;> cases o <;> simp [rawGroup, rawTagged, rawMemory, opnds1, modM, Scope.code, Ord4.code, Scope.ofCode, Ord4.ofCode])
theorem st (nt : Bool) (sc : Scope) (o : Ord4) (ty : Ty) (p : Opnd) (v : Opnd) : Statement (.st nt sc o ty p v) :=
  fieldsDecode_of rfl rfl (by cases nt <;> cases sc <;> cases o <;> simp [rawGroup, rawTagged, rawMemory, opnds2, modM, Scope.code, Ord4.code, Scope.ofCode, Ord4.ofCode])
theorem ldlay (sc : Scope) (ty : Ty) (l : BitVec 24) (p : Opnd) (i0 : Opnd) (i1 : Opnd) (i2 : Opnd) : Statement (.ldlay sc ty l p i0 i1 i2) :=
  fieldsDecode_of rfl rfl (by cases sc <;> simp [rawGroup, rawTagged, rawMemory, modM, Scope.code, Ord4.code, Scope.ofCode])
theorem stlay (sc : Scope) (ty : Ty) (l : BitVec 24) (p : Opnd) (i0 : Opnd) (i1 : Opnd) (i2 : Opnd) (v : Opnd) : Statement (.stlay sc ty l p i0 i1 i2 v) :=
  fieldsDecode_of rfl rfl (by cases sc <;> simp [rawGroup, rawTagged, rawMemory, modM, Scope.code, Ord4.code, Scope.ofCode])
theorem laymake (base : Opnd) (perm : Opnd) (size : Opnd) (st0 : Opnd) (st1 : Opnd) (st2 : Opnd) : Statement (.laymake base perm size st0 st1 st2) :=
  fieldsDecode_of rfl rfl (by simp [rawGroup, rawTagged])
theorem atom (op : AtomOp) (sc : Scope) (o : Ord4) (ty : Ty) (p : Opnd) (v : Opnd) : Statement (.atom op sc o ty p v) :=
  fieldsDecode_of rfl rfl (by cases op <;> cases sc <;> cases o <;> simp [rawGroup, rawTagged, rawMemory, opnds2, modM, Scope.code, Ord4.code, Scope.ofCode, Ord4.ofCode, AtomOp.code, AtomOp.ofCode])
theorem xchg (sc : Scope) (o : Ord4) (ty : Ty) (p : Opnd) (v : Opnd) : Statement (.xchg sc o ty p v) :=
  fieldsDecode_of rfl rfl (by cases sc <;> cases o <;> simp [rawGroup, rawTagged, rawMemory, opnds2, modM, Scope.code, Ord4.code, Scope.ofCode, Ord4.ofCode])
theorem cas (sc : Scope) (o : Ord4) (ty : Ty) (p : Opnd) (e : Opnd) (v : Opnd) : Statement (.cas sc o ty p e v) :=
  fieldsDecode_of rfl rfl (by cases sc <;> cases o <;> simp [rawGroup, rawTagged, rawMemory, opnds3, modM, Scope.code, Ord4.code, Scope.ofCode, Ord4.ofCode])
theorem fatom (op : FAtomOp) (sc : Scope) (o : Ord4) (ty : Ty) (p : Opnd) (v : Opnd) : Statement (.fatom op sc o ty p v) :=
  fieldsDecode_of rfl rfl (by cases op <;> cases sc <;> cases o <;> simp [rawGroup, rawTagged, rawMemory, opnds2, modM, Scope.code, Ord4.code, Scope.ofCode, Ord4.ofCode, FAtomOp.code, FAtomOp.ofCode])
theorem fence (sc : Scope) (o : Ord4) : Statement (.fence sc o) :=
  fieldsDecode_of rfl rfl (by cases sc <;> cases o <;> simp [rawGroup, rawTagged, modM, Scope.code, Ord4.code, Scope.ofCode, Ord4.ofCode])
theorem tagld (p : Opnd) : Statement (.tagld p) :=
  fieldsDecode_of rfl rfl (by simp [rawGroup, rawTagged, opnds1])
theorem tagst (p : Opnd) (t : Opnd) : Statement (.tagst p t) :=
  fieldsDecode_of rfl rfl (by simp [rawGroup, rawTagged, opnds2])
theorem watchset (sel : Opnd) (addr : Opnd) (ctl : Opnd) : Statement (.watchset sel addr ctl) :=
  fieldsDecode_of rfl rfl (by simp [rawGroup, rawTagged, opnds3])
theorem watchclr (sel : Opnd) : Statement (.watchclr sel) :=
  fieldsDecode_of rfl rfl (by simp [rawGroup, rawTagged, opnds1])
theorem prefetch (sc : Scope) (p : Opnd) : Statement (.prefetch sc p) :=
  fieldsDecode_of rfl rfl (by cases sc <;> simp [rawGroup, rawTagged, opnds1, modM, Scope.code, Ord4.code, Scope.ofCode])
theorem cbinit (logn : BitVec 4) (sc : Scope) (slot : Opnd) (data : Opnd) (slotb : Opnd) (stat : Opnd) : Statement (.cbinit logn sc slot data slotb stat) := by
  have h := logn.isLt
  have h1 : (logn.toNat + 16 * sc.code) % 16 = logn.toNat := by omega
  have h2 : (logn.toNat + 16 * sc.code) / 16 % 8 = sc.code := by cases sc <;> simp only [Scope.code] <;> omega
  exact fieldsDecode_of rfl rfl (by simp [rawGroup, rawBuffer, opnds4, h1, h2])
theorem cbwait (room : Bool) (h : BitVec 24) (n : Opnd) : Statement (.cbwait room h n) :=
  fieldsDecode_of rfl rfl (by cases room <;> simp [rawGroup, rawBuffer, handleOps, opnds1])
theorem cbadv (h : BitVec 24) (n : Opnd) : Statement (.cbadv h n) :=
  fieldsDecode_of rfl rfl (by simp [rawGroup, rawBuffer, handleOps, opnds1])
theorem cbstat (k : CbKey) (h : BitVec 24) : Statement (.cbstat k h) :=
  fieldsDecode_of rfl rfl (by simp [rawGroup])
theorem acopy (sel : SlotSel) (h : BitVec 24) (dst : Opnd) (src : Opnd) (len : Opnd) : Statement (.acopy sel h dst src len) :=
  fieldsDecode_of rfl rfl (by cases sel <;> simp [rawGroup, rawBuffer, handleOps, opnds3, SlotSel.code, SlotSel.ofCode])
theorem agather (z : BitVec 2) (slot : Bool) (h : BitVec 24) (dst : Opnd) (win : Opnd) (nwin : Opnd) (idx : Opnd) (cnt : Opnd) : Statement (.agather z slot h dst win nwin idx cnt) := by
  have h := z.isLt
  have h1 : BitVec.ofNat 2 (z.toNat + 4 * slot.toNat) = z := by
    apply BitVec.eq_of_toNat_eq
    cases slot <;> simp only [BitVec.toNat_ofNat, Bool.toNat_true, Bool.toNat_false] <;> omega
  have h2 : ((z.toNat + 4 * slot.toNat) / 4 % 2 == 1) = slot := by
    cases slot <;> simp only [Bool.toNat_true, Bool.toNat_false, beq_iff_eq, beq_eq_false_iff_ne, ne_eq] <;> omega
  exact fieldsDecode_of rfl rfl (by simp [rawGroup, rawBuffer, h1, h2])
theorem ascatter (z : BitVec 2) (slot : Bool) (h : BitVec 24) (win : Opnd) (src : Opnd) (nwin : Opnd) (idx : Opnd) (cnt : Opnd) : Statement (.ascatter z slot h win src nwin idx cnt) := by
  have h := z.isLt
  have h1 : BitVec.ofNat 2 (z.toNat + 4 * slot.toNat) = z := by
    apply BitVec.eq_of_toNat_eq
    cases slot <;> simp only [BitVec.toNat_ofNat, Bool.toNat_true, Bool.toNat_false] <;> omega
  have h2 : ((z.toNat + 4 * slot.toNat) / 4 % 2 == 1) = slot := by
    cases slot <;> simp only [Bool.toNat_true, Bool.toNat_false, beq_iff_eq, beq_eq_false_iff_ne, ne_eq] <;> omega
  exact fieldsDecode_of rfl rfl (by simp [rawGroup, rawBuffer, h1, h2])
theorem kstart (k : KKind) (ty : KType) (op : KOp) (exact : Bool) (h : BitVec 24) (send : Opnd) (recv : Opnd) (count : Opnd) (comm : Opnd) : Statement (.kstart k ty op exact h send recv count comm) :=
  fieldsDecode_of rfl rfl (by cases k <;> cases ty <;> cases op <;> cases exact <;> simp [rawGroup, rawBuffer, handleOps, opnds4, KKind.code, KKind.ofCode, KType.code, KType.ofCode, KOp.code, KOp.ofCode])
theorem mxlease (n : Opnd) : Statement (.mxlease n) :=
  fieldsDecode_of rfl rfl (by simp [rawGroup, rawMatrix, opnds1])
theorem mxrel : Statement (.mxrel) :=
  fieldsDecode_of rfl rfl (by simp [rawGroup, rawMatrix])
theorem mxldb (n128 : Bool) (b : Opnd) (bs : Opnd) (kb : Opnd) : Statement (.mxldb n128 b bs kb) :=
  fieldsDecode_of rfl rfl (by cases n128 <;> simp [rawGroup, rawMatrix, opnds3])
theorem mxzero (sh : Shape) (t : Opnd) : Statement (.mxzero sh t) :=
  fieldsDecode_of rfl rfl (by cases sh <;> simp [rawGroup, rawMatrix, opnds1, Shape.code, Shape.ofCode])
theorem mxst (sh : Shape) (clr : Bool) (t : Opnd) (d : Opnd) (stride : Opnd) : Statement (.mxst sh clr t d stride) :=
  fieldsDecode_of rfl rfl (by cases sh <;> cases clr <;> simp [rawGroup, rawMatrix, opnds3, Shape.code, Shape.ofCode])
theorem mxmma (sh : Shape) (t : Opnd) (a : Opnd) (as : Opnd) (kb : Opnd) : Statement (.mxmma sh t a as kb) :=
  fieldsDecode_of rfl rfl (by cases sh <;> simp [rawGroup, rawMatrix, opnds4, Shape.code, Shape.ofCode])
theorem mxsmma (sh : Shape) (t : Opnd) (a : Opnd) (md : Opnd) (kb : Opnd) : Statement (.mxsmma sh t a md kb) :=
  fieldsDecode_of rfl rfl (by cases sh <;> simp [rawGroup, rawMatrix, opnds4, Shape.code, Shape.ofCode])
theorem mxtma (sh : Shape) (t : Opnd) (a : Opnd) (kb : Opnd) : Statement (.mxtma sh t a kb) :=
  fieldsDecode_of rfl rfl (by cases sh <;> simp [rawGroup, rawMatrix, opnds3, Shape.code, Shape.ofCode])
theorem mxfmt (idx : Opnd) : Statement (.mxfmt idx) :=
  fieldsDecode_of rfl rfl (by simp [rawGroup, rawMatrix, opnds1])
theorem spawn (q : Opnd) (desc : Opnd) : Statement (.spawn q desc) :=
  fieldsDecode_of rfl rfl (by simp [rawGroup, rawSystem, opnds2])
theorem ccwait (sc : Scope) (ctr : Opnd) (v : Opnd) : Statement (.ccwait sc ctr v) :=
  fieldsDecode_of rfl rfl (by cases sc <;> simp [rawGroup, rawSystem, opnds2, Scope.code, Scope.ofCode])
theorem ccadd (sc : Scope) (ctr : Opnd) (inc : Opnd) : Statement (.ccadd sc ctr inc) :=
  fieldsDecode_of rfl rfl (by cases sc <;> simp [rawGroup, rawSystem, opnds2, Scope.code, Scope.ofCode])
theorem gatecall (dir : GateDir) (gate : Opnd) (buf : Opnd) (blen : Opnd) (args : List Opnd) : Statement (.gatecall dir gate buf blen args) :=
  fieldsDecode_of rfl rfl (by cases dir <;> simp [rawGroup, rawSystem, GateDir.code, GateDir.ofCode])
theorem gateret (v : Opnd) : Statement (.gateret v) :=
  fieldsDecode_of rfl rfl (by simp [rawGroup, rawSystem, opnds1])
theorem xprefetch (f : Opnd) (idx : Opnd) (len : Opnd) : Statement (.xprefetch f idx len) :=
  fieldsDecode_of rfl rfl (by simp [rawGroup, rawSystem, opnds3])
theorem ecount (tab : Opnd) (exp : Opnd) (n : Opnd) : Statement (.ecount tab exp n) :=
  fieldsDecode_of rfl rfl (by simp [rawGroup, rawSystem, opnds3])
theorem xrtlook (tab : Opnd) (exp : Opnd) (hash : Opnd) : Statement (.xrtlook tab exp hash) :=
  fieldsDecode_of rfl rfl (by simp [rawGroup, rawSystem, opnds3])
theorem xrtverCur (tab : Opnd) : Statement (.xrtverCur tab) :=
  fieldsDecode_of rfl rfl (by simp [rawGroup, rawSystem])
theorem xrtverChk (tab : Opnd) (exp : Opnd) (hash : Opnd) (dst : Opnd) : Statement (.xrtverChk tab exp hash dst) :=
  fieldsDecode_of rfl rfl (by simp [rawGroup, rawSystem])
theorem xrtverDone (tab : Opnd) (dst : Opnd) : Statement (.xrtverDone tab dst) :=
  fieldsDecode_of rfl rfl (by simp [rawGroup, rawSystem])
theorem rmerge (bf16 : Bool) (h : BitVec 24) (tab : Opnd) (exp : Opnd) (dst : Opnd) (count : Opnd) : Statement (.rmerge bf16 h tab exp dst count) :=
  fieldsDecode_of rfl rfl (by cases bf16 <;> simp [rawGroup, rawSystem, handleOps, opnds4])
theorem nmov (v : VSlot) : Statement (.nmov v) := fieldsDecode_none rfl
theorem nmovs (f : SSlot) : Statement (.nmovs f) := fieldsDecode_none rfl
theorem nvtos (v : VSlot) : Statement (.nvtos v) := fieldsDecode_none rfl
theorem nlit (k : BitVec 2) (clr : Bool) (d : BitVec 6) (imm : BitVec 24) (a : BitVec 6) (b : BitVec 6) : Statement (.nlit k clr d imm a b) := fieldsDecode_none rfl
theorem nspill (k : SpillKind) (reg : BitVec 7) (si : BitVec 16) : Statement (.nspill k reg si) := fieldsDecode_none rfl
theorem nfill (k : SpillKind) (reg : BitVec 7) (si : BitVec 16) : Statement (.nfill k reg si) := fieldsDecode_none rfl
theorem nstg (f : SSlot) : Statement (.nstg f) := fieldsDecode_none rfl
theorem nstgv (v : VSlot) : Statement (.nstgv v) := fieldsDecode_none rfl
theorem nlcset (n : BitVec 2) (x : BitVec 2) (w : BitVec 2) (b : BitVec 6) (a : BitVec 6) : Statement (.nlcset n x w b a) := fieldsDecode_none rfl
theorem nloop (lc : BitVec 2) (ii : BitVec 6) (sc : BitVec 4) : Statement (.nloop lc ii sc) := fieldsDecode_none rfl
theorem nland (kinds : BitVec 4) : Statement (.nland kinds) := fieldsDecode_none rfl
theorem nxit : Statement (.nxit) := fieldsDecode_none rfl
theorem ntrap : Statement (.ntrap) := fieldsDecode_none rfl
theorem nmask (v : VSlot) : Statement (.nmask v) := fieldsDecode_none rfl
theorem nmaskv (v : VSlot) : Statement (.nmaskv v) := fieldsDecode_none rfl
theorem agingPromotion (gid : Nat) (wave : Nat) : Statement (.agingPromotion gid wave) := fieldsDecode_none rfl
theorem gondolaTake (cluster : Nat) (gondola : Nat) : Statement (.gondolaTake cluster gondola) := fieldsDecode_none rfl
theorem rejoin (gid : Nat) (wave : Nat) (lane : Nat) : Statement (.rejoin gid wave lane) := fieldsDecode_none rfl
theorem rejoinTimeout (gid : Nat) (wave : Nat) (set : Nat) : Statement (.rejoinTimeout gid wave set) := fieldsDecode_none rfl
theorem heldRunRelease (gid : Nat) (wave : Nat) : Statement (.heldRunRelease gid wave) := fieldsDecode_none rfl
theorem landing (gid : Nat) (wave : Nat) : Statement (.landing gid wave) := fieldsDecode_none rfl
theorem doorbell (dom : Nat) (q : Nat) : Statement (.doorbell dom q) := fieldsDecode_none rfl
theorem admission (dom : Nat) (q : Nat) : Statement (.admission dom q) := fieldsDecode_none rfl
theorem budgetWindowRefill : Statement (.budgetWindowRefill) := fieldsDecode_none rfl
theorem counterPoll : Statement (.counterPoll) := fieldsDecode_none rfl
theorem placeGroup (launch : Nat) : Statement (.placeGroup launch) := fieldsDecode_none rfl
theorem placeTroupe (launch : Nat) : Statement (.placeTroupe launch) := fieldsDecode_none rfl
theorem groupEnd (gid : Nat) : Statement (.groupEnd gid) := fieldsDecode_none rfl
theorem launchComplete (launch : Nat) : Statement (.launchComplete launch) := fieldsDecode_none rfl
theorem stopRequest (dom : Nat) (gids : List Nat) (cls : Nat) : Statement (.stopRequest dom gids cls) := fieldsDecode_none rfl
theorem waveStop (gid : Nat) (wave : Nat) : Statement (.waveStop gid wave) := fieldsDecode_none rfl
theorem stopDeadline (gid : Nat) : Statement (.stopDeadline gid) := fieldsDecode_none rfl
theorem saveComplete (gid : Nat) : Statement (.saveComplete gid) := fieldsDecode_none rfl
theorem restore (gid : Nat) (core : Nat) (half : Nat) (crcOk : Bool) : Statement (.restore gid core half crcOk) := fieldsDecode_none rfl
theorem l2RefillTick (core : Nat) : Statement (.l2RefillTick core) := fieldsDecode_none rfl
theorem l2PortGrant (core : Nat) (dom : Nat) : Statement (.l2PortGrant core dom) := fieldsDecode_none rfl
theorem loanRevoke (core : Nat) (dom : Nat) : Statement (.loanRevoke core dom) := fieldsDecode_none rfl
theorem peerReadTimeout (gid : Nat) (wave : Nat) (lane : Nat) : Statement (.peerReadTimeout gid wave lane) := fieldsDecode_none rfl
theorem peerWriteTimeout (dom : Nat) (addr : DWord) : Statement (.peerWriteTimeout dom addr) := fieldsDecode_none rfl
theorem enginePush (cmd : Nat) : Statement (.enginePush cmd) := fieldsDecode_none rfl
theorem fwCmdRead (cmd : Nat) : Statement (.fwCmdRead cmd) := fieldsDecode_none rfl
theorem pathTransferDone (cmd : Nat) : Statement (.pathTransferDone cmd) := fieldsDecode_none rfl
theorem fwDone (cmd : Nat) (code : BitVec 8) (count : BitVec 32) : Statement (.fwDone cmd code count) := fieldsDecode_none rfl
theorem firmwareWatchdog (cmd : Nat) : Statement (.firmwareWatchdog cmd) := fieldsDecode_none rfl
theorem keBoundExpiry (cmd : Nat) : Statement (.keBoundExpiry cmd) := fieldsDecode_none rfl
theorem firmwareImageReplace (cmd : Nat) (victim : Nat) : Statement (.firmwareImageReplace cmd victim) := fieldsDecode_none rfl
theorem keContribution (cmd : Nat) (rank : Nat) (off : Nat) (bytes : List Byte) : Statement (.keContribution cmd rank off bytes) := fieldsDecode_none rfl
theorem keReduce (cmd : Nat) : Statement (.keReduce cmd) := fieldsDecode_none rfl
theorem mxTurnPass (core : Nat) : Statement (.mxTurnPass core) := fieldsDecode_none rfl
theorem tcLineFill (cluster : Nat) (addr : Nat) : Statement (.tcLineFill cluster addr) := fieldsDecode_none rfl
theorem tcLineError (cluster : Nat) (addr : Nat) : Statement (.tcLineError cluster addr) := fieldsDecode_none rfl
theorem translateRegion (cluster : Nat) (key : XlateKey) (body : XlateBody) : Statement (.translateRegion cluster key body) := fieldsDecode_none rfl
theorem imageReplace (gid : Nat) (wave : Nat) : Statement (.imageReplace gid wave) := fieldsDecode_none rfl
theorem eviction (cluster : Nat) (xid : Nat) (cause : Nat) : Statement (.eviction cluster xid cause) := fieldsDecode_none rfl
theorem translationFree (cluster : Nat) (xid : Nat) : Statement (.translationFree cluster xid) := fieldsDecode_none rfl
theorem trapRecordWrite (dom : Nat) : Statement (.trapRecordWrite dom) := fieldsDecode_none rfl
theorem hypTimeout (seq : BitVec 32) : Statement (.hypTimeout seq) := fieldsDecode_none rfl
theorem pageWalkDone (dom : Nat) (va : BitVec 56) : Statement (.pageWalkDone dom va) := fieldsDecode_none rfl
theorem tlbInvalidateDone (dom : Nat) : Statement (.tlbInvalidateDone dom) := fieldsDecode_none rfl
theorem l2dropDone (die : Nat) (slice : Nat) : Statement (.l2dropDone die slice) := fieldsDecode_none rfl
theorem nakReplay (rail : Nat) (seq : BitVec 12) : Statement (.nakReplay rail seq) := fieldsDecode_none rfl
theorem replayThreshold (rail : Nat) : Statement (.replayThreshold rail) := fieldsDecode_none rfl
theorem railRetrain (rail : Nat) : Statement (.railRetrain rail) := fieldsDecode_none rfl
theorem railRetrainEnd (rail : Nat) (ok : Bool) : Statement (.railRetrainEnd rail ok) := fieldsDecode_none rfl
theorem linkRefillTick (port : Nat) : Statement (.linkRefillTick port) := fieldsDecode_none rfl
theorem gangTick : Statement (.gangTick) := fieldsDecode_none rfl
theorem gangDeadline (die : Nat) : Statement (.gangDeadline die) := fieldsDecode_none rfl
theorem ctxTorn (entry : Nat) : Statement (.ctxTorn entry) := fieldsDecode_none rfl
theorem sliceZeroDone (far : Bool) (k : Nat) : Statement (.sliceZeroDone far k) := fieldsDecode_none rfl
theorem reshapeAssign (addr : DWord) : Statement (.reshapeAssign addr) := fieldsDecode_none rfl
theorem reshapeSplit (addr : DWord) : Statement (.reshapeSplit addr) := fieldsDecode_none rfl
theorem reshapeJoin (addr : DWord) : Statement (.reshapeJoin addr) := fieldsDecode_none rfl
theorem drainDeadline (core : Nat) : Statement (.drainDeadline core) := fieldsDecode_none rfl
theorem gateTlimit (gid : Nat) : Statement (.gateTlimit gid) := fieldsDecode_none rfl
theorem counterReadTimeout (dom : Nat) (k : Nat) : Statement (.counterReadTimeout dom k) := fieldsDecode_none rfl
theorem windowClose (dom : Nat) (tab : Nat) : Statement (.windowClose dom tab) := fieldsDecode_none rfl
theorem replicate (dom : Nat) (fw : Bool) (v : DWord) : Statement (.replicate dom fw v) := fieldsDecode_none rfl
theorem retire (dom : Nat) (fw : Bool) (v : DWord) : Statement (.retire dom fw v) := fieldsDecode_none rfl
theorem publish (dom : Nat) (tab : Nat) : Statement (.publish dom tab) := fieldsDecode_none rfl
theorem rollback (dom : Nat) (tab : Nat) : Statement (.rollback dom tab) := fieldsDecode_none rfl
theorem forcedRetire (dom : Nat) (tab : Nat) : Statement (.forcedRetire dom tab) := fieldsDecode_none rfl
theorem winchLogWrite (dom : Nat) : Statement (.winchLogWrite dom) := fieldsDecode_none rfl
theorem thermalReset (die : Nat) : Statement (.thermalReset die) := fieldsDecode_none rfl
theorem launchOverrun (launch : Nat) (measured : Nat) : Statement (.launchOverrun launch measured) := fieldsDecode_none rfl
theorem sramSplitChange (core : Nat) (steps : Nat) : Statement (.sramSplitChange core steps) := fieldsDecode_none rfl
theorem hostWrite (dom : Nat) (addr : BitVec 56) (bytes : List Byte) : Statement (.hostWrite dom addr bytes) := fieldsDecode_none rfl
theorem peerAccess (dom : Nat) (off : BitVec 36) (write : Bool) (bytes : List Byte) : Statement (.peerAccess dom off write bytes) := fieldsDecode_none rfl
theorem fwPggo (cmd : Nat) (src : DWord) (dst : DWord) (len : DWord) (mode : DWord) (rank : DWord) : Statement (.fwPggo cmd src dst len mode rank) := fieldsDecode_none rfl
theorem firmwareException (cmd : Nat) : Statement (.firmwareException cmd) := fieldsDecode_none rfl
theorem moduleLoad (dom : Nat) (handle : Nat) (base : BitVec 56) (file : List Byte) : Statement (.moduleLoad dom handle base file) := fieldsDecode_none rfl
theorem moduleUnload (dom : Nat) (handle : Nat) : Statement (.moduleUnload dom handle) := fieldsDecode_none rfl
theorem resume (dom : Nat) (seq : BitVec 32) : Statement (.resume dom seq) := fieldsDecode_none rfl
theorem killLane (dom : Nat) (seq : BitVec 32) : Statement (.killLane dom seq) := fieldsDecode_none rfl
theorem killWave (dom : Nat) (seq : BitVec 32) : Statement (.killWave dom seq) := fieldsDecode_none rfl
theorem forward (seq : BitVec 32) : Statement (.forward seq) := fieldsDecode_none rfl
theorem tlbInvalidate (dom : Nat) (cw : DWord) : Statement (.tlbInvalidate dom cw) := fieldsDecode_none rfl
theorem wdctlWrite (by0 : Bool) (dom : Nat) (v : DWord) : Statement (.wdctlWrite by0 dom v) := fieldsDecode_none rfl
theorem placeTableWrite (off : Nat) (v : DWord) : Statement (.placeTableWrite off v) := fieldsDecode_none rfl
theorem l2drop (v : DWord) : Statement (.l2drop v) := fieldsDecode_none rfl
theorem unitFailure (u : Unit4) (die : Nat) (unit : Nat) : Statement (.unitFailure u die unit) := fieldsDecode_none rfl
theorem flitReceive (rail : Nat) (flit : BitVec 2048) : Statement (.flitReceive rail flit) := fieldsDecode_none rfl
theorem migrate (addr : DWord) : Statement (.migrate addr) := fieldsDecode_none rfl
theorem gangctlWrite (v : DWord) : Statement (.gangctlWrite v) := fieldsDecode_none rfl
theorem sliceTableWrite (far : Bool) (k : Nat) (v : DWord) : Statement (.sliceTableWrite far k v) := fieldsDecode_none rfl
theorem domcfgWrite (dom : Nat) (v : DWord) : Statement (.domcfgWrite dom v) := fieldsDecode_none rfl
theorem partcfgWrite (p : Nat) (v : DWord) : Statement (.partcfgWrite p v) := fieldsDecode_none rfl
theorem dprWrite (core : Nat) (e : Nat) (word : Nat) (v : DWord) : Statement (.dprWrite core e word v) := fieldsDecode_none rfl
theorem domainPause (dom : Nat) : Statement (.domainPause dom) := fieldsDecode_none rfl
theorem domainResume (dom : Nat) : Statement (.domainResume dom) := fieldsDecode_none rfl
theorem domainReset (dom : Nat) : Statement (.domainReset dom) := fieldsDecode_none rfl
theorem counterRead (dom : Nat) (k : Nat) : Statement (.counterRead dom k) := fieldsDecode_none rfl
theorem wcntWrite (dom : Nat) (v : DWord) : Statement (.wcntWrite dom v) := fieldsDecode_none rfl
theorem tableInstall (dom : Nat) (v : DWord) : Statement (.tableInstall dom v) := fieldsDecode_none rfl
theorem tableClear (dom : Nat) (v : DWord) : Statement (.tableClear dom v) := fieldsDecode_none rfl
theorem hostPortTrain (port : Nat) (personality : Nat) : Statement (.hostPortTrain port personality) := fieldsDecode_none rfl
theorem grantWrite (dom : Nat) (v : DWord) : Statement (.grantWrite dom v) := fieldsDecode_none rfl
theorem intstatWrite (dom : Nat) (v : DWord) : Statement (.intstatWrite dom v) := fieldsDecode_none rfl
theorem lockInterfaceRequest (dom : Nat) : Statement (.lockInterfaceRequest dom) := fieldsDecode_none rfl
theorem startInterfaceRequest (dom : Nat) : Statement (.startInterfaceRequest dom) := fieldsDecode_none rfl
theorem getDeviceInterfaceReport (dom : Nat) : Statement (.getDeviceInterfaceReport dom) := fieldsDecode_none rfl
theorem getTdispVersion (dom : Nat) : Statement (.getTdispVersion dom) := fieldsDecode_none rfl
theorem getTdispCapabilities (dom : Nat) : Statement (.getTdispCapabilities dom) := fieldsDecode_none rfl
theorem getDeviceInterfaceState (dom : Nat) : Statement (.getDeviceInterfaceState dom) := fieldsDecode_none rfl
theorem stopInterfaceRequest (dom : Nat) : Statement (.stopInterfaceRequest dom) := fieldsDecode_none rfl
theorem frozenSetWrite (dom : Nat) : Statement (.frozenSetWrite dom) := fieldsDecode_none rfl
theorem spdmSessionEnd (dom : Nat) : Statement (.spdmSessionEnd dom) := fieldsDecode_none rfl
theorem spdmRequest (dom : Nat) (bytes : List Byte) : Statement (.spdmRequest dom bytes) := fieldsDecode_none rfl
theorem pwrlimWrite (v : DWord) : Statement (.pwrlimWrite v) := fieldsDecode_none rfl
theorem powerClamp : Statement (.powerClamp) := fieldsDecode_none rfl
theorem thermalThrottle (die : Nat) : Statement (.thermalThrottle die) := fieldsDecode_none rfl
theorem packageReset : Statement (.packageReset) := fieldsDecode_none rfl
theorem firmwareUpdate (ok : Bool) (version : BitVec 32) : Statement (.firmwareUpdate ok version) := fieldsDecode_none rfl
theorem registerWrite (by0 : Bool) (blk : Option Nat) (off : Nat) (v : DWord) : Statement (.registerWrite by0 blk off v) := fieldsDecode_none rfl
theorem hostFunctionReset (dom : Nat) : Statement (.hostFunctionReset dom) := fieldsDecode_none rfl
theorem logicalDeviceBind (port : Nat) (ld : Nat) (dom : Option Nat) : Statement (.logicalDeviceBind port ld dom) := fieldsDecode_none rfl
theorem uncorrectableMemoryError (addr : Nat) : Statement (.uncorrectableMemoryError addr) := fieldsDecode_none rfl

end Laws.FieldsDecode

end Sys2Proof
end

