-- ==== Sys2Proof/Machine/Events.lean ====
section
/-! DEFINITION. The events of the memory model that an issued instruction makes, from the operands and the checked places with which its
meaning acts (10 R237, R249; 13 R312; 20 R442 to R444): the tie between a step and the executions of `Sys2Proof.Machine.Execution`. Log
entry 41 says what is read by inference. -/
namespace Sys2Proof.Machine

/-- One access of a lane: what it is, its scope and ordering, the range, whether it is of the granule's tag, and the bytes it writes. -/
structure Access where
  kind : EvKind
  scope : Scope
  ord : Ord4
  part : Part
  tag : Bool
  bytes : List Byte
  deriving DecidableEq, Repr

/-- A plain read, and a plain write of bytes. -/
def Access.read (sc : Scope) (o : Ord4) (p : Part) : Access := ⟨.read, sc, o, p, false, []⟩
def Access.write (sc : Scope) (o : Ord4) (p : Part) (bs : List Byte) : Access := ⟨.write, sc, o, p, false, bs⟩

/-- The accesses of lane l other than atomic ones, reads before writes (10 R237, R240). An instruction without class-M modifiers is relaxed
at system scope. A helper lane writes nothing (R142). -/
def laneAccesses (s : State) (c : Ctx) (l : Nat) (i : Instr) : List Access :=
  (plain i).filter fun a => !(c.helper l) || a.kind == .read
where
  /-- The accesses of an ordinary lane. -/
  plain : Instr → List Access
    | .ld _ sc o ty p => (evalOp s c l .ptr p).toList.map fun a => .read sc o (Part.read (a.extractLsb' 0 64) ty.size (alignOf ty))
    | .st _ sc o ty p v =>
      match evalOp s c l .ptr p, evalOp s c l ty v with
      | some a, some x => [.write sc o (Part.write (a.extractLsb' 0 64) ty.size (alignOf ty)) (bytesOfVal ty x)]
      | _, _ => []
    | .ldlay sc ty y p i0 i1 i2 => (layOpnds s c l y p i0 i1 i2 none).toList.map fun q => .read sc .relaxed (layPart false ty.size q)
    | .stlay sc ty y p i0 i1 i2 v =>
      (layOpnds s c l y p i0 i1 i2 (some (ty, v))).toList.map fun q => .write sc .relaxed (layPart true ty.size q) (bytesOfVal ty q.val)
    | .tagld p => (evalOp s c l .ptr p).toList.map fun a => ⟨.read, .system, .relaxed, granulePart false (a.extractLsb' 0 64), true, []⟩
    | .tagst p t =>
      (ptrVal s .i8 p t c l).toList.map fun (a, x) => ⟨.write, .system, .relaxed, granulePart true a, true, [x.extractLsb' 0 8 &&& 15#8]⟩
    | .bsquant rm ty elem scale src =>
      match threePtrs s elem scale src c l, c.lane? l with
      | some (e, x, p), some y =>
        let n := blockBytes ty
        let bs := match s.checkParts (c.who l) [Part.read p 128 4] with | .ok ps => s.readPlaces ps | .error _ => []
        let (sc, cs, _) := quantise rm ty (f32Values c.g.ftz 32 bs) y.acc
        .read .system .relaxed (Part.read p 128 4) ::
          (sortParts (Part.write e n n) (Part.write x 1 1)).map fun q =>
            .write .system .relaxed q (if q.len = 1 then [BitVec.ofNat 8 sc] else packBlock ty cs)
      | _, _ => []
    | .bsdequant rm ty dst elem scale =>
      match threePtrs s dst elem scale c l, c.lane? l with
      | some (d, e, x), some y =>
        let n := blockBytes ty
        let get := fun (p : Part) => match s.checkParts (c.who l) [p] with | .ok ps => s.readPlaces ps | .error _ => []
        let out := (dequantise rm ty c.g.ftz (get (Part.read e n n)) (leNat (get (Part.read x 1 1))) y.acc).1
        (sortParts (Part.read e n n) (Part.read x 1 1)).map (.read .system .relaxed) ++ [.write .system .relaxed (Part.write d 128 4) out]
      | _, _ => []
    | .cbstat .status h =>
      match c.ordinary.head?, (handleOp c l h).bind c.g.handleOf with
      | some j, some n =>
        let x := c.g.handle n
        if j = l then [.read .system .relaxed (Part.read (x.statAt (x.adv.toNat % x.ring)) 8 8)] else []
      | _, _ => []
    | .ccwait sc p _ => (evalOp s c l .ptr p).toList.map fun a => .read sc .acquire (Part.read (a.extractLsb' 0 64) 8 8)
    | .spawn _ d => (evalOp s c l .ptr d).toList.map fun a => .read .system .relaxed (Part.read (a.extractLsb' 0 64) 128 8)
    | _ => []

/-- An atomic access of a lane: type, address, what it writes over an old value, scope and ordering; a `cas` that fails writes nothing. -/
structure Atomic where
  ty : Ty
  ptr : DWord
  new : Bits → Option Bits
  scope : Scope
  ord : Ord4

/-- The atomic access of lane l (10 R237; 20 R444). -/
def laneAtomic (s : State) (c : Ctx) (l : Nat) : Instr → Option Atomic
  | .atom op sc o ty p v => (ptrVal s ty p v c l).map fun (a, x) => ⟨ty, a, fun old => some (atomNew op ty x old), sc, o⟩
  | .xchg sc o ty p v => (ptrVal s ty p v c l).map fun (a, x) => ⟨ty, a, fun _ => some x, sc, o⟩
  | .cas sc o ty p e v =>
    match ptrVal s ty p e c l, evalOp s c l ty v with
    | some (a, x), some y => some ⟨ty, a, fun old => if old = x then some y else none, sc, o⟩
    | _, _ => none
  | .fatom op sc o ty p v => (ptrVal s ty p v c l).map fun (a, x) => ⟨ty, a, fun old => some (fatomNew op ty x old), sc, o⟩
  | .ccadd sc p v => (ptrVal s .i64 p v c l).map fun (a, x) => ⟨.i64, a, fun old => some (atomNew .add .i64 x old), sc, .release⟩
  | _ => none

/-! ### Events -/

/-- The thread of a lane: its program order goes on wherever the lane does (10 R240). -/
def laneThread (gid wave l : Nat) : Nat := gid * 1024 + wave * 32 + l

/-- The agent that a lane is (10 R238). -/
def Ctx.agent (c : Ctx) (l : Nat) : Agent :=
  ⟨.lane, dieOf c.g.core, c.g.core, c.g.gid, c.iss.wave, c.g.halfOf l, match c.lane? l with | some x => x.ejected | none => false⟩

/-- A lane's event of issue n without bytes. -/
def Ctx.mark (c : Ctx) (s : State) (n l : Nat) (k : EvKind) (sc : Scope) (o : Ord4) : Ev :=
  { thread := laneThread c.g.gid c.iss.wave l, agent := c.agent l, issue := n, lane := l, kind := k, scope := sc, rel := releases k o,
    acq := acquires k o, addr := 0, len := 0, tag := false, rval := [], wval := [], time := s.now }

/-- The event of a place: an access that crosses a granule is an event for each (log entry 41). -/
def Ctx.event (c : Ctx) (s : State) (n l : Nat) (k : EvKind) (sc : Scope) (o : Ord4) (tag : Bool) (q : Place) (rv wv : List Byte) : Ev :=
  { c.mark s n l k sc o with addr := q.key, len := q.piece.len, tag, rval := rv, wval := wv }

/-- Bytes dealt out to the places of a range. -/
def dealBytes : List Place → List Byte → List (Place × List Byte)
  | [], _ => []
  | q :: r, bs => (q, bs.take q.piece.len) :: dealBytes r (bs.drop q.piece.len)

/-- The events of a plain access; none of a lane whose check fails. -/
def accessEvents (s : State) (c : Ctx) (n l : Nat) (a : Access) : List Ev :=
  match s.checkParts (c.who l) [a.part] with
  | .error _ => []
  | .ok qs => (dealBytes qs a.bytes).map fun (q, bs) =>
      let was := if a.tag then [((s.tagAt q.key).zeroExtend 8)] else s.bytes q.piece.len q.key
      c.event s n l a.kind a.scope a.ord a.tag q (if a.kind = .read then was else []) (if a.tag ∧ a.kind = .write then a.bytes else bs)

/-- The events of atomic accesses, one lane after another in ascending number, each on what the lane before it has left (11 R263). A `cas`
that fails reads; its ordering is acquire at most. A helper lane reads. -/
def atomicEvents (c : Ctx) (n : Nat) (i : Instr) (s0 : State) : List Nat → State → List Ev
  | [], _ => []
  | l :: r, s =>
    match laneAtomic s0 c l i with
    | none => atomicEvents c n i s0 r s
    | some a =>
      match s.checkParts (c.who l) [⟨a.ptr, a.ty.size, true, true, a.ty.size, true, false⟩] with
      | .error _ => atomicEvents c n i s0 r s
      | .ok qs =>
        let was := s.readPlaces qs
        match a.new (valOfBytes a.ty was).bits, c.helper l with
        | some x, false =>
          let bs := bytesOfVal a.ty x
          (dealBytes qs bs).map (fun (q, b) => c.event s n l .rmw a.scope a.ord false q was b) ++ atomicEvents c n i s0 r (storePlaces c qs bs s)
        | _, _ =>
          let o := if a.ord = .acquire ∨ a.ord = .acqRel then .acquire else .relaxed
          qs.map (fun q => c.event s n l .read a.scope o false q was []) ++ atomicEvents c n i s0 r s

/-- The marks that an instruction leaves in a lane: fences, the issue of its command, and the release of a `spawn`. A helper lane leaves
none. -/
def laneMarks (s t : State) (c : Ctx) (n l : Nat) (i : Instr) : List Ev :=
  if c.helper l then []
  else
    (match i with
      | .fence sc o => [c.mark s n l (.fence (o == .relaxed)) sc o]
      | .spawn _ _ => [c.mark s n l (.fence false) .system .release]
      | _ => []) ++
    ((t.cmds.drop s.cmds.length).filter fun k => k.gid == c.g.gid && k.wave == c.iss.wave && k.lane == l).map fun k =>
      c.mark s n l (.issue k.id) .core .relaxed

/-- Whether every ordinary lane's accesses pass their checks: else the instruction has no effect, and makes no event (11 R262). -/
def accessesPass (s : State) (c : Ctx) (i : Instr) : Bool :=
  c.ordinary.all fun l => (laneAccesses s c l i).all fun a => (s.checkParts (c.who l) [a.part]).isOk

/-- The events of issue n of an instruction in the state s, which it takes to t: lane by lane in ascending number, each lane's reads before
its writes. An issue that is held, or that traps, makes none. -/
def issueEvents (n : Nat) (i : Instr) (s t : State) : List Ev :=
  match s.ctx? with
  | none => []
  | some c =>
    let held := match t.wave? c.g.gid c.iss.wave with
      | some w => w.trap.isSome || c.lanes.any fun l => match w.lanes[l]? with | some x => x.park == .held | none => false
      | none => true
    if held || !accessesPass s c i then []
    else
      (c.lanes.flatMap fun l => (laneAccesses s c l i).flatMap (accessEvents s c n l)) ++ atomicEvents c n i s c.lanes s ++
        c.lanes.flatMap fun l => laneMarks s t c n l i

end Sys2Proof.Machine
end

