-- ==== Sys2Proof/Tests/Slice0.lean ====
section
/-! SUPPORT. Tests: refused ill-formed terms, words of the encoding tables, one-step results worked by hand or taken from the spec's
worked examples, and a witness for the hypotheses of each statement. -/
namespace Sys2Proof.Tests
open Sys2Proof Sys2Proof.Machine
set_option Elab.async false

/-! ### Small states -/

/-- A live lane whose one frame stands at index 0 of function 0 and holds values. -/
def lane (vs : List (Nat × TVal)) : Lane :=
  { st := .live, helper := false, frames := [⟨0, 0, vs⟩], flags := 0, rng := ⟨1, 2, 3, 4⟩, park := .none, ejected := false, age := 0, gateVal := none }

def wave (ls : List Lane) : Wave := { freshWave 0 ls 128 64 0 with chosen := 0 }

/-- Group 1 of domain 1 on the first core, with one bank of scratchpad. -/
def group (hdr : DWord) (ws : List Wave) : Group :=
  { gid := 1, dom := 1, launch := 0, lin := 0, gx := 0, gy := 0, gz := 0, modH := 0, kernel := 0, hdr := hdr,
    core := 128, half := 0, slot := 0, nslots := 1, st := .resident, waves := ws, handles := List.replicate 32 Handle.none,
    watch := List.replicate 16 ⟨0, 0⟩, bank := 0, nbanks := 1, lease := none, troupe := none, gate := none, borrowed := false,
    cls := 0, why := .none, stopBy := 0, saves := 0 }

/-- Domain 1 has slice 0, tokens at its L2 port and a cached page over it, domain 0 a page of host memory; bank 0 of core 128 is domain 1's, with 8 tiles. -/
def base : State :=
  { State.reset with
    pregs := [(0x4008, 0x20#64), (0x10000, 0x81#64), (0x28000, 0x0000002020820081#64), (0x28008, 0x280000#64)]
    doms := [(0, { Dom.reset with tlb := [⟨0, 2 ^ 30, 0, true, true, false, true⟩] }), (1, { Dom.reset with tlb := [⟨0, 2 ^ 30, 0, true, true, true, false⟩] })]
    cores := [(128, { CoreSt.reset with split := 1, buckets := [(1, ⟨64, [], 0, 0, 0, false⟩)] })] }

/-- The run of the lanes of mask m in wave 0 of group 1 issues; its result has number 99. -/
def st (hdr : DWord) (ls : List Lane) (m : Word) : State :=
  { base with groups := [group hdr [wave ls]], issue := some ⟨1, 0, m, false, 99, none, none⟩, nextId := 2 }

/-- The result of lane l after an instruction, and its flags. -/
def result (l : Nat) (o : Out) : Option TVal :=
  match o with
  | .next t => (t.lane? 1 0 l).bind fun x => lookupVal x.top.vals 99
  | _ => none
def flagsOf (o : Out) : Option Nat := match o with | .next t => (t.lane? 1 0 0).map (·.flags.toNat) | _ => none
def num (o : Out) : Option Nat := (result 0 o).map (·.bits.toNat)

/-- One lane with a value of some types. -/
def vals : List (Nat × TVal) :=
  [(1, ⟨.i8, 0x80⟩), (2, ⟨.i64, 0xFFFFFFFFFFFFFFFE⟩), (3, ⟨.f32, 0xC348B333⟩), (4, ⟨.ptr, 0x05FFFFFFFFFFFFFF⟩), (5, ⟨.i32, 3⟩),
   (6, ⟨.f32, 0x43960000⟩), (7, ⟨.ptr, 0x400000⟩), (8, ⟨.ptr, 0xFFFFFFF0000010⟩), (9, ⟨.lay, 0x000000000020000102800000⟩), (10, ⟨.i1, 1⟩),
   (11, ⟨.i64, 5⟩), (12, ⟨.ptr, 0x400040⟩), (13, ⟨.ptr, 0x400080⟩), (14, ⟨.i8, 5⟩), (15, ⟨.cbh, 0⟩), (16, ⟨.i1, 0⟩), (17, ⟨.t2, 3⟩),
   (18, ⟨.cbh, 0x10000⟩), (19, ⟨.ptr, 0xFFFFFFF0000000⟩)]
def s1 : State := st 0x40000 [lane vals] 1
def run (i : Instr) : Out := exec i s1
/-- The results of instructions on that lane. -/
def nums (l : List (Instr × Nat)) : Bool := l.all fun p => num (run p.1) == some p.2

abbrev o1 : Opnd := .val 1
abbrev o2 : Opnd := .val 2
abbrev o3 : Opnd := .val 3
abbrev o4 : Opnd := .val 4
abbrev o5 : Opnd := .val 5
abbrev o6 : Opnd := .val 6


/-- 32 lanes; lane l holds values 1: i32 100 + l, 2: i32 l mod 3, 3: f32 2^24 in lane 0 and 1.0 elsewhere, 4: i1 of an odd l, 5: a pointer. -/
def lanes32 : List Lane := (List.range 32).map fun l => lane [(1, ⟨.i32, BitVec.ofNat 96 (100 + l)⟩), (2, ⟨.i32, BitVec.ofNat 96 (l % 3)⟩),
  (3, ⟨.f32, if l = 0 then 0x4B800000 else 0x3F800000⟩), (4, ⟨.i1, BitVec.ofNat 96 (l % 2)⟩), (5, ⟨.ptr, 0x400000⟩), (6, ⟨.i32, BitVec.ofNat 96 (l + 1)⟩),
  (7, ⟨.ptr, BitVec.ofNat 96 (0x400000 + 4 * l)⟩)]
def s32 (m : Word) : State := st 0x40000 lanes32 m
def at32 (m : Word) (i : Instr) (l : Nat) : Option Nat := (result l (exec i (s32 m))).map (·.bits.toNat)


/-- Bytes at a physical address of slice 0. -/
def bytesAt (o : Out) (n k : Nat) : Option Nat := match o with | .next t => some (leNat (t.bytes n k)) | _ => none
/-- The state after an instruction on the one lane. -/
def after (i : Instr) (s : State) : State := match exec i s with | .next t => { t with issue := s.issue, cores := s.cores, clusters := s.clusters, free := s.free } | _ => s
/-- The code of the trap record that an instruction left. -/
def trapCode (o : Out) : Option (Nat × Nat) := match o with | .next t => ((t.dom 1).trapPend.head?).map fun q => (q.fr.code, q.fr.addr.toNat) | _ => none


/-! ### A small program: `tri` of the worked example of 03, and a caller -/

/-- `tri`: loop(i, acc) adds up 0 to n - 1. -/
def tri : Func :=
  { sym := 0, kernel := false, global := true, hdr := 0, text := 0x1000, ninstr := 7, nvals := 7, result := some .i32,
    words := [0x00030001, 0x80000001, 0x40000000, 0x40000000, 0x10521060, 1, 0, 0x00040002, 3, 0x80000003, 2, 0x80000002, 0x10021040, 2, 1,
      0x10021040, 1, 0x40000001, 0x00030001, 0x80000001, 5, 4, 0x00011004, 6],
    blocks := [⟨0, [.i32], 0⟩, ⟨1, [.i32, .i32], 1⟩, ⟨3, [], 4⟩, ⟨6, [.i32], 6⟩], fmts := [], desc := 0,
    points := [⟨0, 0, none, false, none, [], none⟩, ⟨4, 1, some 3, false, none, [], none⟩, ⟨7, 1, none, false, none, [], none⟩, ⟨12, 2, some 4, false, none, [], none⟩,
      ⟨15, 2, some 5, false, none, [], none⟩, ⟨18, 2, none, false, none, [], none⟩, ⟨22, 3, none, false, none, [], none⟩], whole := false }
/-- A function that calls `tri` at index 0 and returns. -/
def caller : Func :=
  { sym := 1, kernel := true, global := true, hdr := 0, text := 0x2000, ninstr := 2, nvals := 1, result := none,
    words := [0x10021006, 0xC0000002, 0, 0x40000004, 4], blocks := [⟨0, [], 0⟩], fmts := [], desc := 0,
    points := [⟨0, 0, some 0, false, none, [], none⟩, ⟨4, 0, none, false, none, [], none⟩], whole := false }
def prog : Module :=
  { dom := 1, handle := 0, base := 0x1000, textLo := 0x1000, textHi := 0x3000, funcs := [tri, caller], syms := [0x1000, 0x2000], gates := [],
    fwcopy := none, fwcoll := none, images := [], unloading := false }
/-- One lane of `tri` at an index with values. -/
def inTri (k : Nat) (vs : List (Nat × TVal)) : State :=
  { st 0 [{ lane vs with frames := [⟨0, k, vs⟩, ⟨1, 0, []⟩] }] 1 with modules := [prog] }
def topOf (o : Out) : Option Frame := match o with | .next t => (t.lane? 1 0 0).map Lane.top | _ => none
def i32 (n : Nat) : TVal := ⟨.i32, BitVec.ofNat 96 n⟩


/-! ### Contexts, operands and checked places of a state -/

def ctx (s : State) : Ctx := (s.ctx?).getD ⟨⟨0, 0, 0, false, 0, none, none⟩, group 0 [], wave [], []⟩
def c1 : Ctx := ctx s1

theorem operand_of {s : State} {c : Ctx} {t : Ty} {o : Opnd} {x : Nat → Bits}
    (h : (c.lanes.all fun l => evalOp s c l t o == some (x l)) = true) : Operand s c t o x := by
  intro l hl
  simpa using (List.all_eq_true.mp h) l hl

/-- The state in which a memory instruction that wants n lines acts. -/
def portedState (s : State) (c : Ctx) (n : Nat) : State := (wantLines c.g.core c.g.dom n (dropHold c s)).2

theorem ported_of {s : State} {c : Ctx} {n : Nat} (h : (c.released.isNone && ((s.bucket c.g.core c.g.dom).waiting == 0 &&
    decide (n ≤ (s.bucket c.g.core c.g.dom).own + ((s.bucket c.g.core c.g.dom).borrowed.map (·.2)).sum))) = true) :
    Ported s c n (portedState s c n) := by
  simp only [Bool.and_eq_true, Option.isNone_iff_eq_none, beq_iff_eq, decide_eq_true_eq] at h
  exact .inr ⟨h.1, rfl, .inr h.2⟩

/-- The lines of some places find their tokens at the port of a state. -/
abbrev HasPort (s : State) (c : Ctx) (q : Nat → Option (List Place)) : Prop := Ported s c (linesAt c q) (portedState s c (linesAt c q))

/-- The places that a lane's accesses pass at. -/
def placesOf (u : State) (c : Ctx) (req : Nat → List Part) (l : Nat) : Option (List Place) :=
  match u.checkParts (c.who l) (req l) with | .ok ps => some ps | .error _ => none

theorem checked_of {u : State} {c : Ctx} {req : Nat → List Part}
    (h : (c.lanes.all fun l => match u.checkParts (c.who l) (req l) with
      | .ok ps => ps.all fun p => !u.unanswered p
      | .error _ => c.helper l) = true) : Checked u c req (placesOf u c req) := by
  intro l hl
  have := (List.all_eq_true.mp h) l hl
  unfold placesOf
  cases e : u.checkParts (c.who l) (req l) with
  | ok ps =>
    rw [e] at this
    exact .inl ⟨ps, rfl, rfl, fun p hp => by simpa using (List.all_eq_true.mp this) p hp⟩
  | error f =>
    rw [e] at this
    exact .inr ⟨this, ⟨f, rfl⟩, rfl⟩

def k (n : Nat) : Nat → Bits := fun _ => BitVec.ofNat 96 n


/-- A ring of two slots of 64 bytes at 0x400000 with claim, push and adv. -/
def ring1 (claim push adv : Word) : Handle :=
  { valid := true, gen := 0, data := 0x400000, slotb := 64, logn := 1, stat := 0x400080, scope := 1, claim, push, adv, codes := [0, 0],
    infos := List.replicate 2 ⟨0, 0, 0, 0, 0, 0, 0, 0, 0, 0, 0⟩ }
/-- The one lane, with handle slot 0 a ring and a lease. -/
def eng (x : Handle) (le : Option Lease) : State :=
  { s1 with groups := [{ group 0x1000040000 [wave [lane vals]] with handles := x :: List.replicate 31 Handle.none, lease := le }] }
def handleAfter (o : Out) : Option Handle := match o with | .next t => (t.group? 1).map fun g => g.handle 0 | _ => none
def holdsAfter (o : Out) : Option (List Cond) := match o with | .next t => (t.wave? 1 0).map fun w => w.holds.map (·.cond) | _ => none
def cmdsAfter (o : Out) : Option (List (CmdKind × List DWord)) := match o with | .next t => some (t.cmds.map fun c => (c.kind, c.stg)) | _ => none

def leaseAfter (o : Out) : Option Lease := match o with | .next t => (t.group? 1).bind (·.lease) | _ => none

/-! ### Ill-formed instructions are refused (03 R73 to R82; 04; 07; 11; 13; 15; 20; 21) -/

/-- Operand kinds and payloads. -/
theorem test_illformed_operands : ∀ i ∈ [Instr.add .i32 (.sym 0) (.imm 1), .add .i8 (.lit64 1) (.imm 1), .add .i8 (.lit32 256) (.imm 1),
    .and .i1 (.imm 2) (.imm 0), .fadd .rne .v2f16 (.imm 1) (.val 1), .mov .lay (.imm 0), .retValue .t2 (.imm 2), .ptradd (.val 1) (.sym 1),
.select .i32 (.imm 3) (.val 1) (.val 1)], i.wellFormed = false := by decide

/-- The type sets. -/
theorem test_illformed_types : ∀ i ∈ [Instr.add .f32 (.val 1) (.val 1), .mul .v4i8 (.val 1) (.val 1), .mulhi true .msk (.val 1) (.val 1),
    .sdiv .ptr (.val 1) (.val 1), .neg .v4i8 (.val 1), .and .f32 (.val 1) (.val 1), .shl .i1 (.val 1) (.val 1), .popc .i1 (.val 1),
    .bswap .i8 (.val 1), .bfext true .msk (.val 1) (.val 1) (.val 1), .icmp .eq .f32 (.val 1) (.val 1), .select .cbh (.val 1) (.val 1) (.val 1),
    .zext .i1 1, .trunc .i64 1, .mad true .i64 (.val 1) (.val 1) (.val 1), .mov .cbh (.val 1), .fadd .rne .e4m3 (.val 1) (.val 1),
    .fneg .i32 (.val 1), .fcmp .oeq .v2f16 (.val 1) (.val 1), .fdot2 .rne .f32 (.val 1) (.val 1) (.val 1),
    .fdot4 .rne .v4i8 (.val 1) (.val 1) (.val 1), .fsin .rne .v2f16 (.val 1), .switch .i1 (.val 1) none [⟨0, []⟩]], i.wellFormed = false := by decide
theorem test_illformed_more_types : ∀ i ∈ [Instr.cvt .rne true false .f32 1, .cvt .rne false false .i1 1, .bitcast .lay 1, .pack .v2f16 [.val 1],
    .unpack 4 .v4i8 (.val 1), .insert 2 .v2bf16 (.val 1) (.val 1), .bsquant .rne .f32 (.val 1) (.val 1) (.val 1), .bcast .cbh (.val 1),
    .shfl .xor true .i32 (.val 1) (.val 1), .wred .add .rne .f32 (.val 1), .wred .fadd .sr .f32 (.val 1), .wred .add .rz .i32 (.val 1),
    .wscan .fadd .rne true .f32 (.val 1), .rand .i8, .ld false .wave .release .i32 (.val 1), .ld false .wave .relaxed .i1 (.val 1),
    .st false .wave .acquire .i32 (.val 1) (.val 1), .ldlay .wave .lay 1 (.val 1) (.val 1) (.val 1) (.val 1),
    .atom .add .wave .relaxed .i8 (.val 1) (.val 1), .xchg .wave .relaxed .f32 (.val 1) (.val 1), .fatom .min .wave .relaxed .v2f16 (.val 1) (.val 1),
    .cbinit 0 .wave (.val 1) (.val 1) (.val 1) (.val 1), .cbinit 9 .wave (.val 1) (.val 1) (.val 1) (.val 1),
    .kstart .bcast .f32 .max false 1 (.val 1) (.val 1) (.val 1) (.val 1), .acopy .dslot 1 (.sym 0) (.val 1) (.val 1)],
    i.wellFormed = false := by decide

/-- Counts of targets and operands; nothing bounds the arguments of a call (04 R107). -/
theorem test_illformed_counts : (Instr.switch .i32 (.val 1) none []).wellFormed = false ∧
    (Instr.call none 0 (List.replicate 65 (.val 1))).wellFormed = true ∧ (Instr.trapCode 65536).wellFormed = false ∧
    (Instr.gatecall .none (.val 1) (.val 1) (.val 1) (List.replicate 9 (.val 1))).wellFormed = false := by decide

/-- Native-only slots: a width code of 0, a mask or a spill register that is not there, a third field of more than 64 bits. -/
theorem test_illformed_native : ∀ i ∈ [Instr.nmov ⟨0, 0, 0, 0, 0, 0, false, some .i32, none⟩, .nmov ⟨1, 0, 0, 0, 0, 1, false, some .i64, none⟩,
    .nmov ⟨1, 0, 0, 64, 0, 0, true, some .i32, none⟩, .nmovs ⟨0, 0, 0, 0, 0, 1⟩, .nvtos ⟨1, 0, 0, 0, 0, 64, false, some .i32, none⟩, .nlit 3 false 0 0 0 0,
    .nlit 2 false 0 65536 0 0, .nspill .scalar 64 0, .nspill .mask 8 0, .nfill .vector 0 33280, .nstg ⟨0, 0, 0, 0, 20, 0⟩,
    .nstgv ⟨1, 0, 0, 0, 0, 7, false, some .i32, none⟩, .nlcset 0 2 0 0 0, .nloop 0 0 1, .nloop 0 1 0, .nmask ⟨1, 0, 0, 0, 0, 0, false, some .i32, none⟩,
    .nmaskv ⟨1, 0, 0, 0, 8, 0, false, some .i32, none⟩], i.wellFormed = false := by decide

/-- Device rows whose selectors are out of range. -/
theorem test_illformed_events : ∀ i ∈ [Instr.doorbell 0 32, .admission 0 32, .stopRequest 0 [] 4, .fwDone 0 5 0, .tcLineFill 0 32,
    .tcLineError 0 33554432, .eviction 0 0 4, .dprWrite 0 8 0 0, .dprWrite 0 0 3 0, .counterRead 0 16, .publish 0 4, .rollback 0 4,
    .hostPortTrain 2 0, .logicalDeviceBind 0 16 none, .translateRegion 0 ⟨0, 0, 0, 0, 0, false, false, false, 3, 0, 0, 0⟩ ⟨[], [], 0, false, false⟩],
    i.wellFormed = false := by decide

/-- Terms that the checks accept, one at each bound that the terms above pass. -/
theorem test_wellformed : ∀ i ∈ [Instr.add .v4i8 (.lit32 1) (.val 1), .add .i8 (.lit32 255) (.imm 1), .bswap .i16 (.val 1), .trunc .i1 1,
    .pack .v2f16 [.val 1, .imm 0], .unpack 15 .v16t2 (.val 1), .cbinit 8 .wave (.val 1) (.val 1) (.val 1) (.val 1), .trapCode 65535,
    .call none 0 (List.replicate 64 (.val 1)), .nspill .mask 7 33279, .nstg ⟨0, 0, 0, 0, 19, 0⟩, .nlit 2 false 0 65535 0 0, .fwDone 0 128 0,
    .doorbell 0 31], i.wellFormed = true := by decide

/-! ### Words of every portable instruction, written out from the opcode map and the modifier classes (03 R68 to R80) -/

/-- Each head word with the words that follow it decodes to the instruction beside it, and that encodes to the words. -/
def reads (l : List (Word × List Word × Instr)) : Bool :=
  l.all fun (h, ws, i) =>
    encode ⟨false, none, i⟩ == some (h :: ws) && match decode (h :: ws) with | .ok (d, []) => d == ⟨false, none, i⟩ | _ => false

/-- Control (03 R73, R80; 04 R101). -/
theorem test_words_control : reads
  [(0x00010001, [0x80000003], .br ⟨3, []⟩), (0x00040002, [1, 0x80000003, 2, 0x80000004], .brc o1 ⟨3, [o2]⟩ ⟨4, []⟩),
   (0x00131003, [1, 0x80000003, 0x80000004], .switch .i32 o1 (some ⟨3, []⟩) [⟨4, []⟩]), (0x00021003, [1, 0x80000003], .switch .i32 o1 none [⟨3, []⟩]),
   (0x00000004, [], .ret), (0x00011004, [1], .retValue .i32 o1), (0x00000005, [], .exit), (0x00020006, [0xC0000002, 7, 2], .call none 7 [o2]),
   (0x10012006, [0xC0000002, 7], .call (some .f32) 7 []), (0x00000007, [], .trap), (0x00011007, [0x40000009], .trapCode 9), (0x10000808, [], .flagrd),
   (0x00010809, [1], .flagclr o1)] = true := by decide +kernel

/-- Integer arithmetic. -/
theorem test_words_integer : reads
  [(0x10021040, [1, 2], .add .i32 o1 o2), (0x10021041, [1, 2], .sub .i32 o1 o2), (0x10021042, [1, 2], .mul .i32 o1 o2),
   (0x10021044, [1, 2], .sdiv .i32 o1 o2), (0x10021045, [1, 2], .udiv .i32 o1 o2), (0x10021046, [1, 2], .srem .i32 o1 o2),
   (0x10021047, [1, 2], .urem .i32 o1 o2), (0x1002104A, [1, 2], .smin .i32 o1 o2), (0x1002104B, [1, 2], .smax .i32 o1 o2),
   (0x1002104C, [1, 2], .umin .i32 o1 o2), (0x1002104D, [1, 2], .umax .i32 o1 o2), (0x10021050, [1, 2], .and .i32 o1 o2),
   (0x10021051, [1, 2], .or .i32 o1 o2), (0x10021052, [1, 2], .xor .i32 o1 o2), (0x10021054, [1, 2], .shl .i32 o1 o2),
   (0x10021055, [1, 2], .lshr .i32 o1 o2), (0x10021056, [1, 2], .ashr .i32 o1 o2), (0x10021057, [1, 2], .rotl .i32 o1 o2),
   (0x10021058, [1, 2], .rotr .i32 o1 o2), (0x10010C48, [1], .neg .i16 o1), (0x10010C49, [1], .abs .i16 o1), (0x10010C53, [1], .not .i16 o1),
   (0x10010C59, [1], .popc .i16 o1), (0x10010C5A, [1], .clz .i16 o1), (0x10010C5B, [1], .ctz .i16 o1), (0x10010C5C, [1], .brev .i16 o1),
   (0x10010C5D, [1], .bswap .i16 o1), (0x10120843, [1, 2], .mulhi true .i8 o1 o2), (0x1012084E, [1, 2], .addsat true .i8 o1 o2),
   (0x1012084F, [1, 2], .subsat true .i8 o1 o2), (0x1013145E, [1, 2, 3], .bfext true .i64 o1 o2 o3),
   (0x1004145F, [1, 2, 3, 4], .bfins .i64 o1 o2 o3 o4)] = true := by decide +kernel

/-- Comparison, widths and pointers. -/
theorem test_words_compare : reads
  [(0x10921060, [1, 2], .icmp .sge .i32 o1 o2), (0x10034C61, [1, 2, 3], .select .msk o1 o2 o3), (0x10010C62, [1], .zext .i16 1),
   (0x10010C63, [1], .sext .i16 1), (0x10010C64, [1], .trunc .i16 1), (0x10130865, [1, 2, 3], .mad true .i8 o1 o2 o3),
   (0x10024070, [1, 2], .ptradd o1 o2), (0x10024071, [1, 2], .ptrdiff o1 o2), (0x10014072, [1], .ptrtag o1), (0x10024073, [1, 2], .ptrsettag o1 o2),
   (0x10014074, [1], .ptrtoint o1), (0x10014075, [1], .inttoptr o1), (0x10013476, [1], .mov .t2 o1)] = true := by decide +kernel

/-- Floating point (02 R54). -/
theorem test_words_float : reads
  [(0x101224C0, [1, 2], .fadd .rz .f16 o1 o2), (0x102224C1, [1, 2], .fsub .rd .f16 o1 o2), (0x103224C2, [1, 2], .fmul .ru .f16 o1 o2),
   (0x104224C3, [1, 2], .fdiv .sr .f16 o1 o2), (0x102328C4, [1, 2, 3], .fma .rd .bf16 o1 o2 o3), (0x103120C5, [1], .fsqrt .ru .f32 o1),
   (0x100220C6, [1, 2], .fmin .f32 o1 o2), (0x100220C7, [1, 2], .fmax .f32 o1 o2), (0x10012CC8, [1], .fneg .e4m3 o1),
   (0x100130C9, [1], .fabs .e5m2 o1), (0x100264CA, [1, 2], .fcopysign .v2f16 o1 o2), (0x10D220CB, [1, 2], .fcmp .uge .f32 o1 o2),
   (0x100120CC, [1], .fclass .f32 o1), (0x101120CD, [1], .frint .rz .f32 o1), (0x100360CE, [1, 2, 3], .fdot2 .rne .v2bf16 o1 o2 o3),
   (0x10436CCF, [1, 2, 3], .fdot4 .sr .v4e5m2 o1 o2 o3), (0x100120D0, [1], .frcp .rne .f32 o1), (0x101120D1, [1], .frsqrt .rz .f32 o1),
   (0x102120D2, [1], .fexp2 .rd .f32 o1), (0x103120D3, [1], .flog2 .ru .f32 o1), (0x104120D4, [1], .fsin .sr .f32 o1),
   (0x100120D5, [1], .fcos .rne .f32 o1), (0x101120D6, [1], .ftanh .rz .f32 o1)] = true := by decide +kernel

/-- Conversion, packing, lanes and waves (07 R190 to R198). -/
theorem test_words_wave : reads
  [(0x11912D40, [1], .cvt .rz true true .e4m3 1), (0x10014941, [1], .bitcast .cbh 1), (0x10026542, [1, 2], .pack .v2f16 [o1, o2]),
   (0x10717543, [1], .unpack 7 .v8e2m1 o1), (0x10327144, [1, 2], .insert 3 .v4i8 o1 o2), (0x00437545, [1, 2, 3], .bsquant .sr .v8e2m1 o1 o2 o3),
   (0x00132D46, [1, 2, 3], .bsdequant .rz .e4m3 o1 o2 o3), (0x10001180, [], .laneid), (0x10001181, [], .waveid), (0x10001182, [], .groupid),
   (0x10701183, [], .gridid .tid), (0x10004D84, [], .activemask), (0x10211185, [1], .quadswap .d .i32 o1),
   (0x10021186, [1, 2], .quadbcast .i32 o1 o2), (0x10521187, [1, 2], .shfl .up true .i32 o1 o2), (0x10010588, [1], .ballot o1),
   (0x10210589, [1], .vote .eq o1), (0x1001118A, [1], .matchLanes .i32 o1), (0x1181218B, [1], .wred .fadd .rz .f32 o1),
   (0x1851118C, [1], .wscan .smax .rne true .i32 o1), (0x1000058D, [], .elect), (0x0000018E, [], .wbar), (0x0000018F, [], .gbar),
   (0x10001590, [], .rand .i64), (0x00011591, [1], .randseed o1), (0x10012192, [1], .bcast .f32 o1)] = true := by decide +kernel

/-- Memory (03 R79). -/
theorem test_words_memory : reads
  [(0x12D12200, [1], .ld true .system .acquire .f32 o1), (0x01120A01, [1, 2], .st false .group .release .i8 o1 o2),
   (0x10250E02, [1, 2, 3, 4, 5], .ldlay .core .i16 1 o2 o3 o4 o5), (0x00360E03, [1, 2, 3, 4, 5, 6], .stlay .die .i16 1 o2 o3 o4 o5 o6),
   (0x10064604, [1, 2, 3, 4, 5, 6], .laymake o1 o2 o3 o4 o5 o6), (0x1FC21608, [1, 2], .atom .umax .package .acqRel .i64 o1 o2),
   (0x10024209, [1, 2], .xchg .wave .relaxed .ptr o1 o2), (0x10D3120A, [1, 2, 3], .cas .system .acquire .i32 o1 o2 o3),
   (0x14022A0B, [1, 2], .fatom .max .wave .relaxed .bf16 o1 o2), (0x0150020C, [], .fence .system .release), (0x10010A10, [1], .tagld o1),
   (0x00020A11, [1, 2], .tagst o1 o2), (0x10031214, [1, 2, 3], .watchset o1 o2 o3), (0x10011215, [1], .watchclr o1),
   (0x00310218, [1], .prefetch .die o1)] = true := by decide +kernel

/-- Engines (13 R309 to R325). -/
theorem test_words_engine : reads
  [(0x11244A80, [1, 2, 3, 4], .cbinit 2 .group o1 o2 o3 o4), (0x00120281, [1, 2], .cbwait true 1 o2), (0x00020282, [1, 2], .cbadv 1 o2),
   (0x10314283, [1], .cbstat .head 1), (0x00240288, [1, 2, 3, 4], .acopy .sslot 1 o2 o3 o4),
   (0x00760289, [1, 2, 3, 4, 5, 6], .agather 3 true 1 o2 o3 o4 o5 o6), (0x0026028A, [1, 2, 3, 4, 5, 6], .ascatter 2 false 1 o2 o3 o4 o5 o6),
   (0x0C15028C, [1, 2, 3, 4, 5], .kstart .redscat .f32 .max true 1 o2 o3 o4 o5), (0x00010290, [1], .mxlease o1), (0x10000A91, [], .mxrel),
   (0x00130292, [1, 2, 3], .mxldb true o1 o2 o3), (0x00110293, [1], .mxzero .m128n64 o1), (0x00630294, [1, 2, 3], .mxst .m64n128 true o1 o2 o3),
   (0x00240295, [1, 2, 3, 4], .mxmma .m64n128 o1 o2 o3 o4), (0x00340296, [1, 2, 3, 4], .mxsmma .m128n128 o1 o2 o3 o4),
   (0x00030297, [1, 2, 3], .mxtma .m64n64 o1 o2 o3), (0x00010298, [1], .mxfmt o1)] = true := by decide +kernel

/-- System and placement (04 R137; 20 R437; 21 R463). -/
theorem test_words_system : reads
  [(0x10C01700, [], .sysread .hdr), (0x10021301, [1, 2], .spawn o1 o2), (0x00420302, [1, 2], .ccwait .package o1 o2),
   (0x00520303, [1, 2], .ccadd .system o1 o2), (0x10341708, [1, 2, 3, 4], .gatecall .inout o1 o2 o3 [o4]), (0x00011709, [1], .gateret o1),
   (0x00030310, [1, 2, 3], .xprefetch o1 o2 o3), (0x00030318, [1, 2, 3], .ecount o1 o2 o3), (0x10031719, [1, 2, 3], .xrtlook o1 o2 o3),
   (0x1001171A, [1], .xrtverCur o1), (0x1014171A, [1, 2, 3, 4], .xrtverChk o1 o2 o3 o4), (0x1022171A, [1, 2], .xrtverDone o1 o2),
   (0x0015031B, [1, 2, 3, 4, 5], .rmerge true 1 o2 o3 o4 o5)] = true := by decide +kernel


/-! ### Other words: literals, extension and debug words, native-only slots, refusals -/

/-- What words decode to, with the words left, and why they do not. -/
def okOf (ws : List Word) : Option (Decoded × List Word) := match decode ws with | .ok p => some p | .error _ => none
def errOf (ws : List Word) : Option DecodeErr := match decode ws with | .ok _ => none | .error e => some e

/-- A literal of one and of two words, a symbol, sixteen operands with an extension word, the hint and a debug line (03 R68, R71 to R75). -/
theorem test_words_literals :
    okOf [0x10021040, 1, 0xC0000000, 7] = some (⟨false, none, .add .i32 (.val 1) (.lit32 7)⟩, []) ∧
    okOf [0x10021441, 1, 0xC0000001, 7, 9] = some (⟨false, none, .sub .i64 (.val 1) (.lit64 0x900000007)⟩, []) ∧
    okOf [0x10014076, 0xC0000002, 5] = some (⟨false, none, .mov .ptr (.sym 5)⟩, []) ∧
    okOf [0x500F7942, 16, 1, 2, 3, 4, 5, 6, 7, 8, 9, 10, 11, 12, 13, 14, 15, 0x7FFFFFFF] = some (⟨false, none,
      .pack .v16t2 [.val 1, .val 2, .val 3, .val 4, .val 5, .val 6, .val 7, .val 8, .val 9, .val 10, .val 11, .val 12, .val 13, .val 14, .val 15,
        .imm (-1)]⟩, []) ∧
    okOf [0xA0000004, 77, 5] = some (⟨true, some 77, .ret⟩, [5]) := by decide +kernel

/-- What is refused, by name: words that run out, an extension count below 16, an operand's reserved bits, opcodes 0x000 and 0x00A, RES
missing, a modifier that the class does not define, a rounding mode of 5, an `icmp` condition of 10 and a `cbstat` key of 5. -/
theorem test_words_refused :
    errOf [0x10021040, 1] = some .overrun ∧ errOf [0x500F7942, 15] = some .badExtension ∧
    errOf [0x10021040, 1, 0x01000000] = some .badOperand ∧ errOf [0] = some .undefinedOpcode ∧ errOf [0x0000000A] = some .undefinedOpcode ∧
    errOf [0x00021040, 1, 2] = some .undefinedForm ∧ errOf [0x10121040, 1, 2] = some .undefinedForm ∧
    errOf [0x105220C0, 1, 2] = some .undefinedForm ∧ errOf [0x10A21060, 1, 2] = some .undefinedForm ∧
    errOf [0x10511683, 1] = some .undefinedForm ∧ errOf [0x10022040, 1, 2] = some .undefinedForm := by decide +kernel

/-- The S and B slots of native-only operations (15 R333, R334, R339, R343). -/
theorem test_words_native_scalar :
    decodeNativeS 0x20011781 0 = some (.nmovs ⟨0, 2, 0, 1, 5, 0⟩) ∧ decodeNativeS 0xF0000783 0x00ABCD05 = some (.nlit 1 true 1 0x00ABCD 0 0) ∧
    decodeNativeS 0x30024F86 0 = some (.nstg ⟨0, 3, 0, 2, 19, 0⟩) ∧ decodeNativeS 0x00040F88 0 = some (.nlcset 3 0 0 0 4) ∧
    decodeNativeB 0x000C5B89 = some (.nloop 2 5 3) ∧ decodeNativeB 0x00002B8A = some (.nland 10) ∧ decodeNativeB 0x0000038B = some .nxit ∧
    decodeNativeB 0x0000038C = some .ntrap ∧ decodeNativeB 0x0000038F = none ∧ decodeNativeB 0x0000078B = none ∧
    decodeNativeS 0xF0000783 0x00ABCD03 = none := by decide +kernel
/-- The V and M slots of native-only operations (15 R335, R336, R343, R344). -/
theorem test_words_native_vector :
    decodeNativeV 0x1800A2380 3 none = some (.nmov ⟨3, 0, 0, 6, 0, 10, false, some .f32, none⟩) ∧
    decodeNativeV 0x1FC0039380 3 (some 0x12345) = some (.nmov ⟨3, 0, 0, 127, 0, 3, true, some .i32, some ⟨false, 0, 0, 0x12345⟩⟩) ∧
    decodeNativeV 0x4841382 3 none = some (.nvtos ⟨3, 0, 0, 0, 9, 4, false, some .i32, none⟩) ∧
    decodeNativeV 0x881387 3 none = some (.nstgv ⟨3, 0, 0, 0, 1, 8, false, some .i32, none⟩) ∧
    decodeNativeV 0x200103138D 3 none = some (.nmask ⟨3, 0, 1, 0, 2, 3, false, some .i32, none⟩) ∧
    decodeNativeV 0x187138E 3 none = some (.nmaskv ⟨3, 0, 0, 0, 3, 7, false, some .i32, none⟩) ∧
    decodeNativeV 0x1800A2380 0 none = none ∧ decodeNativeM 0x2828784 = some (.nspill .scalar 5 10) ∧
    decodeNativeM 0x7FC18385 = some (.nfill .vector 3 0x1FF) ∧ decodeNativeM 0x4002828784 = none := by decide +kernel

/-- The bundle of the spec's worked example (15 R357): an addition in S0, a sum in V0, a load in M0, a branch by -3. -/
theorem test_bundle :
    (match readBundle 0 true false
      0x0000000000000000_0000FFFFF4010000_0000000201608612_0000000000000000_0000000000000000_0000000000000000_0001820A20C00000_0000604514400061 with
    | some b => b.safe && b.b == 0xFFFFF401 && b.slots.map (·.code) == [1, 3, 9] &&
        b.slots.map (·.op) == [.add .i32 (.val 0) (.val 1), .fadd .rne .f32 (.val 0) (.val 1), .ld false .system .relaxed .i32 (.val 0)] &&
        b.slots.map (fun q => q.srcs.map (·.1)) == [[.s 5, .imm 1], [.v 4, .v 6], [.s 2]] && b.slots.map (·.dst) == [.s 5, .v 10, .v 12]
    | none => false) = true := by decide +kernel

/-- Table words: `ret` and `nland`, and a word of an undefined opcode (03 R80; 15 R343). -/
theorem test_table_words : decodeTableWord 32 4 = some .ret ∧ decodeTableWord 32 0x0000038A = some (.nland 0) ∧ decodeTableWord 32 10 = none ∧
    decodeTableWord 96 0x00000002_00000001_10021040 = some (.add .i32 (.val 1) (.val 2)) := by decide +kernel

/-! ### One step on one lane, worked by hand (04) -/

theorem test_integer : nums [(.add .i8 (.imm 127) (.imm 2), 129), (.add .v4i8 (.lit32 0xFF010203) (.lit32 0x01FF0101), 0x00000304),
    (.sub .i8 (.imm 1) (.imm 2), 255), (.mul .i8 (.imm 16) (.imm 17), 16), (.mulhi true .i8 (.imm (-1)) (.imm 2), 255),
    (.mulhi false .i8 (.imm (-1)) (.imm 2), 1), (.neg .i8 (.imm (-128)), 128), (.abs .i8 (.imm (-5)), 5), (.abs .i8 (.imm (-128)), 128),
    (.smin .i8 (.imm (-1)) (.imm 1), 255), (.smax .i8 (.imm (-1)) (.imm 1), 1), (.umin .i8 (.imm (-1)) (.imm 1), 1),
    (.umax .i8 (.imm (-1)) (.imm 1), 255), (.addsat true .i8 (.imm 127) (.imm 1), 127), (.addsat false .i8 (.imm (-1)) (.imm 1), 255),
    (.subsat true .i8 (.imm (-128)) (.imm 1), 128), (.subsat false .i8 (.imm 1) (.imm 2), 0), (.and .i8 (.imm 12) (.imm 10), 8),
    (.or .i8 (.imm 12) (.imm 10), 14), (.xor .i8 (.imm 12) (.imm 10), 6), (.not .i1 (.imm 1), 0), (.mad true .i8 (.imm (-1)) (.imm 2) (.imm 1), 0xFFFF),
    (.mad false .i8 (.imm (-1)) (.imm 2) (.imm 1), 511)] = true := by decide +kernel
/-- Division by 0, the quotient that does not fit, and rounding toward zero (04 R113); counts modulo the width (04 R114). -/
theorem test_division_and_shifts : nums [(.sdiv .i8 (.imm (-7)) (.imm 2), 253), (.sdiv .i8 (.imm (-7)) (.imm 0), 255),
    (.sdiv .i8 (.imm (-128)) (.imm (-1)), 128), (.udiv .i8 (.imm 7) (.imm 2), 3), (.udiv .i8 (.imm 7) (.imm 0), 255), (.srem .i8 (.imm (-7)) (.imm 2), 255),
    (.srem .i8 (.imm (-128)) (.imm (-1)), 0), (.urem .i8 (.imm 7) (.imm 0), 7), (.urem .i8 (.imm 7) (.imm 4), 3), (.shl .i8 (.imm 1) (.imm 9), 2),
    (.lshr .i8 (.imm (-128)) (.imm 7), 1), (.ashr .i8 (.imm (-128)) (.imm 7), 255), (.rotl .i8 (.imm (-127)) (.imm 1), 3),
    (.rotr .i8 (.imm (-127)) (.imm 1), 192), (.shl .i8 (.imm 3) (.imm 8), 3)] = true := by decide +kernel
theorem test_bits_and_widths : nums [(.popc .i8 (.imm (-1)), 8), (.popc .i64 (.imm 0), 0), (.clz .i8 (.imm 1), 7), (.clz .i8 (.imm 0), 8),
    (.ctz .i8 (.imm 8), 3), (.ctz .i8 (.imm 0), 8), (.brev .i8 (.imm 1), 128), (.bswap .i16 (.imm 0x1234), 0x3412),
    (.bfext false .i8 (.imm (-76)) (.imm 2) (.imm 3), 5), (.bfext true .i8 (.imm (-76)) (.imm 2) (.imm 3), 253),
    (.bfext true .i8 (.imm (-76)) (.imm 8) (.imm 3), 0), (.bfins .i8 (.imm (-1)) (.imm 0) (.imm 4) (.imm 9), 15), (.icmp .ult .i8 (.imm 1) (.imm (-1)), 1),
    (.icmp .slt .i8 (.imm 1) (.imm (-1)), 0), (.icmp .sge .i8 (.imm (-1)) (.imm (-1)), 1), (.select .i8 (.imm 1) (.imm 3) (.imm 4), 3),
    (.select .i8 (.imm 0) (.imm 3) (.imm 4), 4), (.zext .i32 1, 128), (.sext .i32 1, 0xFFFFFF80), (.trunc .i8 2, 254), (.mov .i8 (.imm (-1)), 255)] = true := by
  decide +kernel
/-- An address wraps within 56 bits and keeps the bits above (04 R120). -/
theorem test_pointers : nums [(.ptradd (.val 4) (.imm 1), 0x0500000000000000), (.ptradd (.val 7) (.imm (-1)), 0x3FFFFF),
    (.ptradd (.val 7) (.val 5), 0x400003), (.ptrdiff (.val 7) (.val 12), 0xFFFFFFFFFFFFFFC0), (.ptrtag (.val 4), 5),
    (.ptrsettag (.val 4) (.imm 3), 0x03FFFFFFFFFFFFFF), (.ptrtoint (.val 7), 0x400000), (.inttoptr (.imm 7), 7)] = true := by decide +kernel
/-- Floating point: 1/3 under each mode, ties, the worked examples of 02 R63 and 04 R128, signed zeros and NaN. -/
theorem test_float : nums [(.fadd .rne .f32 (.lit32 0x3F800000) (.lit32 0x3F800000), 0x40000000), (.fsub .rd .f32 (.lit32 0x3F800000) (.lit32 0x3F800000), 0x80000000),
    (.fmul .rne .f32 (.lit32 0x3FC00000) (.lit32 0x3FC00000), 0x40100000), (.fdiv .rne .f32 (.lit32 0x3F800000) (.lit32 0x40400000), 0x3EAAAAAB),
    (.fdiv .rz .f32 (.lit32 0x3F800000) (.lit32 0x40400000), 0x3EAAAAAA), (.fma .rne .f32 (.lit32 0x40000000) (.lit32 0x40400000) (.lit32 0x3F800000), 0x40E00000),
    (.fsqrt .rne .f32 (.lit32 0x40000000), 0x3FB504F3), (.fmin .f32 (.lit32 0x80000000) (.lit32 0), 0x80000000), (.fmax .f32 (.lit32 0x80000000) (.lit32 0), 0),
    (.fmin .f32 (.lit32 0x7FC00000) (.lit32 0x3F800000), 0x3F800000), (.fneg .v2f16 (.lit32 0x80003C00), 0x0000BC00), (.fabs .f32 (.lit32 0x80000001), 1),
    (.fcopysign .f32 (.lit32 0x3F800000) (.lit32 0x80000000), 0xBF800000), (.fcmp .olt .f32 (.lit32 0x80000000) (.lit32 0), 0),
    (.fcmp .uno .f32 (.lit32 0x7FC00000) (.lit32 0), 1), (.fcmp .ueq .f32 (.lit32 0x7FC00000) (.lit32 0), 1), (.fclass .f32 (.lit32 0x80000000), 8),
    (.fclass .f32 (.lit32 0x00000001), 32), (.frint .rne .f32 (.lit32 0x40200000), 0x40000000), (.frint .ru .f32 (.lit32 0x40200000), 0x40400000),
    (.fdot2 .rne .v2bf16 (.lit32 0x3F804580) (.lit32 0x3F804580) (.lit32 0x3F800000), 0x4B800001),
    (.fdot4 .rne .v4e4m3 (.lit32 0x38383838) (.lit32 0x38383838) (.lit32 0), 0x40800000)] = true := by decide +kernel
/-- Special functions at exact points (04 R129): x is in half-turns. -/
theorem test_special : nums [(.frcp .rne .f32 (.lit32 0x40800000), 0x3E800000), (.frsqrt .rne .f32 (.lit32 0x40800000), 0x3F000000),
    (.fexp2 .rne .f32 (.lit32 0x40400000), 0x41000000), (.flog2 .rne .f32 (.lit32 0x41000000), 0x40400000), (.fsin .rne .f32 (.lit32 0x3F000000), 0x3F800000),
    (.fcos .rne .f32 (.lit32 0x3F800000), 0xBF800000), (.ftanh .rne .f32 (.lit32 0), 0)] = true := by decide +kernel
/-- 04 R130's example: -200.7 to a signed and an unsigned byte; 02 R63's: 300 to `e4m3` and `e5m2`. -/
theorem test_conversion : nums [(.cvt .rz false true .i8 3, 0x80), (.cvt .rz false false .i8 3, 0), (.cvt .rne false false .e4m3 6, 0x79),
    (.cvt .rne false false .e5m2 6, 0x5D), (.cvt .rne false true .f32 5, 0x40400000), (.cvt .rne false true .i8 17, 255), (.bitcast .msk 6, 0x43960000),
    (.pack .v2f16 [.lit32 0x3C00, .lit32 0xBC00], 0xBC003C00), (.unpack 1 .v2f16 (.lit32 0xBC003C00), 0xBC00),
    (.insert 2 .v4i8 (.lit32 0x11223344) (.imm 0x55), 0x11553344)] = true := by decide +kernel
/-- Flags: a saturation sets SV, an inexact quotient IX, an invalid conversion NV (02 R64); `flagrd` reads them and `flagclr` clears. -/
theorem test_flags : flagsOf (run (.addsat true .i8 (.imm 127) (.imm 1))) = some 0x20 ∧
    flagsOf (run (.fdiv .rne .f32 (.lit32 0x3F800000) (.lit32 0x40400000))) = some 0x10 ∧ flagsOf (run (.cvt .rz false true .i8 3)) = some 0x01 ∧
    flagsOf (run (.add .i8 (.imm 127) (.imm 127))) = some 0 := by decide +kernel

/-! ### One step on a wave (07), worked by hand or from the worked examples of 07 R193, R196, R198 -/

theorem test_shuffles : at32 0xFFFFFFFF (.shfl .up false .i32 o1 (.imm 1)) 0 = some 131 ∧ at32 0xFFFFFFFF (.shfl .up true .i32 o1 (.imm 1)) 0 = some 100 ∧
    at32 0xFFFFFFFF (.shfl .up true .i32 o1 (.imm 1)) 7 = some 106 ∧ at32 0x1F (.shfl .up false .i32 o1 (.imm 1)) 0 = some 100 ∧
    at32 0xFFFFFFFF (.shfl .down false .i32 o1 (.imm 1)) 31 = some 100 ∧ at32 0xFFFFFFFF (.shfl .idx false .i32 o1 (.imm 35)) 9 = some 103 ∧
    at32 0xFFFFFFFF (.shfl .xor false .i32 o1 (.imm 5)) 9 = some 112 ∧ at32 0xFFFFFFFF (.quadswap .h .i32 o1) 5 = some 104 ∧
    at32 0xFFFFFFFF (.quadswap .v .i32 o1) 5 = some 107 ∧ at32 0xFFFFFFFF (.quadswap .d .i32 o1) 5 = some 106 ∧
    at32 0xFFFFFFFF (.quadbcast .i32 o1 (.imm 2)) 5 = some 106 ∧ at32 0xFFFFFFF8 (.bcast .i32 o1) 9 = some 103 := by decide +kernel
theorem test_masks : at32 0xFFFFFFFF (.matchLanes .i32 o2) 30 = some 0x49249249 ∧ at32 0xFFFFFFFF (.matchLanes .i32 o2) 1 = some 0x92492492 ∧
    at32 0xFFFFFFFF (.matchLanes .i32 o2) 29 = some 0x24924924 ∧ at32 0xFFFFFFFE (.matchLanes .i32 o2) 30 = some 0x49249248 ∧
    at32 0xFFFFFFFF (.ballot (.val 4)) 3 = some 0xAAAAAAAA ∧ at32 0x0F (.ballot (.val 4)) 0 = some 0x0A ∧ at32 0x0F .activemask 2 = some 0x0F ∧
    at32 0x0A (.vote .all (.val 4)) 1 = some 1 ∧ at32 0x0B (.vote .all (.val 4)) 1 = some 0 ∧ at32 0x0B (.vote .any (.val 4)) 1 = some 1 ∧
    at32 0x0B (.vote .eq (.val 4)) 1 = some 0 ∧ at32 0x05 (.vote .eq (.val 4)) 0 = some 1 ∧ at32 0xF0 .elect 4 = some 1 ∧ at32 0xF0 .elect 5 = some 0 := by decide +kernel
theorem test_identities : at32 0xFFFFFFFF .laneid 31 = some 31 ∧ at32 0xFFFFFFFF .waveid 31 = some 0 ∧ at32 0xFFFFFFFF .groupid 3 = some 0 ∧
    at32 0xFFFFFFFF (.gridid .tid) 17 = some 17 ∧ at32 1 (.sysread .domain) 0 = some 1 ∧ at32 1 (.sysread .hdr) 0 = some 0x40000 ∧
    at32 1 (.sysread .core) 0 = some 0 ∧ at32 1 (.sysread .die) 0 = some 1 := by decide +kernel
/-- 07 R200's example: the sum without lane 5 and with it; and integer forms. -/
theorem test_reductions : at32 0xFFFFFFDF (.wred .fadd .rne .f32 (.val 3)) 9 = some 0x4B80000E ∧ at32 0xFFFFFFFF (.wred .fadd .rne .f32 (.val 3)) 9 = some 0x4B80000F ∧
    flagsOf (exec (.wred .fadd .rne .f32 (.val 3)) (s32 0xFFFFFFDF)) = some 0x10 ∧ at32 0x0F (.wred .add .rne .i32 o1) 0 = some 406 ∧
    at32 0x0F (.wred .umax .rne .i32 o1) 0 = some 103 ∧ at32 0x0F (.wscan .add .rne false .i32 o1) 2 = some 303 ∧
    at32 0x0F (.wscan .add .rne true .i32 o1) 2 = some 201 ∧ at32 0x0F (.wscan .smin .rne true .i32 o1) 0 = some 0x7FFFFFFF := by decide +kernel
/-- A generator's draw changes its state; `randseed` depends on the lane (07 R205 to R207). -/
theorem test_random : (match exec (.rand .i32) s1 with | .next t => (t.lane? 1 0 0).any fun x => x.rng != ⟨1, 2, 3, 4⟩ | _ => false) = true ∧
    (match exec (.randseed (.imm 7)) (s32 3) with | .next t => (t.lane? 1 0 0).map (·.rng) != (t.lane? 1 0 1).map (·.rng) | _ => false) = true ∧
    num (run .flagrd) = some 0 ∧ (match exec (.flagclr (.imm (-1))) s1 with | .next _ => true | _ => false) = true := by decide +kernel
/-- Three of four lanes park at a barrier; the fourth passes with them (05 R160, R161). -/
theorem test_barriers : ∀ i ∈ [Instr.wbar, .gbar], (match exec i (s32 0x0FFFFFFF) with
      | .next t => (t.lane? 1 0 3).any fun x => x.park != .none && x.point == (0, 0)
      | _ => false) = true ∧
    (match exec i (s32 0xFFFFFFFF) with | .next t => (t.lane? 1 0 3).any fun x => x.park == .none && x.point == (0, 1) | _ => false) = true := by decide +kernel

/-! ### Memory (09; 11) -/

theorem test_load_and_store : bytesAt (run (.st false .wave .relaxed .i32 (.val 7) (.imm 0x01020304))) 4 0x400000 = some 0x01020304 ∧
    bytesAt (run (.st false .wave .relaxed .i8 (.val 7) (.imm (-1)))) 4 0x400000 = some 0xFF ∧
    num (exec (.ld false .wave .relaxed .i16 (.val 7)) (after (.st false .wave .relaxed .i32 (.val 7) (.imm 0x01020304)) s1)) = some 0x0304 ∧
    num (exec (.ld false .wave .relaxed .i32 (.val 8)) (after (.st false .wave .relaxed .i32 (.val 8) (.imm 7)) s1)) = some 7 := by decide +kernel
/-- Faults of an access, with their addresses (09 R214): a set bit above the tag, a misaligned address, a page that is not there, a tag. -/
theorem test_faults : trapCode (exec (.ld false .wave .relaxed .i32 (.val 1)) (st 0 [lane [(1, ⟨.ptr, 0x1000000000400000⟩)]] 1)) = some (4, 0x1000000000400000) ∧
    trapCode (exec (.ld false .wave .relaxed .i32 (.val 1)) (st 0 [lane [(1, ⟨.ptr, 0x400002⟩)]] 1)) = some (2, 0x400002) ∧
    trapCode (exec (.ld false .wave .relaxed .i8 (.val 1)) (st 0 [lane [(1, ⟨.ptr, 0x40000000⟩)]] 1)) = some (3, 0x40000000) ∧
    trapCode (exec (.ld false .wave .relaxed .i32 (.val 1)) (st 0 [lane [(1, ⟨.ptr, 0x0300000000500010⟩)]] 1)) = some (5, 0x0300000000500010) := by decide +kernel
/-- 11 R269 to R272's example: one location, 32 lanes. -/
theorem test_atomics : bytesAt (exec (.atom .add .wave .relaxed .i32 (.val 5) (.imm 1)) (s32 0xFFFFFFFF)) 4 0x400000 = some 32 ∧
    at32 0xFFFFFFFF (.atom .add .wave .relaxed .i32 (.val 5) (.imm 1)) 9 = some 9 ∧
    bytesAt (exec (.cas .wave .acquire .i32 (.val 5) (.imm 0) (.val 6)) (s32 0xFFFFFFFF)) 4 0x400000 = some 1 ∧
    at32 0xFFFFFFFF (.cas .wave .acquire .i32 (.val 5) (.imm 0) (.val 6)) 9 = some 1 ∧
    bytesAt (exec (.xchg .wave .relaxed .i32 (.val 5) (.val 6)) (s32 0xF)) 4 0x400000 = some 4 ∧
    bytesAt (exec (.fatom .add .wave .relaxed .f32 (.val 5) (.lit32 0x3F800000))
      ({ s32 0xFF with mem := [(0x400002, 0x80), (0x400003, 0x4B)] })) 4 0x400000 = some 0x4B800000 := by decide +kernel
/-- 09 R222's layout word: element (5, 7) of the tile lies at offset 454 of the own allocation. -/
theorem test_layout : num (run (.laymake (.imm 0) (.imm 4) (.imm 1) (.imm 1) (.imm 32) (.imm 0))) = some 0x000000000020000102800000 ∧
    num (exec (.ldlay .wave .i16 9 (.val 8) (.imm 5) (.imm 7) (.imm 0)) { s1 with mem := [(spadKey 128 454, 0x34), (spadKey 128 455, 0x12)] }) = some 0x1234 ∧
    bytesAt (run (.stlay .wave .i16 9 (.val 8) (.imm 5) (.imm 7) (.imm 0) (.imm 0x1234))) 2 (spadKey 128 454) = some 0x1234 := by decide +kernel
/-- A granule's tag is written and read; a watchpoint entry is set and cleared (11 R274 to R277). -/
theorem test_tags_and_watchpoints : num (exec (.tagld (.val 7)) (after (.tagst (.val 7) (.imm 5)) s1)) = some 5 ∧
    num (run (.watchset (.imm 3) (.lit64 0x400000) (.imm 0x20040))) = some 0 ∧ num (run (.watchset (.imm 8) (.lit64 0) (.imm 0))) = some 1 ∧
    num (run (.watchclr (.imm 0))) = some 0 ∧ num (run (.watchclr (.imm 8))) = some 1 ∧
    (∀ i ∈ [Instr.fence .system .relaxed, .prefetch .wave (.val 7)], (match run i with | .next t => t.mem.isEmpty | _ => false) = true) := by decide +kernel
/-- 02 R63's example: the largest magnitude 20 chooses scale 0x81, 20.0 becomes the code 6 and 1.0 the code 0; the code 6 reads back as 16.0. -/
theorem test_blocks :
    bytesAt (exec (.bsquant .rne .v8e2m1 (.val 12) (.val 13) (.val 7)) { s1 with mem := [(0x400002, 0xA0), (0x400003, 0x41), (0x400006, 0x80), (0x400007, 0x3F)] })
      65 0x400040 = some (0x06 + 0x81 * 2 ^ 512) ∧
    bytesAt (exec (.bsdequant .rne .v8e2m1 (.val 7) (.val 12) (.val 13)) { s1 with mem := [(0x400040, 6), (0x400080, 0x81)] }) 8 0x400000 =
      some 0x41800000 := by decide +kernel

/-! ### Control (01; 04 R101 to R108): the function `tri` of the worked example of 03 -/

theorem test_branches : topOf (exec (.br ⟨1, [.imm 0, .imm 0]⟩) (inTri 0 [(0, i32 4)])) = some ⟨0, 1, [(0, i32 4), (1, i32 0), (2, i32 0)]⟩ ∧
    topOf (exec (.brc (.val 3) ⟨3, [.val 2]⟩ ⟨2, []⟩) (inTri 2 [(2, i32 9), (3, ⟨.i1, 1⟩)])) = some ⟨0, 6, [(2, i32 9), (3, ⟨.i1, 1⟩), (6, i32 9)]⟩ ∧
    topOf (exec (.brc (.val 3) ⟨3, [.val 2]⟩ ⟨2, []⟩) (inTri 2 [(2, i32 9), (3, ⟨.i1, 0⟩)])) = some ⟨0, 3, [(2, i32 9), (3, ⟨.i1, 0⟩)]⟩ ∧
    topOf (exec (.switch .i32 (.imm 1) none [⟨2, []⟩, ⟨3, [.imm 7]⟩]) (inTri 2 [])) = some ⟨0, 6, [(6, i32 7)]⟩ ∧
    topOf (exec (.switch .i32 (.imm 2) (some ⟨2, []⟩) [⟨3, [.imm 7]⟩]) (inTri 2 [])) = some ⟨0, 3, []⟩ := by decide +kernel
theorem test_calls : topOf (exec (.retValue .i32 (.val 6)) (inTri 6 [(6, i32 9)])) = some ⟨1, 1, [(0, i32 9)]⟩ ∧
    topOf (exec (.call (some .i32) 0 [.imm 4]) { st 0 [{ lane [] with frames := [⟨1, 0, []⟩] }] 1 with modules := [prog] }) = some ⟨0, 0, [(0, i32 4)]⟩ ∧
    (∀ i ∈ [Instr.ret, .exit], (match exec i { st 0 [{ lane [] with frames := [⟨1, 1, []⟩] }] 1 with modules := [prog] } with
      | .next t => (t.lane? 1 0 0).map (·.st) == some .exited | _ => false) = true) := by decide +kernel
/-- Traps: a switch index beyond the table, and `trap` with its code (04 R104, R108); the lane stays at its point. -/
theorem test_traps : trapCode (exec (.switch .i32 (.imm 5) none [⟨2, []⟩]) (inTri 2 [])) = some (12, 5) ∧
    trapCode (exec (.trapCode 9) (inTri 2 [])) = some (11, 9) ∧ trapCode (exec .trap (inTri 2 [])) = some (11, 0) ∧
    topOf (exec .trap (inTri 2 [])) = some ⟨0, 2, []⟩ := by decide +kernel
/-- A step issues the run at index 3 of `tri`: the sum gets number 4, and the run passes to index 4. -/
theorem test_step_in_tri :
    topOf (issuePoint exec 1 0 1 false { inTri 3 [(1, i32 2), (2, i32 1)] with issue := none }) = some ⟨0, 4, [(1, i32 2), (2, i32 1), (4, i32 3)]⟩ := by
  decide +kernel
/-- The first step after a placed word runs it: `laneid`, and `nlcset` in the native form. -/
theorem test_first_step : (match step (State.reset.withFetchWord 32 0x10001180) with
      | .next t => (t.lane? 1 0 5).map (fun x => (x.top.idx, x.top.vals)) == some (1, [(0, i32 5)])
      | _ => false) = true ∧
    (match step (State.reset.withFetchWord 32 0x00000F88) with | .next t => (t.wave? 1 0).any fun w => w.native.any fun n => n.regs.trip 3 == 0 | _ => false) = true := by
  decide +kernel

/-! ### Witnesses: the hypotheses of each statement met together by a concrete state

A variable that a hypothesis fixes by an equation takes the value of that equation's other side. -/

theorem witness_IntegerArithmetic : Runs s1 c1 ∧ Operand s1 c1 .i8 (.imm (-128)) (k 128) ∧ Operand s1 c1 .i8 (.val 14) (k 5) ∧
    Operand s1 c1 .v4i8 (.lit32 0xFFFFFFFF) (k 0xFFFFFFFF) :=
  ⟨rfl, operand_of (by decide +kernel), operand_of (by decide +kernel), operand_of (by decide +kernel)⟩
/-- The quotient that does not fit, a divisor of 0, and a count of w. -/
theorem witness_DivisionsAndShifts : Runs s1 c1 ∧ Ty.i8.isI = true ∧ Operand s1 c1 .i8 (.imm (-128)) (k 128) ∧ Operand s1 c1 .i8 (.imm (-1)) (k 255) ∧
    Operand s1 c1 .i8 (.imm 0) (k 0) ∧ Operand s1 c1 .i8 (.imm 8) (k 8) :=
  ⟨rfl, rfl, operand_of (by decide +kernel), operand_of (by decide +kernel), operand_of (by decide +kernel), operand_of (by decide +kernel)⟩
/-- A field at position w, of length 0, and of more than w bits. -/
theorem witness_BitCountsAndFields : Runs s1 c1 ∧ Operand s1 c1 .i64 (.val 2) (k 0xFFFFFFFFFFFFFFFE) ∧ Operand s1 c1 .i64 (.imm 0) (k 0) ∧
    Operand s1 c1 .i32 (.imm 64) (k 64) ∧ Operand s1 c1 .i32 (.imm 0) (k 0) ∧ Operand s1 c1 .i32 (.imm (-1)) (k 0xFFFFFFFF) ∧ Ty.i64.width % 8 = 0 :=
  ⟨rfl, operand_of (by decide +kernel), operand_of (by decide +kernel), operand_of (by decide +kernel), operand_of (by decide +kernel),
    operand_of (by decide +kernel), rfl⟩
/-- The least signed product, and sums at both bounds. -/
theorem witness_WideAndSaturatingArithmetic : Runs s1 c1 ∧ Operand s1 c1 .i8 (.imm (-128)) (k 128) ∧ Operand s1 c1 .i8 (.imm 127) (k 127) ∧
    Operand s1 c1 Ty.i8.double (.imm (-1)) (k 0xFFFF) ∧ (1, 8) = elemsOf .i8 ∧ (4, 8) = elemsOf .v4i8 ∧
    Operand s1 c1 .v4i8 (.lit32 0x7F80FF00) (k 0x7F80FF00) :=
  ⟨rfl, operand_of (by decide +kernel), operand_of (by decide +kernel), operand_of (by decide +kernel), rfl, rfl, operand_of (by decide +kernel)⟩
theorem witness_ComparisonsWidthsAndPointers : (Runs s1 c1 ∧ Operand s1 c1 .i32 (.imm (-1)) (k 0xFFFFFFFF) ∧ Operand s1 c1 .i32 (.imm 1) (k 1) ∧
      Operand s1 c1 .i1 (.val 10) (k 1) ∧ (∀ l ∈ c1.lanes, valOf c1 l 1 = some ⟨.i8, 0x80⟩) ∧ Ty.i8.isI = true ∧ Ty.i8.width < Ty.i32.width ∧
      (∀ l ∈ c1.lanes, valOf c1 l 2 = some ⟨.i64, 0xFFFFFFFFFFFFFFFE⟩) ∧ Ty.i32.width < Ty.i64.width) ∧
    (Operand s1 c1 .ptr (.val 4) (k 0x05FFFFFFFFFFFFFF) ∧ Operand s1 c1 .ptr (.val 7) (k 0x400000) ∧ Operand s1 c1 .i8 (.val 14) (k 5) ∧
      Operand s1 c1 .i64 (.val 11) (k 5) ∧ (∀ l ∈ c1.lanes, valOf c1 l 5 = some ⟨.i32, 3⟩)) :=
  ⟨⟨rfl, operand_of (by decide +kernel), operand_of (by decide +kernel), operand_of (by decide +kernel), by decide +kernel, rfl, by decide,
    by decide +kernel, by decide⟩, operand_of (by decide +kernel), operand_of (by decide +kernel), operand_of (by decide +kernel), operand_of (by decide +kernel), by decide +kernel⟩
/-- A scalar type, a pair and a quadruple. -/
theorem witness_FloatArithmetic : Runs s1 c1 ∧ Operand s1 c1 .f32 (.lit32 0x7F800000) (k 0x7F800000) ∧ Operand s1 c1 .f32 (.val 6) (k 0x43960000) ∧
    Operand s1 c1 .v2bf16 (.lit32 0x3F804580) (k 0x3F804580) ∧ Operand s1 c1 .v4e4m3 (.lit32 0x7F) (k 0x7F) :=
  ⟨rfl, operand_of (by decide +kernel), operand_of (by decide +kernel), operand_of (by decide +kernel), operand_of (by decide +kernel)⟩
theorem witness_SpecialFunctions : Runs s1 c1 ∧ Operand s1 c1 .f32 (.lit32 0) (k 0) ∧ Ty.f32.isFT = true ∧ Operand s1 c1 .f16 (.lit32 0x3C00) (k 0x3C00) :=
  ⟨rfl, operand_of (by decide +kernel), rfl, operand_of (by decide +kernel)⟩
theorem witness_FloatBitOperations : Runs s1 c1 ∧ Operand s1 c1 .f32 (.lit32 0x7FC00000) (k 0x7FC00000) ∧ Operand s1 c1 .f32 (.lit32 0x80000000) (k 0x80000000) ∧
    (Ty.f32.isFP || Ty.f32.isF8) = true ∧ (Ty.e4m3.isFP || Ty.e4m3.isF8) = true ∧ Operand s1 c1 .e4m3 (.lit32 0x7F) (k 0x7F) :=
  ⟨rfl, operand_of (by decide +kernel), operand_of (by decide +kernel), rfl, rfl, operand_of (by decide +kernel)⟩
/-- One clause each: a conversion, a reinterpretation, and the elements of a packed type. -/
theorem witness_Conversions : Runs s1 c1 ∧ (∀ l ∈ c1.lanes, valOf c1 l 3 = some ⟨.f32, 0xC348B333⟩) ∧ cvtOk false true .f32 .i8 = true ∧
    bitcastOk .f32 .i32 = true ∧ Ty.v2f16.packed = some (2, .f16) ∧ Operand s1 c1 .v2f16 (.lit32 0xBC003C00) (k 0xBC003C00) ∧
    Operand s1 c1 .f16 (.lit32 0x3C00) (k 0x3C00) ∧
    (∀ l ∈ c1.lanes, evalOps s1 c1 l ([Opnd.lit32 1, .lit32 2].map fun o => (.f16, o)) = some [1, 2]) :=
  ⟨rfl, by decide +kernel, rfl, rfl, rfl, operand_of (by decide +kernel), operand_of (by decide +kernel), by decide +kernel⟩
/-- The reads and writes of the two block conversions in one page. -/
def quantReq (_ : Nat) : List Part := Part.read 0x400000 128 4 :: sortParts (Part.write 0x4000C0 16 16) (Part.write 0x4000D0 1 1)
def dequantReq (_ : Nat) : List Part := sortParts (Part.read 0x4000C0 16 16) (Part.read 0x4000D0 1 1) ++ [Part.write 0x400000 128 4]
/-- Both directions on memory of one page. -/
theorem witness_BlockConversions : Runs s1 c1 ∧ c1.lanes = [0] ∧ c1.helper 0 = false ∧ Operand s1 c1 .ptr (.val 12) (k 0x400040) ∧
    Operand s1 c1 .ptr (.val 13) (k 0x400080) ∧ Operand s1 c1 .ptr (.val 7) (k 0x400000) ∧ dropHold c1 s1 = s1 ∧
    (let q := placesOf s1 c1 quantReq
     let u := portedState s1 c1 (linesAt c1 q)
     Ported s1 c1 (linesAt c1 q) u ∧ Checked s1 c1 quantReq q ∧ ∃ ps, q 0 = some ps ∧ (u.readPlaces (rdOf 0x400000 128 ps)).length = 128) ∧
    (let q := placesOf s1 c1 dequantReq
     Ported s1 c1 (linesAt c1 q) (portedState s1 c1 (linesAt c1 q)) ∧ Checked s1 c1 dequantReq q ∧ (q 0).isSome) :=
  ⟨rfl, rfl, rfl, operand_of (by decide +kernel), operand_of (by decide +kernel), operand_of (by decide +kernel), rfl,
    ⟨ported_of (by decide +kernel), checked_of (by decide +kernel), _, rfl, by decide +kernel⟩,
    ⟨ported_of (by decide +kernel), checked_of (by decide +kernel), by decide +kernel⟩⟩
theorem witness_FloatBitCompletion : Runs s1 c1 ∧ Operand s1 c1 .f32 (.lit32 0x7FC00000) (k 0x7FC00000) ∧
    Operand s1 c1 .f32 (.val 3) (k 0xC348B333) :=
  ⟨rfl, operand_of (by decide +kernel), operand_of (by decide +kernel)⟩
/-- A conversion, a reinterpretation, packed elements, and both block conversions. -/
theorem witness_ConversionCompletion : Runs s1 c1 ∧ (∀ l ∈ c1.lanes, valOf c1 l 3 = some ⟨.f32, 0xC348B333⟩) ∧
    (∀ l ∈ c1.lanes, cvtOk false true .f32 .i8 = true) ∧ (∀ l ∈ c1.lanes, bitcastOk .f32 .i32 = true) ∧ Ty.v2f16.packed = some (2, .f16) ∧
    (∀ l ∈ c1.lanes, evalOps s1 c1 l ([Opnd.lit32 1, .lit32 2].map fun o => (.f16, o)) = some [1, 2]) ∧
    Operand s1 c1 .v2f16 (.lit32 0xBC003C00) (k 0xBC003C00) ∧ Operand s1 c1 .f16 (.lit32 0x3C00) (k 0x3C00) ∧
    Operand s1 c1 .ptr (.val 12) (k 0x400040) ∧ dropHold c1 s1 = s1 ∧
    (let q := placesOf s1 c1 quantReq
     Ported s1 c1 (linesAt c1 q) (portedState s1 c1 (linesAt c1 q)) ∧ Checked s1 c1 quantReq q) ∧
    (let q := placesOf s1 c1 dequantReq
     Ported s1 c1 (linesAt c1 q) (portedState s1 c1 (linesAt c1 q)) ∧ Checked s1 c1 dequantReq q) :=
  ⟨rfl, by decide +kernel, by decide +kernel, by decide +kernel, rfl, by decide +kernel, operand_of (by decide +kernel),
    operand_of (by decide +kernel), operand_of (by decide +kernel), rfl, ⟨ported_of (by decide +kernel), checked_of (by decide +kernel)⟩,
    ⟨ported_of (by decide +kernel), checked_of (by decide +kernel)⟩⟩

/-- An access of one byte by a lane of its own group at system scope. -/
def ev (thread : Nat) (kd : EvKind) (rel acq : Bool) (addr : Nat) (r w : List (BitVec 8)) : Ev :=
  ⟨thread, ⟨.lane, 1, 0, thread, 0, 0, false⟩, 0, 0, kd, .system, rel, acq, addr, 1, false, r, w, 0⟩
def mpRun : Execution :=
  { evs := [ev 0 .write false false 0 [] [1], ev 0 .write true false 64 [] [1], ev 1 .read false true 64 [1] [], ev 1 .read false false 0 [1] []],
    init := [], rf := [((2, 64), some 1), ((3, 0), some 0)], co := [(0, [0]), (64, [1])], sc := [] }
def sbRun : Execution :=
  { evs := [ev 0 .write false false 0 [] [1], ev 0 (.fence true) true true 0 [] [], ev 0 .read false false 64 [0] [], ev 1 .write false false 64 [] [1],
      ev 1 (.fence true) true true 0 [] [], ev 1 .read false false 0 [1] []],
    init := [], rf := [((5, 0), some 0)], co := [(0, [0]), (64, [3])], sc := [1, 4] }
def rrRun : Execution :=
  { evs := [ev 0 .write false false 0 [] [1], ev 1 .read false false 0 [0] [], ev 1 .read false false 0 [1] []],
    init := [], rf := [((2, 0), some 0)], co := [(0, [0])], sc := [] }
def rmwRun : Execution :=
  { evs := [ev 0 .rmw false false 0 [0] [1], ev 1 .write false false 0 [] [2]], init := [], rf := [], co := [(0, [0, 1])], sc := [] }

/-- Allowed executions that meet the premises of the clauses about messages, fences, reads of one place and atomic operations. The
clause about load buffering says that its premises are never met together; each holds alone. -/
theorem witness_LitmusTests :
    (mpRun.Allowed ∧ mpRun.writesAt 0 0 = true ∧ mpRun.po 0 1 = true ∧ mpRun.is 1 (fun e => e.writes && e.rel) = true ∧
      mpRun.is 2 (fun e => e.reads && e.acq) = true ∧ mpRun.both 1 2 mutuallyScoped = true ∧ mpRun.readsAt 64 2 = true ∧ mpRun.src 2 64 = some 1 ∧
      mpRun.po 2 3 = true ∧ mpRun.readsAt 0 3 = true ∧ mpRun.readsFrom 1 2 = true) ∧
    (sbRun.Allowed ∧ sbRun.writesAt 0 0 = true ∧ sbRun.po 0 1 = true ∧ sbRun.po 1 2 = true ∧ sbRun.readsAt 64 2 = true ∧ sbRun.writesAt 64 3 = true ∧
      sbRun.po 3 4 = true ∧ sbRun.po 4 5 = true ∧ sbRun.readsAt 0 5 = true ∧ sbRun.is 1 Ev.isSc = true ∧ sbRun.is 4 Ev.isSc = true ∧
      sbRun.both 1 4 mutuallyScoped = true) ∧
    (rrRun.Allowed ∧ rrRun.po 1 2 = true ∧ rrRun.readsAt 0 1 = true ∧ rrRun.readsAt 0 2 = true) ∧
    (rmwRun.Allowed ∧ rmwRun.is 0 (fun e => e.kind == .rmw) = true ∧ rmwRun.readsAt 0 0 = true ∧ rmwRun.writesAt 0 1 = true) := by
  refine ⟨⟨okWith_allowed [[1, 2, 3], [2, 3], [3], []] [0, 1, 2, 3] (by decide +kernel), ?_⟩,
    ⟨okWith_allowed [[1, 2, 4, 5], [2, 4, 5], [], [4, 5], [5], []] [0, 1, 2, 0, 1, 2] (by decide +kernel), ?_⟩,
    ⟨okWith_allowed [[], [2], []] [0, 1, 2] (by decide +kernel), ?_⟩, okWith_allowed [[], []] [0, 1] (by decide +kernel), ?_⟩ <;> decide +kernel

theorem witness_IdentitiesAndLaneReads : (Runs (s32 0xFFFFFFFF) (ctx (s32 0xFFFFFFFF)) ∧ (ctx (s32 0xFFFFFFFF)).g.gate = none) ∧
    (let c := ctx (s32 0x1F); Runs (s32 0x1F) c ∧ Operand (s32 0x1F) c .i32 o1 (fun l => BitVec.ofNat 96 (100 + l)) ∧
      Operand (s32 0x1F) c .i32 (.imm 32) (k 32)) :=
  ⟨⟨rfl, rfl⟩, rfl, operand_of (by decide +kernel), operand_of (by decide +kernel)⟩
/-- A launch of group 1's that `gridid` reads. -/
theorem witness_IdentitiesAndLaneReads_launch : ∃ s : State, Runs s (ctx s) ∧ (ctx s).g.gate = none ∧ (s.launch? (ctx s).g.launch).isSome :=
  ⟨{ s1 with launches := [⟨0, 1, 0, 0, 0, false, 0, 0, 2, 3, 4, 32, [], 0, [], 0, 0, false, 0, 0, false, false, false, 0, 0, 0, 0, false, 0⟩] },
    rfl, rfl, by decide +kernel⟩
theorem witness_VotesAndMasks : let c := ctx (s32 0x0B)
    Runs (s32 0x0B) c ∧ Operand (s32 0x0B) c .i32 o2 (fun l => BitVec.ofNat 96 (l % 3)) ∧
      Operand (s32 0x0B) c .i1 (.val 4) (fun l => BitVec.ofNat 96 (l % 2)) :=
  ⟨rfl, operand_of (by decide +kernel), operand_of (by decide +kernel)⟩
theorem witness_ReductionsAndScans : let c := ctx (s32 0xFFFFFFDF)
    Runs (s32 0xFFFFFFDF) c ∧ Operand (s32 0xFFFFFFDF) c .f32 (.val 3) (fun l => if l = 0 then 0x4B800000 else 0x3F800000) ∧
      Operand (s32 0xFFFFFFDF) c .i32 o1 (fun l => BitVec.ofNat 96 (100 + l)) :=
  ⟨rfl, operand_of (by decide +kernel), operand_of (by decide +kernel)⟩
theorem witness_RandomAndFlags : Runs s1 c1 ∧ Operand s1 c1 .i64 (.val 11) (k 5) ∧ Operand s1 c1 .i8 (.imm (-1)) (k 255) :=
  ⟨rfl, operand_of (by decide +kernel), operand_of (by decide +kernel)⟩
/-- A run of all lanes, with which the barrier completes, and one of a part. -/
theorem witness_Barriers : (Runs (s32 0xFFFFFFFF) (ctx (s32 0xFFFFFFFF)) ∧ 3 ∈ (ctx (s32 0xFFFFFFFF)).ordinary ∧ ((ctx (s32 0xFFFFFFFF)).lane? 3).isSome) ∧
    Runs (s32 0x0FFFFFFF) (ctx (s32 0x0FFFFFFF)) ∧ 3 ∈ (ctx (s32 0x0FFFFFFF)).ordinary ∧ ((ctx (s32 0x0FFFFFFF)).lane? 3).isSome :=
  ⟨⟨rfl, by decide +kernel, by decide +kernel⟩, rfl, by decide +kernel, by decide +kernel⟩

/-- Each form of transfer: every lane of the run goes to a block of the function with its arguments. -/
theorem witness_TransfersAndRaisedTraps :
    (let s := inTri 2 [(2, i32 9), (3, ⟨.i1, 1⟩)]
     Runs s (ctx s) ∧ ((ctx s).here s).map (·.2.off) = some 7 ∧ Operand s (ctx s) .i1 (.val 3) (k 1) ∧ Operand s (ctx s) .i32 (.imm 1) (k 1) ∧
       (∀ l ∈ (ctx s).lanes, tri.blocks[3]? = some ⟨6, [.i32], 6⟩ ∧ evalArgs s (ctx s) l [.i32] [.val 2] = some [i32 9])) ∧
    (let s := inTri 2 []
     Runs s (ctx s) ∧ ((ctx s).here s).isSome ∧ Operand s (ctx s) .i32 (.imm 1) (k 1) ∧ (ctx s).ordinary = [0] ∧ [Target.mk 2 []].length ≤ uRd Ty.i32.width (k 1 0)) :=
  ⟨⟨rfl, rfl, operand_of (by decide +kernel), operand_of (by decide +kernel), by decide +kernel⟩, rfl, by decide +kernel, operand_of (by decide +kernel), rfl, by decide +kernel⟩
theorem witness_CallsReturnsAndEnds :
    (let s := inTri 6 [(6, i32 9)]
     Runs s (ctx s) ∧ s.func? (ctx s).g 0 = some tri ∧ (∀ l ∈ (ctx s).lanes, evalArgs s (ctx s) l [.i32] [.imm 4] = some [i32 4]) ∧
       Operand s (ctx s) .i32 (.val 6) (k 9) ∧ (∀ l ∈ (ctx s).lanes, ∀ x, (ctx s).lane? l = some x → 2 ≤ x.frames.length) ∧
       s.callRes (ctx s).g ⟨1, 0, []⟩ = some 0) ∧
    (Runs s1 c1 ∧ ∀ l ∈ c1.lanes, ∀ x, c1.lane? l = some x → x.frames.length ≤ 1) := by
  refine ⟨⟨rfl, rfl, by decide +kernel, operand_of (by decide +kernel), ?_, rfl⟩, rfl, ?_⟩
  all_goals
    intro l hl x hx
    cases List.mem_singleton.mp (show l ∈ [0] from hl)
    cases hx
    decide
/-- The disposition QUEUE, at reset, and KILL, and an ejected lane's fault while lane 1 of its wave runs in native form. -/
theorem witness_TrapsTaken :
    (Runs s1 c1 ∧ c1.iss.probe = none ∧ c1.stopsNow = true ∧ (c1.lane? 0).isSome ∧ c1.iss.bind = none ∧ (FaultInfo.plain 11 0 9).code ≠ 7 ∧
      (FaultInfo.plain 11 0 9).code ≠ 8 ∧ (FaultInfo.plain 11 0 9).eng = none ∧ s1.disposition c1.g.dom (faultClass 11) = .queue) ∧
    (let s := { s1 with doms := [(1, { Dom.reset with dispProgram := .kill })] }
     Runs s (ctx s) ∧ (ctx s).iss.probe = none ∧ (ctx s).stopsNow = true ∧ (((ctx s).lane? 0).any (·.alive)) = true ∧
       s.disposition (ctx s).g.dom (faultClass 11) = .kill) ∧
    (let w := { wave [{ lane vals with ejected := true }, lane []] with native := some ⟨[(1, ⟨0, [], []⟩)], NRegs.empty, none, [], []⟩ }
     let s := { s1 with groups := [group 0x40000 [w]], issue := some ⟨1, 0, 1, true, 99, none, none⟩ }
     Runs s (ctx s) ∧ (ctx s).iss.probe = none ∧ (ctx s).iss.gondola = true ∧ (ctx s).w.trap = none ∧ (ctx s).w.gfault = none ∧
       (ctx s).w.nativeLeft ≠ 0) :=
  ⟨⟨rfl, rfl, by decide +kernel, rfl, rfl, by decide, by decide, rfl, by decide +kernel⟩,
    ⟨rfl, rfl, by decide +kernel, by decide +kernel, by decide +kernel⟩, rfl, rfl, rfl, rfl, rfl, by decide +kernel⟩

def two (p q : Bits) : State := st 0x40000 [lane [(1, ⟨.ptr, p⟩)], lane [(1, ⟨.ptr, q⟩)]] 3
/-- A load and a store that pass; a run whose lane 1, behind lane 0, fails its alignment; a pointer with a bit above its tag and one
whose alignment alone fails. -/
theorem witness_LoadsStoresAndFaults :
    (let r := fun _ => [Part.read 0x400000 4 4]; Runs s1 c1 ∧ dropHold c1 s1 = s1 ∧ Operand s1 c1 .ptr (.val 7) (k 0x400000) ∧
      Operand s1 c1 .i32 (.imm 7) (k 7) ∧ Checked s1 c1 r (placesOf s1 c1 r) ∧ HasPort s1 c1 (placesOf s1 c1 r)) ∧
    (let r := fun _ => [Part.write 0x400000 4 4]; Checked s1 c1 r (placesOf s1 c1 r) ∧ HasPort s1 c1 (placesOf s1 c1 r)) ∧
    (let s := two 0x400000 0x400002; Runs s (ctx s) ∧ dropHold (ctx s) s = s ∧ 1 ∈ (ctx s).lanes ∧ (ctx s).helper 1 = false ∧
      Operand s (ctx s) .ptr (.val 1) (fun l => if l = 0 then 0x400000 else 0x400002) ∧
      s.checkParts ((ctx s).who 1) [Part.write 0x400002 4 4] = .error ⟨2, 1, 2, 2, 0x400002, 0, none⟩ ∧
      (∃ ps, s.checkParts ((ctx s).who 0) [Part.write 0x400000 4 4] = .ok ps)) ∧
    ((0x1000000000000000#64).toNat / 2 ^ 60 ≠ 0 ∧ (0x400002#64).toNat / 2 ^ 60 = 0 ∧ ptrAddr 0x400002 % 4 ≠ 0) :=
  ⟨⟨rfl, rfl, operand_of (by decide +kernel), operand_of (by decide +kernel), checked_of (by decide +kernel), ported_of (by decide +kernel)⟩,
    ⟨checked_of (by decide +kernel), ported_of (by decide +kernel)⟩, ⟨rfl, rfl, by decide +kernel, by decide +kernel, operand_of (by decide +kernel), rfl, _, rfl⟩, by decide⟩
/-- `atom.add` on any page, and the other operations where no host page is; `xchg` and `cas` of both outcomes. -/
theorem witness_Atomics : Runs s1 c1 ∧ dropHold c1 s1 = s1 ∧ c1.lanes = [0] ∧ c1.helper 0 = false ∧ Operand s1 c1 .ptr (.val 7) (k 0x400000) ∧
    Operand s1 c1 .i32 (.imm 0) (k 0) ∧ Operand s1 c1 .i32 (.imm 7) (k 7) ∧
    (∀ host, let r := fun _ => [⟨0x400000, 4, true, true, 4, host, false⟩]
      Checked s1 c1 r (placesOf s1 c1 r) ∧ HasPort s1 c1 (placesOf s1 c1 r) ∧ ∃ ps, placesOf s1 c1 r 0 = some ps ∧
        (valOfBytes .i32 ((portedState s1 c1 (linesAt c1 (placesOf s1 c1 r))).readPlaces ps)).bits = 0) := by
  refine ⟨rfl, rfl, rfl, rfl, operand_of (by decide +kernel), operand_of (by decide +kernel), operand_of (by decide +kernel), fun host => ?_⟩
  cases host <;> exact ⟨checked_of (by decide +kernel), ported_of (by decide +kernel), _, rfl, by decide +kernel⟩
theorem witness_AtomicsInLaneOrder : let s := s32 0xF; let r := fun _ => [⟨0x400000, 4, true, true, 4, true, false⟩]
    Runs s (ctx s) ∧ dropHold (ctx s) s = s ∧ Operand s (ctx s) .ptr (.val 5) (k 0x400000) ∧ Operand s (ctx s) .i32 (.imm 1) (k 1) ∧ (ctx s).helpers = [] ∧
      Checked s (ctx s) r (placesOf s (ctx s) r) ∧ HasPort s (ctx s) (placesOf s (ctx s) r) :=
  ⟨rfl, rfl, operand_of (by decide +kernel), operand_of (by decide +kernel), by decide +kernel, checked_of (by decide +kernel), ported_of (by decide +kernel)⟩
/-- Element (5, 7) of 09 R222's tile, read and written, and the operands of `laymake`. -/
theorem witness_LayoutAccessesAndWords :
    (let q : LayReq := ⟨0x000000000020000102800000, 0xFFFFFFF0000010, 5, 7, 0, 0x1234⟩
     Runs s1 c1 ∧ (∀ l ∈ c1.lanes, layOpnds s1 c1 l 9 (.val 8) (.imm 5) (.imm 7) (.imm 0) (some (.i16, .imm 0x1234)) = some q) ∧
       (∀ l ∈ c1.lanes, layCheck (c1.who l) false 2 q = none ∧ layCheck (c1.who l) true 2 q = none) ∧
       (∀ wr, let r := fun _ => [⟨ptrWith 0xFFFFFFF0000010 (ownBase + 454), 2, !wr, wr, 1, true, false⟩]; Checked s1 c1 r (placesOf s1 c1 r))) ∧
    (Operand s1 c1 .i32 (.imm 0) (k 0) ∧ Operand s1 c1 .i32 (.imm 6) (k 6)) := by
  refine ⟨⟨rfl, by decide +kernel, by decide +kernel, fun wr => ?_⟩, operand_of (by decide +kernel), operand_of (by decide +kernel)⟩
  cases wr <;> exact checked_of (by decide +kernel)
/-- A granule that `tagld` and `tagst` reach, and a selector of each set, a bad one and a bad control word. -/
theorem witness_TagsFencesAndWatchpoints :
    (let r := fun _ => [⟨ptrWith 0x400000 0x400000, 64, true, false, 1, true, true⟩]
     let w := fun _ => [⟨ptrWith 0x400000 0x400000, 64, false, true, 1, true, true⟩]
     Runs s1 c1 ∧ dropHold c1 s1 = s1 ∧ Operand s1 c1 .ptr (.val 7) (k 0x400000) ∧ Operand s1 c1 .i8 (.val 14) (k 5) ∧ c1.helpers = [] ∧
       Checked s1 c1 r (placesOf s1 c1 r) ∧ Checked s1 c1 w (placesOf s1 c1 w) ∧ HasPort s1 c1 (placesOf s1 c1 r) ∧ HasPort s1 c1 (placesOf s1 c1 w) ∧
       (placesOf s1 c1 r 0).map (·.length) = some 1 ∧ (placesOf s1 c1 w 0).map (·.length) = some 1) ∧
    ((c1.g.w16 && c1.lanes.any (· < 16) && c1.lanes.any (16 ≤ ·)) = false ∧ c1.ordinary = [0] ∧
      (∀ n ∈ [0, 0x4000, 0x8000, 0xC000, 8], Operand s1 c1 .i32 (.imm (BitVec.ofNat 30 n)) (k n)) ∧ Operand s1 c1 .i64 (.imm 64) (k 64) ∧
      selBad 0 = false ∧ selBad 0x401F = true ∧ selBad 0x801F = false ∧ selBad 0xC000 = true ∧ watchBad 0 0 0x3F = true) := by
  refine ⟨⟨rfl, rfl, operand_of (by decide +kernel), operand_of (by decide +kernel), by decide +kernel, checked_of (by decide +kernel), checked_of (by decide +kernel),
    ported_of (by decide +kernel), ported_of (by decide +kernel), by decide +kernel, by decide +kernel⟩, rfl, rfl, ?_, operand_of (by decide +kernel), by decide +kernel⟩
  intro n hn
  simp only [List.mem_cons, List.not_mem_nil, or_false] at hn
  rcases hn with rfl | rfl | rfl | rfl | rfl <;> exact operand_of (by decide +kernel)
/-- The bytes beside a store, in memory in canonical form. -/
theorem witness_StoresAndTheirFrame : Memory.wf s1.mem = true ∧ (0x3FFFFF < 0x400000 ∨ 0x400000 + 4 ≤ 0x3FFFFF) ∧
    (let r := fun _ => [Part.write 0x400000 4 4]; Runs s1 c1 ∧ Operand s1 c1 .ptr (.val 7) (k 0x400000) ∧ Operand s1 c1 .i32 (.imm 7) (k 7) ∧
      Checked (dropHold c1 s1) c1 r (placesOf s1 c1 r) ∧ (∃ t, exec (.st false .wave .relaxed .i32 (.val 7) (.imm 7)) s1 = .next t) ∧
      ∀ l ∈ c1.ordinary, (placesOf s1 c1 r l).any (fun ps => ps.all fun y => 0x3FFFFF < y.key) = true) :=
  ⟨rfl, by decide, rfl, operand_of (by decide +kernel), operand_of (by decide +kernel), checked_of (by decide +kernel), ⟨_, rfl⟩, by decide +kernel⟩

/-! ### Circular buffers, commands and the matrix engine -/

/-- `cbinit` makes generation 1; a full ring and an empty one hold; a push passes and `cbadv` moves ADV; a handle of another domain
raises CB_ERROR (13 R309 to R312). -/
theorem test_buffers : num (exec (.cbinit 1 .group (.imm 0) (.val 7) (.imm 64) (.val 13)) (eng Handle.none none)) = some 0x10100 ∧
    (handleAfter (exec (.cbinit 1 .group (.imm 0) (.val 7) (.imm 64) (.val 13)) (eng Handle.none none))).map (·.valid) = some true ∧
    holdsAfter (exec (.cbwait true 18 (.imm 1)) (eng (ring1 2 0 0) none)) = some [.room 0x10000 1] ∧
    holdsAfter (exec (.cbwait false 18 (.imm 1)) (eng (ring1 2 0 0) none)) = some [.pushes 0x10000 1] ∧
    holdsAfter (exec (.cbwait false 18 (.imm 1)) (eng (ring1 2 1 0) none)) = some [] ∧
    (handleAfter (exec (.cbadv 18 (.imm 1)) (eng (ring1 2 1 0) none))).map (·.adv) = some 1 ∧
    num (exec (.cbstat .claims 18) (eng (ring1 2 1 0) none)) = some 2 ∧ num (exec (.cbstat .head 18) (eng (ring1 2 1 1) none)) = some 0x400040 ∧
    trapCode (exec (.cbadv 15 (.imm 1)) (eng (ring1 2 1 0) none)) = some (14, 0) := by decide +kernel
/-- A copy of 16 bytes, a gather, a scatter and an all-reduce are issued with their staging words (13 R314 to R316). -/
theorem test_commands : cmdsAfter (exec (.acopy .none 18 (.val 7) (.val 12) (.lit64 16)) (eng (ring1 0 0 0) none)) = some [(.copy, [0x400000, 0x400040, 16])] ∧
    holdsAfter (exec (.acopy .none 18 (.val 7) (.val 12) (.lit64 16)) (eng (ring1 2 0 0) none)) = some [.issue 0x10000 2 false] ∧
    cmdsAfter (exec (.agather 2 false 18 (.val 7) (.val 12) (.lit64 4) (.val 13) (.imm 3)) (eng (ring1 0 0 0) none)) =
      some [(.gather, [0x400000, 0x400040, 0x200000003, 0x400080, 3, 4])] ∧
    cmdsAfter (exec (.ascatter 0 false 18 (.val 7) (.val 12) (.lit64 4) (.val 13) (.imm 3)) (eng (ring1 0 0 0) none)) =
      some [(.scatter, [0x400000, 0x400040, 3, 0x400080, 3, 4])] ∧
    cmdsAfter (exec (.kstart .allred .i32 .max true 18 (.val 7) (.val 12) (.imm 5) (.val 13)) (eng (ring1 0 0 0) none)) =
      some [(.coll .allred, [0x400000, 0x400040, 0x6300000005, 0x400080])] := by decide +kernel

/-- `cbinit` at both bounds of SLOTB; a ring with room and a full one, with a push and without, and a handle that names nothing. -/
theorem witness_BufferInstructions :
    (let s := eng Handle.none none; Runs s (ctx s) ∧ (ctx s).oneHalf = true ∧ dropHold (ctx s) s = s ∧ (ctx s).ordinary = [0] ∧
      evalOp s (ctx s) 0 .i32 (.imm 31) = some 31 ∧ evalOp s (ctx s) 0 .ptr (.val 7) = some 0x400000 ∧ evalOp s (ctx s) 0 .i32 (.imm 64) = some 64 ∧
      evalOp s (ctx s) 0 .i32 (.imm 16777216) = some 16777216 ∧ evalOp s (ctx s) 0 .ptr (.val 13) = some 0x400080 ∧ ((ctx s).g.handle 31).valid = false ∧
      handleOp (ctx s) 0 18 = some 0x10000 ∧ (ctx s).g.handleOf 0x10000 = none) ∧
    (∀ x ∈ [ring1 2 1 0, ring1 1 0 0, ring1 0 0 0], let s := eng x none; (ctx s).g.handleOf 0x10000 = some 0 ∧ (ctx s).g.handle 0 = x) ∧
    (1 ≤ 2 ^ 1 - ((ring1 1 0 0).claim - (ring1 1 0 0).adv).toNat) ∧ ¬1 ≤ 2 ^ 1 - ((ring1 2 1 0).claim - (ring1 2 1 0).adv).toNat ∧
    ((ring1 1 0 0).push - (ring1 1 0 0).adv).toNat < 1 ∧ 1 ≤ ((ring1 2 1 0).push - (ring1 2 1 0).adv).toNat ∧ ((ring1 2 1 0).codeAt 0).toNat % 256 = 0 ∧
    (let s := eng (ring1 2 1 0) none; ∃ ps, s.checkParts ((ctx s).who 0) [Part.read ((ring1 2 1 0).statAt 0) 8 8] = .ok ps ∧ (ps.all fun p => !s.unanswered p) = true ∧
      Ported s (ctx s) (linesOf ps).length (portedState s (ctx s) (linesOf ps).length)) := by
  refine ⟨⟨rfl, rfl, rfl, rfl, rfl, rfl, rfl, rfl, rfl, rfl, rfl, rfl⟩, ?_, by decide, by decide, by decide, by decide, by decide, _, rfl, by decide +kernel, ported_of (by decide +kernel)⟩
  intro x hx
  simp only [List.mem_cons, List.not_mem_nil, or_false] at hx
  rcases hx with rfl | rfl | rfl <;> exact ⟨rfl, rfl⟩
/-- A copy, a gather and an all-reduce of one lane with room for one command, and a full ring. -/
theorem witness_CommandIssue :
    (let s := eng (ring1 1 0 0) none; Runs s (ctx s) ∧ (ctx s).oneHalf = true ∧ dropHold (ctx s) s = s ∧ (ctx s).ordinary = [0] ∧
      handleOp (ctx s) 0 18 = some 0x10000 ∧ ((ctx s).g.handleOf 0x10000).isSome ∧ evalOp s (ctx s) 0 .ptr (.val 7) = some ((0x400000#64).setWidth 96) ∧
      evalOp s (ctx s) 0 .ptr (.val 12) = some ((0x400040#64).setWidth 96) ∧ evalOp s (ctx s) 0 .i64 (.val 11) = some ((5#64).setWidth 96) ∧
      evalOp s (ctx s) 0 .ptr (.val 13) = some ((0x400080#64).setWidth 96) ∧ evalOp s (ctx s) 0 .i32 (.imm 3) = some (BitVec.ofNat 96 3) ∧
      (s.comm (engineWho (ctx s).g 0 0) 0x400080).isSome ∧ inMask (ctx s).w.issued 0 = false ∧
      (issueLanes (ctx s) [(0, ⟨0x10000, .copy, [0x400000, 0x400040, 5], none, [(1, 5, true), (0, 5, false)], 0, 0, [], false⟩)] s).1 = none) ∧
    (let s := eng (ring1 2 0 0) none; (issueLanes (ctx s) [(0, ⟨0x10000, .copy, [0x400000, 0x400040, 5], none, [(1, 5, true), (0, 5, false)], 0, 0, [], false⟩)] s).1.isSome) ∧
    (let s := eng (ring1 1 0 0) none; s.group? 1 = some (ctx s).g ∧ 0 < (ctx s).g.handles.length ∧ CmdKind.copy.onCe = true) :=
  ⟨⟨rfl, rfl, rfl, rfl, rfl, rfl, rfl, rfl, rfl, rfl, rfl, by decide +kernel, rfl, by decide +kernel⟩, by decide +kernel, rfl, by decide, rfl⟩
/-- A group that may lease 1 to 8 tiles, the counts that it may not lease, and a lease of 2 tiles with a shape that fits and one that
does not; the turn free, held by the group at its quantum with no other waiting, held by another group, and free with
another group before it in the rotation. -/
theorem witness_MatrixLeases :
    (let s := eng Handle.none none; Runs s (ctx s) ∧ (ctx s).oneHalf = true ∧ (ctx s).iss.probe = none ∧ dropHold (ctx s) s = s ∧ (ctx s).ordinary = [0] ∧
      evalOp s (ctx s) 0 .i32 (.imm 8) = some 8 ∧ (ctx s).g.mxuse = true ∧ (ctx s).g.lease = none ∧ s.mxShare (ctx s).g = 8 ∧ s.mxUsed (ctx s).g + 8 ≤ 8 ∧ (ctx s).g.core / 128 = 1 ∧
      8 ≤ 16 ∧ s.mxHeld 128 + 8 ≤ 16 ∧       evalOp s (ctx s) 0 .i32 (.imm 0) = some 0 ∧ evalOp s (ctx s) 0 .i32 (.imm 9) = some 9) ∧
    (let s := eng Handle.none (some ⟨2, [], none, List.replicate 16 0, 0, 0⟩); Runs s (ctx s) ∧ ((ctx s).g.lease).isSome ∧ (s.coreSt 128).turn = none ∧ (s.coreSt 128).mxWait = [] ∧
      1 + shapeRows .m64n64 / 64 * (shapeCols .m64n64 / 64) ≤ 2 ∧ 2 < 1 + shapeRows .m64n128 / 64 * (shapeCols .m64n128 / 64)) ∧
    (let k : CoreSt := { CoreSt.reset with turn := some 1, turnOps := 1 }; ¬k.turnOps < 1 ∧ ∀ g ∈ k.mxWait, g = 1) ∧
    (let k : CoreSt := { CoreSt.reset with turn := some 2 }; ¬(k.turn = none ∨ k.turn = some 1)) ∧
    (let k : CoreSt := { CoreSt.reset with mxWait := [2, 1] }; k.turn = none ∧ ¬∀ h hs, k.mxWait = h :: hs → h = 1) :=
  ⟨⟨rfl, rfl, rfl, rfl, rfl, rfl, rfl, rfl, by decide +kernel, by decide +kernel, by decide, by decide, by decide +kernel, rfl, rfl⟩,
    ⟨rfl, rfl, rfl, rfl, by decide, by decide⟩, by decide, by decide, rfl, fun h => absurd (h 2 [1] rfl) (by decide)⟩
/-- A lease whose entry 0 is `bf16` by `bf16` with `f32` output, operands in the own allocation, a bank of 64 by 32 and 64 rows. -/
theorem witness_MatrixOperations :
    let le : Lease := ⟨2, [], some ⟨64, 32, 0, [], []⟩, List.replicate 16 0x90000, 0, 0⟩
    let s := eng Handle.none (some le)
    let v := s.modCore 128 fun k => { k with mxWait := k.mxWait.filter fun g => g != 1 }
    let passes := fun ps : List (List Part) => match mxParts v ((ctx s).who 0) ps with | .ok qs => qs.length == 1 | .error _ => false
    (Runs s (ctx s) ∧ (ctx s).oneHalf = true ∧ (ctx s).iss.probe = none ∧ dropHold (ctx s) s = s ∧ (ctx s).ordinary = [0] ∧ (ctx s).g.lease = some le ∧ le.entry = 0x90000 ∧
      evalOp s (ctx s) 0 .i32 (.imm 0) = some (BitVec.ofNat 96 0) ∧ evalOp s (ctx s) 0 .ptr (.val 19) = some ((0xFFFFFFF0000000#64).setWidth 96) ∧
      evalOp s (ctx s) 0 .i32 (.imm 1) = some (BitVec.ofNat 96 1)) ∧
    (entryOk 0x90000 = true ∧ (s.coreSt 128).mayTurn 1 (s.mxQuantum (ctx s).g) = true ∧
      passes [[Part.read 0xFFFFFFF0000000 (64 * 32 * fmtBits (bFmt 0x90000) / 8) 64]] = true ∧ entryFits .dense 0x90000 = true ∧
      64 * outSize (outFmt 0x90000) ≤ 256 ∧ 256 % outSize (outFmt 0x90000) = 0 ∧
      passes [Part.write 0xFFFFFFF0000000 256 4 ::
        (List.range 63).map fun m => Part.write (ptrWith 0xFFFFFFF0000000 (ptrAddr 0xFFFFFFF0000000 + (m + 1) * 256)) 256 4] = true) := by
  refine ⟨⟨rfl, rfl, rfl, rfl, rfl, rfl, rfl, rfl, rfl, rfl⟩, ?_⟩
  decide +kernel

/-- The matrix engine (13 R319 to R325): a lease is fresh, a bank is loaded, `mxzero` clears a tile, `mxfmt` selects, `mxrel` returns the
flags, and a lease that is absent raises LEASE. -/
theorem test_matrix :
    let le : Lease := ⟨2, [(5, 7), (4096, 9)], none, List.replicate 16 0xA0077, 0, 5⟩
    let s := eng Handle.none (some le)
    (leaseAfter (exec (.mxlease (.imm 8)) (eng Handle.none none))).map (·.tiles) = some 8 ∧
    ((leaseAfter (exec (.mxldb false (.val 19) (.val 19) (.imm 1)) s)).bind (·.bank)).map (fun b => (b.n, b.k, b.fmt)) = some (64, 32, 7) ∧
    (leaseAfter (exec (.mxfmt (.imm 15)) s)).map (·.fidx) = some 15 ∧ num (exec .mxrel s) = some 5 ∧
    (leaseAfter (exec (.mxzero .m64n64 (.imm 0)) s)).map (·.acc) = some [(4096, 9)] ∧ trapCode (exec .mxrel (eng Handle.none none)) = some (13, 0) := by
  decide +kernel
/-- One element of a product: bytes 3 by 2 over 32 terms onto 5, and the worked example of 02 R66 in `bf16`, which rounds node by node. -/
theorem test_product :
    (mulElem .dense 0xA0077 ⟨64, 32, 7, List.replicate 32 2, []⟩ ⟨List.replicate 32 3, []⟩ 0 0 5).1 = 197 ∧
    (let v : List Byte := [0x80, 0x45] ++ (List.replicate 31 [0x80#8, 0x3F#8]).flatten
     (mulElem .dense 0x90000 ⟨64, 32, 0, v, []⟩ ⟨v, []⟩ 0 0 0).1 = 0x4B80000F) := by decide +kernel

/-! ### System, gates and expert placement -/

/-- Queue 0 of domain 1: its descriptor at 0x1000, with a ring of 16 launches at 0x2000, enabled, holding n launches. -/
def withQueue (n : Nat) (s : State) : State :=
  { s with dregs := [(0x10108, 0x1000)], mem := [(0x1001, 0x20), (0x1008, 4), (0x100A, 1)] ++ (if n = 0 then [] else [(0x1010, BitVec.ofNat 8 n)]) }
/-- An expert table of 4 experts and 8 slots at version 5; expert 0 has replicas 0 and 2. -/
def table1 : Table :=
  { nexp := 4, maxrep := 4, auto := false, cbase := 0, pool := 0x100000, slotb := 64, nslot := 8, grad := 0x200000, gslotb := 64, drainT := 0, snap := 0x300000,
    copyT := 0, cur := 5, prev := some 4, bankCur := [[some 1, none, some 3, none, none, none, none, none], [some 2]], bankPrev := [[some 1]], refCur := 1,
    refPrev := 2, req := none, window := 0, snaps := [], below := [], locked := [], acted := false,
    since := 0, closeAt := 0, drainBy := 0 }
def withTable (s : State) : State := s.modDom 1 fun x => { x with tables := [some table1, none, none, none] }
def tableAfter (o : Out) : Option Table := match o with | .next t => t.table 1 0 | _ => none

/-- `spawn` answers 3 for a queue number of 32, 2 for a disabled queue and 0 after placing; `ccadd` adds; `ccwait` holds until its value is
reached (20 R442 to R444). -/
theorem test_system : num (run (.spawn (.imm 32) (.val 7))) = some 3 ∧ num (exec (.spawn (.imm 0) (.val 7)) (withQueue 0 s1)) = some 0 ∧
    num (exec (.spawn (.imm 0) (.val 7)) (withQueue 16 s1)) = some 1 ∧ bytesAt (exec (.spawn (.imm 0) (.val 7)) (withQueue 2 s1)) 8 0x1010 = some 3 ∧
    bytesAt (run (.ccadd .system (.val 7) (.imm 3))) 8 0x400000 = some 3 ∧ holdsAfter (run (.ccwait .system (.val 7) (.imm 1))) = some [.counters [(0, 0x400000, 1)]] ∧
    holdsAfter (run (.ccwait .system (.val 7) (.imm 0))) = some [] := by decide +kernel
/-- 21 R454, R464 to R467: slot 3 for the hash at the upper half of two replicas, counts that saturate, and stamps of both versions. -/
theorem test_experts : num (exec (.xrtlook (.imm 0) (.imm 0) (.imm (-1))) (withTable s1)) = some (3 + 2 * 2 ^ 16 + 5 * 2 ^ 32) ∧
    num (exec (.xrtlook (.imm 0) (.imm 0) (.imm 0)) (withTable s1)) = some (1 + 5 * 2 ^ 32) ∧
    (tableAfter (exec (.xrtlook (.imm 0) (.imm 0) (.imm 0)) (withTable s1))).map (·.refCur) = some 2 ∧
    trapCode (exec (.xrtlook (.imm 4) (.imm 0) (.imm 0)) (withTable s1)) = some (15, 1) ∧ trapCode (exec (.ecount (.imm 0) (.imm 4) (.imm 0)) (withTable s1)) = some (15, 2) ∧
    num (exec (.xrtverCur (.imm 0)) (withTable s1)) = some (5 + 4 * 2 ^ 32) ∧ num (exec (.xrtverChk (.imm 0) (.imm 0) (.imm 0) (.lit64 0x500000001)) (withTable s1)) = some 0x500000001 ∧
    num (exec (.xrtverDone (.imm 0) (.lit64 0x500000001)) (withTable s1)) = some 0 ∧ num (exec (.xrtverDone (.imm 0) (.lit64 0x300000001)) (withTable s1)) = some 1 ∧
    (match exec (.ecount (.imm 0) (.imm 3) (.imm 7)) (withTable s1) with | .next t => mget 0 t.winch (t.counterKey 1 0 3) == 7 | _ => false) = true := by decide +kernel
/-- `rmerge` issues a merge of the replicas in slots 1 and 3 at a stamp of the current version (21 R468). -/
theorem test_merge : cmdsAfter (exec (.rmerge false 18 (.imm 0) (.imm 0) (.lit64 0x500000001) (.imm 4)) (withTable (eng (ring1 0 0 0) none))) =
    some [(.merge, [4, 0x200040, 0x2000C0])] := by decide +kernel

/-- A queue with room, a full one and a number beyond the table; counters that are met and not; a run whose lane 0 is alone. -/
theorem witness_SystemInstructions :
    (let s := withQueue 0 s1; Runs s (ctx s) ∧ dropHold (ctx s) s = s ∧ evalOp s (ctx s) 0 .i32 (.imm 0) = some (BitVec.ofNat 96 0) ∧
      evalOp s (ctx s) 0 .ptr (.val 7) = some ((0x400000#64).setWidth 96) ∧ (∃ ps, s.checkParts ((ctx s).who 0) [Part.read 0x400000 128 8] = .ok ps)) ∧
    (∀ n ∈ [0, 15, 16], (match (withQueue n s1).readQueue 1 0 with | .ok x => x.ok && x.enable && x.state != 2 && x.pending == n | .error _ => false) = true) ∧
    (c1.oneHalf = true ∧ evalOp s1 c1 0 .i64 (.val 11) = some ((5#64).setWidth 96) ∧
      (∃ ps, s1.checkParts (c1.who 0) [Part.read 0x400000 8 8] = .ok ps ∧ (ps.all fun p => !s1.unanswered p) = true ∧ ¬5 ≤ leNat (s1.readPlaces ps)) ∧
      c1.released = none) ∧
    (let r := fun _ => [⟨0x400000, 8, true, true, 8, true, false⟩]; c1.lanes = [0] ∧ c1.helper 0 = false ∧ Operand s1 c1 .ptr (.val 7) (k 0x400000) ∧
      Operand s1 c1 .i64 (.val 11) (k 5) ∧ Checked s1 c1 r (placesOf s1 c1 r) ∧ HasPort s1 c1 (placesOf s1 c1 r) ∧ (placesOf s1 c1 r 0).map (·.length) = some 1) ∧
    (let f := { tri with desc := 0x400000 }
     let s := { s1 with modules := [{ prog with funcs := [f] }] }
     s.funcAt 1 0x400000 = some ({ prog with funcs := [f] }, f) ∧ 6 < f.ninstr ∧ ∃ bs, s.devRead 1 0x400000 64 8 = .ok bs) :=
  ⟨⟨rfl, rfl, rfl, rfl, _, rfl⟩, by decide +kernel, ⟨rfl, rfl, ⟨_, rfl, by decide +kernel, by decide +kernel⟩, rfl⟩,
    ⟨rfl, rfl, operand_of (by decide +kernel), operand_of (by decide +kernel), checked_of (by decide +kernel), ported_of (by decide +kernel), by decide +kernel⟩,
    rfl, by decide, _, rfl⟩
theorem witness_ExpertPlacement : let s := withTable s1
    (Runs s (ctx s) ∧ (ctx s).ordinary = [0] ∧ s.table 1 0 = some table1 ∧ s.table 1 1 = none ∧ 3 < table1.nexp ∧ table1.nexp ≤ 4 ∧
      (∀ n ∈ [0, 1, 3, 4], evalOp s (ctx s) 0 .i32 (.imm (BitVec.ofNat 30 n)) = some (BitVec.ofNat 96 n))) ∧
    ((ctx s).lanes = [0] ∧ (ctx s).helper 0 = false ∧ evalOp s (ctx s) 0 .i64 (.lit64 0x500000001) = some ((0x500000001#64).setWidth 96) ∧
      (0x500000001#64).toNat / 2 ^ 32 = table1.cur ∧ table1.prev = some ((0x400000001#64).toNat / 2 ^ 32) ∧ 2 ≤ table1.refPrev ∧ 0 < table1.refCur ∧
      table1.prev ≠ some ((0x300000001#64).toNat / 2 ^ 32)) ∧
    (presentIn (table1.bankCur.getD 0 []) = [(0, 1), (2, 3)] ∧ [(0, 1), (2, 3)][0xFFFFFFFF * 2 / 2 ^ 32]? = some (2, 3)) :=
  ⟨⟨rfl, rfl, rfl, rfl, by decide, by decide, by decide +kernel⟩, ⟨rfl, rfl, rfl, by decide, by decide, by decide, by decide, by decide⟩, by decide +kernel, by decide +kernel⟩
theorem witness_ExpertLookups : [0, 2] = (List.range 8).filter (fun n => ((entryOf table1.bankCur 0).getD n none).isSome) ∧ (entryOf table1.bankCur 0).length ≤ 8 ∧
    [0, 2] ≠ [] ∧ [0, 2][0xFFFFFFFF % 2 ^ 32 * 2 / 2 ^ 32]? = some 2 ∧ (entryOf table1.bankCur 0).getD 2 none = some 3 := by decide +kernel
/-- A stamp of the current version and one of neither, counts 0, 4 and 17, and a ring with room and without. -/
theorem witness_ReplicaMerges : let s := withTable (eng (ring1 1 0 0) none)
    (Runs s (ctx s) ∧ (ctx s).oneHalf = true ∧ dropHold (ctx s) s = s ∧ (ctx s).lanes = [0] ∧ (ctx s).helper 0 = false ∧ ((ctx s).lane? 0).isSome ∧
      (ctx s).iss.bind = none ∧ inMask (ctx s).w.issued 0 = false ∧ s.table 1 0 = some table1 ∧ 0 < table1.nexp ∧ handleOp (ctx s) 0 18 = some 0x10000 ∧
      s.group? 1 = some (ctx s).g ∧ (ctx s).g.handleOf 0x10000 = some 0 ∧ evalOp s (ctx s) 0 .i64 (.lit64 0x500000001) = some ((0x500000001#64).setWidth 96) ∧
      (∀ n ∈ [0, 4, 17], evalOp s (ctx s) 0 .i32 (.imm (BitVec.ofNat 30 n)) = some (BitVec.ofNat 96 n))) ∧
    (16 * 4 ≤ table1.gslotb ∧ ¬17 * 4 ≤ table1.gslotb ∧ s.cmdRoom (ctx s).g 0 2 false = true ∧
      (let s := withTable (eng (ring1 2 0 0) none); s.cmdRoom (ctx s).g 0 2 false = false)) :=
  ⟨⟨rfl, rfl, rfl, rfl, rfl, rfl, rfl, rfl, rfl, by decide, rfl, rfl, rfl, rfl, by decide +kernel⟩, by decide, by decide, by decide +kernel, by decide +kernel⟩


/-! ### Call gates and the native form -/

/-- The lane of `s1` with a gate entry 0 of its domain, to function 1 of module 0, that takes one argument. -/
def gated : State :=
  { s1 with modules := [{ prog with gates := [(0, 1, 1)] }]
            mem := [(hostKey 0, 7), (hostKey 1, 1), (hostKey 8, 64), (hostKey 12, 1), (hostKey 18, 1)] }
def gate1 : GateEntry := ⟨7, 1, 0, 0, 64, 1, 0x10000, true⟩
/-- The state in which the gate context 2 of a call of `gated` has started. -/
def called (args : List Opnd) : State := after (.gatecall .dIn (.imm 0) (.val 7) (.imm 4) args) gated
/-- The one lane of a native wave with some registers, its run in slot 0 of line 5. -/
def nat1 (r : NRegs) (loop : Option Loop) (pend : List Nat) (xs : List Xlate) : State :=
  { base with groups := [group 0x40000 [{ wave [lane vals] with native := some ⟨[(0, ⟨320, [], []⟩)], r, loop, pend, []⟩ }]]
              issue := some ⟨1, 0, 1, false, 99, some ⟨[], .none, r, 0, 5, 0, 0⟩, none⟩
              nextId := 2
              clusters := [(16, { ClusterSt.reset with xlates := xs })] }
def regs1 : NRegs := ⟨[(1, 0x1122334455667788)], [(2 * 32, 9), (3 * 32, 7)], [(1, 1)], [], []⟩
def regsAfter (o : Out) : Option NRegs := match o with | .next t => ((t.wave? 1 0).bind (·.native)).map (·.regs) | _ => none

/-- A call of an entry that is valid starts the gate context, whose lane has its argument; a gate without entry, a count that
differs from the offer, a buffer too long, and `gateret` outside a gate raise GATE with reasons 1, 2, 4 and 7 (20 R438 to R440). -/
theorem test_gates : holdsAfter (exec (.gatecall .dIn (.imm 0) (.val 7) (.imm 4) [.val 11]) gated) = some [.gateRun 2] ∧
    trapCode (exec (.gatecall .dIn (.imm 1) (.val 7) (.imm 4) [.val 11]) gated) = some (8, 1 + 256) ∧
    trapCode (exec (.gatecall .dIn (.imm 0) (.val 7) (.imm 4) []) gated) = some (8, 256 * 2) ∧
    trapCode (exec (.gatecall .dIn (.imm 0) (.val 7) (.imm 65) [.val 11]) gated) = some (8, 256 * 4) ∧
    trapCode (exec (.gateret (.val 11)) s1) = some (8, 256 * 7) ∧
    ((called [.val 11]).lane? 2 0 0).map (fun x => x.top.vals.map fun q => q.2.bits.toNat) = some [5, 0x10000, 4] := by decide +kernel
/-- `nmovs` takes the low 4 bytes, `nlit` places 24 bits, `nvtos` reads lane 0, `nmask` writes the lane's bit, `nlcset` sets TRIP,
`nland` lets the vector results land, and `ntrap` raises ILLEGAL_OPCODE (15 R342 to R350). -/
theorem test_native :
    (regsAfter (exec (.nmovs ⟨0, 2, 0, 1, 4, 0⟩) (nat1 regs1 none [] []))).map (fun r => (r.sReg 4).toNat) = some 0x55667788 ∧
    (regsAfter (exec (.nlit 1 false 1 0xABCDEF 0 0) (nat1 regs1 none [] []))).map (fun r => (r.sReg 1).toNat) = some 0x1122ABCDEF667788 ∧
    (regsAfter (exec (.nvtos ⟨0, 0, 0, 0, 2, 5, false, some .i32, none⟩) (nat1 regs1 none [] []))).map (fun r => (r.sReg 5).toNat) = some 9 ∧
    (regsAfter (exec (.nmask ⟨0, 0, 0, 0, 2, 5, false, some .i32, none⟩) (nat1 regs1 none [] []))).map (fun r => (r.mReg 5).toNat) = some 1 ∧
    (regsAfter (exec (.nlcset 2 0 0 0 1) (nat1 regs1 none [] []))).map (fun r => (r.trip 2).toNat) = some 0x55667788 ∧
    trapCode (exec .ntrap (nat1 regs1 none [] [])) = some (1, 0) := by decide +kernel

/-- A call outside a gate and in one, an entry and none, an offer, room and no room, buffers that pass, and a call whose context has
started; a `gateret` in a gate and outside. -/
theorem witness_CallGates :
    (let s := gated; Runs s (ctx s) ∧ (ctx s).oneHalf = true ∧ dropHold (ctx s) s = s ∧ (ctx s).ordinary = [0] ∧ (ctx s).iss.bind = none ∧
      evalOp s (ctx s) 0 .i32 (.imm 0) = some 0 ∧ gateArgs s (ctx s) (.val 7) (.imm 4) [.val 11] [0] = some [⟨0, 0x400000, 4, [5]⟩] ∧
      (ctx s).released = none ∧ (ctx s).g.gate = none ∧ s.gateOf 1 1 = none ∧ s.gateOf 1 0 = some gate1 ∧ s.offerOf gate1 = some (1, caller) ∧
      s.gateReady (ctx s).g gate1 = true ∧ bufChecks s (ctx s) .dIn [⟨0, 0x400000, 4, [5]⟩] = none ∧ s.group? s.nextId = none ∧ gate1.flags / 2 % 2 = 1) ∧
    (let w := { gated with nextId := 3, groups := gated.groups ++ [newGate (ctx gated) 2 0 gate1 caller 0] }
     (w.roomOn 1 ⟨1, 0, false⟩ false (128, 0)).isSome = true ∧
     (match fillBufs (ctx gated) ⟨1, 0, 1, 0, 0, 32, 0x10000, 64, 1000⟩ 1 .dIn [⟨0, 0x400000, 4, [5]⟩] w with | .ok _ => true | .error _ => false) = true) ∧
    (let w : State := { gated with pregs := gated.pregs.map fun q => if q.1 = 0x28000 then (q.1, 0x0000002020804081#64) else q
                                   groups := gated.groups ++ [newGate (ctx gated) 2 0 gate1 caller 0] }
     w.roomOn 1 ⟨1, 0, false⟩ false (128, 0) = none) ∧
    (let s := called [.val 11]; (match s.wave? 1 0 with | some w => w.holds.map (·.cond) == [.gateRun 2] | none => false) = true ∧
      ((s.group? 2).bind (·.gate)).map (·.reason) = some 0 ∧ ((s.group? 2).map fun g => g.waves.length) = some 1) ∧
    (Runs s1 c1 ∧ c1.ordinary = [0] ∧ Operand s1 c1 .i64 (.val 11) (k 5) ∧ c1.g.gate = none) ∧
    (let s : State := { s1 with groups := [{ group 0x40000 [wave [lane vals]] with gate := some ⟨7, 0, 1, 0, 0, 32, 0x10000, 64, 0⟩ }] }
     Runs s (ctx s) ∧ (ctx s).ordinary = [0] ∧ Operand s (ctx s) .i64 (.val 11) (k 5) ∧ (ctx s).g.gate ≠ none) :=
  ⟨⟨rfl, rfl, rfl, rfl, rfl, rfl, rfl, rfl, rfl, by decide +kernel, by decide +kernel, by decide +kernel, by decide +kernel, by decide +kernel, rfl, by decide⟩,
    by decide +kernel, by decide +kernel, by decide +kernel, ⟨rfl, rfl, operand_of (by decide +kernel), rfl⟩, rfl, rfl, operand_of (by decide +kernel), by decide⟩
theorem witness_NativeMoves : let s := nat1 regs1 none [] []
    Runs s (ctx s) ∧ (ctx s).w.native.isSome ∧ (ctx s).lanes.filter (fun l => (0 : BitVec 3) == 0 || inMask ((ctx s).regs.mReg 0) l) = [0] ∧
    8 ≤ (8 : BitVec 7).toNat ∧ (2 : BitVec 2) ≠ 3 ∧ s.mayUse 1 ((ctx s).w.spb + 128 * 5) = true ∧ s.poisoned ((ctx s).w.spb + 128 * 5) = false ∧
    s.poisoned ((ctx s).w.spb + 128 * 5 + 64) = false := by
  refine ⟨rfl, rfl, ?_⟩
  decide +kernel
theorem witness_NativeControl : let s := nat1 regs1 none [3] [⟨1, ⟨1, 0, 0, 0, 0, false, false, false, 0, 64, 16, 8⟩, 320, [0], [⟨5, 0, 0, 0, 0, 3, 0, 0, []⟩], false, 0, false, 0, []⟩]
    Runs s (ctx s) ∧ (ctx s).w.native.isSome ∧ (ctx s).iss.bind.isSome ∧ (ctx s).ordinary = [0] ∧
    boundEntry s (ctx s) ⟨[], .none, regs1, 0, 5, 0, 0⟩ = some ⟨5, 0, 0, 0, 0, 3, 0, 0, []⟩ ∧ (regs1.trip 0).toNat = 0 ∧
    (({ regs1 with lc := [(0, 3)] } : NRegs).trip 0).toNat ≠ 0 := by
  refine ⟨rfl, rfl, rfl, rfl, ?_⟩
  decide +kernel


/-! ### Runs, launches and saves -/

/-- Wave 0 of group 1 with two lanes: lane 0 an old run, lane 1 the chosen one. -/
def oldRun : State := { s1 with groups := [group 0x40000 [{ wave [{ lane vals with age := 64 }, { lane vals with frames := [⟨0, 1, vals⟩] }] with chosen := 2 }]] }
/-- Lane 0 ejected and on a gondola, lane 1 ejected and queued, with the set of their branch. -/
def ejected : State :=
  { s1 with groups := [group 0x40000 [{ wave [{ lane vals with ejected := true }, { lane vals with ejected := true }] with
              ejSets := [⟨5, 0, 0, [], 0, 3, 0, true, false, 0⟩] }]]
            clusters := [(16, { ClusterSt.reset with ejq := [⟨1, 0, 0, some 0⟩, ⟨1, 0, 1, none⟩] })] }
/-- Lane 0 held for a condition. -/
def heldFor (x : Cond) : State :=
  { s1 with groups := [group 0x40000 [{ wave [{ lane vals with park := .held }] with holds := [⟨1, x, 0, false⟩] }]]
            cores := [(128, { CoreSt.reset with mxWait := [1] })] }

theorem witness_RunEvents :
    (let g := group 0x40000 [{ wave [{ lane vals with age := 64 }, { lane vals with frames := [⟨0, 1, vals⟩] }] with chosen := 2 }]
     oldRun.group? 1 = some g ∧ g.w16 = false ∧ ∀ w, g.waves[0]? = some w → (w.oldRuns g 0).map (·.mask) = [1]) ∧
    ((∀ x ∈ [(⟨1, 0, 0, some 0⟩ : EjLane)], x.gondola ≠ none) ∧ (ejected.cluster 16).ejq = [⟨1, 0, 0, some 0⟩] ++ ⟨1, 0, 1, none⟩ :: [] ∧
      ((ejected.cluster 16).ejq.filter fun x => x.gondola == some 0).length < 4 ∧ (ejected.lane? 1 0 0).map (fun x => x.ejected && x.alive) = some true ∧
      field (ejected.dreg 1 0x148) 0 1 = 0 ∧ (ejected.wave? 1 0).map (fun w => w.ejSets.map fun e => e.timerOn && !e.timedOut && e.away != 0) = some [true]) ∧
    (let s := heldFor .turn; (match s.group? 1 with | some g => s.condMet g 0 ⟨1, .turn, 0, false⟩ | none => false) = true ∧ (s.coreSt 128).mxWait = [1] ∧ s.mxPasses 128 = true) ∧
    (let u : State := { heldFor (.peer [(0, 0x400000)]) with groups := [group 0x40000 [wave [lane vals]]], issue := some ⟨1, 0, 1, false, 0, none, none⟩ }
     Runs u (ctx u) ∧ [(0, (0x400000 : DWord))].lookup 0 = some 0x400000) :=
  ⟨⟨rfl, rfl, by decide +kernel⟩, by decide +kernel, by decide +kernel, rfl, rfl⟩

/-- A launch of 2 groups of function 1 of module 0. -/
def launch1 (id cls : Nat) : Launch :=
  { id, dom := 1, queue := 0, ring := 0, cls, marker := false, modH := 0, kernel := 1, gridx := 2, gridy := 1, gridz := 1, extent := 1, args := [],
    cost := 1, waits := [(0, 0, false)], sigAddr := 0, sigInc := 0, barrier := false, statusAddr := 0x10000, code := 0, late := false,
    overrun := false, killed := false, next := 0, ended := 0, used := 0, charged := 0, background := false, since := 0 }
/-- Core 128 in partition 0 with entry 0 for domain 1, a module whose function 1 has a header word, launches 7 and 8, and group 1 of launch 7. -/
def launching (dpra hdr : DWord) : State :=
  { base with pregs := [(0x400, 1#64), (0x4008, 0x20#64), (0x10000, 0x81#64), (0x28000, dpra), (0x28008, 0x280000#64)]
              groups := [{ group hdr [wave [lane vals]] with launch := 7, cls := 3 }]
              modules := [{ prog with textLo := 0x800000, textHi := 0x803000, funcs := [tri, { caller with hdr }] }]
              launches := [launch1 7 3, launch1 8 1]
              nextId := 9 }
/-- A queue at 0x1000 whose descriptor 0 stands at 0x2000, and a launch or a marker there. -/
def admitting (kind : Nat) (latch : Bool) : State :=
  let s := withQueue 1 (launching 0x2020820081 0)
  { (s.modDom 1 fun x => { x with queues := x.queues.set 0 ⟨true, 1, 0, 0, 0x2000, 4, 1, false, false, none⟩, paused := latch }) with
    mem := s.mem ++ (if kind = 0 then [] else [(0x2000, BitVec.ofNat 8 kind)]) ++ [(0x200C, 1), (0x2010, 2), (0x2014, 1), (0x2018, 1), (0x201C, 1)] }

/-- A paused domain's doorbell is latched, and another is read; a launch is admitted, one of KIND 2 is rejected. -/
theorem test_launches :
    (match exec (.doorbell 1 0) (admitting 0 true) with | .next t => (t.dom 1).latched == [0] | _ => false) = true ∧
    (match exec (.doorbell 1 0) (admitting 0 false) with | .next t => t.agenda == [.admission 1 0] | _ => false) = true ∧
    (match exec (.admission 1 0) (admitting 0 false) with | .next t => t.launches.map (·.id) == [7, 8, 9] | _ => false) = true ∧
    (match exec (.admission 1 0) (admitting 2 false) with | .next t => t.launches.length == 2 && (t.queue 1 0).state == 2 | _ => false) = true := by decide +kernel

/-- A launch whose groups fit in the domain's entry, one that waits for a pre-emption, a troupe of 2, a group that has ended, the last
group of a launch, a launch with its groups ended, and an overrun. -/
theorem witness_LaunchEvents :
    (0 < 32 ∧ 0 < (base.dom 1).queues.length ∧ base.domValid 1 = true ∧ (base.dom 1).ifstate ≠ .error) ∧
    ((admitting 0 true).dom 1).paused = true ∧ ((admitting 0 false).dom 1).paused = false ∧
    (match (admitting 0 false).readQueue 1 0 with | .ok x => x.ok && x.state != 2 && x.enable && x.pending != 0 | .error _ => false) = true ∧
    (let s := admitting 0 false; let y := s.queue 1 0; y.enabled = true ∧ y.state ≠ 2 ∧ y.rdidx ≠ y.wridx ∧ cpPtr y.ring (128 * (y.rdidx % 2 ^ y.logn)) = 0x2000 ∧
      (match s.headOf 1 0 with
       | .ok bs => s.rejection 1 0 (ldesc bs) == none && !(ldesc bs).barrier && (ldesc bs).cost == 0
       | .error _ => false) = true) ∧
    (let s := admitting 2 false; (match s.headOf 1 0 with | .ok bs => s.rejection 1 0 (ldesc bs) == some 8 | .error _ => false) = true) ∧
    (base.doms.filter fun p => p.1 == 1).length = 1 ∧
    (let s := launching 0x2020820081 0; s.launch? 8 = some (launch1 8 1) ∧ ((s.module? 1 0).bind (·.func? 1)).map (·.hdr) = some 0 ∧
      s.placing (launch1 8 1) = true ∧ (s.findRoom 1 1 8 (needOf 0) (s.placesOf (s.partOf 1))).isSome) ∧
    (let s := launching 0x2020104081 0; s.placing (launch1 8 1) = true ∧ s.findRoom 1 1 8 (needOf 0) (s.placesOf (s.partOf 1)) = none ∧
      (s.preemptPlan 1 1 (needOf 0) (s.placesOf (s.partOf 1))).map (fun vs => vs.map (·.gid)) = some [1]) ∧
    (let s := launching 0x2020820081 0x8000; ((s.module? 1 0).bind (·.func? 1)).map (·.hdr) = some 0x8000 ∧ min (field (0x8000 : DWord) 14 4) ((launch1 8 1).total - 0) = 2 ∧
      clustersOf (s.placesOf (s.partOf 1)) = [16] ∧
      (putTroupe (launch1 8 1) { caller with hdr := 0x8000 } 0 2 ((s.placesOf 0).filter fun p => p.1 / 8 == 16) 2 s).isSome) ∧
    (let g := { group 0 [wave [{ lane vals with st := .exited }]] with launch := 7 }; g.gate = none ∧ g.allEnded = true ∧ g.st ≠ .ended ∧
      (launching 0x2020820081 0).quiet 1 = true ∧ 1 + 1 = (launch1 7 3).total) ∧
    (let l := { launch1 7 3 with ended := 2 }; (l.waits.all fun w => w.2.2 || w.1 == 0) = true ∧ l.total ≤ l.ended ∧ l.sigAddr = 0 ∧
      (match (launching 0x2020820081 0).devWrite 1 l.statusAddr (leBytes 4 3) 4 with | .ok _ => true | .error _ => false) = true) ∧
    (let l := { launch1 7 3 with used := 4001 }; l.marker = false ∧ l.measured = 5 ∧ l.cost + l.charged < l.measured ∧ ¬l.excess ≤ l.charged ∧
      (launch1 7 3).excess ≤ (launch1 7 3).charged) := by decide +kernel

/-- Group 1 of `launching` with a wave that is asked to stop, stopped, or runs, in a place of its life. -/
def stopping (st : GroupSt) (why : StopWhy) (stopped : Bool) : Group :=
  { group 0 [{ wave [lane vals] with stopAsked := true, stopped := stopped }] with st, why }

/-- A group to stop on a core that saves and one that does not, a wave asked to stop, the last stopped one, a missed deadline, and saved
groups with and without room. -/
theorem witness_StopAndSaveEvents :
    ((group 0 [wave [lane vals]]).st = .resident ∧ (group 0 [wave [lane vals]]).gate = none ∧ (s1.coreSt 128).saving = false ∧
      ({ CoreSt.reset with saving := true } : CoreSt).saving = true) ∧
    (let g := stopping .resident (.preempt 0) false; g.st = .resident ∧ (∀ w ∈ g.waves, w.stopAsked = true ∧ w.native = none ∧ w.gond = [] ∧ w.stopped = false) ∧
      g.why ≠ .none ∧ g.why ≠ .gang ∧ g.allStopped = false ∧ ∀ w ∈ g.waves, w.lanes.length ≤ 32) ∧
    (let g := stopping .resident (.preempt 0) true; g.allStopped = true ∧ g.allEnded = false ∧ ∀ x ∈ s1.gateCalls 1, x.gid ≠ 1) ∧
    (let g := stopping .saved .none true
     let s := { launching 0x2020820081 0 with groups := [g] }
     s.group? 1 = some g ∧ (s.dom 1).paused = false ∧ (s.module? 1 0).isSome ∧ g.why = .none ∧ (s.restoreRoom g 128 0).isSome ∧
      s.leaseFits g 128 0 = true ∧ ∀ w ∈ g.waves, w.pendAct = none) := by decide +kernel

/-- A saved group comes back on the core with room; after its stop a wave's group saves (17 R387 to R391). -/
theorem test_saves :
    (match exec (.restore 1 128 0 true) { launching 0x2020820081 0 with groups := [stopping .saved .none true] } with
     | .next t => (t.group? 1).map (·.st) == some .resident
     | _ => false) = true ∧
    (match exec (.waveStop 1 0) { s1 with groups := [stopping .resident (.preempt 0) false] } with
     | .next t => t.agenda == [.saveComplete 1] && (t.coreSt 128).saving
     | _ => false) = true ∧
    (match exec (.saveComplete 1) { s1 with groups := [stopping .resident (.preempt 0) true] } with
     | .next t => (t.group? 1).map (·.st) == some .saved
     | _ => false) = true := by decide +kernel


/-! ### Ports, links and the package -/

/-- Flits with SEQ 0 on VC 0, a transaction and a NAK with containment identifier 0, and a transaction with that of domain 0, whose first payload bytes make the CRC 0. -/
def flit1 : BitVec 2048 := 0x6B97E50CF94C9CE50000000100000000
def flit2 : BitVec 2048 := 0x451821B01978C8890000000200000000
def flit3 : BitVec 2048 := 0x19232A25A83BCACF000F800100000000
theorem crc_zeros (n : Nat) : (List.replicate n (0 : Byte)).foldl (fun c b => crcBits 8 (c ^^^ (BitVec.ofNat 64 b.toNat <<< 56))) 0 = 0 := by
  induction n with
  | zero => rfl
  | succ n ih => rw [List.replicate_succ, List.foldl_cons, show crcBits 8 ((0 : DWord) ^^^ (BitVec.ofNat 64 (0 : Byte).toNat <<< 56)) = 0 from by decide]; exact ih
theorem flit_ok (f : BitVec 2048) (bs : List Byte) (h : ((List.range 248).map (flitByte f) == bs ++ List.replicate 232 0) = true)
    (hc : (crc64 bs == 0) = true) (he : (f.extractLsb' 1984 64 == 0) = true) : flitOk f = true := by
  rw [beq_iff_eq] at h hc he
  unfold flitOk crc64
  rw [h, List.foldl_append, he, show bs.foldl (fun c b => crcBits 8 (c ^^^ (BitVec.ofNat 64 b.toNat <<< 56))) 0 = 0 from hc, crc_zeros]
  rfl
/-- CRC-64 of three flits, worked outside the model (19 R407). -/
theorem test_flit1_crc : flitOk flit1 = true :=
  flit_ok _ [0, 0, 0, 0, 1, 0, 0, 0, 0xE5, 0x9C, 0x4C, 0xF9, 0x0C, 0xE5, 0x97, 0x6B] (by decide +kernel) (by decide +kernel) (by decide +kernel)
theorem test_flit2_crc : flitOk flit2 = true :=
  flit_ok _ [0, 0, 0, 0, 2, 0, 0, 0, 0x89, 0xC8, 0x78, 0x19, 0xB0, 0x21, 0x18, 0x45] (by decide +kernel) (by decide +kernel) (by decide +kernel)
theorem test_flit3_crc : flitOk flit3 = true :=
  flit_ok _ [0, 0, 0, 0, 1, 0x80, 0x0F, 0, 0xCF, 0xCA, 0x3B, 0xA8, 0x25, 0x2A, 0x23, 0x19] (by decide +kernel) (by decide +kernel) (by decide +kernel)
/-- Entries of domains 1 and 2 at the L2 port of core 128; domain 2 has borrowed 3 tokens of domain 1. -/
def ported (own : Nat) : State :=
  { base with pregs := base.pregs ++ [(0x28020, 0x82)]
              cores := [(128, { CoreSt.reset with buckets := [(1, ⟨own, [], 0, 0, 0, false⟩), (2, ⟨0, [(1, 3)], 0, 0, 0, false⟩)] })] }
/-- Each port of the Headframe with some tokens for VC 0. -/
def linked (own : Nat) : State :=
  { s1 with vcs := (List.range 14).map fun k => (66 * (k + 1), { Vc.reset with bucket := { Vc.reset.bucket with own } }) }
def railed (st : Nat) : State := { s1 with rails := [(16, { Rail.reset with st, buf := [(0, flit1), (1, flit1)] })] }

/-- A port with a lender and a borrower, own tokens and none; a split with a group's banks and without; flits of
two kinds, contained and not, at ports with a token and without; rails in service and retraining. -/
theorem witness_PortEvents : flitOk flit1 = true ∧ flitOk flit2 = true ∧ flitOk flit3 = true ∧ (1 ≤ flitPort flit3 ∧ flitPort flit3 ≤ 14) ∧
    ((∀ x ∈ base.l2Port 128, x.2.2.borrowed = [] ∧ x.2.2.aside = 0 ∧ x.2.2.waiting = 0) ∧ base.l2Port 128 ≠ []) ∧
    ((∃ x ∈ (ported 2).l2Port 128, x.1 = 1 ∧ x.2.2.borrowed = [] ∧ 0 < x.2.2.own ∧ x.2.2.waiting = 0) ∧
      (∃ x ∈ (ported 0).l2Port 128, x.1 = 1 ∧ x.2.2.borrowed = [] ∧ x.2.2.own = 0) ∧
      ∃ y ∈ (ported 2).l2Port 128, (1, 3) ∈ y.2.2.borrowed ∧
      ∀ x ∈ (ported 2).l2Port 128, x.2.2.waiting = 0) ∧
    (∀ v < 66, (base.vc 0 v).bucket.borrowed = [] ∧ (base.vc 0 v).bucket.aside = 0 ∧ (base.vc 0 v).bucket.waiting = 0) ∧
    ((8 ≤ if 1 ≤ 128 / 128 ∧ 128 / 128 ≤ 6 then 8 else 4) ∧ (∀ g ∈ base.groups, g.st = .resident → g.core = 128 → g.nbanks = 0) ∧
      ∃ g ∈ s1.groups, g.st = .resident ∧ g.core = 128 ∧ g.nbanks ≠ 0) ∧
    ((flitHead flit1).clean = true ∧ (flitHead flit1).ackv = false ∧ (flitHead flit1).kind = 1 ∧ (flitHead flit1).seq = (s1.rail 16).expect ∧
      (flitHead flit2).clean = true ∧ (flitHead flit2).ackv = false ∧ (flitHead flit2).kind = 2 ∧
      s1.contained (flitHead flit1) = false ∧ (flitHead flit3).clean = true ∧ (flitHead flit3).ackv = false ∧ (flitHead flit3).kind = 1 ∧
      s1.contained (flitHead flit3) = true ∧ (flitHead flit3).vc = 0 ∧ (flitHead flit3).seq = (s1.rail 0).expect) ∧
    ([0, 1].all fun own => (List.range 14).all fun k => ((linked own).vc (k + 1) 0).bucket.own == own && ((linked own).vc (k + 1) 0).bucket.waiting == 0 &&
      ((linked own).vc (k + 1) 0).bucket.borrowed.isEmpty && ((linked own).vc (k + 1) 0).held.isEmpty &&
      ((linked own).linkPort (k + 1)).all fun x => x.2.2.borrowed.isEmpty) = true ∧
    ((railed 0).otherRails 16 ≠ [] ∧ ((railed 1).rail 16).st = 1 ∧ (∃ x ∈ ((railed 0).rail 16).buf, x.1 = 1) ∧ 1 ≤ 16 / 16 ∧ 16 / 16 ≤ 14) :=
  ⟨test_flit1_crc, test_flit2_crc, test_flit3_crc, ⟨by unfold flitPort; omega, by unfold flitPort; omega⟩, by decide +kernel⟩
/-- Group 1 in a launch whose migration descriptor at host address 0 names core 128, and a gang entry of its domain on die 1. -/
def migrating (core : Nat) (st : GroupSt) : State :=
  let s := launching 0x2020820081 0
  { s with groups := [{ group 0 [wave [lane vals]] with st }]
           mem := [(hostKey 0, 1), (hostKey 1, 1)] ++ (if core = 0 then [] else [(hostKey 3, BitVec.ofNat 8 core)])
           pregs := [(0x400, 1#64), (0x4008, 0x20#64), (0x4600, BitVec.ofNat 64 (2 ^ 48 + 2 ^ 40 + 10 * 2 ^ 20 + 100)), (0x4800, 0x281#64),
             (0x10000, 0x81#64), (0x28000, 0x2020820081#64), (0x28008, 0x280000#64)]
           l2drops := [(1, 2, 0x2000)], gang := ⟨1, 0, [(1, 5)]⟩ }
/-- A core's and a slice's place entry, with and without what they serve; a descriptor with room, one that names core 130, and one of
another domain's group; a gang entry, its tick, and the control register at the ends of its fields. -/
theorem witness_PackageEvents :
    (∀ s ∈ [base, s1, migrating 0 .resident], ∀ g ∈ s.groups, ∀ w ∈ g.waves, w.lanes.length ≤ 32) ∧
    (placeAt (placeOff 1 .core 0) = some (1, .core, 0) ∧ placeAt (placeOff 1 .slice 3) = some (1, .slice, 3) ∧ field (3 : DWord) 12 3 = 0 ∧
      base.quiesced 1 .core 0 = true ∧ s1.quiesced 1 .core 0 = false ∧ ({ base with dropped := [259] } : State).quiesced 1 .slice 3 = true) ∧
    ((∀ j ∈ placeMates 1 .slice 3, j ≠ 3 → field (base.preg (placeOff 1 .slice j)) 0 12 ≠ field (3 : DWord) 0 12) ∧ (∃ j ∈ placeMates 1 .slice 3, j ≠ 3) ∧
      (0x4000 : DWord).toNat < 2 ^ 16 ∧ field (0x1000 : DWord) 12 3 ≠ 0) ∧
    ((migrating 0 .resident).l2drops = [(1, 2, 0x2000)] ∧
      (match ({ migrating 0 .resident with l2drops := [], dropped := [258] } : State).devWrite 0 0x2000 (leBytes 8 1) 8 with | .ok _ => true | .error _ => false) = true) ∧
    (base.stampOf 0x400000 = some 1) ∧
    ([(0, GroupSt.resident), (2, .resident), (0, .saved)].all fun p => let s := migrating p.1 p.2
      (match s.devRead 0 0 32 32 with
       | .ok bs => (mdesc bs).ok && (mdesc bs).dom == 1 && (mdesc bs).lin == 0 && (mdesc bs).launch == 0 && (mdesc bs).core == 128 + p.1
       | .error _ => false) &&
      s.groups.all fun g => g.dom == 1 && g.lin == 0 && g.gate == none && s.launchWord g == 0 && !g.allEnded && g.troupe == none && g.why == .none &&
        !s.coreAbsent 128 && (s.moveRoom g 128).isSome && s.moveRoom g 130 == none) = true ∧
    (match base.devRead 0 0 32 32 with | .ok bs => (mdesc bs).ok == false | .error _ => false) = true ∧
    (let s := migrating 0 .resident; field (s.preg 0x4600) 48 1 = 1 ∧ 1 % field (s.preg 0x4600) 40 8 = 0 ∧ s.gangEntry 0 = some (1, 2) ∧ 1 ∈ gangDies 2 ∧
      (1, 5) ∈ s.gang.missed ∧ 5 ≠ s.gangOut ∧
      ({ s with groups := [{ group 0 [wave [lane vals]] with why := .gang }] } : State).gangUnsaved s.gangOut 1 = true) ∧
    ([BitVec.ofNat 64 (2 ^ 48 + 2 ^ 40 + 10 * 2 ^ 20 + 100), BitVec.ofNat 64 (64 * 2 ^ 40 + 1000 * 2 ^ 20 + 1001)].all fun v => decide (
      100 ≤ field v 0 20 ∧ 10 ≤ field v 20 20 ∧ field v 20 20 ≤ 1000 ∧ field v 20 20 < field v 0 20 ∧ 1 ≤ field v 40 8 ∧ field v 40 8 ≤ 64 ∧ v.toNat < 2 ^ 49)) = true := by
  refine ⟨?_, ?_, ?_, ?_, ?_, ?_, ?_, ?_, ?_⟩ <;> decide +kernel


/-! ### Records, engines and translations -/

/-- A fault record of a code at lane 0 of group 1. -/
def fault1 (code : Nat) : FaultRec :=
  { code, cls := 1, lane := 0, check := 0, acc := 0, dom := 1, flags := 0, addr := 0, func := 0, index := 0, ifunc := 0, iindex := 0, group := 0,
    wave := 0, iwave := 0, depth := 1, dead := 0, run := 1, native := 0, launch := 0 }
/-- Wave 0 stopped at SEQ 5 of domain 1's queue, whose ring of 16 records at 0x40000 has n of them unread; the same record for a hypervisor, a
launch that the debugger selects, a page table at 0x100000 and an invalidation. -/
def trapped (code n : Nat) (st : GroupSt) (grant : DWord) : State :=
  let s := launching 0x2020820081 0
  { s with
    groups := [{ group 0 [{ wave [lane vals] with trap := some ⟨1, 5, none, fault1 code⟩ }] with st, launch := 7 }]
    launches := [{ launch1 7 3 with code := 2 }]
    dregs := [(0x10110, 0x40004), (0x10118, BitVec.ofNat 64 n)] ++ (if grant = 0 then [] else [(0x101B0, grant)])
    mem := [(0x100000, 1), (0x100002, 0x11), (0x110010, 0x85), (0x110013, 0x20)]
    doms := [(0, { Dom.reset with hyp := [(⟨fault1 code, 5, 1, 0⟩, 1)] }),
      (1, { Dom.reset with ptroot := 0x100000, trapPend := [⟨fault1 code, 5, 1, 0⟩], tlb := [⟨0, 2 ^ 30, 0, true, true, true, false⟩],
                           tlbPend := [(0x2000, 0, 65536), (0x2000, 0, 65536)] })] }

/-- A ring with room and a full one; a stopped wave whose group is resident, and saved; records for a hypervisor; a wave that the debugger
selects with its grant and without; a walk, and invalidations. -/
theorem witness_TrapServiceEvents :
    (let s := trapped 11 0 .resident 4; ((s.dom 1).trapPend ≠ [] ∧ s.ringSet 1 trapRing = true ∧ s.ringFull 1 trapRing = false) ∧
      (match s.ringWrite 1 trapRing ((fault1 11).bytes 5) with | .ok _ => true | .error _ => false) = true ∧ s.findStop 1 5 = some (1, 0) ∧
      (s.lane? 1 0 0).map (·.st) = some .live ∧ (fault1 11).lane.getLsbD 6 = false ∧ s.findStop 1 6 = none ∧
      (((s.dom 0).hyp.find? fun q => q.1.seq == 5).map (·.2)) = some 1 ∧ ((s.dom 0).hyp.find? fun q => q.1.seq == 6) = none ∧
      s.selectedWave 1 = some (1, 0) ∧ field (s.dreg 1 0x1B0) 2 1 = 1 ∧ s.walk 1 0x40000000 = .leaf ⟨0x40000000, 2 ^ 29, 0x20000000, true, false, false, false⟩ ∧
      (∀ q ∈ (s.dom 1).tlb, ¬(q.va ≤ 0x40000000 ∧ 0x40000000 < q.va + q.len)) ∧ (s.dom 1).tlbPend.length = 2) ∧
    (let s := trapped 9 16 .saved 0; s.ringSet 1 trapRing = true ∧ s.ringFull 1 trapRing = true ∧ s.findStop 1 5 = some (1, 0) ∧
      field (s.dreg 1 0x1B0) 2 1 = 0) := by decide +kernel

/-- A command 4 of group 1's handle slot 0. -/
def cmd1 (kind : CmdKind) (stg : List DWord) (phase : CmdPhase) : Cmd :=
  { id := 4, kind, dom := 1, core := 128, gid := 1, wave := 0, lane := 0, func := 0, index := 0, handle := 0, claim := 0, stg,
    locks := [⟨0x400000, 64, true, 1, 4⟩, ⟨0x400040, 64, false, 1, 4⟩], phase, code := 0, count := 0, flags := 0, addr := 0, fault := 0, check := 0,
    facc := 0, fentry := 0, csrs := [0x400000, 0x400040, 16, 0, 0, 0], comm := none, units := 0, lines := [], port := none, sent := false,
    worked := false, contribs := [(0, 0, [5, 0, 0, 0])], table := 0, version := 0, slots := [], bad := false }
/-- That command with its claim, the images of some domains in its cluster, and a communicator of one rank at 0x400080. -/
def engine (c : Cmd) (images : List Nat) : State :=
  { eng (ring1 1 0 0) none with cmds := [c], mem := [(0x400080, 1), (0x400090, 1)], clusters := [(16, { ClusterSt.reset with keImages := images })] }
def allred (phase : CmdPhase) : Cmd := cmd1 (.coll .allred) [0x400000, 0x400040, collWord 1 .i32 .max false, 0x400080] phase
/-- The state with a copy engine's firmware whose control core, which has read the command, stands at an instruction with 7 in x1 and path
registers for a copy of 16 bytes. -/
def firmed (c : Cmd) (code : List Byte) : State :=
  { engine c [] with modules := [{ prog with fwcopy := some ⟨code, [], 0⟩ }]
                     cores := [(128, { CoreSt.reset with buckets := [(1, ⟨64, [], 0, 0, 0, false⟩)]
                                                         fw := [(1, 0, ⟨0, [(1, 7)], [], [0x400000, 0x400040, 16, 0, 0, 0], false, some 4⟩)] })] }
/-- The same engine at a port without tokens. -/
def drained (s : State) : State := { s with cores := [(128, { CoreSt.reset with buckets := [(1, ⟨0, [], 0, 0, 0, false⟩)] })] }
/-- How the units of an operation of command 4 end. -/
def unitsEnd (m : Nat) (u : OneUnit) (s : State) : UnitsEnd := (runRest 4 m u s).2
def failed (e : UnitsEnd) : Bool := match e with | .stopped (.fault _) => true | _ => false

/-- An all-reduce of one rank writes its element; a copy of 20 bytes is done, and its push says so (12 R286, R303, R285). -/
theorem test_engines : bytesAt (exec (.keReduce 4) (engine { allred .running with sent := true } [1])) 4 0x400040 = some 5 ∧
    (match exec (.pathTransferDone 4) (engine (cmd1 .copy [0x400040, 0x400080, 20] .running) []) with
     | .next t => leNat (t.bytes 20 0x400040) == 1 + 2 ^ 128 && (t.cmds.map (·.count)) == [20]
     | _ => false) = true ∧
    (match exec (.enginePush 4) (engine { cmd1 .copy [0x400040, 0x400080, 20] .finished with count := 20 } []) with
     | .next t => t.cmds == [] && (t.group? 1).map (fun g => ((g.handle 0).push, (g.handle 0).codeAt 0)) == some (1, 0)
     | _ => false) = true := by decide +kernel

/-- Commands that may start, within the limits and not, with images present, absent, too many and in use; a copy done, waiting at the port and
failing, and an index outside; a collective's contributions and reduction; transfers of the firmware inside the locks and outside; a control core
at PGGO, at DONE and at an illegal instruction; a merge; a push; and a status word whose write passes and fails. -/
theorem witness_EngineEventsAndStatusWords :
    (let c := cmd1 .copy [0x400000, 0x400040, 16] .queued; (engine c []).cmd? 4 = some c ∧ (engine c []).mayStart c = true ∧ (engine c []).cmdBad c = false ∧
      (engine c []).fwKey c = none ∧ (engine { c with bad := true } []).cmdBad { c with bad := true } = true) ∧
    (let c := allred .queued; (engine c [1]).cmdBad c = false ∧ ((engine c [1]).cmdComm c).isSome ∧ (1 ∈ ((engine c [1]).cluster 16).keImages) ∧
      1 ∉ ((engine c []).cluster 16).keImages ∧ 4 ≤ ((engine c [2, 3, 4, 5]).cluster 16).keImages.length ∧ 2 ∈ ((engine c [2, 3, 4, 5]).cluster 16).keImages ∧
      1 ∉ ((engine c [2, 3, 4, 5]).cluster 16).keImages ∧ (engine c [2, 3, 4, 5]).keRuns 16 2 = false ∧
      ({ engine c [2, 3, 4, 5] with cmds := [c, { allred .running with id := 5, dom := 2 }] } : State).keRuns 16 2 = true) ∧
    (let c := cmd1 .copy [0x400040, 0x400000, 16] .running; let s := engine c []; s.customFw c = false ∧ c.sent = false ∧ c.worked = false ∧
      s.portFree c = true ∧ c.units = 0 ∧ c.lines = [] ∧ c.port = none ∧ (c.st 2).toNat = 16 ∧
      unitsEnd (s.ceUnits c).2 (s.ceUnits c).1 s = .done ∧ unitsEnd (s.ceUnits c).2 (s.ceUnits c).1 (drained s) = .waits ∧
      (match s.engineCheck (s.cmdWho c) [Part.read (ptrPlus (c.st 1) 0) 16 1, Part.write (ptrPlus (c.st 0) 0) 16 1] with
       | .ok ps => (moveLines 128 1 (linesOf ps).length s).1 == none
       | .error _ => false) = true) ∧
    (let c := cmd1 .copy [-1, 0x400000, 16] .running; let s := engine c []; failed (unitsEnd (s.ceUnits c).2 (s.ceUnits c).1 s) = true ∧
      (match s.engineCheck (s.cmdWho c) [Part.read (ptrPlus (c.st 1) 0) 16 1, Part.write (ptrPlus (c.st 0) 0) 16 1] with
       | .ok _ => false
       | .error _ => true) = true) ∧
    (let c := cmd1 .gather [0x400040, 0x400000, 2 ^ 33, 0x400080, 3, 1] .running; let s := engine c []
     unitsEnd (s.ceUnits c).2 (s.ceUnits c).1 s = .stopped (.index 1)) ∧
    (let c := { allred .running with sent := true }; let s := engine c [1]; let m : Comm := ⟨1, 0, 0, 1, 0, 0⟩
     s.cmdComm c = some m ∧ unitsEnd (m.p * sendUnits c .allred m) (sendUnit c (s.cmdWho c) m .allred) s = .done ∧ contribsIn c .allred m = true ∧
      contribsIn { c with contribs := [] } .allred m = false ∧ s.portFree c = true ∧
      unitsEnd (collCounts .allred c.kcount m).2.1 (collUnit c (s.cmdWho c) .allred m) s = .done ∧ c.worked = false) ∧
    (let c := cmd1 .copy [] .busy; let s := engine c []
     c.csrs = [0x400000, 0x400040, 16, 0, 0, 0] ∧ c.covered 0x400000 16 = true ∧ c.covered 0x400040 16 = true ∧ c.covered 0x400080 16 = false ∧
      c.covered 0x400030 32 = true ∧ (s.pathUnits { c with csrs := [0x400000, 0x400080, 16, 0, 0, 0] }).isNone = true ∧
      (match s.pathUnits c with | some (u, k, _) => unitsEnd (copyUnits k) u s == .done && unitsEnd (copyUnits k) u (drained s) == .waits | none => false) = true ∧
      (let e := { c with csrs := [0x400000, 0x80000000, 16, 0, 0, 0], locks := [⟨0, 2 ^ 40, false, 1, 4⟩] }; let s := engine e []
       match s.pathUnits e with | some (u, k, _) => failed (unitsEnd (copyUnits k) u s) | none => false) = true) ∧
    (let c := cmd1 .copy [0x400000, 0x400040, 16] .running
     (match (firmed c [0x73, 0x90, 0x50, 0x80]).fwAt c with | some (_, v, .go _) => v.csrs.take 5 == [0x400000, 0x400040, 16, 0, 0] | _ => false) = true ∧
     (match (firmed c [0x73, 0x90, 0x60, 0x80]).fwAt c with | some (_, _, .done w _) => w == 7 | _ => false) = true ∧
     (match (firmed c [0, 0, 0, 0]).fwAt c with | some (_, _, .bad) => true | _ => false) = true ∧ (engine c []).fwAt c = none) ∧
    (let c := cmd1 .merge [1, 0x400000, 0x400040] .queued; let s := engine c [1]
     s.mayStart c = true ∧ s.portFree c = true ∧
      unitsEnd (field (c.st 0) 0 32) (mergeUnit c (s.cmdWho c) (c.mergeFmt.width / 8) (c.stg.drop 1)) s = .done) ∧
    (let s := engine (cmd1 .copy [] .finished) []
     (s.group? 1).map (fun g => (decide (0 < g.handles.length), (g.handle 0).push, (g.handle 0).codes.length)) = some (true, 0, 2 ^ 1) ∧
      (match s.checkParts ⟨1, 128, 1, 0, 0, true, false, false⟩ [Part.write 0x400080 8 8] with | .ok _ => true | .error _ => false) = true ∧
      (match s.checkParts ⟨1, 128, 1, 0, 0, true, false, false⟩ [Part.write (-8) 8 8] with | .ok _ => false | .error _ => true) = true) := by
  refine ⟨?_, ?_, ?_, ?_, ?_, ?_, ?_, ?_, ?_, ?_⟩ <;> decide +kernel

/-- A translation of one line at 320 with an entry, for the key of group 1 or of an image of another generation. -/
def xlate1 (xid base : Nat) (gen : Nat) (retiring img : Bool) : Xlate :=
  ⟨xid, ⟨1, 0, 0, 0, gen, false, false, false, 0, 128, 64, 8⟩, base, [0], [⟨base / 64, 0, 0, 0, 0, 0, 0, 0, []⟩], retiring, 0, img, 0, []⟩
/-- Group 1 runs at 320 in the native form; a module, and the text of its function 0 at an address. -/
def translated (text : Nat) (xs : List Xlate) : State := { nat1 regs1 none [] xs with modules := [{ prog with funcs := [{ tri with text }, caller] }] }

/-- The key of the entry of function 0, a lawful body for it (one bundle: a safe point with the parameter in v2 that
leaves for block 1 with it and two zeros), and the same body with entries that lack the values. -/
def keyOf (entry : Nat) : XlateKey := ⟨1, 0, 0, entry, 2, false, false, false, 0, 64, 64, 8⟩
def body1 (img : Bool) : XlateBody :=
  ⟨[BitVec.ofNat 512 (1 + 0x38B * 2 ^ 400)], [⟨0, 0, 0, 0, 0, 0, 0, 0, [⟨0, .i32, 0, 2, 0⟩]⟩, ⟨0, 11, 4, 0, 0, 1, 0, 0, [⟨0, .i32, 0, 2, 0⟩, ⟨1, .i32, 7, 0, 0⟩, ⟨2, .i32, 7, 0, 0⟩]⟩],
    0, false, img⟩
def body2 : XlateBody := { body1 false with entries := [⟨0, 0, 0, 0, 0, 0, 0, 0, []⟩, ⟨0, 11, 4, 0, 0, 1, 0, 0, []⟩] }
/-- A translation of a group's key that fills the bundle area. -/
def full : Xlate := { xlate1 1 0 0 false false with lines := List.replicate 524288 0 }
theorem full_length : full.lines.length = 524288 := List.length_replicate
theorem full_base : full.base = 0 := rfl
theorem victim_of (k : ClusterSt) (x : Xlate) (h : k.xlates = [x]) (hr : x.retiring = false) : k.victim x.key.dom = some x := by
  unfold ClusterSt.victim
  by_cases hx : k.xshare x.key.dom < k.xused x.key.dom <;> simp only [h, hr, hx, List.filter_cons, List.filter_nil, Bool.not_false, decide_true, decide_false, beq_self_eq_true, if_true] <;> rfl

/-- A line that is cached and one that is not, bodies that are lawful and not, regions with room and none, text that can be read and cannot, an
image that serves, a translation to evict and one to free, and an image that has been replaced. -/
theorem witness_TranslationEvents :
    (let s := translated 0x1000 [xlate1 1 320 0 false false]; ((s.cluster 16).xlateAt 320).isSome ∧ 320 ∉ (s.cluster 16).tc ∧
      ((s.cluster 16).tc.filter fun x => x / 64 % 8192 == 320 / 64 % 8192).length < 16 ∧
      (s.module? 1 0).map (·.images) = some [] ∧ (∀ x ∈ (s.cluster 16).xlates, x.key = keyOf 0 → x.retiring = true) ∧ (s.cluster 16).mayServe (keyOf 0) = true ∧
      s.textFault (keyOf 0) (body1 false).entries = none ∧ findGap 1 (s.cluster 16).xlates = some 0 ∧
      (match s.module? 1 0 with | some m => s.regionLawful m (keyOf 0) ((s.cluster 16).coverOf (keyOf 0)) (body1 false) &&
        !(s.regionLawful m (keyOf 0) ((s.cluster 16).coverOf (keyOf 0)) body2) | none => false) = true ∧
      (((s.cluster 16).xlates.find? fun x => x.xid == 1).map (·.retiring)) = some false) ∧
    (findGap 1 [full] = none ∧ ((translated 0x1000 [full]).cluster 16).victim 1 = some full ∧ full.key ≠ keyOf 0) ∧
    ((translated (2 ^ 40) []).textFault (keyOf 0) (body1 false).entries).isSome ∧
    (let s := { translated 0x1000 [] with modules := [{ prog with images := [(keyOf 0, body1 true)] }] }
     (s.module? 1 0).map (·.images) = some [(keyOf 0, body1 true)] ∧ imageServes true (keyOf 0) (keyOf 0) = true ∧ (s.cluster 16).mayServe (keyOf 0) = true ∧
      s.textFault (keyOf 0) (body1 true).entries = none ∧ findGap 1 (s.cluster 16).xlates = some 0 ∧ (body1 true).fromImage = true) ∧
    (let s := translated 0x1000 [xlate1 1 640 0 true false]; s.inXlate 16 (xlate1 1 640 0 true false) = false ∧
      ((s.cluster 16).xlates.find? fun x => x.xid == 1 && x.retiring).isSome) ∧
    (let s := translated 0x1000 [xlate1 1 320 7 false true, { xlate1 2 640 0 false false with key := (translated 0 []).xkey (group 0x40000 []) (wave []) 0 0 0 }]
     (s.wave? 1 0).map (fun w => (w.native.isSome, w.together 0xFFFFFFFF#32)) = some (true, (1, 320)) ∧
      ((s.cluster 16).xlateAt 320).bind (fun x => x.entryAt 320 0) = some ⟨5, 0, 0, 0, 0, 0, 0, 0, []⟩ ∧
      (s.wave? 1 0).map (fun w => replaced s (group 0x40000 []) w (xlate1 1 320 7 false true) ⟨5, 0, 0, 0, 0, 0, 0, 0, []⟩) = some true) := by
  refine ⟨by decide +kernel, ⟨?_, victim_of _ full rfl rfl, by decide⟩, ?_, ?_, ?_, ?_⟩
  · simp [findGap, leastBy, full_length, full_base]
  all_goals decide +kernel

/-- Core 128 with a core register, partition 0, entry 0 of domain 1, group 1 and a reshape descriptor of a kind at host address 0. -/
def configured (core : DWord) (kind : Nat) : State :=
  { launching 0x2020820081 0 with
    pregs := [(0x400, core), (0x4008, 0x20), (0x4400, 0x414), (0x10000, 0x81), (0x28000, 0x2020820081), (0x28008, 0x280000)]
    mem := (if kind = 0 then [] else [(hostKey 0, BitVec.ofNat 8 kind)]) ++ [(hostKey 2, 1)]
    cores := [(128, { CoreSt.reset with split := 1 })] }
def inState (f : IfState) (s : State) : State := s.modDom 1 fun x => { x with ifstate := f }

/-- Values that a register takes and refuses, frozen domains and others, DPR values that take registers away and not, reshapes of each kind,
and a core whose reshape ends. -/
theorem witness_ConfigurationEvents :
    (let s := configured 1 0; 2 ^ 8 ≤ (0x181 : DWord).toNat ∧ (0x81 : DWord).toNat < 2 ^ 8 ∧ field (0x81 : DWord) 0 7 ≤ 64 ∧ 64 < field (65 : DWord) 0 7 ∧
      field (s.preg (sliceOff false 0)) 7 1 = 1 ∧ s.frozen 1 = false ∧ (inState .locked s).frozen 1 = true ∧
      ({ s with restamps := [(sliceOff false 0, 0x82, 0x2000)] } : State).restamps ≠ []) ∧
    (let s := configured 1 0; field (s.preg 0x4400) 10 1 = 1 ∧ field (0x20 : DWord) 48 16 = 0 ∧ field (0x20 : DWord) 23 9 = 0 ∧ field (0x20 : DWord) 5 1 = 1 ∧
      s.frozen 2 = false ∧ field (s.domcfg 2) 5 1 = 0 ∧ field (s.preg 0x4408) 10 1 = 0 ∧ (0x414 : DWord).toNat < 2 ^ 11 ∧ 1 ≤ field (0x414 : DWord) 0 10 ∧
      field (0x414 : DWord) 0 10 ≤ 1000 ∧ field (1001 : DWord) 0 10 = 1001) ∧
    (let s := configured 1 0; s.dpraOk 128 0 0x2020820081 = true ∧ s.dpraOk 128 1 0x82 = true ∧ s.dpraOk 128 1 0x81 = false ∧ dprbOk 128 0x280000 = true ∧ dprbOk 128 0 = false ∧
      s.l2Ok 128 0 0 = true ∧ s.l2Ok 128 0 (2 ^ 40) = false ∧ field (s.dpra 128 0) 7 1 = 1 ∧ s.takesAway 128 0 0x2020820081 = false ∧ s.takesAway 128 0 0 = true ∧
      s.dpraOk 128 0 0 = true ∧ (s.coreSt 128).reshape = none) ∧
    (let s := configured 1 0; (0x8001 : DWord).toNat < 2 ^ 33 ∧ field (0x8001 : DWord) 0 16 + field (0x8001 : DWord) 16 17 ≤ 65536 ∧ (∀ x ∈ (s.dom 1).tables, x = none) ∧
      (∀ j ≤ 64, j ≠ 1 → field (s.preg (0x4A00 + 8 * j)) 0 16 + field (s.preg (0x4A00 + 8 * j)) 16 17 ≤ field (0x8001 : DWord) 0 16) ∧
      65536 < field (0x1FFFF0000 : DWord) 0 16 + field (0x1FFFF0000 : DWord) 16 17) ∧
    (match (configured 1 0).devRead 0 1 32 32 with | .ok _ => false | .error _ => true) = true ∧
    ([(1, 0), (1, 1), (0x801, 2)].all fun p => let s := configured p.1 p.2
      match s.devRead 0 0 32 32 with
      | .ok bs => s.rdescOk p.2 (rdesc bs) && !s.rdescOk (p.2 + 1) (rdesc bs) && (rdesc bs).core == 128 && (s.coreSt 128).reshape.isNone &&
          ((List.range 8).all fun j => field (s.dpra 128 j) 7 1 != 1 || !s.frozen (field (s.dpra 128 j) 0 7)) &&
          s.groups.all fun g => g.gate.isNone && g.why == .none
      | .error _ => false) = true ∧
    (let s := { configured 1 0 with groups := [], cores := [(128, { CoreSt.reset with reshape := some ⟨0, noDesc, 3, 4, none, false, 0⟩ })] }
     (s.coreSt 128).reshape = some ⟨0, noDesc, 3, 4, none, false, 0⟩ ∧ s.isSplit 128 = false ∧ field (s.corecfg 128) 11 1 = 0) := by
  refine ⟨?_, ?_, ?_, ?_, ?_, ?_, ?_⟩ <;> decide +kernel


/-! ### Domains, placement tables, interfaces and the registers -/

/-- A lawful code object with one empty `text` section and no symbol (03 R89, R90): header, section table, a string table of one byte. -/
def eco1 (magic : Nat) : List Byte :=
  leBytes 4 magic ++ leBytes 8 1 ++ leBytes 4 1 ++ leBytes 8 64 ++ leBytes 8 0 ++ leBytes 8 96 ++ leBytes 8 96 ++ leBytes 8 1 ++ leBytes 8 97 ++
    (leBytes 8 (2 ^ 32) ++ leBytes 8 97 ++ leBytes 8 0 ++ leBytes 8 0) ++ [0]
/-- The loader answers 0 and loads the module; another magic number is answered with BAD_MAGIC and loads nothing (03 R93). -/
theorem test_loader :
    (match exec (.moduleLoad 1 9 0x500000 (eco1 0x494D5645)) s1 with
     | .next t => (t.module? 1 9).isSome && (t.dom 1).tdispOut == [⟨0x300, [0]⟩]
     | _ => false) = true ∧
    (match exec (.moduleLoad 1 9 0x500000 (eco1 0x494D5646)) s1 with
     | .next t => (t.module? 1 9).isNone && (t.dom 1).tdispOut == [⟨0x300, [1]⟩]
     | _ => false) = true := by decide +kernel
/-- Domain 1 with registers, something of its groups, and an interface state. -/
def domained (regs : List (Nat × DWord)) (f : IfState) : State := inState f { s1 with dregs := regs }
/-- Domain 1 with a logical device that the host sees. -/
def hosted (s : State) : State := s.modDom 1 fun x => { x with hostPresent := true }

/-- A valid domain other than 0, paused and not, with a saved group of a pause; gate contexts; counters that are granted and passed on; files
that load and do not; modules in use and not; windows that a peer may use and not, in each interface state. -/
theorem witness_DomainEvents :
    ((∀ g ∈ s1.groups, ∀ w ∈ g.waves, w.lanes.length ≤ 32) ∧ s1.domValid 1 = true ∧ s1.domValid 5 = false ∧ (∀ g ∈ s1.groups, g.gate = none) ∧
      (∀ g ∈ s1.groups, g.dom = 1 ∧ g.st = .resident ∧ g.why = .none) ∧ (stopping .saved .pause true).why = .pause ∧
      ({ Dom.reset with paused := true } : Dom).latched = []) ∧
    ((called [.val 11]).group? 2).map (fun g => (g.gate.isSome, g.st)) = some (true, .resident) ∧
    (let s := domained [(0x101D8, 1)] .unlocked; field (s.dreg 1 0x1D8) 0 1 = 1 ∧ field (s.dreg 1 0x1D8) 1 1 = 0 ∧ field (s.domcfg 1) 6 1 = 0 ∧
      field (({ s with pregs := [(0x4008, 0x60)] } : State).domcfg 1) 6 1 = 1 ∧ 3 ∈ ({ Dom.reset with reads := [3] } : Dom).reads) ∧
    (let e := readEco (eco1 0x494D5645); e.status (e.funcs (placeSecs e.secs 0x500000)) = 0 ∧ s1.module? 1 9 = none ∧
      (let e := readEco []; e.status (e.funcs (placeSecs e.secs 0x500000)) ≠ 0)) ∧
    ((∃ l ∈ (launching 0 0).launches, l.dom = 1 ∧ l.modH = 0 ∧ l.marker = false) ∧ ∀ l ∈ (launching 0 0).launches, ¬(l.dom = 1 ∧ l.modH = 9 ∧ l.marker = false)) ∧
    (let s := hosted (domained [] .unlocked); s.inError 1 = false ∧ s.present 1 = true ∧ (inState .error s).inError 1 = true ∧ s1.present 1 = false ∧
      (match s.devWrite 1 ((0x400000 : BitVec 56).setWidth 64) [1, 2] 1 with | .ok _ => true | .error _ => false) = true ∧
      (match s.devWrite 1 ((0xFFFFFFF0000000 : BitVec 56).setWidth 64) [1, 2] 1 with | .ok _ => false | .error _ => true) = true) ∧
    (let s : State := { s1 with pregs := [(0x4008, 0x20), (0x10000, 0x81), (0x400010, 7)] }
     exportOk (s1.expctl 1) false true = false ∧ exportOk (s.expctl 1) false true = true ∧ exportOk (s.expctl 1) true false = true ∧
      BitVec.ofNat 64 (((s.expbase 1).toNat + (0x400000 : BitVec 36).toNat) % 2 ^ 56) = 0x400000) := by decide +kernel

/-- Domain 1's table 0 and n unread records in its log ring. -/
def logged (x : Table) (n : Nat) (pend : List WLog) : State :=
  { s1.modDom 1 fun y => { y with tables := [some x, none, none, none], wlPend := pend } with dregs := [(0x10170, 0x40004), (0x10178, BitVec.ofNat 64 n)] }
/-- A table descriptor at 0x50000 of one expert and one slot of 64 bytes, and the share of one counter. -/
def installing (n : Nat) : State :=
  { s1 with pregs := [(0x4008, 0x20), (0x4A08, BitVec.ofNat 64 (n * 2 ^ 16)), (0x10000, 0x81)]
            mem := [(0x50000, 1), (0x50004, 1), (0x50010, 64), (0x50014, 1), (0x50020, 64), (0x50024, 10), (0x50038, 100)] }
/-- An install makes version 1 with slot 0 for expert 0; without a share of the counters it is refused (21 R452, R453). -/
theorem test_install :
    (match exec (.tableInstall 1 0x50000) (installing 1) with
     | .next t => (t.table 1 0).map (fun x => (x.cur, (entryOf x.bankCur 0).headD none)) == some (1, some 0)
     | _ => false) = true ∧
    (match exec (.tableInstall 1 0x50000) (installing 0) with | .next t => t.table 1 0 == none | _ => false) = true := by decide +kernel

/-- A replication and a retirement that are taken, and one refused for its expert; a copy to make that passes and one that fails; a log with
room and without; a table with references of its former version; descriptors that are good, bad, and cannot be read. -/
theorem witness_PlacementTableEvents :
    (let x := { table1 with prev := none }; (logged x 0 []).table 1 0 = some x ∧ refusal false (BitVec.ofNat 64 (16 + 5 * 2 ^ 20)) (some x) = none ∧
      refusal false (BitVec.ofNat 64 (1 + 2 * 2 ^ 16)) (some x) = none ∧ refusal false 0x40 (some x) = some 1 ∧
      field (BitVec.ofNat 64 (16 + 5 * 2 ^ 20)) 2 2 = 0 ∧ field (BitVec.ofNat 64 (16 + 5 * 2 ^ 20)) 0 2 ≠ 1 ∧ field (BitVec.ofNat 64 (1 + 2 * 2 ^ 16)) 0 2 = 1 ∧ x.acted = false ∧
      refusal true (BitVec.ofNat 64 (16 + 5 * 2 ^ 20)) (some { x with auto := true }) = none ∧ refusal true (BitVec.ofNat 64 (16 + 5 * 2 ^ 20)) (some x) = some 1 ∧
      ({ x with acted := true } : Table).acted = true) ∧
    (let r : WReq := ⟨0, 1, 1, 5, 0, false, 0, 0, 0⟩; let x := { table1 with req := some r }
     (winchCopy 1 x r (logged x 0 [])).2 = none ∧ (winchCopy 1 x r (logged x 0 [])).1.logRoom 1 = true ∧
      ((winchCopy 1 { x with pool := 2 ^ 63 } r (logged x 0 [])).2).isSome ∧ (logged x 16 []).logRoom 1 = false) ∧
    (table1.prev = some 4 ∧ table1.refPrev ≠ 0) ∧
    (let s := logged table1 0 [wlog 1 0 5]; (s.dom 1).wlPend ≠ [] ∧ s.ringSet 1 winchRing = true ∧ s.ringFull 1 winchRing = false ∧
      (match s.ringWrite 1 winchRing (wlog 1 0 5).bytes with | .ok _ => true | .error _ => false) = true ∧ (logged table1 16 []).ringFull 1 winchRing = true) ∧
    (field (0x50000 : DWord) 0 2 = 0 ∧ field (0x50000 : DWord) 3 3 = 0 ∧ field (0x50000 : DWord) 56 8 = 0 ∧ field (8 : DWord) 3 3 ≠ 0 ∧
      ((installing 1).dom 1).tables.length = 4 ∧ ((installing 1).dom 1).lastVer.length = 4 ∧
      ([1, 0].all fun n => match (installing n).devRead 1 (BitVec.ofNat 64 (field (0x50000 : DWord) 6 50 * 64)) 64 64 with
        | .ok bs => (tableDesc bs).ok (field ((installing n).preg 0x4A08) 16 17) == (n == 1) &&
          (match (installing n).devRead 1 (tableDesc bs).init 2 1 with | .ok is => distinctBelow 1 (initSlots 1 is) | .error _ => false)
        | .error _ => false) = true ∧
      (match (installing 1).devRead 1 (BitVec.ofNat 64 (field (0x800000000000 : DWord) 6 50 * 64)) 64 64 with | .ok _ => false | .error _ => true) = true) := by
  refine ⟨?_, ?_, ?_, ?_, ?_⟩ <;> decide +kernel
/-- An interface in each state. -/
theorem witness_InterfaceEvents : ((inState .unlocked s1).dom 1).ifstate = .unlocked ∧ ((inState .locked s1).dom 1).ifstate = .locked ∧
    (inState .run s1).frozen 1 = true ∧ (inState .error s1).frozen 1 = false ∧ field (s1.preg (sliceOff false 0)) 7 1 = 1 ∧
    field (s1.preg (sliceOff false 0)) 0 7 = 1 := by decide +kernel
/-- Power limits below and above, flash banks, ports in training and trained, free and bound logical devices, and a domain's registers. -/
theorem witness_PowerAndRegisterEvents :
    ((700 : DWord).toNat ≤ 3400 ∧ (700 : DWord).toNat ≤ (s1.preg 0x4C20).toNat ∧ 3400 < (3401 : DWord).toNat) ∧
    (s1.host.flash.length = 2 ∧ s1.host.active < 2 ∧ s1.host.rpb.toNat ≤ (1 : Word).toNat ∧
      (0 : Word).toNat < ({ s1.host with rpb := 1 } : HostSt).rpb.toNat) ∧
    (s1.host.ports[0]? = some 3 ∧ ({ s1.host with ports := [1, 3] } : HostSt).ports.getD 0 0 = 1 ∧ (∀ q ∈ s1.host.lds, q.2 ≠ 1) ∧
      ∃ q ∈ ({ s1.host with lds := [(1, 1)] } : HostSt).lds, q.2 = 1 ∧ q.1 ≠ 0 * 16 + 0) ∧
    (s1.inError 1 = false ∧ (inState .error s1).inError 1 = true ∧ (hosted s1).inError 1 = false ∧ (hosted s1).present 1 = true ∧ s1.present 1 = false ∧
      (0x1C1 : Nat) % 8 ≠ 0 ∧ s1.frozen 1 = false ∧ (inState .run s1).frozen 1 = true ∧
      4 ≤ field (0x40004 : DWord) 0 5 ∧ field (0x40010 : DWord) 0 5 ≤ 16 ∧ field (2 ^ 32 : DWord) 36 28 = 0 ∧ field (2 ^ 32 : DWord) 32 4 = 1 ∧
      (0x101 : DWord).toNat < 2 ^ 9 ∧ field (0x101 : DWord) 7 2 = 2) := by decide +kernel


/-! ### Encoding, the step and its frames -/

theorem witness_EncodedWordsDecode :
    (Instr.add .i32 (.val 1) (.imm 5)).wellFormed = true ∧ encode ⟨true, some 7, .add .i32 (.val 1) (.imm 5)⟩ = some [0xB0021040, 1, 0x40000005, 7] ∧
    (Instr.nloop 0 2 2).wellFormed = true ∧ encodeNative (.nloop 0 2 2) = some (0x00082389, 0) ∧
    (Instr.nmov ⟨3, 0, 0, 6, 0, 10, false, some .f32, none⟩).wellFormed = true ∧ (encodeNativeV (.nmov ⟨3, 0, 0, 6, 0, 10, false, some .f32, none⟩)).isSome ∧
    (Instr.nspill .scalar 5 10).wellFormed = true ∧ encodeNativeM (.nspill .scalar 5 10) = some 0x2828784 := by decide +kernel
theorem witness_DecodedWordsEncode : okOf [0xB0021040, 1, 0x40000005, 7, 9] = some (⟨true, some 7, .add .i32 (.val 1) (.imm 5)⟩, [9]) := by decide +kernel

/-- Lane 0 of wave 0 ejected at an index of `tri` and on a gondola; nothing else that could act. -/
def ejectedLane (gond : List (Nat × Native)) : State :=
  { State.reset with
    groups := [{ group 0 [{ wave [{ lane [(1, i32 2), (2, i32 1)] with frames := [⟨0, 3, [(1, i32 2), (2, i32 1)]⟩], ejected := true }] with gond }] with gid := 1 }]
    modules := [prog], clusters := [(16, { ClusterSt.reset with ejq := [⟨1, 0, 0, some 0⟩] })] }
/-- A control core with firmware that stands at an instruction of its own. -/
def controlled : State :=
  { State.reset with modules := [{ prog with fwcopy := some ⟨[0x13, 0, 0, 0], [], 0⟩ }]
                     cores := [(128, { CoreSt.reset with fw := [(1, 0, ⟨0, [], [], [0, 0, 0, 0, 0, 0], false, none⟩)] })] }
/-- What may happen next: what is due, nothing, one event, the run of a wave, portable or native, an ejected lane on a gondola, and a control
core; a point with a translation that the run may enter and may not; a point of `tri` that decodes, with no translation and no failure. -/
theorem witness_StepRunsTheDecodedInstruction :
    (({ s1 with agenda := [.budgetWindowRefill] } : State).agenda = .budgetWindowRefill :: []) ∧
    ((tick State.reset).choices.isEmpty = true) ∧
    (match (tick { State.reset with cores := [(128, { CoreSt.reset with mxWait := [1] })] }).choices with | [.event _] => true | _ => false) = true ∧
    (match (tick (State.reset.withFetchWord 32 0x10001180)).choices with | [.wave _ 0 w _] => w.native == none | _ => false) = true ∧
    (match (tick { State.reset.withFetchWord 32 0x00000F88 with agenda := [] }).choices with
     | [.wave _ 0 w m] => (match (activeLanes w m).head? with | some l => w.isNative l | none => false)
     | _ => false) = true ∧
    (match (tick (ejectedLane [])).choices with | [.lane 1 0 0] => true | _ => false) = true ∧
    (let s := tick (ejectedLane [(0, ⟨[(0, ⟨320, [], []⟩)], regs1, none, [], []⟩)])
     (match s.choices with | [.lane 1 0 0] => true | _ => false) = true ∧ ((s.wave? 1 0).bind fun w => w.gond.lookup 0).isSome ∧
      (match s.group? 1 with
       | some g => (match onGondola g 0 0 (issueBundle exec 1 0 (maskOf [0]) true) s with | .next t => (t.wave? 1 0).isSome | _ => false)
       | none => false) = true) ∧
    (match (tick controlled).choices with | [.control ⟨true, 128, 1, 0⟩] => true | _ => false) = true ∧
    (let g := { group 0x40000 [wave [lane vals]] with gid := 1 }
     let s := { translated 0x1000 [{ xlate1 1 320 0 false false with key := (translated 0 []).runKey g (wave [lane vals]) false 1 (0, 0) }] with groups := [g] }
     ((s.cluster 16).xlateFor (s.runKey g (wave [lane vals]) false 1 (0, 0))).isSome ∧ (wave [lane vals]).mayEnter g false (activeLanes (wave [lane vals]) 1) = true ∧
      ({ wave [lane vals] with stopAsked := true } : Wave).mayEnter g false (activeLanes (wave [lane vals]) 1) = false) ∧
    (let s := inTri 3 [(1, i32 2), (2, i32 1)]; (s.group? 1).isSome ∧ (s.wave? 1 0).map (fun w => (activeLanes w 1).head?) = some (some 0) ∧
      (s.lane? 1 0 0).map Lane.point = some (0, 3) ∧ (s.cluster 16).failedAt (group 0 []) 0 3 = none ∧
      (s.cluster 16).xlateFor (s.runKey (group 0 []) (wave []) false 1 (0, 3)) = none ∧
      (s.func? (group 0 []) 0).map (fun f => (f.whole, (f.points[3]?).map (fun p => (p.trap, p.off)), okOf (f.words.drop 12) |>.map (·.1.ins))) =
        some (false, some (false, 12), some (.add .i32 (.val 2) (.val 1)))) := by
  refine ⟨rfl, ?_, ?_, ?_, ?_, ?_, ?_, ?_, ?_, ?_⟩ <;> decide +kernel
/-- Reset has the canonical form, and a step goes on. -/
theorem witness_StepsKeepMemoryCanonical : State.reset.canonical = true ∧
    (match step State.reset with | .next _ => true | _ => false) = true := by decide +kernel
/-- Lane 1 and lane 17 of a W16 wave, in a group without a lease and with one. -/
def halves (le : Option Lease) : State :=
  { st 0x1000040001 lanes32 0x00020002 with groups := [{ group 0x1000040001 [wave lanes32] with lease := le }] }
/-- A fault of the lower half; a lower half that goes on, with an upper half that goes on and one that faults in the state it left. -/
theorem witness_HalvesActInTurn : actsPerRun (.mxzero .m64n64 (.imm 0)) = true ∧ (halves none).ctx?.isSome = true ∧ (ctx (halves none)).oneHalf = false ∧
    (match exec (.mxzero .m64n64 (.imm 0)) ((halves none).narrow 0x0000FFFF).tried with | .next t => t.failed.isSome | _ => false) = true ∧
    (let s := halves (some ⟨2, [], none, List.replicate 16 0, 0, 0⟩)
     (ctx s).oneHalf = false ∧ ([(Instr.mxzero .m64n64 (.imm 0), true), (.mxzero .m64n64 (.val 2), false)].all fun (i, ok) =>
       match exec i (s.narrow 0x0000FFFF).tried with
       | .next t => t.failed.isNone && (match exec i (({ t with issue := s.issue } : State).narrow 0xFFFF0000).tried with
         | .next v => v.failed.isNone == ok
         | _ => false)
       | _ => false) = true) := by decide +kernel
/-- A portable run of one lane with a result and one without, beside a lane that is not active, and a native run. -/
theorem witness_CompletionFrame : Runs s1 c1 ∧ c1.iss.bind = none ∧ (c1.lane? 0).map (·.frames) = some ([⟨0, 0, vals⟩] : List Frame) ∧
    (let s := s32 5; Runs s (ctx s) ∧ 1 ∉ (ctx s).lanes ∧ 2 ∈ (ctx s).lanes) ∧
    (let s := nat1 regs1 none [] []; Runs s (ctx s) ∧ (ctx s).iss.bind.isSome) :=
  ⟨rfl, rfl, rfl, ⟨rfl, by decide +kernel, by decide +kernel⟩, rfl, rfl⟩
theorem witness_InstructionsThatStoreNothing : storesNothing .laneid = true ∧ (match run .laneid with | .next _ => true | _ => false) = true ∧
    storesNothing (.ld false .system .relaxed .i32 (.val 7)) = true ∧
    (match run (.ld false .system .relaxed .i32 (.val 7)) with | .next _ => true | _ => false) = true := by decide +kernel

end Sys2Proof.Tests
end

section
/-! SUPPORT. Readings and element-wise operations of the integer instructions (02 R44; 04 R97, R99), and when such an instruction
gives a result. -/
namespace Sys2Proof

theorem Ty.width_pos (ty : Ty) : 0 < ty.width := by cases ty <;> decide

theorem Ty.width_le (ty : Ty) : ty.width ≤ 96 := by cases ty <;> decide

end Sys2Proof

namespace Sys2Proof.Machine

theorem elemsOf_width_le (ty : Ty) : (elemsOf ty).2 ≤ 96 := by cases ty <;> decide

/-- An integer type is one element of its own width. -/
theorem elemsOf_of_isI {ty : Ty} (h : ty.isI = true) : elemsOf ty = (1, ty.width) := by
  cases ty
  case i8 | i16 | i32 | i64 => rfl
  all_goals exact absurd h (by decide)

/-! ### Readings -/

theorem uRd_lt (w : Nat) (x : Bits) : uRd w x < 2 ^ w := Nat.mod_lt _ (Nat.two_pow_pos w)

theorem elemOf_lt (w k : Nat) (x : Bits) : elemOf w k x < 2 ^ w := Nat.mod_lt _ (Nat.two_pow_pos w)

/-- The lowest element is the unsigned reading. -/
theorem elemOf_zero (w : Nat) (x : Bits) : elemOf w 0 x = uRd w x := by simp [elemOf, bitsAt, uRd]

/-- The signed reading of a value is that of its number. -/
theorem sRd_eq_signedAs (w : Nat) (x : Bits) : sRd w x = signedAs w (uRd w x) := rfl

/-- A number of w bits reads as itself. -/
theorem uRd_ofNat {w n : Nat} (hw : w ≤ 96) (hn : n < 2 ^ w) : uRd w (BitVec.ofNat 96 n) = n := by
  have h96 : n < 2 ^ 96 := Nat.lt_of_lt_of_le hn (Nat.pow_le_pow_right (by decide) hw)
  simp only [uRd, BitVec.toNat_ofNat]
  rw [Nat.mod_eq_of_lt h96, Nat.mod_eq_of_lt hn]

theorem sRd_ofNat {w n : Nat} (hw : w ≤ 96) (hn : n < 2 ^ w) : sRd w (BitVec.ofNat 96 n) = signedAs w n := by
  rw [sRd_eq_signedAs, uRd_ofNat hw hn]

theorem rRd_ofNat {w n : Nat} (sgn : Bool) (hw : w ≤ 96) (hn : n < 2 ^ w) :
    rRd sgn w (BitVec.ofNat 96 n) = if sgn then signedAs w n else n := by
  rw [rRd, sRd_ofNat hw hn, uRd_ofNat hw hn]

/-- The bits below w of a value are those of its unsigned reading. -/
theorem testBit_uRd {w i : Nat} (hi : i < w) (x : Bits) : (uRd w x).testBit i = x.getLsbD i := by
  simp [uRd, Nat.testBit_mod_two_pow, hi, BitVec.testBit_toNat]

/-! ### Values of a width -/

theorem ofU_toNat {w : Nat} (hw : w ≤ 96) (n : Nat) : (ofU w n).toNat = n % 2 ^ w := by
  have h : n % 2 ^ w < 2 ^ 96 := Nat.lt_of_lt_of_le (Nat.mod_lt _ (Nat.two_pow_pos w)) (Nat.pow_le_pow_right (by decide) hw)
  simp only [ofU, BitVec.toNat_ofNat, Nat.mod_eq_of_lt h]

theorem ofU_lt {w : Nat} (hw : w ≤ 96) (n : Nat) : (ofU w n).toNat < 2 ^ w := by
  rw [ofU_toNat hw]
  exact Nat.mod_lt _ (Nat.two_pow_pos w)

theorem natCast_two_pow (n : Nat) : ((2 ^ n : Nat) : Int) = 2 ^ n := Int.natCast_pow 2 n

/-- An integer as a value is the number to which it is congruent. -/
theorem ofI_eq_ofU {w n : Nat} {i : Int} (h : i % 2 ^ w = n % 2 ^ w) : ofI w i = ofU w n := by
  have hn : i % (2 ^ w : Nat) = (n % 2 ^ w : Nat) := by rw [Int.natCast_emod, natCast_two_pow, h]
  rw [ofI, ofU, hn, Int.toNat_natCast]

theorem ofI_natCast (w n : Nat) : ofI w n = ofU w n := ofI_eq_ofU rfl

/-- An integer as a value is a number of w bits. -/
theorem ofI_eq_ofU_toNat (w : Nat) (i : Int) : ofI w i = ofU w (i % (2 ^ w : Nat)).toNat := by
  have h0 : (0 : Int) ≤ i % (2 ^ w : Nat) := Int.emod_nonneg _ (Int.natCast_ne_zero.2 (Nat.ne_of_gt (Nat.two_pow_pos w)))
  apply ofI_eq_ofU
  rw [Int.toNat_of_nonneg h0, natCast_two_pow, Int.emod_emod]

/-- The difference of two numbers of w bits, borrowing 2^w. -/
theorem ofI_sub {w p q : Nat} (hq : q < 2 ^ w) : ofI w ((p : Int) - q) = ofU w (p + (2 ^ w - q)) := by
  apply ofI_eq_ofU
  have hborrow : ((p + (2 ^ w - q) : Nat) : Int) = (p - q) + 2 ^ w := by
    rw [Int.natCast_add, Int.natCast_sub (Nat.le_of_lt hq), natCast_two_pow]
    omega
  rw [hborrow, Int.add_emod_right]

/-! ### Operations on each element -/

/-- Joined elements count modulo 2^w. -/
theorem joinElems_map_congr {w : Nat} {f g : Nat → Nat} {ks : List Nat} (h : ∀ k ∈ ks, f k % 2 ^ w = g k % 2 ^ w) :
    joinElems w (ks.map f) = joinElems w (ks.map g) := by
  induction ks with
  | nil => rfl
  | cons k ks ih =>
    simp only [List.map_cons, joinElems, h k List.mem_cons_self, ih fun j hj => h j (List.mem_cons_of_mem _ hj)]

/-- An operation on values of width w computes one on their numbers, modulo 2^w. -/
def Computes (w : Nat) (f : Bits → Bits → Bits) (g : Nat → Nat → Nat) : Prop :=
  ∀ p < 2 ^ w, ∀ q < 2 ^ w, f (BitVec.ofNat 96 p) (BitVec.ofNat 96 q) = ofU w (g p q)

theorem intElems_eq (ty : Ty) (f : Nat → Bits → Bits → Bits) (x y : Bits) :
    intElems ty f x y = BitVec.ofNat 96 (joinElems (elemsOf ty).2 ((List.range (elemsOf ty).1).map fun k =>
      (f (elemsOf ty).2 (BitVec.ofNat 96 (elemOf (elemsOf ty).2 k x)) (BitVec.ofNat 96 (elemOf (elemsOf ty).2 k y))).toNat)) := rfl

theorem perElement_eq (ty : Ty) (f : Nat → Nat → Nat) (x y : Bits) :
    perElement ty f x y = BitVec.ofNat 96 (joinElems (elemsOf ty).2 ((List.range (elemsOf ty).1).map fun k =>
      f (elemOf (elemsOf ty).2 k x) (elemOf (elemsOf ty).2 k y))) := rfl

/-- The element-wise operation of the model is that of the statements (04 R99). -/
theorem intElems_eq_perElement {ty : Ty} {f : Nat → Bits → Bits → Bits} {g : Nat → Nat → Nat}
    (h : Computes (elemsOf ty).2 (f (elemsOf ty).2) g) (x y : Bits) : intElems ty f x y = perElement ty g x y := by
  rw [intElems_eq, perElement_eq]
  refine congrArg (BitVec.ofNat 96) (joinElems_map_congr fun k _ => ?_)
  rw [h _ (elemOf_lt _ k x) _ (elemOf_lt _ k y), ofU_toNat (elemsOf_width_le ty), Nat.mod_mod]

/-- An operation on the readings of its operands, with a value of width w. -/
def OnReadings (w : Nat) (f : Bits → Bits → Bits) : Prop :=
  ∃ F : Nat → Nat → Nat, ∀ x y, f x y = ofU w (F (uRd w x) (uRd w y))

theorem OnReadings.unsigned {w : Nat} (g : Nat → Nat → Nat) : OnReadings w fun x y => ofU w (g (uRd w x) (uRd w y)) :=
  ⟨g, fun _ _ => rfl⟩

theorem OnReadings.signed {w : Nat} (g : Nat → Nat → Int) : OnReadings w fun x y => ofI w (g (uRd w x) (uRd w y)) :=
  ⟨fun p q => (g p q % (2 ^ w : Nat)).toNat, fun _ _ => ofI_eq_ofU_toNat w _⟩

theorem OnReadings.cond {w : Nat} (P : Nat → Nat → Prop) [∀ p q, Decidable (P p q)] {f g : Bits → Bits → Bits}
    (hf : OnReadings w f) (hg : OnReadings w g) : OnReadings w fun x y => if P (uRd w x) (uRd w y) then f x y else g x y := by
  obtain ⟨F, hF⟩ := hf
  obtain ⟨G, hG⟩ := hg
  refine ⟨fun p q => if P p q then F p q else G p q, fun x y => ?_⟩
  simp only [hF, hG, apply_ite (ofU w)]

/-- On an integer type such an operation on each element is the operation itself. -/
theorem intElems_of_isI {ty : Ty} (hI : ty.isI = true) {f : Nat → Bits → Bits → Bits} (h : OnReadings ty.width (f ty.width))
    (x y : Bits) : intElems ty f x y = f ty.width x y := by
  obtain ⟨F, hF⟩ := h
  have hw := ty.width_le
  simp only [intElems_eq, elemsOf_of_isI hI, List.range_one, List.map_cons, List.map_nil, joinElems, elemOf_zero, hF,
    uRd_ofNat hw (uRd_lt _ x), uRd_ofNat hw (uRd_lt _ y), ofU_toNat hw, Nat.mod_mod, Nat.mul_zero, Nat.add_zero]
  rfl

/-! ### Instructions that give a result -/

theorem Gives.congr {s : State} {c : Ctx} {i : Instr} {ty : Ty} {z z' : Nat → Bits} (h : Gives s c i ty z) (hz : ∀ l, z l = z' l) :
    Gives s c i ty z' := funext hz ▸ h

theorem gives_int1 {s : State} {c : Ctx} {i : Instr} {ty : Ty} {a : Opnd} {f : Nat → Bits → Bits} {x z : Nat → Bits}
    (hr : Runs s c) (hx : Operand s c ty a x) (he : exec i s = int1 s ty a f) (hz : ∀ l, f ty.width (x l) = z l) : Gives s c i ty z :=
  Gives.congr (he.trans (lane1_next hr hx _)) hz

theorem gives_int2 {s : State} {c : Ctx} {i : Instr} {ty : Ty} {a b : Opnd} {f : Nat → Bits → Bits → Bits} {x y z : Nat → Bits}
    (hr : Runs s c) (hx : Operand s c ty a x) (hy : Operand s c ty b y) (he : exec i s = int2 s ty a b f)
    (hz : ∀ l, intElems ty f (x l) (y l) = z l) : Gives s c i ty z :=
  Gives.congr (he.trans (lane2_next hr hx hy _)) hz

end Sys2Proof.Machine
end

section
/-! PROOFS. Integer arithmetic (04 R110). -/
namespace Sys2Proof.Machine

/-- An operation on the unsigned readings. -/
theorem computes_unsigned {w : Nat} (hw : w ≤ 96) (g : Nat → Nat → Nat) :
    Computes w (fun x y => ofU w (g (uRd w x) (uRd w y))) g := by
  intro p hp q hq
  simp only [uRd_ofNat hw hp, uRd_ofNat hw hq]

theorem computes_sub {w : Nat} (hw : w ≤ 96) :
    Computes w (fun x y => ofI w ((uRd w x : Int) - uRd w y)) fun p q => p + (2 ^ w - q) := by
  intro p hp q hq
  simp only [uRd_ofNat hw hp, uRd_ofNat hw hq, ofI_sub hq]

/-- A choice between the operands by their signed readings, told by a condition C for the second or by its contrary D for the first. -/
theorem computes_choice {w : Nat} (hw : w ≤ 96) {C D : Int → Int → Prop} [∀ i j, Decidable (C i j)] [∀ i j, Decidable (D i j)]
    (h : ∀ i j, D i j ↔ ¬ C i j) :
    Computes w (fun x y => if C (sRd w x) (sRd w y) then ofU w (uRd w y) else ofU w (uRd w x))
      fun p q => if D (signedAs w p) (signedAs w q) then p else q := by
  intro p hp q hq
  simp only [uRd_ofNat hw hp, uRd_ofNat hw hq, sRd_ofNat hw hp, sRd_ofNat hw hq, h, ite_not, apply_ite (ofU w)]

theorem computes_smin {w : Nat} (hw : w ≤ 96) :
    Computes w (fun x y => if sRd w y < sRd w x then ofU w (uRd w y) else ofU w (uRd w x))
      fun p q => if signedAs w p ≤ signedAs w q then p else q :=
  computes_choice hw (C := fun i j => j < i) (D := fun i j => i ≤ j) fun _ _ => Int.not_lt.symm

theorem computes_smax {w : Nat} (hw : w ≤ 96) :
    Computes w (fun x y => if sRd w x < sRd w y then ofU w (uRd w y) else ofU w (uRd w x))
      fun p q => if signedAs w q ≤ signedAs w p then p else q :=
  computes_choice hw (C := fun i j => i < j) (D := fun i j => j ≤ i) fun _ _ => Int.not_lt.symm

/-- The negation of a value is its complement to 2^w. -/
theorem ofI_neg_uRd (w : Nat) (x : Bits) : ofI w (-(uRd w x : Int)) = ofU w (2 ^ w - uRd w x) := by
  have h := ofI_sub (p := 0) (uRd_lt w x)
  rwa [Int.natCast_zero, Int.zero_sub, Nat.zero_add] at h

/-- Settles O1: each result is an operation on the numbers of the elements. -/
theorem integerArithmetic : Obligations.IntegerArithmetic := by
  intro s c ty a b x y w hr hx hy rfl
  have hw := elemsOf_width_le ty
  have unsigned (g : Nat → Nat → Nat) (l : Nat) :
      intElems ty (fun w x y => ofU w (g (uRd w x) (uRd w y))) (x l) (y l) = perElement ty g (x l) (y l) :=
    intElems_eq_perElement (computes_unsigned hw g) _ _
  refine ⟨gives_int2 hr hx hy rfl (unsigned _), ?sub, gives_int2 hr hx hy rfl (unsigned _), ?smin, ?smax,
    gives_int2 hr hx hy rfl (unsigned _), gives_int2 hr hx hy rfl (unsigned _), gives_int2 hr hx hy rfl (unsigned _),
    gives_int2 hr hx hy rfl (unsigned _), gives_int2 hr hx hy rfl (unsigned _), ?neg, ?abs, ?not, ?_⟩
  case sub => exact gives_int2 hr hx hy rfl fun _ => intElems_eq_perElement (computes_sub hw) _ _
  case smin => exact gives_int2 hr hx hy rfl fun _ => intElems_eq_perElement (computes_smin hw) _ _
  case smax => exact gives_int2 hr hx hy rfl fun _ => intElems_eq_perElement (computes_smax hw) _ _
  case neg => exact gives_int1 (f := fun w x => ofI w (-(uRd w x : Int))) hr hx rfl fun _ => ofI_neg_uRd _ _
  case abs => exact gives_int1 (f := fun w x => ofI w (sRd w x).natAbs) hr hx rfl fun _ => ofI_natCast _ _
  case not => exact gives_int1 (f := fun w x => ofU w (2 ^ w - 1 - uRd w x)) hr hx rfl fun _ => rfl
  · simp only [List.forall_mem_cons, List.not_mem_nil, false_imp_iff, implies_true, and_true]
    exact ⟨⟨⟨rfl, rfl⟩, ⟨rfl, rfl⟩, ⟨rfl, rfl⟩, ⟨rfl, rfl⟩, ⟨rfl, rfl⟩, ⟨rfl, rfl⟩⟩, ⟨rfl, rfl⟩,
      ⟨⟨rfl, rfl⟩, ⟨rfl, rfl⟩, ⟨rfl, rfl⟩⟩, ⟨⟨rfl, rfl⟩, ⟨rfl, rfl⟩⟩, rfl, rfl⟩

end Sys2Proof.Machine
end

section
/-! PROOFS. Divisions and shifts (04 R113, R114). -/
namespace Sys2Proof.Machine

/-- The two readings of a value are the same modulo 2^w. -/
theorem ofI_sRd (w : Nat) (x : Bits) : ofI w (sRd w x) = ofU w (uRd w x) := by
  apply ofI_eq_ofU
  rw [sRd]
  split
  · rw [natCast_two_pow, Int.sub_emod_right]
  · rfl

/-- The quotient that does not fit is the dividend again (04 R113). -/
theorem ofI_tdiv_overflow {w : Nat} (hw : 0 < w) {x y : Bits} (hx : sRd w x = -2 ^ (w - 1)) (hy : sRd w y = -1) :
    ofI w ((sRd w x).tdiv (sRd w y)) = ofU w (uRd w x) := by
  have hpow : (2 : Int) ^ w = 2 ^ (w - 1) + 2 ^ (w - 1) := by
    rw [← natCast_two_pow, ← natCast_two_pow, ← Int.natCast_add, ← Nat.two_mul, Nat.mul_comm, Nat.pow_pred_mul hw]
  have hquot : (sRd w x).tdiv (sRd w y) = sRd w x + 2 ^ w := by
    rw [hx, hy, Int.neg_tdiv_neg, Int.tdiv_one, hpow, Int.neg_add_cancel_left]
  rw [← ofI_sRd, ofI, ofI, hquot, natCast_two_pow, Int.add_emod_right]

theorem sdivOp_eq {w : Nat} (hw : 0 < w) (x y : Bits) :
    sdivOp w x y = if uRd w y = 0 then ofU w (2 ^ w - 1)
      else if sRd w x = -2 ^ (w - 1) ∧ sRd w y = -1 then ofU w (uRd w x)
      else ofI w ((sRd w x).tdiv (sRd w y)) := by
  refine ite_congr rfl (fun _ => rfl) fun _ => ?_
  split
  next h => exact ofI_tdiv_overflow hw h.1 h.2
  next => rfl

/-- The remainder of the quotient that does not fit is 0 (04 R113). -/
theorem sremOp_eq (w : Nat) (x y : Bits) :
    sremOp w x y = if uRd w y = 0 then ofU w (uRd w x)
      else if sRd w x = -2 ^ (w - 1) ∧ sRd w y = -1 then 0
      else ofI w (sRd w x - sRd w y * (sRd w x).tdiv (sRd w y)) := by
  refine ite_congr rfl (fun _ => rfl) fun _ => ?_
  split
  next h =>
    have hrem : sRd w x - sRd w y * (sRd w x).tdiv (sRd w y) = 0 := by
      rw [h.2, Int.tdiv_neg, Int.tdiv_one, Int.neg_mul_neg, Int.one_mul, Int.sub_self]
    rw [hrem, ofI, Int.zero_emod]
    rfl
  next => rfl

theorem uremOp_eq (w : Nat) (x y : Bits) :
    uremOp w x y = if uRd w y = 0 then ofU w (uRd w x) else ofU w (uRd w x - uRd w y * (uRd w x / uRd w y)) := by
  rw [uremOp, Nat.mod_eq_sub]

theorem ashrOp_eq (w : Nat) (x y : Bits) : ashrOp w x y = ofI w (sRd w x / 2 ^ (uRd w y % w)) := by
  rw [ashrOp, natCast_two_pow]

/-! ### Each operation sees its operands' readings alone -/

theorem onReadings_udivOp (w : Nat) : OnReadings w (udivOp w) :=
  .cond (fun _ q => q = 0) (.unsigned fun _ _ => _) (.unsigned fun p q => p / q)

theorem onReadings_uremOp (w : Nat) : OnReadings w (uremOp w) :=
  .cond (fun _ q => q = 0) (.unsigned fun p _ => p) (.unsigned fun p q => p % q)

theorem onReadings_sdivOp (w : Nat) : OnReadings w (sdivOp w) :=
  .cond (fun _ q => q = 0) (.unsigned fun _ _ => _) (.signed fun p q => (signedAs w p).tdiv (signedAs w q))

theorem onReadings_sremOp (w : Nat) : OnReadings w (sremOp w) :=
  .cond (fun _ q => q = 0) (.unsigned fun p _ => p)
    (.signed fun p q => signedAs w p - signedAs w q * (signedAs w p).tdiv (signedAs w q))

theorem onReadings_shlOp (w : Nat) : OnReadings w (shlOp w) := .unsigned fun p q => p * 2 ^ (q % w)

theorem onReadings_lshrOp (w : Nat) : OnReadings w (lshrOp w) := .unsigned fun p q => p / 2 ^ (q % w)

theorem onReadings_ashrOp (w : Nat) : OnReadings w (ashrOp w) := .signed fun p q => signedAs w p / (2 ^ (q % w) : Nat)

/-- A rotation by a count that depends on the second operand. -/
theorem onReadings_rotlBy (w : Nat) (k : Nat → Nat) : OnReadings w fun x y => rotlBy w x (k (uRd w y)) :=
  .unsigned fun p q => p * 2 ^ k q + p / 2 ^ (w - k q)

/-- Settles O2: on an integer type each operation on the one element is the operation on the operands' readings. -/
theorem divisionsAndShifts : Obligations.DivisionsAndShifts := by
  refine ⟨?divisions, ?shifts⟩
  case divisions =>
    intro s c ty a b x y w hr hx hy rfl
    refine ⟨fun hI => ⟨?udiv, ?urem, ?sdiv, ?srem⟩, ?encoding⟩
    case udiv => exact gives_int2 hr hx hy rfl fun _ => intElems_of_isI hI (onReadings_udivOp _) _ _
    case urem => exact gives_int2 hr hx hy rfl fun _ => (intElems_of_isI hI (onReadings_uremOp _) _ _).trans (uremOp_eq _ _ _)
    case sdiv =>
      exact gives_int2 hr hx hy rfl fun _ => (intElems_of_isI hI (onReadings_sdivOp _) _ _).trans (sdivOp_eq ty.width_pos _ _)
    case srem => exact gives_int2 hr hx hy rfl fun _ => (intElems_of_isI hI (onReadings_sremOp _) _ _).trans (sremOp_eq _ _ _)
    case encoding =>
      simp only [List.forall_mem_cons, List.not_mem_nil, false_imp_iff, implies_true, and_true]
      exact ⟨⟨rfl, rfl⟩, ⟨rfl, rfl⟩, ⟨rfl, rfl⟩, ⟨rfl, rfl⟩⟩
  case shifts =>
    intro s c ty a b x y w hr hx hy rfl
    refine ⟨fun hI => ⟨?shl, ?lshr, ?ashr, ?rotl, ?rotr⟩, ?encoding⟩
    case shl => exact gives_int2 hr hx hy rfl fun _ => intElems_of_isI hI (onReadings_shlOp _) _ _
    case lshr => exact gives_int2 hr hx hy rfl fun _ => intElems_of_isI hI (onReadings_lshrOp _) _ _
    case ashr => exact gives_int2 hr hx hy rfl fun _ => (intElems_of_isI hI (onReadings_ashrOp _) _ _).trans (ashrOp_eq _ _ _)
    case rotl => exact gives_int2 hr hx hy rfl fun _ => intElems_of_isI hI (onReadings_rotlBy _ fun q => q % ty.width) _ _
    case rotr =>
      exact gives_int2 hr hx hy rfl fun _ =>
        intElems_of_isI hI (onReadings_rotlBy _ fun q => (ty.width - q % ty.width) % ty.width) _ _
    case encoding =>
      simp only [List.forall_mem_cons, List.not_mem_nil, false_imp_iff, implies_true, and_true]
      exact ⟨⟨rfl, rfl⟩, ⟨rfl, rfl⟩, ⟨rfl, rfl⟩, ⟨rfl, rfl⟩, ⟨rfl, rfl⟩⟩

end Sys2Proof.Machine
end

section
/-! PROOFS. Bit counts and fields (04 R115, R116). -/
namespace Sys2Proof.Machine

/-! ### The counting and reversing functions, bit by bit and byte by byte -/

theorem popcount_eq_countP (w n : Nat) : popcount w n = (List.range w).countP n.testBit := by
  induction w generalizing n with
  | zero => rfl
  | succ w ih =>
    rw [popcount, ih, List.range_succ_eq_map, List.countP_cons, List.countP_map, Nat.testBit_zero, Nat.add_comm]
    congr 1
    · exact List.countP_congr fun i _ => by rw [Function.comp, Nat.testBit_succ]
    · rcases Nat.mod_two_eq_zero_or_one n with h | h <;> rw [h] <;> rfl

theorem ctzBits_eq_takeWhile (w n : Nat) : ctzBits w n = ((List.range w).takeWhile fun i => !n.testBit i).length := by
  induction w generalizing n with
  | zero => rfl
  | succ w ih =>
    rw [ctzBits, ih, List.range_succ_eq_map, List.takeWhile_cons, Nat.testBit_zero]
    rcases Nat.mod_two_eq_zero_or_one n with h | h
    · simp [h, List.takeWhile_map, Function.comp_def, Nat.testBit_succ, Nat.add_comm]
    · simp [h]

/-- The 0 bits above the highest 1 bit. -/
theorem takeWhile_not_testBit_length {w n : Nat} (hn : n < 2 ^ w) :
    ((List.range w).takeWhile fun i => !n.testBit (w - (i + 1))).length = if n = 0 then w else w - 1 - n.log2 := by
  induction w with
  | zero => simp
  | succ w ih =>
    rw [List.range_succ_eq_map, List.takeWhile_cons]
    rcases Nat.lt_or_ge n (2 ^ w) with hlt | hge
    · have hlog (h : n ≠ 0) : n.log2 < w := (Nat.log2_lt h).2 hlt
      simp only [Nat.add_sub_add_right, Nat.sub_zero, Nat.testBit_lt_two_pow hlt, Bool.not_false, if_true, List.takeWhile_map,
        List.length_cons, List.length_map, Function.comp_def, Nat.succ_eq_add_one, ih hlt]
      split
      next => rfl
      next h => have := hlog h; omega
    · have hpos : n ≠ 0 := Nat.ne_of_gt (Nat.lt_of_lt_of_le (Nat.two_pow_pos w) hge)
      have hlog : n.log2 = w := (Nat.log2_eq_iff hpos).2 ⟨hge, hn⟩
      simp [Nat.testBit_of_two_pow_le_and_two_pow_add_one_gt hge hn, hpos, hlog]

theorem bitrev_lt (w n : Nat) : bitrev w n < 2 ^ w := by
  induction w generalizing n with
  | zero => exact Nat.one_pos
  | succ w ih =>
    have hlow := ih (n / 2)
    rw [bitrev, Nat.pow_succ]
    rcases Nat.mod_two_eq_zero_or_one n with h | h <;> rw [h] <;> omega

theorem testBit_bitrev (w n i : Nat) : (bitrev w n).testBit i = (decide (i < w) && n.testBit (w - 1 - i)) := by
  induction w generalizing n i with
  | zero => simp [bitrev]
  | succ w ih =>
    rw [bitrev, Nat.mul_comm, Nat.testBit_two_pow_mul_add _ (bitrev_lt w _), ih]
    rcases Nat.lt_trichotomy i w with h | rfl | h
    · have hidx : w - 1 - i + 1 = w - i := by omega
      simp [h, Nat.lt_succ_of_lt h, Nat.testBit_div_two, hidx]
    · simp [Nat.testBit_zero]
    · have hbit : (n % 2).testBit (i - w) = false :=
        Nat.testBit_lt_two_pow (Nat.lt_of_lt_of_le (Nat.mod_lt n Nat.two_pos) (Nat.le_self_pow (by omega) 2))
      simp [Nat.not_lt_of_gt h, hbit, Nat.not_lt.2 h]

theorem byterev_lt (m n : Nat) : byterev m n < 2 ^ (8 * m) := by
  induction m generalizing n with
  | zero => exact Nat.one_pos
  | succ m ih =>
    have hlow := ih (n / 256)
    have hbyte : n % 256 * 2 ^ (8 * m) ≤ 255 * 2 ^ (8 * m) := Nat.mul_le_mul_right _ (Nat.le_of_lt_succ (Nat.mod_lt n (by decide)))
    rw [byterev, Nat.mul_succ, Nat.pow_add]
    omega

theorem byterev_byte {m k : Nat} (hk : k < m) (n : Nat) :
    byterev m n / 2 ^ (8 * k) % 2 ^ 8 = n / 2 ^ (8 * (m - 1 - k)) % 2 ^ 8 := by
  induction m generalizing n with
  | zero => exact absurd hk (Nat.not_lt_zero k)
  | succ m ih =>
    rw [byterev]
    rcases Nat.lt_succ_iff_lt_or_eq.1 hk with h | rfl
    · have hpow : n % 256 * 2 ^ (8 * m) = 2 ^ (8 * k) * (2 ^ 8 * (n % 256 * 2 ^ (8 * (m - 1 - k)))) := by
        rw [show 8 * m = 8 * k + 8 + 8 * (m - 1 - k) by omega, Nat.pow_add, Nat.pow_add]
        ac_rfl
      have hshift : 2 ^ (8 * (m + 1 - 1 - k)) = 256 * 2 ^ (8 * (m - 1 - k)) := by
        rw [show 8 * (m + 1 - 1 - k) = 8 + 8 * (m - 1 - k) by omega, Nat.pow_add]
      rw [hpow, Nat.mul_add_div (Nat.two_pow_pos _), Nat.mul_add_mod, ih h, Nat.div_div_eq_div_mul, hshift]
    · rw [Nat.mul_comm, Nat.mul_add_div (Nat.two_pow_pos _), Nat.div_eq_of_lt (byterev_lt _ _)]
      simp

/-! ### Bits of a value of width w -/

theorem getLsbD_ofU {w : Nat} (hw : w ≤ 96) (n i : Nat) : (ofU w n).getLsbD i = (decide (i < w) && n.testBit i) := by
  rw [← BitVec.testBit_toNat, ofU_toNat hw, Nat.testBit_mod_two_pow]

/-- A field below bit w is not changed by what stands from bit w on. -/
theorem mod_two_pow_div_mod {w lo k : Nat} (h : lo + k ≤ w) (n : Nat) : n % 2 ^ w / 2 ^ lo % 2 ^ k = n / 2 ^ lo % 2 ^ k := by
  apply Nat.eq_of_testBit_eq
  intro i
  simp only [Nat.testBit_mod_two_pow, Nat.testBit_div_two_pow]
  by_cases hi : i < k
  · simp [show i + lo < w by omega]
  · simp [hi]

theorem bitsAt_ofU {w lo k : Nat} (hw : w ≤ 96) (h : lo + k ≤ w) (n : Nat) : bitsAt (ofU w n) lo k = n / 2 ^ lo % 2 ^ k := by
  rw [bitsAt, ofU_toNat hw, mod_two_pow_div_mod h]

theorem uRd_div_mod {w lo k : Nat} (h : lo + k ≤ w) (x : Bits) : uRd w x / 2 ^ lo % 2 ^ k = bitsAt x lo k :=
  mod_two_pow_div_mod h x.toNat

/-! ### The counts and reversals of a value -/

theorem popcount_uRd (w : Nat) (x : Bits) : popcount w (uRd w x) = (List.range w).countP fun i => x.getLsbD i := by
  rw [popcount_eq_countP]
  exact List.countP_congr fun i hi => by rw [testBit_uRd (List.mem_range.1 hi)]

/-- Predicates that agree on a list take the same part of it. -/
theorem takeWhile_congr_of_mem {α : Type} {p q : α → Bool} {xs : List α} (h : ∀ a ∈ xs, p a = q a) :
    xs.takeWhile p = xs.takeWhile q := by
  induction xs with
  | nil => rfl
  | cons a xs ih =>
    rw [List.takeWhile_cons, List.takeWhile_cons, h a List.mem_cons_self, ih fun b hb => h b (List.mem_cons_of_mem _ hb)]

theorem ctzBits_uRd (w : Nat) (x : Bits) : ctzBits w (uRd w x) = ((List.range w).takeWhile fun i => !x.getLsbD i).length := by
  rw [ctzBits_eq_takeWhile]
  exact congrArg _ (takeWhile_congr_of_mem fun i hi => by rw [testBit_uRd (List.mem_range.1 hi)])

theorem clzOp_eq (w : Nat) (x : Bits) :
    clzOp w x = ofU w ((List.range w).takeWhile fun i => !x.getLsbD (w - 1 - i)).length := by
  rw [clzOp, ← takeWhile_not_testBit_length (uRd_lt w x)]
  refine congrArg _ (congrArg _ (takeWhile_congr_of_mem fun i hi => ?_))
  have hi := List.mem_range.1 hi
  rw [testBit_uRd (by omega), Nat.sub_sub, Nat.add_comm 1]

/-- Bit i of the reversal is bit w - 1 - i. -/
theorem getLsbD_brev {w : Nat} (hw : w ≤ 96) (x : Bits) (i : Nat) :
    (ofU w (bitrev w (uRd w x))).getLsbD i = (decide (i < w) && x.getLsbD (w - 1 - i)) := by
  rw [getLsbD_ofU hw, testBit_bitrev]
  by_cases hi : i < w
  · simp [hi, testBit_uRd (show w - 1 - i < w by omega)]
  · simp [hi]

/-- Byte k of the swapped value is byte w / 8 - 1 - k. -/
theorem bitsAt_bswap {w k : Nat} (hw : w ≤ 96) (hk : k < w / 8) (x : Bits) :
    bitsAt (ofU w (byterev (w / 8) (uRd w x))) (8 * k) 8 = bitsAt x (8 * (w / 8 - 1 - k)) 8 := by
  rw [bitsAt_ofU hw (by omega), byterev_byte hk, uRd_div_mod (by omega)]

/-! ### Bit fields -/

/-- The highest bit of a field. -/
theorem two_pow_le_iff_testBit {n f : Nat} (hn : n ≠ 0) (hf : f < 2 ^ n) : 2 ^ (n - 1) ≤ f ↔ f.testBit (n - 1) = true := by
  refine ⟨fun h => Nat.testBit_of_two_pow_le_and_two_pow_add_one_gt h ?_, Nat.ge_two_pow_of_testBit⟩
  rwa [Nat.sub_add_cancel (Nat.one_le_iff_ne_zero.2 hn)]

/-- Extraction, with the clamped position p and length n (04 R116). -/
theorem bfextOp_eq (sgn : Bool) (w : Nat) (x pos len : Bits) {p n f : Nat} (hp : p = min (uRd 32 pos) w)
    (hn : n = min (uRd 32 len) (w - p)) (hf : f = uRd w x / 2 ^ p % 2 ^ n) :
    bfextOp sgn w x pos len =
      if n = 0 then 0 else if sgn ∧ f.testBit (n - 1) then ofI w ((f : Int) - 2 ^ n) else ofU w f := by
  subst hp hn hf
  simp only [bfextOp, fieldPos, fieldLen, natCast_two_pow]
  refine ite_congr rfl (fun _ => rfl) fun hn => ?_
  simp only [two_pow_le_iff_testBit hn (Nat.mod_lt _ (Nat.two_pow_pos _))]

/-- Insertion, with the clamped position p and length n (04 R116). -/
theorem bfinsOp_eq (w : Nat) (x y pos len : Bits) {p n f : Nat} (hp : p = min (uRd 32 pos) w)
    (hn : n = min (uRd 32 len) (w - p)) (hf : f = uRd w x / 2 ^ p % 2 ^ n) :
    bfinsOp w x y pos len = ofU w (uRd w x - f * 2 ^ p + uRd w y % 2 ^ n * 2 ^ p) := by
  subst hp hn hf
  rfl

/-- `bswap` takes the integer types of more than one byte. -/
theorem wellFormed_bswap (ty : Ty) (a : Opnd) :
    (Instr.bswap ty a).wellFormed = ((ty == .i16 || ty == .i32 || ty == .i64) && a.ok ty) := by cases ty <;> rfl

/-- Settles O3: counts by induction on the width, reversals bit by bit and byte by byte, fields by the value of their highest bit. -/
theorem bitCountsAndFields : Obligations.BitCountsAndFields := by
  refine ⟨?counts, ?fields⟩
  case counts =>
    intro s c ty a x w hr hx rfl
    have hw := ty.width_le
    refine ⟨?popc, ?ctz, ?clz, ?brev, ?bswap, ?encoding⟩
    case popc =>
      exact gives_int1 (f := fun w x => ofU w (popcount w (uRd w x))) hr hx rfl fun _ => congrArg (ofU _) (popcount_uRd _ _)
    case ctz =>
      exact gives_int1 (f := fun w x => ofU w (ctzBits w (uRd w x))) hr hx rfl fun _ => congrArg (ofU _) (ctzBits_uRd _ _)
    case clz => exact gives_int1 (f := clzOp) hr hx rfl fun _ => clzOp_eq _ _
    case brev =>
      exact ⟨_, gives_int1 (f := fun w x => ofU w (bitrev w (uRd w x))) hr hx rfl fun _ => rfl, fun _ _ i => getLsbD_brev hw _ i⟩
    case bswap =>
      refine fun _ =>
        ⟨_, gives_int1 (f := fun w x => ofU w (byterev (w / 8) (uRd w x))) hr hx rfl fun _ => rfl, fun l _ => ⟨?_, ?_⟩⟩
      · exact ofU_lt hw _
      · exact fun k hk => bitsAt_bswap hw hk _
    case encoding =>
      simp only [List.forall_mem_cons, List.not_mem_nil, false_imp_iff, implies_true, and_true]
      exact ⟨⟨⟨rfl, rfl⟩, ⟨rfl, rfl⟩, ⟨rfl, rfl⟩, ⟨rfl, rfl⟩⟩, rfl, wellFormed_bswap ty a⟩
  case fields =>
    intro s c ty a b d e x y pos len w p n f sgn hr hx hy hpos hlen rfl hp hn hf
    refine ⟨?bfext, ?bfins, ⟨rfl, rfl⟩, rfl, rfl⟩
    case bfext =>
      exact Gives.congr (lane3_next hr hx hpos hlen fun _ x p l acc => (bfextOp sgn ty.width x p l, acc))
        fun l => bfextOp_eq sgn _ _ _ _ (hp l) (hn l) (hf l)
    case bfins =>
      exact Gives.congr (lane4_next hr hx hy hpos hlen fun _ x y p l acc => (bfinsOp ty.width x y p l, acc))
        fun l => bfinsOp_eq _ _ _ _ _ (hp l) (hn l) (hf l)

end Sys2Proof.Machine
end

section
/-! PROOFS. Wide and saturating arithmetic (04 R111, R112; 02 R45). -/
namespace Sys2Proof.Machine

/-- The high half of the product of two readings. -/
theorem onReadings_mulhi (sgn : Bool) (w : Nat) :
    OnReadings w fun x y => ofI w (rRd sgn w x * rRd sgn w y / (2 ^ w : Nat)) :=
  .signed fun p q => (if sgn then signedAs w p else p) * (if sgn then signedAs w q else q) / (2 ^ w : Nat)

theorem intMin_le_intMax (sgn : Bool) (w : Nat) : intMin sgn w ≤ intMax sgn w := by
  have hpos (n : Nat) : (1 : Int) ≤ (2 ^ n : Nat) := Int.ofNat_le.2 Nat.one_le_two_pow
  cases sgn
  · exact Int.sub_nonneg_of_le (hpos w)
  · have hhalf := hpos (w - 1)
    simp only [intMin, intMax, if_true]
    omega

/-- Saturation is clamping to the range of the reading (02 R45). -/
theorem saturate_eq (sgn : Bool) (w : Nat) (i : Int) :
    saturate sgn w i = (max (intMin sgn w) (min (intMax sgn w) i), i < intMin sgn w || intMax sgn w < i) := by
  have hrange := intMin_le_intMax sgn w
  rw [saturate]
  generalize intMin sgn w = lo at hrange ⊢
  generalize intMax sgn w = hi at hrange ⊢
  split
  next hlo => exact Prod.ext (by omega) (by simp [hlo])
  next hlo =>
    split
    next hhi => exact Prod.ext (by omega) (by simp [show hi < i from hhi])
    next hhi => exact Prod.ext (by omega) (by simp [Int.not_lt.1 hlo, Int.not_lt.1 hhi])

theorem Acc.flag_flag (a : Acc) (f : Byte) : (a.flag f).flag f = a.flag f := by
  simp [Acc.flag, BitVec.or_assoc]

/-- Elements that each give a number and may set one flag set it where any of them does (02 R64). -/
theorem foldElems_flag (g : Nat → Nat) (h : Nat → Bool) (f : Byte) (n k : Nat) (a : Acc) :
    foldElems (fun k a => (g k, if h k then a.flag f else a)) n k a =
      ((List.range' k n).map g, if (List.range' k n).any h then a.flag f else a) := by
  induction n generalizing k a with
  | zero => rfl
  | succ n ih =>
    simp only [foldElems, ih, List.range'_succ, List.map_cons, List.any_cons]
    cases h k
    · rfl
    · simp [Acc.flag_flag]

/-- Each element of a saturating sum or difference is the exact value v, clamped; clamping sets SV (04 R112, 02 R45). -/
theorem satElems_eq (sgn sub : Bool) (ty : Ty) (x y : Bits) (acc : Acc) {n w : Nat} (he : (n, w) = elemsOf ty) {v : Nat → Int}
    (hv : ∀ k, v k = (if sgn then signedAs w (elemOf w k x) else elemOf w k x) +
      (if sub then -1 else 1) * (if sgn then signedAs w (elemOf w k y) else elemOf w k y)) :
    satElems sgn sub ty x y acc =
      (BitVec.ofNat 96 (joinElems w ((List.range n).map fun k => (max (intMin sgn w) (min (intMax sgn w) (v k)) % 2 ^ w).toNat)),
       if (List.range n).any fun k => v k < intMin sgn w || intMax sgn w < v k then acc.flag fSV else acc) := by
  have hw : w ≤ 96 := by have := elemsOf_width_le ty; rwa [← he] at this
  have hexact (k : Nat) : (if sub then rRd sgn w (BitVec.ofNat 96 (elemOf w k x)) - rRd sgn w (BitVec.ofNat 96 (elemOf w k y))
      else rRd sgn w (BitVec.ofNat 96 (elemOf w k x)) + rRd sgn w (BitVec.ofNat 96 (elemOf w k y))) = v k := by
    rw [hv, rRd_ofNat sgn hw (elemOf_lt w k x), rRd_ofNat sgn hw (elemOf_lt w k y)]
    cases sub <;> simp only [Bool.false_eq_true, if_true, if_false, Int.one_mul, Int.neg_mul, Int.sub_eq_add_neg]
  simp only [satElems, mapElems, ← he, hexact, saturate_eq, foldElems_flag, ← List.range_eq_range']
  refine congrArg (·, _) (congrArg (BitVec.ofNat 96) (joinElems_map_congr fun k _ => ?_))
  rw [ofI_eq_ofU_toNat, ofU_toNat hw, Nat.mod_mod, natCast_two_pow]

theorem GivesAcc.congr {s : State} {c : Ctx} {i : Instr} {ty : Ty} {z z' : Nat → Bits × Acc} (h : GivesAcc s c i ty z)
    (hz : ∀ l, z l = z' l) : GivesAcc s c i ty z' := funext hz ▸ h

theorem givesAcc_saturating {s : State} {c : Ctx} {ty : Ty} {a b : Opnd} {x y : Nat → Bits} (sgn sub : Bool) (hr : Runs s c)
    (hx : Operand s c ty a x) (hy : Operand s c ty b y) :
    GivesAcc s c (if sub then .subsat sgn ty a b else .addsat sgn ty a b) ty
      fun l => satElems sgn sub ty (x l) (y l) (c.acc l) := by
  cases sub <;> exact lane2_next hr hx hy fun _ x y acc => satElems sgn _ ty x y acc

/-- Settles O4: the products by the readings, the saturating sums element by element with SV set where any is clamped. -/
theorem wideAndSaturatingArithmetic : Obligations.WideAndSaturatingArithmetic := by
  refine ⟨?wide, ?saturating⟩
  case wide =>
    intro s c ty a b d x y z w sgn hr hx hy hz rfl
    refine ⟨fun hI => ?mulhi, ?mad, ⟨rfl, rfl⟩, rfl, rfl⟩
    case mulhi =>
      refine gives_int2 hr hx hy rfl fun _ => (intElems_of_isI hI (onReadings_mulhi sgn _) _ _).trans ?_
      rw [natCast_two_pow]
    case mad =>
      exact lane3_next hr hx hy hz fun _ x y z acc =>
        (ofI (2 * ty.width) (rRd sgn ty.width x * rRd sgn ty.width y + uRd (2 * ty.width) z), acc)
  case saturating =>
    intro s c ty a b x y w n sgn sub v hr hx hy he hv
    refine ⟨(givesAcc_saturating sgn sub hr hx hy).congr fun l => satElems_eq sgn sub ty _ _ _ he (hv l), ?_⟩
    cases sub <;> exact ⟨rfl, rfl⟩

end Sys2Proof.Machine
end

section
/-! PROOFS. Expert lookups (21 R454). -/
namespace Sys2Proof.Machine

/-- The present replicas, read index by index: an index beyond the row has none, so any bound m that covers the row serves. -/
theorem presentIn_eq_filterMap_range {row : List (Option Nat)} {m : Nat} (hm : row.length ≤ m) :
    presentIn row = (List.range m).filterMap fun n => (row.getD n none).map (n, ·) := by
  have hrow : row.zipIdx = (List.range row.length).map fun n => (row.getD n none, n) :=
    List.ext_getElem (by simp) fun n hn _ => by simp [List.getElem?_eq_getElem (List.length_zipIdx ▸ hn)]
  obtain ⟨j, rfl⟩ := Nat.exists_eq_add_of_le hm
  calc presentIn row
      = (List.range row.length).filterMap fun n => (row.getD n none).map (n, ·) := by
        rw [presentIn, hrow, List.filterMap_map]; rfl
    _ = (List.range (row.length + j)).filterMap fun n => (row.getD n none).map (n, ·) := by
        simp [List.range_add]

theorem map_fst_presentIn {row : List (Option Nat)} {m : Nat} (hm : row.length ≤ m) :
    (presentIn row).map Prod.fst = (List.range m).filter fun n => (row.getD n none).isSome := by
  rw [presentIn_eq_filterMap_range hm, List.map_filterMap, ← List.filterMap_eq_filter]
  refine congrArg (List.filterMap · _) (funext fun n => ?_)
  cases hn : row.getD n none <;> simp only [Option.guard, hn] <;> rfl

theorem mem_presentIn {row : List (Option Nat)} {n slot : Nat} :
    (n, slot) ∈ presentIn row ↔ row.getD n none = some slot := by
  have hget : (n, slot) ∈ presentIn row ↔ row[n]? = some (some slot) := by
    simp [presentIn, List.mem_zipIdx_iff_getElem?]
  rw [hget, List.getD_eq_getElem?_getD]
  cases row[n]? <;> simp

/-- The place k of the present replicas holds the k-th present index and that replica's slot. -/
theorem presentIn_getElem? {row : List (Option Nat)} {m k n slot : Nat} (hm : row.length ≤ m)
    (hn : ((List.range m).filter fun n => (row.getD n none).isSome)[k]? = some n) (hslot : row.getD n none = some slot) :
    (presentIn row)[k]? = some (n, slot) := by
  rw [← map_fst_presentIn hm, List.getElem?_map, Option.map_eq_some_iff] at hn
  obtain ⟨⟨n', slot'⟩, hget, rfl⟩ := hn
  have hslot' := mem_presentIn.mp (List.mem_of_getElem? hget)
  rw [hget, Option.some_inj.mp (hslot'.symm.trans hslot)]

/-- The answer of a lookup that meets replica n: its slot, its index and the version, each in its field. -/
theorem toNat_lookupIn {bank : List (List (Option Nat))} {v e h n slot : Nat}
    (hget : (presentIn (entryOf bank e))[h % 2 ^ 32 * (presentIn (entryOf bank e)).length / 2 ^ 32]? = some (n, slot))
    (hslot : slot < 2 ^ 16) (hn : n < 2 ^ 16) (hv : v < 2 ^ 32) :
    (lookupIn bank v e h).toNat = slot + n * 2 ^ 16 + v * 2 ^ 32 := by
  simp only [lookupIn, hget, BitVec.toNat_ofNat, Nat.mod_eq_of_lt hslot, Nat.mod_eq_of_lt hv]
  omega

/-- The index floor(u(h) × count / 2^32) names a replica whenever there is one. -/
theorem scaledHash_lt {h count : Nat} (hcount : 0 < count) : h % 2 ^ 32 * count / 2 ^ 32 < count :=
  Nat.div_lt_of_lt_mul (Nat.mul_lt_mul_of_pos_right (Nat.mod_lt h (by decide)) hcount)

/-- Settles O35: the model's pairs of index and slot, read by their indices, are the statement's ascending list. -/
theorem expertLookups : Obligations.ExpertLookups := by
  rintro bank e h v list k hlist hrow rfl hv
  refine ⟨fun hne => scaledHash_lt (List.length_pos_iff.mpr hne), fun n slot hn hslot hslot_lt => ?_⟩
  have hfst : (presentIn (entryOf bank e)).map Prod.fst = list := (map_fst_presentIn hrow).trans hlist.symm
  have hlen : (presentIn (entryOf bank e)).length = list.length := by rw [← hfst, List.length_map]
  have hn_lt : n < 8 := by
    have hmem := List.mem_of_getElem? hn
    rw [hlist] at hmem
    exact List.mem_range.mp (List.mem_filter.mp hmem).1
  refine toNat_lookupIn ?_ hslot_lt (by omega) hv
  rw [hlen]
  exact presentIn_getElem? hrow (hlist ▸ hn) hslot

end Sys2Proof.Machine
end
